-- ==== Sys2Proof/Word.lean ====
section
/-! DEFINITION. The word types of the machine and the enumeration of CPU numbers (R7, R9, R20, R21). -/

namespace Sys2Proof

/-- A 32-bit register value, address or instruction word: XLEN = 32 (R7). -/
abbrev Word := BitVec 32

/-- One byte of the address space (R100). -/
abbrev Byte := BitVec 8

/-- A general-register number, the 5-bit field `rd`, `rs1` or `rs2` (R21, R142). -/
abbrev Reg := BitVec 5

/-- A 12-bit CSR number (R30). -/
abbrev CsrNum := BitVec 12

/-- A CPU number: 0 is the CePU, 1 to 31 are CoPUs (R20; at most 32 CPUs, R8). -/
abbrev CpuId := Fin 32

/-- All CPU numbers in rising order. -/
def cpuIds : List CpuId :=
  [0, 1, 2, 3, 4, 5, 6, 7, 8, 9, 10, 11, 12, 13, 14, 15,
   16, 17, 18, 19, 20, 21, 22, 23, 24, 25, 26, 27, 28, 29, 30, 31]

end Sys2Proof
end

