-- ==== Sys2Proof/Config.lean ====
section
/-! DEFINITION. The parameters R8 leaves to synthesis time and to the platform, as one plain-data record that
State carries (so every statement about every state holds for every admitted configuration); the record
State.reset uses; and the free values, opaque constants that nothing in Lean can evaluate. -/

namespace Sys2Proof

/-- The capability level of a CPU (R328): all modes up to the level are supported. -/
inductive Capability where
  | linked      -- capability 1: Modes 0 and 1, no instruction fetch unit
  | unlinked    -- capability 2: Modes 0, 1 and 2
  | autonomous  -- capability 3: all modes; the CePU's level
deriving DecidableEq, Repr

/-- A range of byte addresses: `base` to `base + size - 1`. -/
structure Region where
  base : Nat
  size : Nat
deriving DecidableEq, Repr

/-- Does a region hold an address? -/
def Region.contains (r : Region) (a : Nat) : Bool :=
  decide (r.base ≤ a) && decide (a < r.base + r.size)

/-- COPU_EXC_GATE (R353, U10): what holds a cause-16 trap off. -/
inductive ExcGate where
  | inTrap  -- taken only while no trap is being handled
  | mie     -- taken only while mstatus.MIE is set
deriving DecidableEq, Repr

/-- COPU_RESUME_PC (R354, D22): where a CoPU goes on after its exception was handled. -/
inductive ResumePc where
  | next  -- at xepc + 4, the default
  | same  -- at xepc
deriving DecidableEq, Repr

/-- PN_FUNCT3_HALT, PN_FUNCT3_CINV, PN_FUNCT3_CWB, PN_FUNCT3_CFLUSH (R153, D9). -/
structure PnFunct3 where
  halt   : BitVec 3
  cinv   : BitVec 3
  cwb    : BitVec 3
  cflush : BitVec 3
deriving DecidableEq, Repr

/-- CSR_ADDR_pngrpsel to CSR_ADDR_pnmemsize (R60, D10). -/
structure PnCsrNums where
  grpsel    : CsrNum
  ce        : CsrNum
  lm        : CsrNum
  xsel      : CsrNum
  cache     : CsrNum
  cpus      : CsrNum
  m2cp      : CsrNum
  x         : CsrNum
  cause     : CsrNum
  epc       : CsrNum
  cacheinfo : CsrNum
  cachesets : CsrNum
  clockinfo : CsrNum
  memsize   : CsrNum
deriving DecidableEq, Repr

/-- The fourteen ParaNut CSR numbers in the order of R60. -/
def PnCsrNums.toList (n : PnCsrNums) : List CsrNum :=
  [n.grpsel, n.ce, n.lm, n.xsel, n.cache, n.cpus, n.m2cp, n.x, n.cause, n.epc,
   n.cacheinfo, n.cachesets, n.clockinfo, n.memsize]

/-- The parameters of R8 and of the head of 92_eei_decisions.md. -/
structure Config where
  /-- NUM_CPUS, the CePU included. -/
  numCpus : Nat
  /-- CAP[c]; the entries of CPUs that do not exist mean nothing. -/
  caps : Vector Capability 32
  /-- RESET_VECTOR (D3). -/
  resetVector : Word
  /-- MEM_BASE (D4). -/
  memBase : Nat
  /-- How many bytes of main memory the platform has from MEM_BASE (D4). -/
  memBytes : Nat
  /-- UNCACHED_REGIONS (R110, D4). -/
  uncached : List Region
  /-- MEM_SIZE as `pnmemsize` shows it; its unit is not stated (R74, N15). -/
  memSizeReg : Word
  /-- CLOCK_HZ (R73). -/
  clockHz : Word
  /-- Bit 23 (X) of MISA_EXT, the one open bit of `misa` (R36, D14). -/
  misaX : Bool
  /-- MIMPID[27:0]; MIMPID[31:28] is 0x2 (R33). -/
  mimpidLow : BitVec 28
  /-- PERFCOUNT_ENABLE (R50). -/
  perfEnable : Bool
  /-- PERFCOUNTERS, 8 to 32 (R52). -/
  perfCounters : Nat
  /-- PERFCOUNTER_BITS, 33 to 64 (R51). -/
  perfBits : Nat
  /-- CACHE_WAYS: 1, 2 or 4. -/
  cacheWays : Nat
  /-- CACHE_REPLACE_LRU. -/
  cacheReplaceLru : Bool
  /-- CACHE_BANKS. -/
  cacheBanks : Nat
  /-- CACHE_ARBITER, a signed number. -/
  cacheArbiter : Int
  /-- PNCACHEINFO, the assembled word, "the constant parameter" of R71: where in it the four values above stand is
  lost, and nothing else shows them (U28, log 32). -/
  pncacheinfo : Word
  /-- CACHE_SETS (R72). -/
  cacheSets : Word
  /-- log2 of CACHE_LINE_BYTES, which is a power of two of at least 4 (R120, D31). -/
  lineBits : Nat
  /-- PNCACHE_IEN_BIT (R65). -/
  ienBit : Fin 32
  /-- PNCACHE_DEN_BIT (R65). -/
  denBit : Fin 32
  /-- PN_FUNCT3_* (R153). -/
  funct3 : PnFunct3
  /-- CSR_ADDR_pn* (R60). -/
  csrNums : PnCsrNums
  /-- MTVAL_ILLEGAL is the instruction word (true) or zero (false) (R334). -/
  mtvalIllegalWord : Bool
  /-- MTVAL_EBREAK is the EBREAK's address (true) or zero (false) (R334). -/
  mtvalEbreakAddr : Bool
  /-- COPU_EXC_GATE (R353). -/
  excGate : ExcGate
  /-- COPU_RESUME_PC (R354). -/
  resumePc : ResumePc
deriving DecidableEq, Repr

/-- CACHE_LINE_BYTES (R120). -/
def Config.lineBytes (c : Config) : Nat := 2 ^ c.lineBits

/-- CAP[i] (R8). -/
def Config.cap (c : Config) (i : CpuId) : Capability := c.caps.get i

/-! ### Open constants of the implementation, of which the reset configuration knows no value -/

/-- MIMPID[27:0]: "TBD" in the manual (R33, U3). -/
opaque Open.mimpidLow : BitVec 28
/-- Whether the X bit of `misa` is set (R36, D14). -/
opaque Open.misaX : Bool
/-- CLOCK_HZ (R73). -/
opaque Open.clockHz : Word
/-- What `pnmemsize` shows (R74, N15). -/
opaque Open.memSizeReg : Word
/-- CACHE_REPLACE_LRU (R71). -/
opaque Open.cacheReplaceLru : Bool
/-- CACHE_BANKS (R71). -/
opaque Open.cacheBanks : Nat
/-- CACHE_ARBITER (R71). -/
opaque Open.cacheArbiter : Int
/-- PNCACHEINFO (R71). -/
opaque Open.pncacheinfo : Word
/-- CACHE_SETS (R72). -/
opaque Open.cacheSets : Word
/-- MTVAL_ILLEGAL, which "a model must not fix" (R334). -/
opaque Open.mtvalIllegalWord : Bool
/-- MTVAL_EBREAK (R334). -/
opaque Open.mtvalEbreakAddr : Bool

/-- The parameter values State.reset starts with. DESIGN CHOICE (log 1): the manual gives none of them; those
with no bearing on which instruction runs next are left open. -/
def Config.default : Config where
  numCpus := 4
  caps := (((Vector.replicate 32 .linked).set 0 .autonomous).set 1 .unlinked).set 2 .unlinked
  resetVector := 0
  memBase := 0
  memBytes := 2 ^ 32
  uncached := []
  memSizeReg := Open.memSizeReg
  clockHz := Open.clockHz
  misaX := Open.misaX
  mimpidLow := Open.mimpidLow
  perfEnable := true
  perfCounters := 8
  perfBits := 64
  cacheWays := 1
  cacheReplaceLru := Open.cacheReplaceLru
  cacheBanks := Open.cacheBanks
  cacheArbiter := Open.cacheArbiter
  pncacheinfo := Open.pncacheinfo
  cacheSets := Open.cacheSets
  lineBits := 4
  ienBit := 1
  denBit := 0
  funct3 := ⟨0, 1, 2, 3⟩
  csrNums := ⟨0x8C0, 0x8C1, 0x8C2, 0x8C3, 0x8C4, 0xCD0, 0xCD1, 0xCD2, 0xCD3, 0xCD4, 0xCD5, 0xCD6, 0xCD7, 0xCD8⟩
  mtvalIllegalWord := Open.mtvalIllegalWord
  mtvalEbreakAddr := Open.mtvalEbreakAddr
  excGate := .inTrap
  resumePc := .next

/-! ### Free values: the n-th value the machine draws, where the manual leaves a value unspecified -/

/-- An unspecified 32-bit value (R69, R70, R79, U2, U6, U8, U15). -/
opaque Free.word : Nat → Word
/-- An unspecified bit (U14, log 14). -/
opaque Free.bit : Nat → Bool
/-- By how much `mcycle` has advanced since it was last read or written (R50, U17). -/
opaque Free.cycles : Nat → BitVec 64
/-- The byte a device answers with at an address in the n-th access that reads a device (R110, R371). -/
opaque Free.device : Nat → Nat → Byte

end Sys2Proof
end

