-- ==== Sys2Proof/Syntax.lean ====
section
/-! DEFINITION. The instructions: one constructor for each row of spec/opcode_table.json, in the table's order, with
every field its encoding has (R141, R144). -/

namespace Sys2Proof

/-- The 52 instructions. Immediates are kept at the width the encoding produces before extension: 12 bits
(I, S), 13 bits with bit 0 clear (B), 20 bits (U, the value placed in bits 31:12), 21 bits with bit 0 clear (J). -/
inductive Instr where
  -- OP-IMM and the U-type instructions (R146, R148)
  | addi (rd rs1 : Reg) (imm : BitVec 12)
  | slti (rd rs1 : Reg) (imm : BitVec 12)
  | sltiu (rd rs1 : Reg) (imm : BitVec 12)
  | andi (rd rs1 : Reg) (imm : BitVec 12)
  | ori (rd rs1 : Reg) (imm : BitVec 12)
  | xori (rd rs1 : Reg) (imm : BitVec 12)
  | slli (rd rs1 : Reg) (shamt : BitVec 5)
  | srli (rd rs1 : Reg) (shamt : BitVec 5)
  | srai (rd rs1 : Reg) (shamt : BitVec 5)
  | lui (rd : Reg) (imm : BitVec 20)
  | auipc (rd : Reg) (imm : BitVec 20)
  -- OP (R147)
  | add (rd rs1 rs2 : Reg)
  | sub (rd rs1 rs2 : Reg)
  | slt (rd rs1 rs2 : Reg)
  | sltu (rd rs1 rs2 : Reg)
  | and (rd rs1 rs2 : Reg)
  | or (rd rs1 rs2 : Reg)
  | xor (rd rs1 rs2 : Reg)
  | sll (rd rs1 rs2 : Reg)
  | srl (rd rs1 rs2 : Reg)
  | sra (rd rs1 rs2 : Reg)
  -- control transfer (R148, R149)
  | jal (rd : Reg) (offset : BitVec 21)
  | jalr (rd rs1 : Reg) (imm : BitVec 12)
  | beq (rs1 rs2 : Reg) (offset : BitVec 13)
  | bne (rs1 rs2 : Reg) (offset : BitVec 13)
  | blt (rs1 rs2 : Reg) (offset : BitVec 13)
  | bge (rs1 rs2 : Reg) (offset : BitVec 13)
  | bltu (rs1 rs2 : Reg) (offset : BitVec 13)
  | bgeu (rs1 rs2 : Reg) (offset : BitVec 13)
  -- loads and stores (R150)
  | lb (rd rs1 : Reg) (imm : BitVec 12)
  | lh (rd rs1 : Reg) (imm : BitVec 12)
  | lw (rd rs1 : Reg) (imm : BitVec 12)
  | lbu (rd rs1 : Reg) (imm : BitVec 12)
  | lhu (rd rs1 : Reg) (imm : BitVec 12)
  | sb (rs2 rs1 : Reg) (imm : BitVec 12)
  | sh (rs2 rs1 : Reg) (imm : BitVec 12)
  | sw (rs2 rs1 : Reg) (imm : BitVec 12)
  -- MISC-MEM (R151): every field is kept, none selects anything
  | fence (fm pred succ : BitVec 4) (rs1 rd : Reg)
  | fenceI (imm : BitVec 12) (rs1 rd : Reg)
  -- SYSTEM (R152)
  | csrrw (rd : Reg) (csr : CsrNum) (rs1 : Reg)
  | csrrs (rd : Reg) (csr : CsrNum) (rs1 : Reg)
  | csrrc (rd : Reg) (csr : CsrNum) (rs1 : Reg)
  | csrrwi (rd : Reg) (csr : CsrNum) (uimm : BitVec 5)
  | csrrsi (rd : Reg) (csr : CsrNum) (uimm : BitVec 5)
  | csrrci (rd : Reg) (csr : CsrNum) (uimm : BitVec 5)
  | ecall
  | ebreak
  | mret
  -- CUSTOM-0 (R153)
  | halt
  | cinv (base : Reg) (offset : BitVec 12)
  | cwb (base : Reg) (offset : BitVec 12)
  | cflush (base : Reg) (offset : BitVec 12)
deriving DecidableEq, Repr

end Sys2Proof
end

