-- ==== Sys2Proof/WellFormed.lean ====
section
/-! DEFINITION. Which instructions and which configurations are well formed. -/

namespace Sys2Proof

/-- An instruction the encoding can hold: branch and jump offsets are multiples of two (R143). Every other field
is as wide as its place in the word. -/
def Instr.wf : Instr → Bool
  | .jal _ off => off.getLsbD 0 == false
  | .beq _ _ off | .bne _ _ off | .blt _ _ off | .bge _ _ off | .bltu _ _ off | .bgeu _ _ off =>
    off.getLsbD 0 == false
  | .addi .. | .slti .. | .sltiu .. | .andi .. | .ori .. | .xori .. | .slli .. | .srli .. | .srai ..
  | .lui .. | .auipc .. | .add .. | .sub .. | .slt .. | .sltu .. | .and .. | .or .. | .xor ..
  | .sll .. | .srl .. | .sra .. | .jalr .. | .lb .. | .lh .. | .lw .. | .lbu .. | .lhu ..
  | .sb .. | .sh .. | .sw .. | .fence .. | .fenceI .. | .csrrw .. | .csrrs .. | .csrrc ..
  | .csrrwi .. | .csrrsi .. | .csrrci .. | .ecall | .ebreak | .mret | .halt
  | .cinv .. | .cwb .. | .cflush .. => true

/-- A CSR number of the manual's Table 3.3 (R31 to R58). -/
def tableCsr (n : CsrNum) : Bool :=
  let v := n.toNat
  [0xF11, 0xF12, 0xF13, 0xF14, 0x300, 0x301, 0x304, 0x305, 0x340, 0x341, 0x342, 0x343, 0x344,
   0xF01, 0xF02, 0xF03, 0xF04].contains v
  || (decide (0xB00 ≤ v) && decide (v < 0xB20) && v != 0xB01)
  || (decide (0xB80 ≤ v) && decide (v < 0xBA0) && v != 0xB81)
  || (decide (0x323 ≤ v) && decide (v < 0x340))

/-- An admitted configuration (R8 and the parameter summary of 92_eei_decisions.md). Main memory may begin and end
anywhere, also within a cache line; that a line is at most 2^32 bytes long is the model's choice (log 42). -/
structure Config.Wf (c : Config) : Prop where
  cpus : 1 ≤ c.numCpus ∧ c.numCpus ≤ 32
  cepu : c.cap 0 = .autonomous
  copus : ∀ i : CpuId, i ≠ 0 → c.cap i ≠ .autonomous
  resetAligned : c.resetVector.extractLsb' 0 2 = 0
  line : 2 ≤ c.lineBits ∧ c.lineBits ≤ 32
  memFits : c.memBase + c.memBytes ≤ 2 ^ 32
  perfCounters : 8 ≤ c.perfCounters ∧ c.perfCounters ≤ 32
  perfBits : 33 ≤ c.perfBits ∧ c.perfBits ≤ 64
  cacheWays : c.cacheWays = 1 ∨ c.cacheWays = 2 ∨ c.cacheWays = 4
  cacheBits : c.ienBit ≠ c.denBit
  funct3 : [c.funct3.halt, c.funct3.cinv, c.funct3.cwb, c.funct3.cflush].Nodup
  csrDistinct : c.csrNums.toList.Nodup
  csrOutside : ∀ n ∈ c.csrNums.toList, tableCsr n = false

end Sys2Proof
end

