-- ==== Sys2Proof/Decode.lean ====
section
/-! DEFINITION. Decoding (R140 to R156, R160) and encoding of the 32-bit instruction words. The numeric codes are
those of R145 to R153. -/

namespace Sys2Proof

/-! ### Fields of an instruction word (R141, R142) -/

def opcodeOf (w : Word) : BitVec 7 := w.extractLsb' 0 7
def rdOf (w : Word) : Reg := w.extractLsb' 7 5
def funct3Of (w : Word) : BitVec 3 := w.extractLsb' 12 3
def rs1Of (w : Word) : Reg := w.extractLsb' 15 5
def rs2Of (w : Word) : Reg := w.extractLsb' 20 5
def funct7Of (w : Word) : BitVec 7 := w.extractLsb' 25 7

/-- inst[31:20]: the I-immediate, a CSR number, or funct12 (R141, R144). -/
def immI (w : Word) : BitVec 12 := w.extractLsb' 20 12

/-- The 12 bits the S-immediate extends (R143). -/
def immS (w : Word) : BitVec 12 := w.extractLsb' 25 7 ++ w.extractLsb' 7 5

/-- The 13 bits the B-immediate extends (R143). -/
def immB (w : Word) : BitVec 13 :=
  w.extractLsb' 31 1 ++ w.extractLsb' 7 1 ++ w.extractLsb' 25 6 ++ w.extractLsb' 8 4 ++ 0#1

/-- inst[31:12] (R143). -/
def immU (w : Word) : BitVec 20 := w.extractLsb' 12 20

/-- The 21 bits the J-immediate extends (R143). -/
def immJ (w : Word) : BitVec 21 :=
  w.extractLsb' 31 1 ++ w.extractLsb' 12 8 ++ w.extractLsb' 20 1 ++ w.extractLsb' 21 10 ++ 0#1

/-! ### Decoding -/

/-- Why a word is no instruction. -/
inductive DecodeError where
  /-- The word raises Illegal instruction when executed (R160 (a) to (c)). -/
  | illegal
  /-- A CUSTOM-0 word that is none of the four ParaNut instructions: reserved, no behaviour (R160 (d), U11). -/
  | reservedCustom0
  /-- Fewer than the four bytes an instruction has (R140). -/
  | truncated
deriving DecidableEq, Repr

/-- OP-IMM (R146). -/
def decodeOpImm (w : Word) : Except DecodeError Instr :=
  if funct3Of w = 0 then .ok (.addi (rdOf w) (rs1Of w) (immI w))
  else if funct3Of w = 2 then .ok (.slti (rdOf w) (rs1Of w) (immI w))
  else if funct3Of w = 3 then .ok (.sltiu (rdOf w) (rs1Of w) (immI w))
  else if funct3Of w = 4 then .ok (.xori (rdOf w) (rs1Of w) (immI w))
  else if funct3Of w = 6 then .ok (.ori (rdOf w) (rs1Of w) (immI w))
  else if funct3Of w = 7 then .ok (.andi (rdOf w) (rs1Of w) (immI w))
  else if funct3Of w = 1 then
    if funct7Of w = 0 then .ok (.slli (rdOf w) (rs1Of w) (rs2Of w)) else .error .illegal
  else if funct7Of w = 0 then .ok (.srli (rdOf w) (rs1Of w) (rs2Of w))
  else if funct7Of w = 0x20 then .ok (.srai (rdOf w) (rs1Of w) (rs2Of w))
  else .error .illegal

/-- OP (R147). -/
def decodeOp (w : Word) : Except DecodeError Instr :=
  if funct7Of w = 0 then
    if funct3Of w = 0 then .ok (.add (rdOf w) (rs1Of w) (rs2Of w))
    else if funct3Of w = 1 then .ok (.sll (rdOf w) (rs1Of w) (rs2Of w))
    else if funct3Of w = 2 then .ok (.slt (rdOf w) (rs1Of w) (rs2Of w))
    else if funct3Of w = 3 then .ok (.sltu (rdOf w) (rs1Of w) (rs2Of w))
    else if funct3Of w = 4 then .ok (.xor (rdOf w) (rs1Of w) (rs2Of w))
    else if funct3Of w = 5 then .ok (.srl (rdOf w) (rs1Of w) (rs2Of w))
    else if funct3Of w = 6 then .ok (.or (rdOf w) (rs1Of w) (rs2Of w))
    else .ok (.and (rdOf w) (rs1Of w) (rs2Of w))
  else if funct7Of w = 0x20 then
    if funct3Of w = 0 then .ok (.sub (rdOf w) (rs1Of w) (rs2Of w))
    else if funct3Of w = 5 then .ok (.sra (rdOf w) (rs1Of w) (rs2Of w))
    else .error .illegal
  else .error .illegal

/-- BRANCH (R149). -/
def decodeBranch (w : Word) : Except DecodeError Instr :=
  if funct3Of w = 0 then .ok (.beq (rs1Of w) (rs2Of w) (immB w))
  else if funct3Of w = 1 then .ok (.bne (rs1Of w) (rs2Of w) (immB w))
  else if funct3Of w = 4 then .ok (.blt (rs1Of w) (rs2Of w) (immB w))
  else if funct3Of w = 5 then .ok (.bge (rs1Of w) (rs2Of w) (immB w))
  else if funct3Of w = 6 then .ok (.bltu (rs1Of w) (rs2Of w) (immB w))
  else if funct3Of w = 7 then .ok (.bgeu (rs1Of w) (rs2Of w) (immB w))
  else .error .illegal

/-- LOAD (R150). -/
def decodeLoad (w : Word) : Except DecodeError Instr :=
  if funct3Of w = 0 then .ok (.lb (rdOf w) (rs1Of w) (immI w))
  else if funct3Of w = 1 then .ok (.lh (rdOf w) (rs1Of w) (immI w))
  else if funct3Of w = 2 then .ok (.lw (rdOf w) (rs1Of w) (immI w))
  else if funct3Of w = 4 then .ok (.lbu (rdOf w) (rs1Of w) (immI w))
  else if funct3Of w = 5 then .ok (.lhu (rdOf w) (rs1Of w) (immI w))
  else .error .illegal

/-- STORE (R150). -/
def decodeStore (w : Word) : Except DecodeError Instr :=
  if funct3Of w = 0 then .ok (.sb (rs2Of w) (rs1Of w) (immS w))
  else if funct3Of w = 1 then .ok (.sh (rs2Of w) (rs1Of w) (immS w))
  else if funct3Of w = 2 then .ok (.sw (rs2Of w) (rs1Of w) (immS w))
  else .error .illegal

/-- MISC-MEM: no field but funct3 is looked at (R151). -/
def decodeMiscMem (w : Word) : Except DecodeError Instr :=
  if funct3Of w = 0 then
    .ok (.fence (w.extractLsb' 28 4) (w.extractLsb' 24 4) (w.extractLsb' 20 4) (rs1Of w) (rdOf w))
  else if funct3Of w = 1 then .ok (.fenceI (immI w) (rs1Of w) (rdOf w))
  else .error .illegal

/-- SYSTEM (R152). -/
def decodeSystem (w : Word) : Except DecodeError Instr :=
  if funct3Of w = 1 then .ok (.csrrw (rdOf w) (immI w) (rs1Of w))
  else if funct3Of w = 2 then .ok (.csrrs (rdOf w) (immI w) (rs1Of w))
  else if funct3Of w = 3 then .ok (.csrrc (rdOf w) (immI w) (rs1Of w))
  else if funct3Of w = 5 then .ok (.csrrwi (rdOf w) (immI w) (rs1Of w))
  else if funct3Of w = 6 then .ok (.csrrsi (rdOf w) (immI w) (rs1Of w))
  else if funct3Of w = 7 then .ok (.csrrci (rdOf w) (immI w) (rs1Of w))
  else if funct3Of w = 0 ∧ rs1Of w = 0 ∧ rdOf w = 0 then
    if immI w = 0x000 then .ok .ecall
    else if immI w = 0x001 then .ok .ebreak
    else if immI w = 0x302 then .ok .mret
    else .error .illegal
  else .error .illegal

/-- CUSTOM-0 (R153): the funct3 codes are parameters. -/
def decodeCustom0 (cfg : Config) (w : Word) : Except DecodeError Instr :=
  if rdOf w = 0 then
    if funct3Of w = cfg.funct3.halt then
      if rs1Of w = 0 ∧ immI w = 0 then .ok .halt else .error .reservedCustom0
    else if funct3Of w = cfg.funct3.cinv then .ok (.cinv (rs1Of w) (immI w))
    else if funct3Of w = cfg.funct3.cwb then .ok (.cwb (rs1Of w) (immI w))
    else if funct3Of w = cfg.funct3.cflush then .ok (.cflush (rs1Of w) (immI w))
    else .error .reservedCustom0
  else .error .reservedCustom0

/-- The decoding procedure (R156): the major opcode first (R145), then the function fields. -/
def decode (cfg : Config) (w : Word) : Except DecodeError Instr :=
  if opcodeOf w = 0x13 then decodeOpImm w
  else if opcodeOf w = 0x33 then decodeOp w
  else if opcodeOf w = 0x37 then .ok (.lui (rdOf w) (immU w))
  else if opcodeOf w = 0x17 then .ok (.auipc (rdOf w) (immU w))
  else if opcodeOf w = 0x6F then .ok (.jal (rdOf w) (immJ w))
  else if opcodeOf w = 0x67 then
    if funct3Of w = 0 then .ok (.jalr (rdOf w) (rs1Of w) (immI w)) else .error .illegal
  else if opcodeOf w = 0x63 then decodeBranch w
  else if opcodeOf w = 0x03 then decodeLoad w
  else if opcodeOf w = 0x23 then decodeStore w
  else if opcodeOf w = 0x0F then decodeMiscMem w
  else if opcodeOf w = 0x73 then decodeSystem w
  else if opcodeOf w = 0x0B then decodeCustom0 cfg w
  else .error .illegal

/-- Four bytes in address order as one word: little-endian (R102, R103). -/
def wordOfBytes (b0 b1 b2 b3 : Byte) : Word := b3 ++ b2 ++ b1 ++ b0

/-- Byte i of a word, i = 0 being the least significant (R102). -/
def byteOf (w : Word) (i : Nat) : Byte := w.extractLsb' (8 * i) 8

/-- Decoding of the bytes at an address: the instruction and the bytes after it (R140). -/
def decodeBytes (cfg : Config) : List Byte → Except DecodeError (Instr × List Byte)
  | b0 :: b1 :: b2 :: b3 :: rest =>
    match decode cfg (wordOfBytes b0 b1 b2 b3) with
    | .ok i => .ok (i, rest)
    | .error e => .error e
  | [] | [_] | [_, _] | [_, _, _] => .error .truncated

/-- The instruction the decoder reads from an opcode-table word, in the reset configuration. Every row of the
table has 32 bits, which are stored low byte first. -/
def decodeTableWord (_nbits w : Nat) : Option Instr :=
  let v := BitVec.ofNat 32 w
  match decodeBytes Config.default [byteOf v 0, byteOf v 1, byteOf v 2, byteOf v 3] with
  | .ok (i, _) => some i
  | .error _ => none

/-! ### Encoding (R141 to R153) -/

def encodeR (f7 : BitVec 7) (rs2 rs1 : Reg) (f3 : BitVec 3) (rd : Reg) (op : BitVec 7) : Word :=
  f7 ++ rs2 ++ rs1 ++ f3 ++ rd ++ op

def encodeI (imm : BitVec 12) (rs1 : Reg) (f3 : BitVec 3) (rd : Reg) (op : BitVec 7) : Word :=
  imm ++ rs1 ++ f3 ++ rd ++ op

def encodeS (imm : BitVec 12) (rs2 rs1 : Reg) (f3 : BitVec 3) (op : BitVec 7) : Word :=
  encodeR (imm.extractLsb' 5 7) rs2 rs1 f3 (imm.extractLsb' 0 5) op

def encodeB (imm : BitVec 13) (rs2 rs1 : Reg) (f3 : BitVec 3) (op : BitVec 7) : Word :=
  encodeR (imm.extractLsb' 12 1 ++ imm.extractLsb' 5 6) rs2 rs1 f3
    (imm.extractLsb' 1 4 ++ imm.extractLsb' 11 1) op

def encodeU (imm : BitVec 20) (rd : Reg) (op : BitVec 7) : Word := imm ++ rd ++ op

def encodeJ (imm : BitVec 21) (rd : Reg) (op : BitVec 7) : Word :=
  encodeU (imm.extractLsb' 20 1 ++ imm.extractLsb' 1 10 ++ imm.extractLsb' 11 1 ++ imm.extractLsb' 12 8) rd op

/-- The word of an instruction. -/
def encode (cfg : Config) : Instr → Word
  | .addi rd rs1 imm => encodeI imm rs1 0 rd 0x13
  | .slti rd rs1 imm => encodeI imm rs1 2 rd 0x13
  | .sltiu rd rs1 imm => encodeI imm rs1 3 rd 0x13
  | .andi rd rs1 imm => encodeI imm rs1 7 rd 0x13
  | .ori rd rs1 imm => encodeI imm rs1 6 rd 0x13
  | .xori rd rs1 imm => encodeI imm rs1 4 rd 0x13
  | .slli rd rs1 sh => encodeR 0 sh rs1 1 rd 0x13
  | .srli rd rs1 sh => encodeR 0 sh rs1 5 rd 0x13
  | .srai rd rs1 sh => encodeR 0x20 sh rs1 5 rd 0x13
  | .lui rd imm => encodeU imm rd 0x37
  | .auipc rd imm => encodeU imm rd 0x17
  | .add rd rs1 rs2 => encodeR 0 rs2 rs1 0 rd 0x33
  | .sub rd rs1 rs2 => encodeR 0x20 rs2 rs1 0 rd 0x33
  | .slt rd rs1 rs2 => encodeR 0 rs2 rs1 2 rd 0x33
  | .sltu rd rs1 rs2 => encodeR 0 rs2 rs1 3 rd 0x33
  | .and rd rs1 rs2 => encodeR 0 rs2 rs1 7 rd 0x33
  | .or rd rs1 rs2 => encodeR 0 rs2 rs1 6 rd 0x33
  | .xor rd rs1 rs2 => encodeR 0 rs2 rs1 4 rd 0x33
  | .sll rd rs1 rs2 => encodeR 0 rs2 rs1 1 rd 0x33
  | .srl rd rs1 rs2 => encodeR 0 rs2 rs1 5 rd 0x33
  | .sra rd rs1 rs2 => encodeR 0x20 rs2 rs1 5 rd 0x33
  | .jal rd off => encodeJ off rd 0x6F
  | .jalr rd rs1 imm => encodeI imm rs1 0 rd 0x67
  | .beq rs1 rs2 off => encodeB off rs2 rs1 0 0x63
  | .bne rs1 rs2 off => encodeB off rs2 rs1 1 0x63
  | .blt rs1 rs2 off => encodeB off rs2 rs1 4 0x63
  | .bge rs1 rs2 off => encodeB off rs2 rs1 5 0x63
  | .bltu rs1 rs2 off => encodeB off rs2 rs1 6 0x63
  | .bgeu rs1 rs2 off => encodeB off rs2 rs1 7 0x63
  | .lb rd rs1 imm => encodeI imm rs1 0 rd 0x03
  | .lh rd rs1 imm => encodeI imm rs1 1 rd 0x03
  | .lw rd rs1 imm => encodeI imm rs1 2 rd 0x03
  | .lbu rd rs1 imm => encodeI imm rs1 4 rd 0x03
  | .lhu rd rs1 imm => encodeI imm rs1 5 rd 0x03
  | .sb rs2 rs1 imm => encodeS imm rs2 rs1 0 0x23
  | .sh rs2 rs1 imm => encodeS imm rs2 rs1 1 0x23
  | .sw rs2 rs1 imm => encodeS imm rs2 rs1 2 0x23
  | .fence fm pred succ rs1 rd => encodeI (fm ++ pred ++ succ) rs1 0 rd 0x0F
  | .fenceI imm rs1 rd => encodeI imm rs1 1 rd 0x0F
  | .csrrw rd csr rs1 => encodeI csr rs1 1 rd 0x73
  | .csrrs rd csr rs1 => encodeI csr rs1 2 rd 0x73
  | .csrrc rd csr rs1 => encodeI csr rs1 3 rd 0x73
  | .csrrwi rd csr uimm => encodeI csr uimm 5 rd 0x73
  | .csrrsi rd csr uimm => encodeI csr uimm 6 rd 0x73
  | .csrrci rd csr uimm => encodeI csr uimm 7 rd 0x73
  | .ecall => encodeI 0x000 0 0 0 0x73
  | .ebreak => encodeI 0x001 0 0 0 0x73
  | .mret => encodeI 0x302 0 0 0 0x73
  | .halt => encodeI 0 0 cfg.funct3.halt 0 0x0B
  | .cinv base off => encodeI off base cfg.funct3.cinv 0 0x0B
  | .cwb base off => encodeI off base cfg.funct3.cwb 0 0x0B
  | .cflush base off => encodeI off base cfg.funct3.cflush 0 0x0B

end Sys2Proof
end

