-- ==== Sys2Proof/Machine/State.lean ====
section
/-! DEFINITION. The state of a ParaNut machine as plain data (10_state.md), why a step can stop, and the state after
reset (R90, R390). -/

namespace Sys2Proof.Machine

/-- Main memory: (address, byte) pairs in one canonical form (Memory.wf). -/
abbrev Memory := List Host.Cell

/-- What a byte reads as that nothing has written. DESIGN CHOICE (log 3). -/
def unlisted : Byte := 0

/-- The canonical form: addresses strictly rising, and no entry equal to what an unlisted address reads as. -/
abbrev Memory.wf (m : Memory) : Prop :=
  m.Pairwise (fun x y => x.1 < y.1) ∧ ∀ x ∈ m, x.2 ≠ unlisted

/-- One store waiting in an LSU store buffer: the bytes it writes, all in one aligned word (R82, R105). -/
abbrev Store := List Host.Cell

/-- One line of the MemU cache (R84, R120): its number (address / line size), its bytes, lowest address first, whether
a store has changed it since it was loaded or last written back, and of each byte whether main memory's is the newer
one, because another bus master wrote it there (R115, R118, R304, log 43). -/
structure CacheLine where
  num     : Nat
  data    : List Byte
  dirty   : Bool
  foreign : List Bool
deriving DecidableEq, Repr

/-- The present lines, by rising number. -/
abbrev Cache := List CacheLine

/-- What each CPU owns (R20). -/
structure Cpu where
  /-- x0 to x31 (R21); the entry of x0 is never read (R22). -/
  regs   : Vector Word 32
  /-- The program counter (R25); a CPU of capability 1 has none and does not use it. -/
  pc     : Word
  /-- The LSU store buffer, the youngest store first (R82), of any length (log 19). -/
  sbuf   : List Store
  /-- The IFU prefetch buffer: addresses and the words fetched from them (R83), of any length (log 29). -/
  ifu    : List (Word × Word)
  /-- xcause: the cause of the CPU's last exception as a CoPU (R81). -/
  xcause : Word
  /-- xepc: the address at which it was raised (R81). -/
  xepc   : Word
deriving DecidableEq, Repr

/-- Something the machine does beside executing an instruction, at a time software does not control. An event that
cannot happen in a state does nothing. -/
inductive Event where
  /-- CPU c's store buffer gives its k-th youngest store to the MemU (R113). -/
  | drain (c : CpuId) (k : Nat)
  /-- CPU c's k-th youngest store is combined with the older one at j ("write combining", R113). -/
  | combine (c : CpuId) (k j : Nat)
  /-- The MemU loads line n into the cache (R120). -/
  | allocate (n : Nat)
  /-- The MemU drops line n, after writing it back if it holds newer data (R120). -/
  | evict (n : Nat)
  /-- CPU c's IFU prefetches the word at an address (R83). -/
  | prefetch (c : CpuId) (a : Word)
  /-- CPU c's IFU drops what it prefetched from an address (R83). -/
  | forget (c : CpuId) (a : Word)
  /-- A pending activation or deactivation of CoPU c completes (R327). -/
  | settle (c : CpuId)
  /-- Another bus master writes a byte of main memory (R115). -/
  | busWrite (a : Word) (b : Byte)
deriving DecidableEq, Repr

/-- One turn of the machine: the events before it, the CPU that then executes one instruction, whether the CePU
answers a CoPU exception now (R353), and the order of linked lanes (R116, R330). -/
structure Turn where
  events  : List Event
  who     : CpuId
  respond : Bool
  order   : List CpuId
deriving DecidableEq, Repr

/-- The machine. -/
structure State where
  /-- The parameters of R8; no step changes them. -/
  cfg : Config
  /-- The CPUs; those with a number of NUM_CPUS or more do not exist and do nothing. -/
  cpus : Vector Cpu 32
  -- Standard CSRs of the CePU that hold state (10_state.md section 4)
  mstatus  : Word
  mtvec    : Word
  mscratch : Word
  mepc     : Word
  mcause   : Word
  mtval    : Word
  /-- The counter slots of the 0xB00 block (R52): 0 is mcycle, 2 is minstret, n is mhpmcounter n; slot 1 does not
  exist. mcycle holds its value at its last read or write (R50). -/
  counters : Vector (BitVec 64) 32
  -- ParaNut CSRs that hold state (10_state.md section 5)
  pngrpsel : Word
  pnlm     : Word
  pnxsel   : Word
  pncache  : Word
  pnx      : Word
  -- Execution-mode and exception state (R80, R81)
  /-- pnce_req: what the CePU last wrote to `pnce`. -/
  pnceReq : Word
  /-- active: the state each CPU has reached; `pnce` reads it. -/
  active  : Word
  /-- xstate, the "pnx input port": the CoPUs in exception state. -/
  xstate  : Word
  /-- in_trap: a trap is being handled; CoPUs are suspended. -/
  inTrap  : Bool
  /-- machine_halted: the CePU has executed HALT. -/
  halted  : Bool
  -- Memory
  /-- Main memory, `main` of R121. -/
  main  : Memory
  /-- The MemU cache, `cache` of R121. -/
  cache : Cache
  -- The model's own fields
  /-- The executing CPU, the index R10 leaves out. -/
  cur : CpuId
  /-- The order in which linked lanes act; it counts only if it names every CPU once. -/
  laneOrder : List CpuId
  /-- The turns to come; when none is left, turns follow `defaultTurn`. -/
  agenda : List Turn
  /-- How many free values have been drawn. -/
  drawn : Nat
  /-- The CoPUs that were in exception state when the last MRET ran and still are (R356). -/
  owed : Word
  /-- The CoPUs whose exception a write to `pnce` has marked as handled and that wait for the next MRET (R352,
  R354). -/
  handled : Word
  /-- The inactive CoPUs of capability 1 whose `pnlm` bit was last written 0, whatever it reads (R63, U2). -/
  pnlmIllegal : Word
  /-- How many reads of a device there have been, those of a linked group's load counted as one (R116); it selects what
  the next one gets (R110, R371). -/
  deviceReads : Nat
deriving DecidableEq, Repr

/-- Why the machine is stuck. -/
inductive Fault where
  /-- A fetch, load, store or cache operation at an address where the platform has nothing. Raised by every memory
  access; safe: R111 and D4 give such an access no behaviour. -/
  | absentAddress (a : Word)
deriving DecidableEq, Repr

/-- Why the model gives a step no meaning. -/
inductive Refusal where
  /-- The instruction's arm of exec has no meaning yet. Raised by exec; safe. -/
  | notModelled (mnemonic : String)
  /-- An exception in an instruction executed by a linked group (R360, D32, U16). Raised by every instruction that
  can raise an exception and by undecodable words; safe. -/
  | linkedException
  /-- A CoPU executed MRET (R293, D32, U26). Raised by MRET; safe. -/
  | mretOnCopu
  /-- A write of a non-zero value to pngrpsel (R61, U25). Raised by CSR instructions; safe. -/
  | groupSelect
  /-- A write to pnce with bit 0 clear (R62, U25). Raised by CSR instructions; safe. -/
  | cepuDisabled
  /-- A write to pnce with the bit of a CoPU clear that is in exception state (R354, U9). Raised by CSR
  instructions; safe. -/
  | faultedCopuDisabled
  /-- A set or clear of pnce bits while a transition is pending (R278, U7). Raised by CSR instructions; safe. -/
  | pnceTransitionPending
  /-- A write to pnce that activates a CoPU of capability 1 whose pnlm bit is clear or was last written 0 (R63, R328,
  U2). Raised by CSR instructions; safe. -/
  | unlinkedWithoutFetch
  /-- A write to pnlm that changes the bit of an enabled or active CoPU (R329, U5). Raised by CSR instructions;
  safe. -/
  | modeChangedWhileEnabled
  /-- The word at the pc is a reserved CUSTOM-0 encoding (R160 (d), U11). Raised by step; safe. -/
  | reservedCustom0
deriving DecidableEq, Repr

/-- The execution modes (R322 to R326). -/
inductive Mode where
  | halted      -- Mode 0
  | linked      -- Mode 1
  | unlinked    -- Mode 2
  | autonomous  -- Mode 3
deriving DecidableEq, Repr

/-- The seven exceptions that can occur (R333). -/
inductive Exn where
  | instrMisaligned
  | illegal
  | breakpoint
  | loadMisaligned
  | storeMisaligned
  | ecallM
  | copu
deriving DecidableEq, Repr

/-- The five lists of Table 3.7 (R53), and the instructions that are in none. -/
inductive EventClass where
  | alu
  | load
  | store
  | jump
  | system
  | uncounted
deriving DecidableEq, Repr

/-- What the platform has at an address (R110, R111). -/
inductive AddrKind where
  | memory
  | device
  | absent
deriving DecidableEq, Repr

/-- The implemented CSRs (R31 to R58, R60); `counterLo n` and `counterHi n` are the halves of counter slot n. -/
inductive CsrReg where
  | mvendorid | marchid | mimpid | mhartid | mstatus | misa | mie | mtvec | mscratch | mepc | mcause | mtval | mip
  | counterLo (n : Fin 32)
  | counterHi (n : Fin 32)
  | mhpmevent (n : Fin 32)
  | mtime | mtimeh | mtimecmp | mtimecmph
  | pngrpsel | pnce | pnlm | pnxsel | pncache | pncpus | pnm2cp | pnx | pncause | pnepc
  | pncacheinfo | pncachesets | pnclockinfo | pnmemsize
deriving DecidableEq, Repr

/-- What the data path of an instruction comes to on one CPU. -/
inductive Effect where
  /-- It is done, with this state. -/
  | done (s : State)
  /-- It raises an exception with a trap value and has no effect of its own (R10, R333). -/
  | raises (e : Exn) (tval : Word)
  /-- It reaches an address where the platform has nothing. -/
  | stuck (f : Fault)
  /-- The spec gives it no meaning. -/
  | refuse (r : Refusal)
deriving DecidableEq, Repr

/-- What an instruction or a step answers. -/
abbrev Result := Host.Outcome State Fault Refusal

/-- A CPU after reset. The zeros of x1 to x31, xcause and xepc are DESIGN CHOICES (log 2). -/
def Cpu.reset (vector : Word) : Cpu where
  regs := Vector.replicate 32 0
  pc := vector
  sbuf := []
  ifu := []
  xcause := 0
  xepc := 0

/-- The state after reset in a given configuration (R90, D27). The zeros of mtvec, mscratch, mepc, mcause, mtval and
pncache are DESIGN CHOICES (log 2); the model's own fields begin empty (log 4). -/
def State.resetWith (cfg : Config) : State where
  cfg := cfg
  cpus := Vector.replicate 32 (Cpu.reset cfg.resetVector)
  mstatus := 0
  mtvec := 0
  mscratch := 0
  mepc := 0
  mcause := 0
  mtval := 0
  counters := Vector.replicate 32 0
  pngrpsel := 0
  pnlm := 0
  pnxsel := 0
  pncache := 0
  pnx := 0
  pnceReq := 1
  active := 1
  xstate := 0
  inTrap := false
  halted := false
  main := []
  cache := []
  cur := 0
  laneOrder := []
  agenda := []
  drawn := 0
  owed := 0
  handled := 0
  pnlmIllegal := 0
  deviceReads := 0

/-- The machine right after reset, in the configuration of Config.default (log 1). -/
def State.reset : State := State.resetWith Config.default

end Sys2Proof.Machine
end

