-- ==== Sys2Proof/Machine/Memory.lean ====
section
/-! DEFINITION. Main memory and the cache as lists in canonical form (R100, R120, R121). -/

namespace Sys2Proof.Machine

/-! ### Main memory -/

/-- The byte main memory holds at an address. -/
def Memory.read (m : Memory) (a : Nat) : Byte :=
  match m with
  | [] => unlisted
  | (k, b) :: rest => if k = a then b else Memory.read rest a

/-- Put an entry in its place by rising address. -/
def Memory.insert (m : Memory) (a : Nat) (b : Byte) : Memory :=
  match m with
  | [] => [(a, b)]
  | (k, c) :: rest => if a < k then (a, b) :: (k, c) :: rest else (k, c) :: Memory.insert rest a b

/-- Write a byte, keeping the canonical form. -/
def Memory.write (m : Memory) (a : Nat) (b : Byte) : Memory :=
  let rest := m.filter (fun x => x.1 != a)
  if b = unlisted then rest else Memory.insert rest a b

/-- Write consecutive bytes from an address on. -/
def Memory.writeBytes (m : Memory) (a : Nat) : List Byte → Memory
  | [] => m
  | b :: bs => Memory.writeBytes (Memory.write m a b) (a + 1) bs

/-- Consecutive bytes from an address on. -/
def Memory.readBytes (m : Memory) (a n : Nat) : List Byte :=
  (List.range n).map (fun i => Memory.read m (a + i))

/-! ### Cache lines -/

/-- Line n, if it is present. -/
def Cache.find (k : Cache) (n : Nat) : Option CacheLine :=
  match k with
  | [] => none
  | l :: rest => if l.num = n then some l else Cache.find rest n

/-- The cache without line n. -/
def Cache.remove (k : Cache) (n : Nat) : Cache := k.filter (fun l => l.num != n)

/-- Put a line in its place by rising number. -/
def Cache.insert (k : Cache) (l : CacheLine) : Cache :=
  match k with
  | [] => [l]
  | x :: rest => if l.num < x.num then l :: x :: rest else x :: Cache.insert rest l

/-- The cache with this line in place of any of its number. -/
def Cache.put (k : Cache) (l : CacheLine) : Cache := Cache.insert (Cache.remove k l.num) l

/-- Main memory's byte i of line n is now newer than the cache's, if the line is present. -/
def Cache.mark (k : Cache) (n i : Nat) : Cache :=
  match Cache.find k n with
  | some l => Cache.put k { l with foreign := l.foreign.set i true }
  | none => k

/-! ### Stores -/

/-- The byte a buffered store writes at an address, if it writes there. -/
def Store.find (st : Store) (a : Nat) : Option Byte :=
  match st with
  | [] => none
  | (k, b) :: rest => if k = a then some b else Store.find rest a

/-- The byte the youngest store of a buffer writes at an address (store forwarding, R112). -/
def forward (buf : List Store) (a : Nat) : Option Byte :=
  match buf with
  | [] => none
  | st :: older =>
    match Store.find st a with
    | some b => some b
    | none => forward older a

/-- Do two stores write no common byte? -/
def Store.disjoint (x y : Store) : Bool := x.all (fun c => y.all (fun d => c.1 != d.1))

/-- Do two stores write into one aligned word? -/
def Store.sameWord (x y : Store) : Bool := x.all (fun c => y.all (fun d => c.1 / 4 == d.1 / 4))

/-- An older store with a younger one merged into it (write combining, R113). -/
def Store.merge (older younger : Store) : Store :=
  younger ++ older.filter (fun c => (Store.find younger c.1).isNone)

end Sys2Proof.Machine
end

