-- ==== Sys2Proof/Machine/Operands.lean ====
section
/-! DEFINITION. Operand forms: the 32-bit values the immediates produce (R143), shift amounts (R187, R200) and the
targets of control transfers (R220 to R223). -/

namespace Sys2Proof.Machine

/-- The I- or S-immediate: sign-extended from 12 bits. -/
def imm12 (i : BitVec 12) : Word := i.signExtend 32

/-- The U-immediate: 20 bits above twelve zeros. -/
def immUpper (i : BitVec 20) : Word := i ++ 0#12

/-- The B-immediate: sign-extended from 13 bits. -/
def branchOffset (o : BitVec 13) : Word := o.signExtend 32

/-- The J-immediate: sign-extended from 21 bits. -/
def jumpOffset (o : BitVec 21) : Word := o.signExtend 32

/-- The 5-bit immediate of a CSR instruction: zero-extended (R275). -/
def uimm5 (u : BitVec 5) : Word := u.setWidth 32

/-- The shift amount a register gives: its lower five bits (R200). -/
def shiftAmount (v : Word) : Nat := (v.extractLsb' 0 5).toNat

/-- A JALR target: the least-significant bit of the sum is set to zero (R223). -/
def jalrTarget (base : Word) (i : BitVec 12) : Word := (base + imm12 i) &&& 0xFFFFFFFE

/-- An address with its two low bits cleared: what mtvec.BASE, mepc and xepc hold (R43, R45). -/
def align4 (a : Word) : Word := a &&& 0xFFFFFFFC

/-- Is an address a multiple of n, for n = 1, 2 or 4 (R106)? -/
def alignedTo (n : Nat) (a : Word) : Bool := a.toNat % n == 0

/-- The bit of a CPU in the registers that have one bit per CPU. -/
def cpuBit (c : CpuId) : Word := 1#32 <<< c.val

/-- Is the bit of a CPU set? -/
def hasBit (v : Word) (c : CpuId) : Bool := v.getLsbD c.val

/-- The word whose bit c is `p c`. -/
def maskOf (p : CpuId → Bool) : Word :=
  cpuIds.foldr (fun c v => if p c then v ||| cpuBit c else v) 0

end Sys2Proof.Machine
end

