-- ==== Sys2Proof/Machine/Flags.lean ====
section
/-! DEFINITION. There are no status flags (R28). What other machines compute as flags are here the comparisons of two
32-bit values (R9), which branches test and the SLT instructions write into a register. -/

namespace Sys2Proof.Machine

/-- `a <s b` (R9). -/
def lessSigned (a b : Word) : Bool := decide (a.toInt < b.toInt)

/-- `a <u b` (R9). -/
def lessUnsigned (a b : Word) : Bool := decide (a.toNat < b.toNat)

/-- 1 or 0, as SLT and SLTU write it (R182, R194). -/
def boolWord (b : Bool) : Word := if b then 1 else 0

end Sys2Proof.Machine
end

