-- ==== Sys2Proof/Machine/Ops.lean ====
section
/-! DEFINITION. The named operations over registers, modes, memory and counters; taking an exception and returning
from one; and how an instruction completes on the CPUs that execute it. -/

namespace Sys2Proof.Machine

/-! ### CPUs and general registers -/

def State.cpu (s : State) (c : CpuId) : Cpu := s.cpus[c.val]

def State.setCpu (s : State) (c : CpuId) (x : Cpu) : State := { s with cpus := s.cpus.set c.val x }

/-- Change every CPU. -/
def State.mapCpus (s : State) (f : Cpu → Cpu) : State :=
  { s with cpus := ⟨⟨s.cpus.toArray.toList.map f⟩, by simp⟩ }

/-- x[r] of CPU c; x0 reads as zero (R22). -/
def reg (c : CpuId) (r : Reg) (s : State) : Word :=
  if r = 0 then 0 else (s.cpu c).regs[r.toNat]'r.isLt

/-- x[r] <- v on CPU c; a write to x0 is discarded (R22). -/
def setReg (c : CpuId) (r : Reg) (v : Word) (s : State) : State :=
  if r = 0 then s
  else s.setCpu c { s.cpu c with regs := (s.cpu c).regs.set r.toNat v r.isLt }

def pcOf (c : CpuId) (s : State) : Word := (s.cpu c).pc

def setPc (c : CpuId) (v : Word) (s : State) : State := s.setCpu c { s.cpu c with pc := v }

/-- `pc` in an instruction's rule: that of the executing CPU, which is the CePU's for every linked lane (R330). -/
def curPc (s : State) : Word := pcOf s.cur s

/-- The address of the next instruction in memory, modulo 2^32 (R25, R27). -/
def pcPlus4 (s : State) : Word := curPc s + 4

/-! ### Execution modes (R80, R322 to R330) -/

/-- The bits of the CoPUs that exist. -/
def copuMask (s : State) : Word := (BitVec.ofNat 32 (2 ^ s.cfg.numCpus - 1)) &&& ~~~1#32

/-- The bits of the CPUs that exist. -/
def cpuMask (s : State) : Word := BitVec.ofNat 32 (2 ^ s.cfg.numCpus - 1)

/-- The mode of a CPU (R80); a CPU that does not exist is halted. -/
def modeOf (s : State) (c : CpuId) : Mode :=
  if c = 0 then (if s.halted then .halted else .autonomous)
  else if s.cfg.numCpus ≤ c.val then .halted
  else if !hasBit s.active c then .halted
  else if hasBit s.pnlm c then .linked
  else .unlinked

/-- Is CoPU c in the linked group G (R330)? Not while a trap is handled: it is suspended then (R341); nor from its
exception to the MRET after this was handled (R352). -/
def joined (s : State) (c : CpuId) : Bool :=
  modeOf s c == .linked && !hasBit s.xstate c && !hasBit s.handled c && !s.inTrap

/-- Can CPU c execute an instruction of its own now (R322 to R326, R341, R352)? -/
def runnable (s : State) (c : CpuId) : Bool :=
  if c = 0 then !s.halted
  else modeOf s c == .unlinked && !hasBit s.xstate c && !hasBit s.handled c && !s.inTrap && !s.halted

/-- Does the executing CPU lead a linked group? -/
def grouped (s : State) : Bool := s.cur == 0 && cpuIds.any (joined s)

/-- The order in which lanes act, which the spec leaves undefined (R116): the state's, if it names every CPU. -/
def actingOrder (s : State) : List CpuId :=
  if s.laneOrder.isPerm cpuIds then s.laneOrder else cpuIds

/-- The CPUs that execute the instruction: the executing CPU, and with the CePU its linked group (R330). -/
def lanes (s : State) : List CpuId :=
  if s.cur = 0 then (actingOrder s).filter (fun c => c == 0 || joined s c) else [s.cur]

/-! ### The memory unit (R100 to R124) -/

/-- What the platform has at an address (R110, R111). -/
def addrKind (cfg : Config) (a : Nat) : AddrKind :=
  if cfg.memBase ≤ a ∧ a < cfg.memBase + cfg.memBytes then .memory
  else if cfg.uncached.any (·.contains a) then .device
  else .absent

/-- What it has at the n bytes from an address on: absent if one byte is, else a device if one byte is. -/
def accessKind (cfg : Config) (a : Word) (n : Nat) : AddrKind :=
  let kinds := (List.range n).map (fun i => addrKind cfg (a + BitVec.ofNat 32 i).toNat)
  if kinds.all (· == .memory) then .memory
  else if kinds.contains .absent then .absent
  else .device

/-- Does an address belong to a device: a byte of UNCACHED_REGIONS outside main memory (R110)? -/
def deviceAt (cfg : Config) (a : Nat) : Bool := addrKind cfg a == .device

/-- Is a byte in UNCACHED_REGIONS (R110)? -/
def uncachedAt (cfg : Config) (a : Nat) : Bool := cfg.uncached.any (·.contains a)

/-- Do data accesses to an address use the cache (R124)? -/
def dataCached (s : State) (a : Nat) : Bool := hasBit s.pncache s.cfg.denBit && !uncachedAt s.cfg a

/-- Do instruction fetches from an address use the cache (R124)? -/
def instrCached (s : State) (a : Nat) : Bool := hasBit s.pncache s.cfg.ienBit && !uncachedAt s.cfg a

/-- The number of the cache line an address is in (R120). -/
def lineOf (cfg : Config) (a : Nat) : Nat := a / cfg.lineBytes

/-- Line n as a load from main memory brings it in. -/
def lineFromMain (s : State) (n : Nat) : CacheLine :=
  ⟨n, Memory.readBytes s.main (n * s.cfg.lineBytes) s.cfg.lineBytes, false, List.replicate s.cfg.lineBytes false⟩

/-- A byte of main memory is written beside the cache by another bus master, or by what relates to the cache like one
(R115, R118): a line that is present stays as it is, but for the mark that main memory's byte is newer. -/
def writeBeside (a : Nat) (b : Byte) (s : State) : State :=
  { s with
    main := Memory.write s.main a b
    cache := Cache.mark s.cache (lineOf s.cfg a) (a % s.cfg.lineBytes) }

/-- The MemU value of a byte (R121): the cache's, if the access uses the cache and the line is present, else main
memory's. A device answers with a byte of which nothing is known (R110, R371, log 22). -/
def memuRead (cached : Bool) (a : Nat) (s : State) : Byte :=
  if deviceAt s.cfg a then Free.device s.deviceReads a
  else
    match (if cached then Cache.find s.cache (lineOf s.cfg a) else none) with
    | some l => l.data.getD (a % s.cfg.lineBytes) unlisted
    | none => Memory.read s.main a

/-- A byte reaches the MemU (R121): into the cache, which loads the line first if it must, or into main memory, or out
of the machine into a device (R110, R371, log 22). A store that bypasses the cache which fetches use relates to it as
another bus master does (R118). -/
def memuWrite (cached : Bool) (a : Nat) (b : Byte) (s : State) : State :=
  if deviceAt s.cfg a then s
  else if cached then
    let n := lineOf s.cfg a
    let l := (Cache.find s.cache n).getD (lineFromMain s n)
    let i := a % s.cfg.lineBytes
    { s with cache := Cache.put s.cache ⟨n, l.data.set i b, true, l.foreign.set i false⟩ }
  else if instrCached s a then writeBeside a b s
  else { s with main := Memory.write s.main a b }

/-- A buffered store reaches the MemU as a whole (R109, R113). Whether it uses the cache is decided now, by the DEN of
this moment and not of its execution, which the spec leaves open (R124, R401). DESIGN CHOICE (log 40). -/
def commitStore (st : Store) (s : State) : State :=
  st.foldl (fun s x => memuWrite (dataCached s x.1) x.1 x.2 s) s

/-- CPU c's store buffer is emptied in program order (R112, R114). -/
def drainAll (c : CpuId) (s : State) : State :=
  let t := (s.cpu c).sbuf.foldr commitStore s
  t.setCpu c { t.cpu c with sbuf := [] }

/-- A store enters CPU c's store buffer (R105, R112). DESIGN CHOICE (log 19): the buffer, whose depth is not stated (R82),
has room for any number of stores, so that no store waits for another to leave. -/
def pushStore (c : CpuId) (st : Store) (s : State) : State :=
  s.setCpu c { s.cpu c with sbuf := st :: (s.cpu c).sbuf }

/-- The byte at an address as CPU c's loads see it: its own youngest buffered store, else the MemU's (R112). A load
from a device reads the device. -/
def readByte (c : CpuId) (a : Nat) (s : State) : Byte :=
  match (if deviceAt s.cfg a then none else forward (s.cpu c).sbuf a) with
  | some b => b
  | none => memuRead (dataCached s a) a s

/-- MemRead(a, 1) (R104). -/
def memRead8 (c : CpuId) (a : Word) (s : State) : BitVec 8 := readByte c a.toNat s

/-- MemRead(a, 2): little-endian (R102, R104). -/
def memRead16 (c : CpuId) (a : Word) (s : State) : BitVec 16 :=
  readByte c (a + 1).toNat s ++ readByte c a.toNat s

/-- MemRead(a, 4): little-endian (R102, R104). -/
def memRead32 (c : CpuId) (a : Word) (s : State) : Word :=
  wordOfBytes (readByte c a.toNat s) (readByte c (a + 1).toNat s) (readByte c (a + 2).toNat s)
    (readByte c (a + 3).toNat s)

/-- The bytes MemWrite(a, n, v) stores: byte i of v at a + i (R105). -/
def storeCells (a : Word) (n : Nat) (v : Word) : Store :=
  (List.range n).map (fun i => ((a + BitVec.ofNat 32 i).toNat, byteOf v i))

/-- MemWrite(a, n, v) by CPU c (R105). -/
def memWrite (c : CpuId) (a : Word) (n : Nat) (v : Word) (s : State) : State :=
  pushStore c (storeCells a n v) s

/-- An access of n bytes goes on where there is memory or a device; where the platform has nothing the spec gives it no
behaviour (R111, D4). -/
def wherePresent (a : Word) (n : Nat) (s : State) (e : Effect) : Effect :=
  match accessKind s.cfg a n with
  | .memory => e
  | .device => e
  | .absent => .stuck (.absentAddress a)

/-- After the k-th read of a device, if the access of n bytes touches one: the next instruction that reads a device makes
another (log 22). -/
def afterRead (k : Nat) (a : Word) (n : Nat) (s : State) : State :=
  match accessKind s.cfg a n with
  | .device => { s with deviceReads := k + 1 }
  | .memory => s
  | .absent => s

/-- The word an instruction fetch of a CPU gets from the MemU (R103, R124). -/
def memuWord (a : Word) (s : State) : Word :=
  let at' := fun (b : Word) => memuRead (instrCached s b.toNat) b.toNat s
  wordOfBytes (at' a) (at' (a + 1)) (at' (a + 2)) (at' (a + 3))

/-- Line n's bytes are written back to main memory, if it is present, and it stays present (R121, R122). -/
def writeBackLine (n : Nat) (s : State) : State :=
  match Cache.find s.cache n with
  | some l =>
    { s with
      main := Memory.writeBytes s.main (n * s.cfg.lineBytes) l.data
      cache := Cache.put s.cache ⟨n, l.data, false, List.replicate s.cfg.lineBytes false⟩ }
  | none => s

/-- Line n is dropped without write-back, if it is present (R122). -/
def dropLine (n : Nat) (s : State) : State := { s with cache := Cache.remove s.cache n }

/-- Is main memory's byte at an address newer than that of the line that is present (log 43)? -/
def foreignAt (a : Nat) (s : State) : Bool :=
  match Cache.find s.cache (lineOf s.cfg a) with
  | some l => l.foreign.getD (a % s.cfg.lineBytes) false
  | none => false

/-- Line n takes main memory's bytes where they are newer, if it is present. -/
def refreshLine (n : Nat) (s : State) : State :=
  match Cache.find s.cache n with
  | some l =>
    let base := n * s.cfg.lineBytes
    let byte := fun i => if l.foreign.getD i false then Memory.read s.main (base + i) else l.data.getD i unlisted
    { s with cache := Cache.put s.cache { l with data := (List.range s.cfg.lineBytes).map byte } }
  | none => s

/-- Line n is flushed: its write-back, then its invalidation (R122, R304). DESIGN CHOICE (log 43): what another bus master
wrote under the line, and no cached store has overwritten, stays in main memory, since CFLUSH makes it visible (R115,
R405, R304); every other byte is the cache's (R122, R304's formula). -/
def flushLine (n : Nat) (s : State) : State := dropLine n (writeBackLine n (refreshLine n s))

/-- Line n is loaded from main memory, if it is not present (R121). -/
def loadLine (n : Nat) (s : State) : State :=
  match Cache.find s.cache n with
  | some _ => s
  | none => { s with cache := Cache.put s.cache (lineFromMain s n) }

/-! ### Performance counters (R50 to R53) -/

/-- Does counter slot n exist (R50 to R52)? -/
def counterExists (cfg : Config) (n : Fin 32) : Bool :=
  cfg.perfEnable && (n == 0 || n == 2 || (decide (3 ≤ n.val) && decide (n.val < cfg.perfCounters)))

/-- The width of counter slot n: 64 bits for mcycle (R50), PERFCOUNTER_BITS for the others (R51). -/
def counterWidth (cfg : Config) (n : Fin 32) : Nat := if n = 0 then 64 else cfg.perfBits

/-- A value modulo 2^width of the counter. -/
def counterTrunc (cfg : Config) (n : Fin 32) (v : BitVec 64) : BitVec 64 :=
  BitVec.ofNat 64 (v.toNat % 2 ^ counterWidth cfg n)

/-- The value of counter slot n; one that does not exist is zero. -/
def counter (n : Fin 32) (s : State) : BitVec 64 := if counterExists s.cfg n then s.counters[n.val] else 0

/-- Counter slot n takes a value; one that does not exist ignores it. -/
def setCounter (n : Fin 32) (v : BitVec 64) (s : State) : State :=
  if counterExists s.cfg n then { s with counters := s.counters.set n.val (counterTrunc s.cfg n v) } else s

/-- Counter slot n counts one event. -/
def bump (n : Fin 32) (s : State) : State := setCounter n (counter n s + 1) s

/-- The event counter of a list of Table 3.7 (R53). -/
def EventClass.slot : EventClass → Option (Fin 32)
  | .alu => some 3
  | .load => some 4
  | .store => some 5
  | .jump => some 6
  | .system => some 7
  | .uncounted => none

/-- Counter slot n counts one event unless the instruction wrote that counter (R278). -/
def bumpUnless (skip : Option (Fin 32)) (n : Fin 32) (s : State) : State :=
  if skip = some n then s else bump n s

/-- An instruction completes: on the CePU, and only there (R330), minstret and its event counter count it. -/
def retire (k : EventClass) (skip : Option (Fin 32)) (s : State) : State :=
  if s.cur = 0 then
    let t := bumpUnless skip 2 s
    match k.slot with
    | some n => bumpUnless skip n t
    | none => t
  else s

/-! ### Exceptions (R333 to R356) -/

/-- The exception codes (R333); the Interrupt bit is 0 for all of them. -/
def Exn.code : Exn → Word
  | .instrMisaligned => 0
  | .illegal => 2
  | .breakpoint => 3
  | .loadMisaligned => 4
  | .storeMisaligned => 6
  | .ecallM => 11
  | .copu => 16

/-- mstatus.MIE, bit 3 (R35). -/
def mie (s : State) : Bool := s.mstatus.getLsbD 3

/-- mstatus.MPIE, bit 7 (R35). -/
def mpie (s : State) : Bool := s.mstatus.getLsbD 7

/-- mstatus with these fields; every other bit is 0 (R35). -/
def mstatusWith (ie pie : Bool) : Word := (if ie then 0x08 else 0) ||| (if pie then 0x80 else 0)

/-- The trap entry of the CePU (R340, R341): the pc, the cause, the trap value and the pnx port are saved, interrupts
are disabled, the CoPUs are suspended, and execution continues at mtvec.BASE. -/
def trapEntry (e : Exn) (tval : Word) (s : State) : State :=
  setPc 0 (align4 s.mtvec)
    { s with
      mepc := align4 (pcOf 0 s)
      mcause := e.code
      mtval := tval
      pnx := s.xstate &&& copuMask s
      mstatus := mstatusWith false (mie s)
      inTrap := true
      owed := 0 }

/-- A CoPU enters its exception state (R352): cause and pc are recorded, the trap value is lost, and it executes
nothing more until the CePU has handled the exception. -/
def copuException (c : CpuId) (e : Exn) (s : State) : State :=
  { s.setCpu c { s.cpu c with xcause := e.code, xepc := align4 (pcOf c s) } with
    xstate := s.xstate ||| cpuBit c }

/-- Whether an event counter counts a listed instruction that traps is not stated (U14): a free bit decides. -/
def countTrapped (k : EventClass) (s : State) : State :=
  match k.slot with
  | some n =>
    if counterExists s.cfg n then
      setCounter n (if Free.bit s.drawn then counter n s + 1 else counter n s) { s with drawn := s.drawn + 1 }
    else s
  | none => s

/-- `raise E(tval)` by the executing CPU (R10): R340 on the CePU, R352 on a CoPU. -/
def takeException (k : EventClass) (e : Exn) (tval : Word) (s : State) : State :=
  if s.cur = 0 then trapEntry e tval (countTrapped k s) else copuException s.cur e s

/-- An exception in an instruction of a linked group has no meaning (R360, D32). -/
def raiseException (k : EventClass) (e : Exn) (tval : Word) (s : State) : Result :=
  if grouped s then .refused .linkedException else .next (takeException k e tval s)

/-- Where a CoPU goes on after its exception was handled (R354, D22). -/
def resumePc (cfg : Config) (xepc : Word) : Word :=
  match cfg.resumePc with
  | .next => xepc + 4
  | .same => xepc

/-- The CoPUs whose exception was marked as handled go on, at COPU_RESUME_PC (R354). -/
def resumeCopus (s : State) : State :=
  { (cpuIds.filter (hasBit s.handled)).foldl
      (fun t c => t.setCpu c { t.cpu c with pc := resumePc t.cfg (t.cpu c).xepc }) s with
    handled := 0 }

/-- The return from a trap (R293, R343): the pc comes back from mepc, MIE from MPIE, MPIE becomes 1, and the CoPUs are
released, those whose exception was handled after it (R354). A CoPU exception still signalled is taken at once
(R356). -/
def trapReturn (s : State) : State :=
  setPc 0 (align4 s.mepc)
    { resumeCopus s with
      mstatus := mstatusWith (mpie s) true
      inTrap := false
      owed := s.xstate &&& copuMask s }

/-- The trap value of Illegal instruction: MTVAL_ILLEGAL (R334). -/
def illegalTval (cfg : Config) (w : Word) : Word := if cfg.mtvalIllegalWord then w else 0

/-! ### Completion of an instruction -/

/-- The data path on each lane in turn; the first lane that is not done decides. -/
def forLanes (f : CpuId → State → Effect) : List CpuId → State → Effect
  | [], s => .done s
  | c :: rest, s =>
    match f c s with
    | .done t => forLanes f rest t
    | .raises e v => .raises e v
    | .stuck r => .stuck r
    | .refuse r => .refuse r

/-- What becomes of an instruction begun in state s: done, it retires and the executing CPU goes on at `next`;
otherwise the state before it is what the exception or the stop sees (R333: exceptions are precise). -/
def finish (k : EventClass) (skip : Option (Fin 32)) (next : Word) (s : State) : Effect → Result
  | .done t => .next (retire k skip (setPc t.cur next t))
  | .raises e v => raiseException k e v s
  | .stuck r => .fault r
  | .refuse r => .refused r

/-- An instruction whose data path runs on every lane and that goes on at `next`. -/
def onLanes (k : EventClass) (next : Word) (f : CpuId → State → Effect) (s : State) : Result :=
  finish k none next s (forLanes f (lanes s) s)

/-- An instruction that writes one general register on every lane: its value read before the write (R180). -/
def writeOnLanes (k : EventClass) (next : Word) (rd : Reg) (v : CpuId → State → Word) (s : State) : Result :=
  onLanes k next (fun c t => .done (setReg c rd (v c t) t)) s

end Sys2Proof.Machine
end

