-- ==== Sys2Proof/Machine/Alu.lean ====
section
/-! DEFINITION. The integer computational instructions (40_integer_computational.md): each writes one general
register on every lane and goes on at pc + 4 (R180). -/

namespace Sys2Proof.Machine

/-! ### Register-immediate -/

/-- ADDI: `x[rs1] + imm` (R181). -/
def execAddi (rd rs1 : Reg) (imm : BitVec 12) (s : State) : Result :=
  writeOnLanes .alu (pcPlus4 s) rd (fun c t => reg c rs1 t + imm12 imm) s

/-- SLTI: 1 if `x[rs1] <s imm`, else 0 (R182). -/
def execSlti (rd rs1 : Reg) (imm : BitVec 12) (s : State) : Result :=
  writeOnLanes .alu (pcPlus4 s) rd (fun c t => boolWord (lessSigned (reg c rs1 t) (imm12 imm))) s

/-- SLTIU: 1 if `x[rs1] <u imm`, else 0 (R183). -/
def execSltiu (rd rs1 : Reg) (imm : BitVec 12) (s : State) : Result :=
  writeOnLanes .alu (pcPlus4 s) rd (fun c t => boolWord (lessUnsigned (reg c rs1 t) (imm12 imm))) s

/-- ANDI (R184). -/
def execAndi (rd rs1 : Reg) (imm : BitVec 12) (s : State) : Result :=
  writeOnLanes .alu (pcPlus4 s) rd (fun c t => reg c rs1 t &&& imm12 imm) s

/-- ORI (R185). -/
def execOri (rd rs1 : Reg) (imm : BitVec 12) (s : State) : Result :=
  writeOnLanes .alu (pcPlus4 s) rd (fun c t => reg c rs1 t ||| imm12 imm) s

/-- XORI (R186). -/
def execXori (rd rs1 : Reg) (imm : BitVec 12) (s : State) : Result :=
  writeOnLanes .alu (pcPlus4 s) rd (fun c t => reg c rs1 t ^^^ imm12 imm) s

/-- SLLI: logical left shift (R187). -/
def execSlli (rd rs1 : Reg) (shamt : BitVec 5) (s : State) : Result :=
  writeOnLanes .alu (pcPlus4 s) rd (fun c t => reg c rs1 t <<< shamt.toNat) s

/-- SRLI: logical right shift (R188). -/
def execSrli (rd rs1 : Reg) (shamt : BitVec 5) (s : State) : Result :=
  writeOnLanes .alu (pcPlus4 s) rd (fun c t => reg c rs1 t >>> shamt.toNat) s

/-- SRAI: arithmetic right shift (R189). -/
def execSrai (rd rs1 : Reg) (shamt : BitVec 5) (s : State) : Result :=
  writeOnLanes .alu (pcPlus4 s) rd (fun c t => (reg c rs1 t).sshiftRight shamt.toNat) s

/-- LUI: the immediate above twelve zeros (R190); in no list of Table 3.7. -/
def execLui (rd : Reg) (imm : BitVec 20) (s : State) : Result :=
  writeOnLanes .uncounted (pcPlus4 s) rd (fun _ _ => immUpper imm) s

/-- AUIPC: the instruction's address plus the immediate (R191), the same on every lane; in no list of Table 3.7. -/
def execAuipc (rd : Reg) (imm : BitVec 20) (s : State) : Result :=
  writeOnLanes .uncounted (pcPlus4 s) rd (fun _ _ => curPc s + immUpper imm) s

/-! ### Register-register -/

/-- ADD (R192). -/
def execAdd (rd rs1 rs2 : Reg) (s : State) : Result :=
  writeOnLanes .alu (pcPlus4 s) rd (fun c t => reg c rs1 t + reg c rs2 t) s

/-- SUB (R193). -/
def execSub (rd rs1 rs2 : Reg) (s : State) : Result :=
  writeOnLanes .alu (pcPlus4 s) rd (fun c t => reg c rs1 t - reg c rs2 t) s

/-- SLT: 1 if `x[rs1] <s x[rs2]`, else 0 (R194). -/
def execSlt (rd rs1 rs2 : Reg) (s : State) : Result :=
  writeOnLanes .alu (pcPlus4 s) rd (fun c t => boolWord (lessSigned (reg c rs1 t) (reg c rs2 t))) s

/-- SLTU: 1 if `x[rs1] <u x[rs2]`, else 0 (R195). -/
def execSltu (rd rs1 rs2 : Reg) (s : State) : Result :=
  writeOnLanes .alu (pcPlus4 s) rd (fun c t => boolWord (lessUnsigned (reg c rs1 t) (reg c rs2 t))) s

/-- AND (R196). -/
def execAnd (rd rs1 rs2 : Reg) (s : State) : Result :=
  writeOnLanes .alu (pcPlus4 s) rd (fun c t => reg c rs1 t &&& reg c rs2 t) s

/-- OR (R197). -/
def execOr (rd rs1 rs2 : Reg) (s : State) : Result :=
  writeOnLanes .alu (pcPlus4 s) rd (fun c t => reg c rs1 t ||| reg c rs2 t) s

/-- XOR (R198). -/
def execXor (rd rs1 rs2 : Reg) (s : State) : Result :=
  writeOnLanes .alu (pcPlus4 s) rd (fun c t => reg c rs1 t ^^^ reg c rs2 t) s

/-- SLL: logical left shift by the lower five bits (R200). -/
def execSll (rd rs1 rs2 : Reg) (s : State) : Result :=
  writeOnLanes .alu (pcPlus4 s) rd (fun c t => reg c rs1 t <<< shiftAmount (reg c rs2 t)) s

/-- SRL: logical right shift by the lower five bits (R201). -/
def execSrl (rd rs1 rs2 : Reg) (s : State) : Result :=
  writeOnLanes .alu (pcPlus4 s) rd (fun c t => reg c rs1 t >>> shiftAmount (reg c rs2 t)) s

/-- SRA: arithmetic right shift by the lower five bits (R202). -/
def execSra (rd rs1 rs2 : Reg) (s : State) : Result :=
  writeOnLanes .alu (pcPlus4 s) rd (fun c t => (reg c rs1 t).sshiftRight (shiftAmount (reg c rs2 t))) s

end Sys2Proof.Machine
end

