-- ==== Sys2Proof/Machine/Control.lean ====
section
/-! DEFINITION. The control transfer instructions (41_control_transfer.md). The executing CPU's registers decide, which
are the CePU's for a linked group (R232). -/

namespace Sys2Proof.Machine

/-- Does a target lie off the four-byte boundary (R221)? -/
def targetMisaligned (t : Word) : Bool := t.getLsbD 1

/-- A control transfer to a target: the link value goes into `rd` of every lane, and execution goes on at the target;
a misaligned target raises the exception and nothing is written (R221). -/
def jumpTo (rd : Reg) (target : Word) (s : State) : Result :=
  if targetMisaligned target then raiseException .jump .instrMisaligned target s
  else writeOnLanes .jump target rd (fun _ _ => pcPlus4 s) s

/-- A conditional branch: taken or not for the whole group as the executing CPU's condition says (R224, R232). -/
def branchIf (taken : Bool) (off : BitVec 13) (s : State) : Result :=
  if taken then
    if targetMisaligned (curPc s + branchOffset off) then
      raiseException .jump .instrMisaligned (curPc s + branchOffset off) s
    else onLanes .jump (curPc s + branchOffset off) (fun _ t => .done t) s
  else onLanes .jump (pcPlus4 s) (fun _ t => .done t) s

/-- JAL (R222). -/
def execJal (rd : Reg) (off : BitVec 21) (s : State) : Result := jumpTo rd (curPc s + jumpOffset off) s

/-- JALR (R223): `x[rs1]` is read before the link is written. -/
def execJalr (rd rs1 : Reg) (imm : BitVec 12) (s : State) : Result :=
  jumpTo rd (jalrTarget (reg s.cur rs1 s) imm) s

/-- BEQ (R224). -/
def execBeq (rs1 rs2 : Reg) (off : BitVec 13) (s : State) : Result :=
  branchIf (reg s.cur rs1 s == reg s.cur rs2 s) off s

/-- BNE (R225). -/
def execBne (rs1 rs2 : Reg) (off : BitVec 13) (s : State) : Result :=
  branchIf (reg s.cur rs1 s != reg s.cur rs2 s) off s

/-- BLT (R226). -/
def execBlt (rs1 rs2 : Reg) (off : BitVec 13) (s : State) : Result :=
  branchIf (lessSigned (reg s.cur rs1 s) (reg s.cur rs2 s)) off s

/-- BGE (R227). -/
def execBge (rs1 rs2 : Reg) (off : BitVec 13) (s : State) : Result :=
  branchIf (!lessSigned (reg s.cur rs1 s) (reg s.cur rs2 s)) off s

/-- BLTU (R228). -/
def execBltu (rs1 rs2 : Reg) (off : BitVec 13) (s : State) : Result :=
  branchIf (lessUnsigned (reg s.cur rs1 s) (reg s.cur rs2 s)) off s

/-- BGEU (R229). -/
def execBgeu (rs1 rs2 : Reg) (off : BitVec 13) (s : State) : Result :=
  branchIf (!lessUnsigned (reg s.cur rs1 s) (reg s.cur rs2 s)) off s

end Sys2Proof.Machine
end

