-- ==== Sys2Proof/Machine/CsrFile.lean ====
section
/-! DEFINITION. The control and status registers (10_state.md sections 3 to 5): their numbers, what a read returns and
what a write does, on the CePU and on a CoPU. -/

namespace Sys2Proof.Machine

/-! ### Numbers -/

/-- The single registers of Table 3.3 (R31 to R47, R58). -/
def tableCsrs : List (Nat × CsrReg) :=
  [(0xF11, .mvendorid), (0xF12, .marchid), (0xF13, .mimpid), (0xF14, .mhartid),
   (0x300, .mstatus), (0x301, .misa), (0x304, .mie), (0x305, .mtvec),
   (0x340, .mscratch), (0x341, .mepc), (0x342, .mcause), (0x343, .mtval), (0x344, .mip),
   (0xF01, .mtime), (0xF02, .mtimeh), (0xF03, .mtimecmp), (0xF04, .mtimecmph)]

/-- The ParaNut CSRs under their configured numbers (R60). -/
def pnCsrs (n : PnCsrNums) : List (CsrNum × CsrReg) :=
  [(n.grpsel, .pngrpsel), (n.ce, .pnce), (n.lm, .pnlm), (n.xsel, .pnxsel), (n.cache, .pncache),
   (n.cpus, .pncpus), (n.m2cp, .pnm2cp), (n.x, .pnx), (n.cause, .pncause), (n.epc, .pnepc),
   (n.cacheinfo, .pncacheinfo), (n.cachesets, .pncachesets), (n.clockinfo, .pnclockinfo),
   (n.memsize, .pnmemsize)]

/-- The entry of a number in a list of numbered registers. -/
def lookupCsr {α : Type} [DecidableEq α] (n : α) : List (α × CsrReg) → Option CsrReg
  | [] => none
  | (k, r) :: rest => if k = n then some r else lookupCsr n rest

/-- A number's place in a block of 32 consecutive numbers. -/
def blockIndex (base n : Nat) : Option (Fin 32) :=
  if h : base ≤ n ∧ n < base + 32 then some ⟨n - base, by omega⟩ else none

/-- The counters and event selectors of Table 3.3 (R50 to R54). -/
def counterCsr (n : Nat) : Option CsrReg :=
  match blockIndex 0xB00 n with
  | some i => if i = 1 then none else some (.counterLo i)
  | none =>
    match blockIndex 0xB80 n with
    | some i => if i = 1 then none else some (.counterHi i)
    | none =>
      match blockIndex 0x320 n with
      | some i => if i.val < 3 then none else some (.mhpmevent i)
      | none => none

/-- The register of a CSR number; none if it does not exist (R30, R59). -/
def csrOf (cfg : Config) (n : CsrNum) : Option CsrReg :=
  match lookupCsr n.toNat tableCsrs with
  | some r => some r
  | none =>
    match counterCsr n.toNat with
    | some r => some r
    | none => lookupCsr n (pnCsrs cfg.csrNums)

/-- The read-only registers, a write to which raises Illegal instruction (R30 (c), R270). -/
def CsrReg.readOnly : CsrReg → Bool
  | .mvendorid | .marchid | .mimpid | .mhartid | .misa => true
  | .pncpus | .pnm2cp | .pnx | .pncause | .pnepc => true
  | .pncacheinfo | .pncachesets | .pnclockinfo | .pnmemsize => true
  | .mstatus | .mie | .mip | .mtvec | .mscratch | .mepc | .mcause | .mtval => false
  | .counterLo _ | .counterHi _ | .mhpmevent _ => false
  | .mtime | .mtimeh | .mtimecmp | .mtimecmph => false
  | .pngrpsel | .pnce | .pnlm | .pnxsel | .pncache => false

/-! ### Reads on the CePU -/

/-- A free value is drawn. -/
def drawWord (s : State) : Word × State := (Free.word s.drawn, { s with drawn := s.drawn + 1 })

/-- The CoPU whose exception data pncause and pnepc show: the one whose bit alone is set in pnxsel (R64, R69). -/
def selectedCopu (s : State) : Option CpuId :=
  cpuIds.find? (fun c => c != 0 && decide (c.val < s.cfg.numCpus) && s.pnxsel == cpuBit c)

/-- `misa` (R36): MXL = 1, bit 8 (I), and bit 23 (X) as configured. -/
def misaValue (cfg : Config) : Word := if cfg.misaX then 0x40800100 else 0x40000100

/-- `mimpid` (R33). -/
def mimpidValue (cfg : Config) : Word := 2#4 ++ cfg.mimpidLow

/-- `pnm2cp` (R67): the CPUs of capability 2 or more. -/
def pnm2cpValue (cfg : Config) : Word :=
  maskOf (fun c => decide (c.val < cfg.numCpus) && cfg.cap c != .linked)

/-- mcycle as of now: each read is a draw, not smaller modulo 2^64 than the last read or write (R50, U17). -/
def readCycle (s : State) : BitVec 64 × State :=
  if counterExists s.cfg 0 then
    let v := s.counters[0] + Free.cycles s.drawn
    (v, { s with counters := s.counters.set 0 v, drawn := s.drawn + 1 })
  else (0, s)

/-- A counter's 64-bit value as a read finds it. -/
def readCounter (n : Fin 32) (s : State) : BitVec 64 × State :=
  if n = 0 then readCycle s else (counter n s, s)

/-- A value of the selected CoPU, or an unspecified one if pnxsel does not select exactly one CoPU (R69, R70, U6). -/
def ofSelected (f : Cpu → Word) (s : State) : Word × State :=
  match selectedCopu s with
  | some c => (f (s.cpu c), s)
  | none => drawWord s

/-- `pnce` reads `active`; the bits of CoPUs in exception state are any value (R62, U8). -/
def readPnce (s : State) : Word × State :=
  if s.xstate = 0 then (s.active, s)
  else
    let (w, t) := drawWord s
    ((s.active &&& ~~~s.xstate) ||| (w &&& s.xstate), t)

/-- CSR[r] on the CePU (R31 to R74). -/
def csrRead (r : CsrReg) (s : State) : Word × State :=
  match r with
  | .mvendorid => (0, s)
  | .marchid => (0, s)
  | .mimpid => (mimpidValue s.cfg, s)
  | .mhartid => (0, s)
  | .mstatus => (s.mstatus, s)
  | .misa => (misaValue s.cfg, s)
  | .mie => (0, s)
  | .mip => (0, s)
  | .mtvec => (s.mtvec, s)
  | .mscratch => (s.mscratch, s)
  | .mepc => (s.mepc, s)
  | .mcause => (s.mcause, s)
  | .mtval => (s.mtval, s)
  | .counterLo n => let (v, t) := readCounter n s; (v.extractLsb' 0 32, t)
  | .counterHi n => let (v, t) := readCounter n s; (v.extractLsb' 32 32, t)
  | .mhpmevent _ => (0, s)
  | .mtime => (0, s)
  | .mtimeh => (0, s)
  | .mtimecmp => (0, s)
  | .mtimecmph => (0, s)
  | .pngrpsel => (s.pngrpsel, s)
  | .pnce => readPnce s
  | .pnlm => (s.pnlm, s)
  | .pnxsel => (s.pnxsel, s)
  | .pncache => (s.pncache, s)
  | .pncpus => (BitVec.ofNat 32 s.cfg.numCpus, s)
  | .pnm2cp => (pnm2cpValue s.cfg, s)
  | .pnx => (s.pnx, s)
  | .pncause => ofSelected Cpu.xcause s
  | .pnepc => ofSelected Cpu.xepc s
  | .pncacheinfo => (s.cfg.pncacheinfo, s)
  | .pncachesets => (s.cfg.cacheSets, s)
  | .pnclockinfo => (s.cfg.clockHz, s)
  | .pnmemsize => (s.cfg.memSizeReg, s)

/-- A read by CSR number on the CePU: a number that does not exist reads 0 (R59). -/
def csrReadNum (n : CsrNum) (s : State) : Word × State :=
  match csrOf s.cfg n with
  | some r => csrRead r s
  | none => (0, s)

/-! ### Writes on the CePU -/

/-- One half of a counter is written, the other is kept (R55). -/
def writeCounterLo (n : Fin 32) (v : Word) (s : State) : State :=
  setCounter n ((counter n s).extractLsb' 32 32 ++ v) s

def writeCounterHi (n : Fin 32) (v : Word) (s : State) : State :=
  setCounter n (v ++ (counter n s).extractLsb' 0 32) s

/-- The exception of the CoPUs whose bit is set is marked as handled (R354): they leave their exception state, and those
that are active wait for the next MRET (R352). -/
def markHandled (bits : Word) (s : State) : State :=
  { s with
    xstate := s.xstate &&& ~~~bits
    owed := s.owed &&& ~~~bits
    handled := s.handled ||| (bits &&& s.active) }

/-- A write to `pnce` (R62, R327, R354). -/
def writePnce (v : Word) (s : State) : Effect :=
  let req := v &&& cpuMask s
  if !v.getLsbD 0 then .refuse .cepuDisabled
  else if s.xstate &&& copuMask s &&& ~~~v ≠ 0 then .refuse .faultedCopuDisabled
  else if cpuIds.any (fun c => c != 0 && hasBit req c && s.cfg.cap c == .linked
      && (!hasBit s.pnlm c || hasBit s.pnlmIllegal c)) then
    .refuse .unlinkedWithoutFetch
  else .done (markHandled (s.xstate &&& req) { s with pnceReq := req })

/-- A write to `pnlm` (R63, R329). The bit of an inactive CoPU of capability 1 written 0 reads back as any value, and
whatever it reads, the CoPU cannot be activated before a 1 is written (U2). -/
def writePnlm (v : Word) (s : State) : Effect :=
  let new := v &&& copuMask s
  let busy := s.pnceReq ||| s.active
  if (new ^^^ s.pnlm) &&& copuMask s &&& busy ≠ 0 then .refuse .modeChangedWhileEnabled
  else
    let open' := maskOf (fun c => s.cfg.cap c == .linked) &&& copuMask s &&& ~~~new &&& ~~~busy
    if open' = 0 then .done { s with pnlm := new, pnlmIllegal := 0 }
    else
      let (w, t) := drawWord s
      .done { t with pnlm := new ||| (w &&& open'), pnlmIllegal := open' }

/-- CSR[r] <- v on the CePU: the register keeps what its fields accept (R270 (5)). A read-only register is written by
no instruction (R270 (2)). -/
def csrWrite (r : CsrReg) (v : Word) (s : State) : Effect :=
  match r with
  | .mstatus => .done { s with mstatus := mstatusWith (v.getLsbD 3) (v.getLsbD 7) }
  | .mtvec => .done { s with mtvec := align4 v }
  | .mscratch => .done { s with mscratch := v }
  | .mepc => .done { s with mepc := align4 v }
  | .mcause => .done { s with mcause := v }
  | .mtval => .done { s with mtval := v }
  | .counterLo n => .done (writeCounterLo n v s)
  | .counterHi n => .done (writeCounterHi n v s)
  | .pngrpsel => if v = 0 then .done { s with pngrpsel := v } else .refuse .groupSelect
  | .pnce => writePnce v s
  | .pnlm => writePnlm v s
  | .pnxsel => .done { s with pnxsel := v &&& cpuMask s }
  | .pncache => .done { s with pncache := v &&& (cpuBit s.cfg.ienBit ||| cpuBit s.cfg.denBit) }
  | .mie | .mip | .mhpmevent _ | .mtime | .mtimeh | .mtimecmp | .mtimecmph => .done s
  | .mvendorid | .marchid | .mimpid | .mhartid | .misa => .done s
  | .pncpus | .pnm2cp | .pnx | .pncause | .pnepc => .done s
  | .pncacheinfo | .pncachesets | .pnclockinfo | .pnmemsize => .done s

/-- A write by CSR number on the CePU: to a number that does not exist it is ignored (R59). -/
def csrWriteNum (n : CsrNum) (v : Word) (s : State) : Effect :=
  match csrOf s.cfg n with
  | some r => csrWrite r v s
  | none => .done s

/-- Is the number that of an implemented read-only register? -/
def csrReadOnly (cfg : Config) (n : CsrNum) : Bool :=
  match csrOf cfg n with
  | some r => r.readOnly
  | none => false

/-- The counter slot a write to this number writes (R278). -/
def csrCounter (cfg : Config) (n : CsrNum) : Option (Fin 32) :=
  match csrOf cfg n with
  | some (.counterLo i) => some i
  | some (.counterHi i) => some i
  | _ => none

/-! ### Accesses by a CoPU -/

/-- A CSR read by CoPU c (R79): mvendorid is 0, mhartid is c, anything else is unspecified. -/
def copuCsrRead (c : CpuId) (n : CsrNum) (s : State) : Word × State :=
  match csrOf s.cfg n with
  | some .mvendorid => (0, s)
  | some .mhartid => (BitVec.ofNat 32 c.val, s)
  | _ => drawWord s

end Sys2Proof.Machine
end

