-- ==== Sys2Proof/Machine/Csr.lean ====
section
/-! DEFINITION. The six CSR instructions (44_csr_instructions.md). -/

namespace Sys2Proof.Machine

/-- What a CSR instruction does with its operand. -/
inductive CsrOp where
  | write  -- CSRRW, CSRRWI
  | set    -- CSRRS, CSRRSI
  | clear  -- CSRRC, CSRRCI
deriving DecidableEq, Repr

/-- The value written, from the old value and the operand (R272 to R277). -/
def CsrOp.new : CsrOp → Word → Word → Word
  | .write, _, src => src
  | .set, old, src => old ||| src
  | .clear, old, src => old &&& ~~~src

/-- One CSR instruction: what it does, whether it reads and writes (R271), and its word, which an Illegal instruction
exception may report (R334). -/
structure CsrAccess where
  op     : CsrOp
  rd     : Reg
  csr    : CsrNum
  reads  : Bool
  writes : Bool
  word   : Word

/-- Is the access a set or clear of `pnce` bits while the value read, `active`, is not the value written, `pnce_req`
(R278, U7)? -/
def pnceUnsettled (a : CsrAccess) (s : State) : Bool :=
  a.writes && a.op != .write && csrOf s.cfg a.csr == some .pnce && s.pnceReq != s.active

/-- The CSR access of the CePU (R270): steps (2) to (5). -/
def cepuCsrLane (a : CsrAccess) (src : Word) (s : State) : Effect :=
  if a.writes && csrReadOnly s.cfg a.csr then .raises .illegal (illegalTval s.cfg a.word)
  else if pnceUnsettled a s then .refuse .pnceTransitionPending
  else
    let (old, t) := if a.reads then csrReadNum a.csr s else (0, s)
    let u := if a.reads then setReg 0 a.rd old t else t
    if a.writes then csrWriteNum a.csr (a.op.new old src) u else .done u

/-- The CSR access of a CoPU (R79, R279): writes are ignored. -/
def copuCsrLane (a : CsrAccess) (c : CpuId) (s : State) : Effect :=
  if a.reads then
    let (old, t) := copuCsrRead c a.csr s
    .done (setReg c a.rd old t)
  else .done s

/-- A CSR instruction on every lane. An instruction that writes a counter suppresses that counter's increment
(R278); a CoPU's write reaches no counter. -/
def csrInstr (a : CsrAccess) (src : CpuId → State → Word) (s : State) : Result :=
  finish .system (if a.writes then csrCounter s.cfg a.csr else none) (pcPlus4 s) s
    (forLanes (fun c t => if c = 0 then cepuCsrLane a (src c t) t else copuCsrLane a c t) (lanes s) s)

/-- CSRRW (R272): reads unless `rd` is x0, always writes. -/
def execCsrrw (rd : Reg) (csr : CsrNum) (rs1 : Reg) (s : State) : Result :=
  csrInstr ⟨.write, rd, csr, rd != 0, true, encode s.cfg (.csrrw rd csr rs1)⟩ (fun c t => reg c rs1 t) s

/-- CSRRS (R273): always reads, writes unless `rs1` is x0. -/
def execCsrrs (rd : Reg) (csr : CsrNum) (rs1 : Reg) (s : State) : Result :=
  csrInstr ⟨.set, rd, csr, true, rs1 != 0, encode s.cfg (.csrrs rd csr rs1)⟩ (fun c t => reg c rs1 t) s

/-- CSRRC (R274): always reads, writes unless `rs1` is x0. -/
def execCsrrc (rd : Reg) (csr : CsrNum) (rs1 : Reg) (s : State) : Result :=
  csrInstr ⟨.clear, rd, csr, true, rs1 != 0, encode s.cfg (.csrrc rd csr rs1)⟩ (fun c t => reg c rs1 t) s

/-- CSRRWI (R275): reads unless `rd` is x0, always writes. -/
def execCsrrwi (rd : Reg) (csr : CsrNum) (uimm : BitVec 5) (s : State) : Result :=
  csrInstr ⟨.write, rd, csr, rd != 0, true, encode s.cfg (.csrrwi rd csr uimm)⟩ (fun _ _ => uimm5 uimm) s

/-- CSRRSI (R276): always reads, writes unless the immediate is 0. -/
def execCsrrsi (rd : Reg) (csr : CsrNum) (uimm : BitVec 5) (s : State) : Result :=
  csrInstr ⟨.set, rd, csr, true, uimm != 0, encode s.cfg (.csrrsi rd csr uimm)⟩ (fun _ _ => uimm5 uimm) s

/-- CSRRCI (R277): always reads, writes unless the immediate is 0. -/
def execCsrrci (rd : Reg) (csr : CsrNum) (uimm : BitVec 5) (s : State) : Result :=
  csrInstr ⟨.clear, rd, csr, true, uimm != 0, encode s.cfg (.csrrci rd csr uimm)⟩ (fun _ _ => uimm5 uimm) s

end Sys2Proof.Machine
end

