-- ==== Sys2Proof/Machine/Fence.lean ====
section
/-! DEFINITION. FENCE and FENCE.I (43_memory_ordering.md). -/

namespace Sys2Proof.Machine

/-- The full fence on one lane: its store buffer is drained and its IFU buffer emptied (R114, R260). -/
def fenceLane (c : CpuId) (s : State) : Effect :=
  let t := drainAll c s
  .done (t.setCpu c { t.cpu c with ifu := [] })

/-- FENCE: whatever its fields hold (R260, R261). -/
def execFence (_fm _pred _succ : BitVec 4) (_rs1 _rd : Reg) (s : State) : Result :=
  onLanes .system (pcPlus4 s) fenceLane s

/-- FENCE.I: the behaviour of FENCE (R262); in no list of Table 3.7. -/
def execFenceI (_imm : BitVec 12) (_rs1 _rd : Reg) (s : State) : Result :=
  onLanes .uncounted (pcPlus4 s) fenceLane s

end Sys2Proof.Machine
end

