-- ==== Sys2Proof/Machine/LoadStore.lean ====
section
/-! DEFINITION. The load and store instructions (42_load_store.md). Each lane of a linked group makes its own access
(R249). -/

namespace Sys2Proof.Machine

/-- The effective address on CPU c: `x[rs1]` plus the sign-extended offset (R240). -/
def effAddr (c : CpuId) (rs1 : Reg) (imm : BitVec 12) (s : State) : Word := reg c rs1 s + imm12 imm

/-- A load of n bytes on one lane (R240): the alignment check, the access, the write of `rd`. A load from
a device reads it even if `rd` is x0 (R110). All lanes of the instruction make its one k-th read of a device, so that
loads of the group to one address return the same value (R116, log 22). -/
def loadLane (k n : Nat) (rd rs1 : Reg) (imm : BitVec 12) (value : CpuId → Word → State → Word) (c : CpuId) (s : State) :
    Effect :=
  let ea := effAddr c rs1 imm s
  if alignedTo n ea then
    wherePresent ea n s (.done (setReg c rd (value c ea { s with deviceReads := k }) (afterRead k ea n s)))
  else .raises .loadMisaligned ea

/-- A store of n bytes on one lane (R240): the alignment check and the access. -/
def storeLane (n : Nat) (rs2 rs1 : Reg) (imm : BitVec 12) (c : CpuId) (s : State) : Effect :=
  let ea := effAddr c rs1 imm s
  if alignedTo n ea then wherePresent ea n s (.done (memWrite c ea n (reg c rs2 s) s))
  else .raises .storeMisaligned ea

/-- LB: sign-extended byte (R241). -/
def execLb (rd rs1 : Reg) (imm : BitVec 12) (s : State) : Result :=
  onLanes .load (pcPlus4 s) (loadLane s.deviceReads 1 rd rs1 imm (fun c a t => (memRead8 c a t).signExtend 32)) s

/-- LH: sign-extended halfword (R242). -/
def execLh (rd rs1 : Reg) (imm : BitVec 12) (s : State) : Result :=
  onLanes .load (pcPlus4 s) (loadLane s.deviceReads 2 rd rs1 imm (fun c a t => (memRead16 c a t).signExtend 32)) s

/-- LW: word (R243). -/
def execLw (rd rs1 : Reg) (imm : BitVec 12) (s : State) : Result :=
  onLanes .load (pcPlus4 s) (loadLane s.deviceReads 4 rd rs1 imm (fun c a t => memRead32 c a t)) s

/-- LBU: zero-extended byte (R244). -/
def execLbu (rd rs1 : Reg) (imm : BitVec 12) (s : State) : Result :=
  onLanes .load (pcPlus4 s) (loadLane s.deviceReads 1 rd rs1 imm (fun c a t => (memRead8 c a t).setWidth 32)) s

/-- LHU: zero-extended halfword (R245). -/
def execLhu (rd rs1 : Reg) (imm : BitVec 12) (s : State) : Result :=
  onLanes .load (pcPlus4 s) (loadLane s.deviceReads 2 rd rs1 imm (fun c a t => (memRead16 c a t).setWidth 32)) s

/-- SB: the low byte of `x[rs2]` (R246). -/
def execSb (rs2 rs1 : Reg) (imm : BitVec 12) (s : State) : Result :=
  onLanes .store (pcPlus4 s) (storeLane 1 rs2 rs1 imm) s

/-- SH: the low halfword (R247). -/
def execSh (rs2 rs1 : Reg) (imm : BitVec 12) (s : State) : Result :=
  onLanes .store (pcPlus4 s) (storeLane 2 rs2 rs1 imm) s

/-- SW: the word (R248). -/
def execSw (rs2 rs1 : Reg) (imm : BitVec 12) (s : State) : Result :=
  onLanes .store (pcPlus4 s) (storeLane 4 rs2 rs1 imm) s

end Sys2Proof.Machine
end

