-- ==== Sys2Proof/Machine/ParaNut.lean ====
section
/-! DEFINITION. HALT, CINV, CWB and CFLUSH (46_paranut_instructions.md). -/

namespace Sys2Proof.Machine

/-- A CPU that enters Mode 0: its pc is the reset vector and its IFU is reset (R301, R322). -/
def Cpu.enterModeZero (vector : Word) (x : Cpu) : Cpu := { x with pc := vector, ifu := [] }

/-- HALT on the CePU halts the machine (R301). The instruction itself completes and is counted. -/
def haltMachine (s : State) : State :=
  let t := retire .uncounted none s
  { t.mapCpus (Cpu.enterModeZero t.cfg.resetVector) with
    halted := true
    active := t.active &&& 1
    pnceReq := t.pnceReq &&& 1 }

/-- HALT on CoPU c puts it into Mode 0 and withdraws its request (R301, D33). -/
def haltCopu (c : CpuId) (s : State) : State :=
  { s.setCpu c (Cpu.enterModeZero s.cfg.resetVector (s.cpu c)) with
    active := s.active &&& ~~~cpuBit c
    pnceReq := s.pnceReq &&& ~~~cpuBit c }

/-- HALT (R301). -/
def execHalt (s : State) : Result :=
  if s.cur = 0 then .next (haltMachine s) else .next (haltCopu s.cur s)

/-- A cache operation on one lane: it acts on the line of its effective address after the lane's earlier stores have
reached the MemU (R123, R302 to R305). -/
def cacheLane (act : Nat → State → State) (base : Reg) (off : BitVec 12) (c : CpuId) (s : State) : Effect :=
  let ea := reg c base s + imm12 off
  wherePresent ea 1 s (.done (act (lineOf s.cfg ea.toNat) (drainAll c s)))

/-- CINV: the line is dropped without write-back (R302). -/
def execCinv (base : Reg) (off : BitVec 12) (s : State) : Result :=
  onLanes .uncounted (pcPlus4 s) (cacheLane dropLine base off) s

/-- CWB: the line is written back and stays (R303). -/
def execCwb (base : Reg) (off : BitVec 12) (s : State) : Result :=
  onLanes .uncounted (pcPlus4 s) (cacheLane writeBackLine base off) s

/-- CFLUSH: the write-back and the invalidation as one instruction (R304). -/
def execCflush (base : Reg) (off : BitVec 12) (s : State) : Result :=
  onLanes .uncounted (pcPlus4 s) (cacheLane flushLine base off) s

end Sys2Proof.Machine
end

