-- ==== Sys2Proof/Machine/System.lean ====
section
/-! DEFINITION. ECALL, EBREAK and MRET (45_env_trap_return.md). -/

namespace Sys2Proof.Machine

/-- ECALL (R291): raises code 11 with trap value 0. -/
def execEcall (s : State) : Result := raiseException .system .ecallM 0 s

/-- The trap value of Breakpoint: MTVAL_EBREAK (R334). -/
def ebreakTval (s : State) : Word := if s.cfg.mtvalEbreakAddr then curPc s else 0

/-- EBREAK (R292): raises code 3. -/
def execEbreak (s : State) : Result := raiseException .system .breakpoint (ebreakTval s) s

/-- MRET (R293, R343): the return from a trap, on the CePU; on a CoPU, linked or not, the spec gives it no meaning
(D32, U26). -/
def execMret (s : State) : Result :=
  if s.cur = 0 ∧ grouped s = false then .next (retire .system none (trapReturn s))
  else .refused .mretOnCopu

end Sys2Proof.Machine
end

