-- ==== Sys2Proof/Machine/Sched.lean ====
section
/-! DEFINITION. What the machine does beside executing instructions, at times software does not control (R83, R113,
R115, R120, R327), and which CPU executes next (R411). -/

namespace Sys2Proof.Machine

/-! ### Store buffers (R113) -/

/-- Does a buffered store write to UNCACHED_REGIONS? -/
def Store.uncached (cfg : Config) (st : Store) : Bool := st.any (fun x => uncachedAt cfg x.1)

/-- May a store overtake these older ones? Not one to the same byte (R113), and uncached stores keep their order
(R115). -/
def mayPass (cfg : Config) (st : Store) (older : List Store) : Bool :=
  older.all (fun y => Store.disjoint st y && !(Store.uncached cfg st && Store.uncached cfg y))

/-- CPU c's k-th youngest store leaves its buffer and reaches the MemU. -/
def drainStore (c : CpuId) (k : Nat) (s : State) : State :=
  let buf := (s.cpu c).sbuf
  match buf[k]? with
  | some st =>
    if mayPass s.cfg st (buf.drop (k + 1)) then
      let t := commitStore st s
      t.setCpu c { t.cpu c with sbuf := buf.eraseIdx k }
    else s
  | none => s

/-- Do the buffers of CPU c change by themselves now? While a trap is handled a suspended CoPU's buffers keep their
values, but that its stores continue to drain (R341). -/
def awake (s : State) (c : CpuId) : Bool := c == 0 || !s.inTrap

/-- CPU c's k-th youngest store is merged into the older one at j, which writes the same word ("write combining"). -/
def combineStores (c : CpuId) (k j : Nat) (s : State) : State :=
  let buf := (s.cpu c).sbuf
  match buf[k]?, buf[j]? with
  | some young, some old =>
    if awake s c ∧ k < j ∧ Store.sameWord young old ∧ !Store.uncached s.cfg old ∧ mayPass s.cfg young ((buf.take j).drop (k + 1)) then
      s.setCpu c { s.cpu c with sbuf := (buf.set j (Store.merge old young)).eraseIdx k }
    else s
  | _, _ => s

/-! ### The cache (R120, R121) -/

/-- May an access use the cache at an address: is it main memory outside UNCACHED_REGIONS (R110, R115)? -/
def cacheableAt (cfg : Config) (a : Nat) : Bool := addrKind cfg a == .memory && !uncachedAt cfg a

/-- Can line n come into the cache? It can if an access may use the cache at one of its bytes. DESIGN CHOICE (log 41): a
line wholly in UNCACHED_REGIONS is never loaded, and one at an edge of them, as one at an edge of main memory (log 42),
is loaded and written back whole. -/
def lineCacheable (cfg : Config) (n : Nat) : Bool :=
  (List.range cfg.lineBytes).any (fun i => cacheableAt cfg (n * cfg.lineBytes + i))

/-- Line n is loaded, which may happen at any time (R120) to a line that can be cached (log 41). -/
def allocateLine (n : Nat) (s : State) : State := if lineCacheable s.cfg n then loadLine n s else s

/-- Line n is evicted: "written back if it holds newer data, then dropped" (R120). -/
def evictLine (n : Nat) (s : State) : State :=
  match Cache.find s.cache n with
  | some l => if l.dirty then dropLine n (writeBackLine n s) else dropLine n s
  | none => s

/-! ### Instruction prefetch (R83) -/

/-- Does CPU c fetch instructions now (R101, R341)? -/
def fetches (s : State) (c : CpuId) : Bool :=
  (c == 0 && !s.halted) || (c != 0 && modeOf s c == .unlinked && awake s c)

/-- CPU c's IFU buffer without what it holds for an address. -/
def forgetFetch (c : CpuId) (a : Word) (s : State) : State :=
  s.setCpu c { s.cpu c with ifu := (s.cpu c).ifu.filter (fun x => x.1 != a) }

/-- CPU c's IFU drops what it prefetched from an address. -/
def dropFetch (c : CpuId) (a : Word) (s : State) : State := if awake s c then forgetFetch c a s else s

/-- CPU c's IFU buffer takes the word at an address. DESIGN CHOICE (log 29): the buffer, whose depth is not stated (R83), has
room for words from any number of addresses, and any address of main memory may be fetched from. -/
def prefetchWord (c : CpuId) (a : Word) (s : State) : State :=
  if fetches s c && accessKind s.cfg a 4 == .memory then
    let t := forgetFetch c a s
    t.setCpu c { t.cpu c with ifu := (a, memuWord a s) :: (t.cpu c).ifu }
  else s

/-! ### Activation and deactivation (R325, R327) -/

/-- Thirty-two free values, drawn from the n-th on. -/
def freeRegs (n : Nat) : Vector Word 32 := ⟨⟨(List.range 32).map (fun i => Free.word (n + i))⟩, by simp⟩

/-- CoPU c becomes active: in Mode 2 at the reset vector (R325), with general registers of any value (U24). -/
def activateCopu (c : CpuId) (s : State) : State :=
  let x := s.cpu c
  { s.setCpu c { x with
      regs := freeRegs s.drawn
      pc := if hasBit s.pnlm c then x.pc else s.cfg.resetVector } with
    active := s.active ||| cpuBit c
    drawn := s.drawn + 32 }

/-- CoPU c reaches Mode 0: its pc is the reset vector and its IFU is reset (R327 (b)). Its registers keep their values:
DESIGN CHOICE (log 16), which its next activation undoes. -/
def deactivateCopu (c : CpuId) (s : State) : State :=
  { s.setCpu c { s.cpu c with pc := s.cfg.resetVector, ifu := [] } with
    active := s.active &&& ~~~cpuBit c
    handled := s.handled &&& ~~~cpuBit c }

/-- Is an activation or deactivation of CoPU c pending, and may it happen now (R327, R341)? -/
def pendingFor (s : State) (c : CpuId) : Bool :=
  c != 0 && decide (c.val < s.cfg.numCpus) && !s.inTrap && (hasBit s.pnceReq c != hasBit s.active c)

/-- The pending transition of CoPU c happens. -/
def settleCopu (c : CpuId) (s : State) : State :=
  if pendingFor s c then (if hasBit s.pnceReq c then activateCopu c s else deactivateCopu c s) else s

/-! ### Other bus masters (R115) -/

/-- Another bus master writes a byte of main memory, beside the cache. -/
def busWrite (a : Word) (b : Byte) (s : State) : State :=
  if addrKind s.cfg a.toNat = .memory then writeBeside a.toNat b s else s

/-! ### Turns -/

/-- One event happens, if it can. -/
def applyEvent (s : State) : Event → State
  | .drain c k => drainStore c k s
  | .combine c k j => combineStores c k j s
  | .allocate n => allocateLine n s
  | .evict n => evictLine n s
  | .prefetch c a => prefetchWord c a s
  | .forget c a => dropFetch c a s
  | .settle c => settleCopu c s
  | .busWrite a b => busWrite a b s

/-- The drain of CPU c's oldest buffered store. -/
def oldestDrain (s : State) (c : CpuId) : List Event :=
  match (s.cpu c).sbuf.length with
  | 0 => []
  | k + 1 => [.drain c k]

/-- The events of a default turn: of every store buffer the oldest store drains, and every pending transition
happens. -/
def defaultEvents (s : State) : List Event :=
  cpuIds.flatMap (oldestDrain s) ++ (cpuIds.filter (pendingFor s)).map .settle

/-- The next CPU in rising order, round after the one that executed last, that can execute an instruction. -/
def nextRunnable (s : State) : CpuId :=
  (((List.range 32).map (fun i => Fin.ofNat 32 (s.cur.val + 1 + i))).find? (runnable s)).getD 0

/-- The turn when no agenda is given: one of the behaviours R411 admits. DESIGN CHOICE (log 4). -/
def defaultTurn (s : State) : Turn :=
  ⟨defaultEvents s, nextRunnable s, true, []⟩

/-- The turn to come and the agenda after it. -/
def nextTurn (s : State) : Turn × List Turn :=
  match s.agenda with
  | t :: rest => (t, rest)
  | [] => (defaultTurn s, [])

/-- The turn's events happen and its CPU is chosen. -/
def beginTurn (s : State) : State :=
  let (t, rest) := nextTurn s
  { t.events.foldl applyEvent s with agenda := rest, cur := t.who, laneOrder := t.order }

/-- Does the CePU answer CoPU exceptions in this turn (R353)? -/
def responds (s : State) : Bool := (nextTurn s).1.respond

/-- Is COPU_EXC_GATE open (R353)? -/
def gateOpen (s : State) : Bool :=
  match s.cfg.excGate with
  | .inTrap => !s.inTrap
  | .mie => mie s

/-- Does the CePU take a cause-16 trap instead of its next instruction (R353)? After an MRET at once for the CoPUs
still in exception state (R356), otherwise when the turn says so. -/
def copuTrapDue (respond : Bool) (s : State) : Bool :=
  s.cur == 0 && gateOpen s && s.xstate &&& copuMask s != 0
    && (respond || s.owed &&& s.xstate &&& copuMask s != 0)

end Sys2Proof.Machine
end

