-- ==== Sys2Proof/Machine/Fetch.lean ====
section
/-! DEFINITION. Fetching an instruction word (R101, R103, R118), what a word that is no instruction does (R160), and
placing a word where the next step fetches. -/

namespace Sys2Proof.Machine

/-- The word an IFU buffer holds for an address. -/
def prefetched (a : Word) : List (Word × Word) → Option Word
  | [] => none
  | (k, w) :: rest => if k = a then some w else prefetched a rest

/-- The word the executing CPU fetches at its pc: one its IFU fetched earlier and still holds (R118), else the
MemU's. A fetch where the platform has nothing has no behaviour (R111). -/
def fetchWord (s : State) : Except Result Word :=
  let a := curPc s
  match prefetched a (s.cpu s.cur).ifu with
  | some w => .ok w
  | none =>
    match accessKind s.cfg a 4 with
    | .memory => .ok (memuWord a s)
    | .device => .ok (memuWord a s)
    | .absent => .error (.fault (.absentAddress a))

/-- The state in which a fetched instruction executes: a fetch from a device has read the device. -/
def afterFetch (s : State) : State :=
  match prefetched (curPc s) (s.cpu s.cur).ifu with
  | some _ => s
  | none => afterRead s.deviceReads (curPc s) 4 s

/-- What a word does that is no instruction: it raises Illegal instruction (R160 (a) to (c)), or it is a reserved
CUSTOM-0 word (R160 (d)). `truncated` is no error of a word. -/
def undecoded (e : DecodeError) (w : Word) (s : State) : Result :=
  match e with
  | .illegal => raiseException .uncounted .illegal (illegalTval s.cfg w) s
  | .reservedCustom0 => .refused .reservedCustom0
  | .truncated => .refused .reservedCustom0

/-- A turn in which the CePU executes one instruction and nothing else happens. -/
def plainTurn : Turn := ⟨[], 0, false, []⟩

/-- Will the next turn be the CePU's, with nothing else happening? -/
def quiet (s : State) : Bool :=
  s.agenda.isEmpty && (defaultEvents s).isEmpty && nextRunnable s == 0 && s.xstate == 0

/-- Is the next turn the CePU's alone? If not, a plain turn is put before the others. -/
def cepuNext (s : State) : State :=
  if quiet s then s else { s with agenda := plainTurn :: s.agenda, owed := 0 }

/-- A byte is put where CPU 0's fetches read it. -/
def placeByte (a : Word) (b : Byte) (s : State) : State := memuWrite (instrCached s a.toNat) a.toNat b s

/-- A word is put where the CePU fetches its next instruction: four bytes at its pc, low byte first (R103), nothing
older being held in its IFU buffer. -/
def placeWord (w : Word) (s : State) : State :=
  let a := pcOf 0 s
  cepuNext (placeByte (a + 3) (byteOf w 3) (placeByte (a + 2) (byteOf w 2)
    (placeByte (a + 1) (byteOf w 1) (placeByte a (byteOf w 0) (forgetFetch 0 a s)))))

end Sys2Proof.Machine
end

