-- ==== Sys2Proof/Machine/Step.lean ====
section
/-! DEFINITION. The step of the machine and the placing of an instruction where the next step fetches. -/

namespace Sys2Proof.Machine

/-- The chosen CPU fetches, decodes and executes one instruction. -/
def executeNext (s : State) : Result :=
  match fetchWord s with
  | .error r => r
  | .ok w =>
    match decode s.cfg w with
    | .ok i => exec i (afterFetch s)
    | .error e => undecoded e w (afterFetch s)

/-- One turn: its events happen; then the CPU it names executes one instruction if it can, the CePU taking a CoPU
exception instead if one is due (R353). -/
def step (s : State) : Host.Outcome State Fault Refusal :=
  let t := beginTurn s
  if runnable t t.cur then
    if copuTrapDue (responds s) t then .next (trapEntry .copu 0 t) else executeNext t
  else .next t

/-- The state with an instruction's bits stored where step fetches its next instruction. Every instruction has 32
bits (R7), so the number of bits the table gives says nothing more. -/
def State.withFetchWord (s : State) (_nbits w : Nat) : State := placeWord (BitVec.ofNat 32 w) s

end Sys2Proof.Machine
end

