-- ==== Sys2Proof/Safety.lean ====
section
/-! DEFINITION. The terms the statements use: what an instruction leaves unchanged, what a trap does, the invariants of
the machine, and which stops a run is not to reach. -/

namespace Sys2Proof.Machine

/-! ### What stays unchanged -/

/-- Every general register of every CPU. -/
def SameRegs (s t : State) : Prop := ∀ c r, reg c r t = reg c r s

/-- The program counter of every CPU but one. -/
def SamePcsBut (d : CpuId) (s t : State) : Prop := ∀ c, c ≠ d → pcOf c t = pcOf c s

/-- Every performance counter. -/
def SameCounters (s t : State) : Prop := ∀ n, counter n t = counter n s

/-- The CSRs of the CePU that hold state. -/
structure SameCsrs (s t : State) : Prop where
  mstatus  : t.mstatus = s.mstatus
  mtvec    : t.mtvec = s.mtvec
  mscratch : t.mscratch = s.mscratch
  mepc     : t.mepc = s.mepc
  mcause   : t.mcause = s.mcause
  mtval    : t.mtval = s.mtval
  pngrpsel : t.pngrpsel = s.pngrpsel
  pnceReq  : t.pnceReq = s.pnceReq
  active   : t.active = s.active
  pnlm     : t.pnlm = s.pnlm
  pnxsel   : t.pnxsel = s.pnxsel
  pncache  : t.pncache = s.pncache
  pnx      : t.pnx = s.pnx

/-- The exception and mode state that is no CSR (R80, R81), with the CoPUs that wait for an MRET (R354) and those whose
`pnlm` bit is illegal (U2). -/
structure SameModes (s t : State) : Prop where
  xstate : t.xstate = s.xstate
  handled : t.handled = s.handled
  illegal : t.pnlmIllegal = s.pnlmIllegal
  inTrap : t.inTrap = s.inTrap
  halted : t.halted = s.halted
  xcause : ∀ c, (t.cpu c).xcause = (s.cpu c).xcause
  xepc   : ∀ c, (t.cpu c).xepc = (s.cpu c).xepc

/-- Memory: main memory, the cache, every store buffer, and so every byte as every CPU reads it. -/
structure SameMemory (s t : State) : Prop where
  main  : t.main = s.main
  cache : t.cache = s.cache
  sbuf  : ∀ c, (t.cpu c).sbuf = (s.cpu c).sbuf
  bytes : ∀ c a, readByte c a t = readByte c a s

/-- Every IFU buffer. -/
def SameFetch (s t : State) : Prop := ∀ c, (t.cpu c).ifu = (s.cpu c).ifu

/-- The configuration and the model's own fields. -/
structure SameModel (s t : State) : Prop where
  cfg       : t.cfg = s.cfg
  cur       : t.cur = s.cur
  laneOrder : t.laneOrder = s.laneOrder
  agenda    : t.agenda = s.agenda
  drawn     : t.drawn = s.drawn
  owed      : t.owed = s.owed
  devices   : t.deviceReads = s.deviceReads

/-- All but general registers, program counters, performance counters and memory. -/
structure SameSystem (s t : State) : Prop where
  csrs  : SameCsrs s t
  modes : SameModes s t
  model : SameModel s t

/-! ### Counting -/

/-- The performance counters after an instruction of a class completed: on the CePU minstret and the class's event
counter have counted it, if they exist; nothing else has changed (R51, R53, R330). -/
def Counted (k : EventClass) (s t : State) : Prop :=
  ∀ n, counter n t =
    if s.cur = 0 ∧ (n = 2 ∨ k.slot = some n) ∧ counterExists s.cfg n = true
    then BitVec.ofNat 64 (((counter n s).toNat + 1) % 2 ^ counterWidth s.cfg n)
    else counter n s

/-! ### An instruction's own effect -/

/-- The instruction writes one general register on every lane, each with a value of the state before, goes on at an
address, is counted, and changes nothing else. -/
def WritesReg (i : Instr) (k : EventClass) (rd : Reg) (next : State → Word) (v : CpuId → State → Word) (s : State) :
    Prop :=
  ∃ t, exec i s = .next t ∧
    (∀ c ∈ lanes s, reg c rd t = if rd = 0 then 0 else v c s) ∧
    (∀ c r, (c ∉ lanes s ∨ r ≠ rd) → reg c r t = reg c r s) ∧
    pcOf s.cur t = next s ∧ SamePcsBut s.cur s t ∧ Counted k s t ∧
    SameSystem s t ∧ SameMemory s t ∧ SameFetch s t

/-- The instruction goes on at an address, is counted, and changes nothing else. -/
def OnlyGoesOn (i : Instr) (k : EventClass) (next : Word) (s : State) : Prop :=
  ∃ t, exec i s = .next t ∧ pcOf s.cur t = next ∧ SamePcsBut s.cur s t ∧ SameRegs s t ∧ Counted k s t ∧
    SameSystem s t ∧ SameMemory s t ∧ SameFetch s t

/-! ### Traps -/

/-- The CePU took a trap with a code, a trap value and the address of the instruction in `mepc` (R340), and nothing
else changed but, perhaps, the event counter of the trapping instruction's class (U14). -/
structure TookTrap (k : EventClass) (code tval addr : Word) (s t : State) : Prop where
  mepc     : t.mepc = addr &&& ~~~3
  mcause   : t.mcause = code
  mtval    : t.mtval = tval
  pnx      : t.pnx = s.xstate &&& copuMask s
  mstatus  : t.mstatus = if s.mstatus.getLsbD 3 then 0x80 else 0
  inTrap   : t.inTrap = true
  pc       : pcOf 0 t = s.mtvec &&& ~~~3
  pcs      : SamePcsBut 0 s t
  regs     : SameRegs s t
  mtvec    : t.mtvec = s.mtvec
  mscratch : t.mscratch = s.mscratch
  pngrpsel : t.pngrpsel = s.pngrpsel
  pnceReq  : t.pnceReq = s.pnceReq
  active   : t.active = s.active
  pnlm     : t.pnlm = s.pnlm
  pnxsel   : t.pnxsel = s.pnxsel
  pncache  : t.pncache = s.pncache
  xstate   : t.xstate = s.xstate
  handled  : t.handled = s.handled
  illegal  : t.pnlmIllegal = s.pnlmIllegal
  halted   : t.halted = s.halted
  xcause   : ∀ c, (t.cpu c).xcause = (s.cpu c).xcause
  xepc     : ∀ c, (t.cpu c).xepc = (s.cpu c).xepc
  memory   : SameMemory s t
  fetch    : SameFetch s t
  cfg      : t.cfg = s.cfg
  devices  : t.deviceReads = s.deviceReads
  counters : ∀ n, k.slot ≠ some n → counter n t = counter n s

/-- CoPU c entered its exception state (R352), and nothing else changed. -/
structure TookCopuException (c : CpuId) (code : Word) (s t : State) : Prop where
  xstate   : t.xstate = s.xstate ||| cpuBit c
  xcause   : (t.cpu c).xcause = code
  xepc     : (t.cpu c).xepc = pcOf c s &&& ~~~3
  others   : ∀ d, d ≠ c → t.cpu d = s.cpu d
  pcs      : ∀ d, pcOf d t = pcOf d s
  regs     : SameRegs s t
  csrs     : SameCsrs s t
  handled  : t.handled = s.handled
  illegal  : t.pnlmIllegal = s.pnlmIllegal
  inTrap   : t.inTrap = s.inTrap
  halted   : t.halted = s.halted
  memory   : SameMemory s t
  fetch    : SameFetch s t
  model    : SameModel s t
  counters : SameCounters s t

/-- An instruction that raises an exception with a code and a trap value and has no effect of its own: a trap on the
CePU, the exception state on a CoPU. -/
def Raises (i : Instr) (k : EventClass) (code tval : Word) (s : State) : Prop :=
  ∃ t, exec i s = .next t ∧
    if s.cur = 0 then TookTrap k code tval (curPc s) s t else TookCopuException s.cur code s t

/-! ### CSR instructions -/

/-- What a CSR instruction of the CePU never changes, whatever it accesses: a register but `rd` of the lanes, where in the
other lanes of a linked group `rd` takes a value of its own (R79), a pc but the CePU's, which goes on, memory, and the
fetch buffers. -/
structure CsrFrame (rd : Reg) (s t : State) : Prop where
  regs   : ∀ c r, (c ∉ lanes s ∨ r ≠ rd) → reg c r t = reg c r s
  pc     : pcOf 0 t = pcPlus4 s
  pcs    : SamePcsBut 0 s t
  memory : SameMemory s t
  fetch  : SameFetch s t

/-- All but general registers, program counters, performance counters, memory and the number of drawn values, which
stays too unless another lane of a linked group draws. -/
structure SameSystemButDrawn (s t : State) : Prop where
  system : SameSystem s { t with drawn := s.drawn }
  drawn  : grouped s = false → t.drawn = s.drawn

/-- The instruction puts a value into the CePU's `rd`, is counted, and changes nothing else but `rd` of the other lanes. -/
def ReadsCsr (i : Instr) (rd : Reg) (v : Word) (s : State) : Prop :=
  ∃ t, exec i s = .next t ∧ reg 0 rd t = (if rd = 0 then 0 else v) ∧ CsrFrame rd s t ∧ Counted .system s t ∧
    SameSystemButDrawn s t

/-- The forms that write (R271), each with the value it writes, from the value the CSR reads (R272 to R277). -/
def csrWriteForms (rd : Reg) (n : CsrNum) (src : BitVec 5) (old : Word) (s : State) : List (Instr × Word) :=
  let x := reg 0 src s
  let z : Word := src.setWidth 32
  [(.csrrw rd n src, x), (.csrrwi rd n src, z)] ++
    (if src = 0 then []
     else [(.csrrs rd n src, old ||| x), (.csrrc rd n src, old &&& ~~~x),
       (.csrrsi rd n src, old ||| z), (.csrrci rd n src, old &&& ~~~z)])

/-- The instruction reads `old` from a CSR into the CePU's `rd` and writes the CSR, is counted, and comes to a state in
which P holds of everything else. -/
def WritesCsr (i : Instr) (rd : Reg) (old : Word) (s : State) (P : State → Prop) : Prop :=
  ∃ t, exec i s = .next t ∧ reg 0 rd t = (if rd = 0 then 0 else old) ∧ CsrFrame rd s t ∧ Counted .system s t ∧ P t

/-- Words that agree in the bits of all CPUs but some. -/
def AgreeBut (mask x y : Word) : Prop := x &&& ~~~mask = y &&& ~~~mask

/-- The read-write trap CSRs of the CePU (R35, R43 to R47). -/
inductive PlainCsr where
  | mstatus | mtvec | mscratch | mepc | mcause | mtval
deriving DecidableEq, Repr

def PlainCsr.num : PlainCsr → CsrNum
  | .mstatus => 0x300
  | .mtvec => 0x305
  | .mscratch => 0x340
  | .mepc => 0x341
  | .mcause => 0x342
  | .mtval => 0x343

def PlainCsr.get : PlainCsr → State → Word
  | .mstatus, s => s.mstatus
  | .mtvec, s => s.mtvec
  | .mscratch, s => s.mscratch
  | .mepc, s => s.mepc
  | .mcause, s => s.mcause
  | .mtval, s => s.mtval

/-- What the register keeps of a written word. -/
def PlainCsr.keeps : PlainCsr → Word → Word
  | .mstatus, v => v &&& 0x88
  | .mtvec, v => v &&& ~~~3
  | .mscratch, v => v
  | .mepc, v => v &&& ~~~3
  | .mcause, v => v
  | .mtval, v => v

/-- The state with a value in the register. -/
def PlainCsr.put : PlainCsr → Word → State → State
  | .mstatus, v, s => { s with mstatus := v }
  | .mtvec, v, s => { s with mtvec := v }
  | .mscratch, v, s => { s with mscratch := v }
  | .mepc, v, s => { s with mepc := v }
  | .mcause, v, s => { s with mcause := v }
  | .mtval, v, s => { s with mtval := v }

/-- The instruction reads a plain CSR into `rd` and, if a new value is given, writes it; it goes on, is counted, and
changes nothing else. -/
def AccessesCsr (i : Instr) (p : PlainCsr) (rd : Reg) (new : Option Word) (s : State) : Prop :=
  ∃ t, exec i s = .next t ∧
    p.get t = (match new with | some v => p.keeps v | none => p.get s) ∧
    reg 0 rd t = (if rd = 0 then 0 else p.get s) ∧ CsrFrame rd s t ∧ Counted .system s t ∧
    SameSystemButDrawn s (p.put (p.get s) t)

/-- The six CSR instructions on one CSR number, with a register or an immediate as the operand. -/
def csrInstrs (rd : Reg) (n : CsrNum) (src : BitVec 5) : List Instr :=
  [.csrrw rd n src, .csrrs rd n src, .csrrc rd n src, .csrrwi rd n src, .csrrsi rd n src, .csrrci rd n src]

/-- The four forms that read without writing (R271). -/
def csrReads (rd : Reg) (n : CsrNum) : List Instr :=
  [.csrrs rd n 0, .csrrc rd n 0, .csrrsi rd n 0, .csrrci rd n 0]

/-- The numbers that read a fixed 0 and ignore writes: mie, mip, mtime to mtimecmph (R41, R42, R58) and mhpmevent3 to
mhpmevent31 (R54). -/
def fixedZeroCsrs : List CsrNum :=
  [0x304, 0x344, 0xF01, 0xF02, 0xF03, 0xF04] ++ (List.range 29).map (fun i => BitVec.ofNat 12 (0x323 + i))

/-- What the CSRs without a counter, a draw or a selection read on the CePU, by number (R31 to R37, R61 to R74). -/
def csrValues (s : State) : List (CsrNum × Word) :=
  [(0xF11, 0), (0xF12, 0), (0xF13, 2#4 ++ s.cfg.mimpidLow), (0xF14, 0),
   (0x301, if s.cfg.misaX then 0x40800100 else 0x40000100),
   (s.cfg.csrNums.grpsel, s.pngrpsel), (s.cfg.csrNums.lm, s.pnlm), (s.cfg.csrNums.xsel, s.pnxsel),
   (s.cfg.csrNums.cache, s.pncache), (s.cfg.csrNums.cpus, BitVec.ofNat 32 s.cfg.numCpus),
   (s.cfg.csrNums.m2cp, pnm2cpValue s.cfg), (s.cfg.csrNums.x, s.pnx),
   (s.cfg.csrNums.cacheinfo, s.cfg.pncacheinfo), (s.cfg.csrNums.cachesets, s.cfg.cacheSets),
   (s.cfg.csrNums.clockinfo, s.cfg.clockHz), (s.cfg.csrNums.memsize, s.cfg.memSizeReg)]

/-- The numbers of the read-only registers (R270). -/
def readOnlyCsrs (cfg : Config) : List CsrNum :=
  [0xF11, 0xF12, 0xF13, 0xF14, 0x301, cfg.csrNums.cpus, cfg.csrNums.m2cp, cfg.csrNums.x, cfg.csrNums.cause,
   cfg.csrNums.epc, cfg.csrNums.cacheinfo, cfg.csrNums.cachesets, cfg.csrNums.clockinfo, cfg.csrNums.memsize]

/-- The forms that write (R271). -/
def csrWrites (rd : Reg) (n : CsrNum) (src : BitVec 5) : List Instr :=
  [.csrrw rd n src, .csrrwi rd n src] ++
    (if src = 0 then [] else [.csrrs rd n src, .csrrc rd n src, .csrrsi rd n src, .csrrci rd n src])

/-! ### Invariants -/

/-- Everything that becomes a program counter is a multiple of four (R26, R43, R45). -/
structure AlignedInv (s : State) : Prop where
  vector : s.cfg.resetVector &&& 3 = 0
  pc     : ∀ c, pcOf c s &&& 3 = 0
  xepc   : ∀ c, (s.cpu c).xepc &&& 3 = 0
  mtvec  : s.mtvec &&& 3 = 0
  mepc   : s.mepc &&& 3 = 0

/-- The fixed bits of the CSRs read as the spec says (R35, R61, R63 to R65, R68). -/
structure CsrInv (s : State) : Prop where
  mstatus  : s.mstatus &&& ~~~0x88 = 0
  pngrpsel : s.pngrpsel = 0
  pnlm     : s.pnlm &&& ~~~copuMask s = 0
  pnxsel   : s.pnxsel &&& ~~~cpuMask s = 0
  pncache  : s.pncache &&& ~~~(cpuBit s.cfg.ienBit ||| cpuBit s.cfg.denBit) = 0
  pnx      : s.pnx &&& ~~~copuMask s = 0

/-- The execution modes are legal (R62, R80, R81, R301, R328): the CePU's bit of pnce is set, only CPUs that exist
have bits set, no CoPU of capability 1 is in Mode 2 or on its way there, whatever its bit of pnlm reads (U2), a halted
machine has no active CoPU, and only CoPUs wait for an MRET, none of them in exception state (R354). -/
structure ModeInv (s : State) : Prop where
  numCpus : 1 ≤ s.cfg.numCpus ∧ s.cfg.numCpus ≤ 32
  cepu    : s.active.getLsbD 0 = true ∧ s.pnceReq.getLsbD 0 = true
  active  : s.active &&& ~~~cpuMask s = 0
  pnceReq : s.pnceReq &&& ~~~cpuMask s = 0
  xstate  : s.xstate &&& ~~~copuMask s = 0
  linked  : ∀ c : CpuId, c ≠ 0 → c.val < s.cfg.numCpus → s.cfg.cap c = .linked →
    (hasBit s.active c = true ∨ hasBit s.pnceReq c = true) → hasBit s.pnlm c = true ∧ hasBit s.pnlmIllegal c = false
  halted  : s.halted = true → s.active &&& copuMask s = 0 ∧ s.pnceReq &&& copuMask s = 0
  handled : s.handled &&& ~~~copuMask s = 0 ∧ s.handled &&& s.xstate = 0

/-- A buffered store: bytes of one aligned word, each once (R82, R105). -/
def Store.wf (st : Store) : Prop := (st.map Prod.fst).Nodup ∧ Store.sameWord st st = true

/-- Memory is in canonical form: main memory as Memory.wf says, the cache by rising line numbers with whole lines, and
every buffered store within one word. -/
structure MemoryInv (s : State) : Prop where
  main  : Memory.wf s.main
  order : s.cache.Pairwise (fun x y => x.num < y.num)
  whole : ∀ l ∈ s.cache, l.data.length = s.cfg.lineBytes ∧ l.foreign.length = s.cfg.lineBytes
  sbuf  : ∀ c, ∀ st ∈ (s.cpu c).sbuf, Store.wf st

/-- The counters stay within their widths (R51). -/
def CounterInv (s : State) : Prop := ∀ n, (counter n s).toNat < 2 ^ counterWidth s.cfg n

/-! ### Access conditions -/

/-- Every lane's access of n bytes is aligned and reaches memory. -/
def AccessesOk (n : Nat) (rs1 : Reg) (imm : BitVec 12) (s : State) : Prop :=
  ∀ c ∈ lanes s, alignedTo n (effAddr c rs1 imm s) = true ∧ accessKind s.cfg (effAddr c rs1 imm s) n = .memory

/-- Every lane's access of n bytes is aligned and reaches memory or a device. -/
def AccessesPresent (n : Nat) (rs1 : Reg) (imm : BitVec 12) (s : State) : Prop :=
  ∀ c ∈ lanes s, alignedTo n (effAddr c rs1 imm s) = true ∧ accessKind s.cfg (effAddr c rs1 imm s) n ≠ .absent

/-- A lane's address is one of the n bytes of its access. -/
def InAccess (n : Nat) (ea : Word) (a : Nat) : Prop := ea.toNat ≤ a ∧ a < ea.toNat + n

end Sys2Proof.Machine
end

