-- ==== Sys2Proof/Certificates/Slice0/Obligations.lean ====
section
/-! DEFINITION. The statements for the provers, from the numbered rules of spec/. -/

open Sys2Proof Sys2Proof.Machine

/-! ### Encoding -/

/-- Decoding the encoding of a well-formed instruction gives it back, whatever the configured codes (R141 to R153). -/
def Obligations.DecodeOfEncode : Prop :=
  ∀ cfg, Config.Wf cfg → ∀ i : Instr, i.wf = true → decode cfg (encode cfg i) = .ok i

/-- No two words are the same instruction: a word that decodes is the encoding of what it decodes to (R156). -/
def Obligations.EncodeOfDecode : Prop :=
  ∀ cfg w i, decode cfg w = .ok i → encode cfg i = w ∧ i.wf = true

/-- Words of the spec's tables and the instructions they are. -/
def Obligations.WrittenWordsDecode : Prop :=
  decode Config.default 0xFFF30293 = .ok (.addi 5 6 0xFFF) ∧
  decode Config.default 0x41F35293 = .ok (.srai 5 6 31) ∧
  decode Config.default 0x407302B3 = .ok (.sub 5 6 7) ∧
  decode Config.default 0xFFFFF2B7 = .ok (.lui 5 0xFFFFF) ∧
  decode Config.default 0xFFDFF06F = .ok (.jal 0 0x1FFFFC) ∧
  decode Config.default 0xFE731CE3 = .ok (.bne 6 7 0x1FF8) ∧
  decode Config.default 0x00832283 = .ok (.lw 5 6 8) ∧
  decode Config.default 0xFE731F23 = .ok (.sh 7 6 0xFFE) ∧
  decode Config.default 0x0310000F = .ok (.fence 0 3 1 0 0) ∧
  decode Config.default 0x340FD073 = .ok (.csrrwi 0 0x340 31) ∧
  decode Config.default 0x30200073 = .ok .mret ∧
  decode Config.default 0x0103100B = .ok (.cinv 6 16)

/-- Words that are no instruction are refused by name: outside the twelve major opcodes, or with opcode bits 1:0 other
than 11, as illegal; under the eleven standard ones never as reserved; under CUSTOM-0 never as illegal; and no word is
truncated (R145, R160). -/
def Obligations.UndecodableWords : Prop :=
  ∀ cfg w,
    (opcodeOf w ∉ [0x03, 0x0B, 0x0F, 0x13, 0x17, 0x23, 0x33, 0x37, 0x63, 0x67, 0x6F, 0x73] →
      decode cfg w = .error .illegal) ∧
    (w.extractLsb' 0 2 ≠ 3 → decode cfg w = .error .illegal) ∧
    (opcodeOf w ≠ 0x0B → decode cfg w ≠ .error .reservedCustom0) ∧
    (opcodeOf w = 0x0B → decode cfg w ≠ .error .illegal) ∧
    decode cfg w ≠ .error .truncated

/-! ### The step -/

/-- A step, in the state t after the turn's events. A chosen CPU that cannot execute does nothing. One that can, and takes
no CoPU trap, executes the instruction that the word its IFU holds for its pc decodes to; if its IFU holds none, the one
that the four bytes at its pc decode to, whether memory or a device is there; a fetch from a device has read the device.
Where the platform has nothing the fetch is a fault (R101, R103, R111, R118, R124). -/
def Obligations.StepRunsDecoded : Prop :=
  ∀ (s : State) (i : Instr), let t := beginTurn s; let a := curPc t
    (runnable t t.cur = false → step s = .next t) ∧
    (runnable t t.cur = true → copuTrapDue (responds s) t = false →
      (∀ w, prefetched a (t.cpu t.cur).ifu = some w → decode t.cfg w = .ok i → step s = exec i t) ∧
      (prefetched a (t.cpu t.cur).ifu = none →
        (accessKind t.cfg a 4 = .absent → step s = .fault (.absentAddress a)) ∧
        (decodeBytes t.cfg
            ((List.range 4).map (fun n =>
              memuRead (instrCached t (a + BitVec.ofNat 32 n).toNat) (a + BitVec.ofNat 32 n).toNat t)) = .ok (i, []) →
          (accessKind t.cfg a 4 = .memory → step s = exec i t) ∧
          (accessKind t.cfg a 4 = .device → step s = exec i { t with deviceReads := t.deviceReads + 1 }))))

/-- A fetched word that is no instruction, in the state u after the fetch: on the CePU alone an illegal one traps with code
2, on a CoPU it puts the CoPU into its exception state, in a linked group it stops the machine by name, and a reserved
CUSTOM-0 word stops the machine on any CPU (R160, R333, R340, R352, R360, U11, D32). -/
def Obligations.UndecodableWordsExecuted : Prop :=
  ∀ (s : State) (w : Word), let t := beginTurn s; let u := afterFetch t
    runnable t t.cur = true → copuTrapDue (responds s) t = false → fetchWord t = .ok w →
    (decode t.cfg w = .error .illegal → grouped t = false →
      ∃ v, step s = .next v ∧
        if t.cur = 0 then TookTrap .uncounted 2 (if t.cfg.mtvalIllegalWord then w else 0) (pcOf 0 t) u v
        else TookCopuException t.cur 2 u v) ∧
    (decode t.cfg w = .error .illegal → grouped t = true → step s = .refused .linkedException) ∧
    (decode t.cfg w = .error .reservedCustom0 → step s = .refused .reservedCustom0)

/-- When a CoPU is in its exception state, no trap is being handled and the CePU answers, it takes a trap with code 16,
trap value 0 and the address of the instruction it was about to execute (R353). -/
def Obligations.CopuTrapTaken : Prop :=
  ∀ s : State, let t := beginTurn s
    t.cfg.excGate = .inTrap → t.cur = 0 → t.halted = false → t.inTrap = false → t.xstate &&& copuMask t ≠ 0 →
    responds s = true →
    ∃ u, step s = .next u ∧ TookTrap .uncounted 16 0 (pcOf 0 t) t u

/-- After an MRET that leaves a CoPU in exception state the CePU's next turn, whatever else it says, takes the trap with
code 16 again, with the same mepc: the instruction at mepc is not executed (R356). -/
def Obligations.UnhandledCopuExceptionRecurs : Prop :=
  ∀ (s t : State), s.cfg.excGate = .inTrap → s.cur = 0 → grouped s = false → s.halted = false →
    s.xstate &&& copuMask s ≠ 0 → exec .mret s = .next t → (beginTurn t).cur = 0 →
    ∃ u, step t = .next u ∧ TookTrap .uncounted 16 0 (s.mepc &&& ~~~3) (beginTurn t) u

/-! ### Registers -/

/-- x0 reads as 0 and a write to it is discarded (R22). -/
def Obligations.RegisterZero : Prop :=
  ∀ (c : CpuId) (s : State), reg c 0 s = 0 ∧ ∀ v, setReg c 0 v s = s

/-! ### Integer computational instructions -/

/-- ADDI, SLTI, SLTIU, ANDI, ORI, XORI on every lane (R180 to R186). -/
def Obligations.ImmediateArithmetic : Prop :=
  ∀ (rd rs1 : Reg) (imm : BitVec 12) (s : State),
    WritesReg (.addi rd rs1 imm) .alu rd pcPlus4 (fun c s => reg c rs1 s + imm.signExtend 32) s ∧
    WritesReg (.slti rd rs1 imm) .alu rd pcPlus4 (fun c s => if (reg c rs1 s).toInt < imm.toInt then 1 else 0) s ∧
    WritesReg (.sltiu rd rs1 imm) .alu rd pcPlus4
      (fun c s => if (reg c rs1 s).toNat < (imm.signExtend 32).toNat then 1 else 0) s ∧
    WritesReg (.andi rd rs1 imm) .alu rd pcPlus4 (fun c s => reg c rs1 s &&& imm.signExtend 32) s ∧
    WritesReg (.ori rd rs1 imm) .alu rd pcPlus4 (fun c s => reg c rs1 s ||| imm.signExtend 32) s ∧
    WritesReg (.xori rd rs1 imm) .alu rd pcPlus4 (fun c s => reg c rs1 s ^^^ imm.signExtend 32) s

/-- SLLI, SRLI, SRAI on every lane: the exact shifted value modulo 2^32, SRAI rounding down (R187 to R189). -/
def Obligations.ImmediateShifts : Prop :=
  ∀ (rd rs1 : Reg) (sh : BitVec 5) (s : State),
    WritesReg (.slli rd rs1 sh) .alu rd pcPlus4
      (fun c s => BitVec.ofNat 32 ((reg c rs1 s).toNat * 2 ^ sh.toNat)) s ∧
    WritesReg (.srli rd rs1 sh) .alu rd pcPlus4
      (fun c s => BitVec.ofNat 32 ((reg c rs1 s).toNat / 2 ^ sh.toNat)) s ∧
    WritesReg (.srai rd rs1 sh) .alu rd pcPlus4
      (fun c s => BitVec.ofInt 32 ((reg c rs1 s).toInt / 2 ^ sh.toNat)) s

/-- LUI and AUIPC on every lane; AUIPC uses the one address of the instruction (R190, R191). -/
def Obligations.UpperImmediates : Prop :=
  ∀ (rd : Reg) (imm : BitVec 20) (s : State),
    WritesReg (.lui rd imm) .uncounted rd pcPlus4 (fun _ _ => imm ++ 0#12) s ∧
    WritesReg (.auipc rd imm) .uncounted rd pcPlus4 (fun _ s => curPc s + (imm ++ 0#12)) s

/-- ADD, SUB, SLT, SLTU, AND, OR, XOR on every lane (R192 to R198). -/
def Obligations.RegisterArithmetic : Prop :=
  ∀ (rd rs1 rs2 : Reg) (s : State),
    WritesReg (.add rd rs1 rs2) .alu rd pcPlus4 (fun c s => reg c rs1 s + reg c rs2 s) s ∧
    WritesReg (.sub rd rs1 rs2) .alu rd pcPlus4 (fun c s => reg c rs1 s - reg c rs2 s) s ∧
    WritesReg (.slt rd rs1 rs2) .alu rd pcPlus4 (fun c s => if (reg c rs1 s).toInt < (reg c rs2 s).toInt then 1 else 0) s ∧
    WritesReg (.sltu rd rs1 rs2) .alu rd pcPlus4
      (fun c s => if (reg c rs1 s).toNat < (reg c rs2 s).toNat then 1 else 0) s ∧
    WritesReg (.and rd rs1 rs2) .alu rd pcPlus4 (fun c s => reg c rs1 s &&& reg c rs2 s) s ∧
    WritesReg (.or rd rs1 rs2) .alu rd pcPlus4 (fun c s => reg c rs1 s ||| reg c rs2 s) s ∧
    WritesReg (.xor rd rs1 rs2) .alu rd pcPlus4 (fun c s => reg c rs1 s ^^^ reg c rs2 s) s

/-- SLL, SRL, SRA on every lane: the shift amount is the lower five bits of `x[rs2]` (R200 to R202). -/
def Obligations.RegisterShifts : Prop :=
  ∀ (rd rs1 rs2 : Reg) (s : State),
    WritesReg (.sll rd rs1 rs2) .alu rd pcPlus4
      (fun c s => BitVec.ofNat 32 ((reg c rs1 s).toNat * 2 ^ ((reg c rs2 s).toNat % 32))) s ∧
    WritesReg (.srl rd rs1 rs2) .alu rd pcPlus4
      (fun c s => BitVec.ofNat 32 ((reg c rs1 s).toNat / 2 ^ ((reg c rs2 s).toNat % 32))) s ∧
    WritesReg (.sra rd rs1 rs2) .alu rd pcPlus4
      (fun c s => BitVec.ofInt 32 ((reg c rs1 s).toInt / 2 ^ ((reg c rs2 s).toNat % 32))) s

/-! ### Control transfer -/

/-- JAL and JALR with a four-byte aligned target: every lane gets the link value, and execution goes on at the target,
which for JALR is the executing CPU's sum with bit 0 cleared (R222, R223, R232). -/
def Obligations.JumpsGoToTarget : Prop :=
  ∀ (rd rs1 : Reg) (off : BitVec 21) (imm : BitVec 12) (s : State),
    ((curPc s + off.signExtend 32).getLsbD 1 = false →
      WritesReg (.jal rd off) .jump rd (fun s => curPc s + off.signExtend 32) (fun _ s => curPc s + 4) s) ∧
    (((reg s.cur rs1 s + imm.signExtend 32)).getLsbD 1 = false →
      WritesReg (.jalr rd rs1 imm) .jump rd (fun s => (reg s.cur rs1 s + imm.signExtend 32) &&& ~~~1)
        (fun _ s => curPc s + 4) s)

/-- The six branches: the executing CPU's comparison decides for every lane; a taken branch with an aligned target goes
there, one not taken goes on at pc + 4 whatever its offset (R224 to R229, R232). -/
def Obligations.BranchesFollowCondition : Prop :=
  ∀ (rs1 rs2 : Reg) (off : BitVec 13) (s : State),
    let x := reg s.cur rs1 s; let y := reg s.cur rs2 s; let target := curPc s + off.signExtend 32
    let goes := fun (i : Instr) (taken : Bool) =>
      (taken = true → target.getLsbD 1 = false) → OnlyGoesOn i .jump (if taken then target else curPc s + 4) s
    goes (.beq rs1 rs2 off) (decide (x = y)) ∧ goes (.bne rs1 rs2 off) (decide (x ≠ y)) ∧
    goes (.blt rs1 rs2 off) (decide (x.toInt < y.toInt)) ∧ goes (.bge rs1 rs2 off) (decide (y.toInt ≤ x.toInt)) ∧
    goes (.bltu rs1 rs2 off) (decide (x.toNat < y.toNat)) ∧ goes (.bgeu rs1 rs2 off) (decide (y.toNat ≤ x.toNat))

/-- A jump or taken branch to a target with bit 1 set, by a CPU that leads no linked group, raises code 0 with the target
as trap value; no register is written (R107, R221). -/
def Obligations.MisalignedTargetsRaise : Prop :=
  ∀ (rd rs1 rs2 : Reg) (off : BitVec 21) (imm : BitVec 12) (b : BitVec 13) (s : State), grouped s = false →
    let x := reg s.cur rs1 s; let y := reg s.cur rs2 s
    let jal := curPc s + off.signExtend 32; let jalr := (x + imm.signExtend 32) &&& ~~~1
    let br := curPc s + b.signExtend 32
    (jal.getLsbD 1 = true → Raises (.jal rd off) .jump 0 jal s) ∧
    (jalr.getLsbD 1 = true → Raises (.jalr rd rs1 imm) .jump 0 jalr s) ∧
    (br.getLsbD 1 = true →
      (x = y → Raises (.beq rs1 rs2 b) .jump 0 br s) ∧ (x ≠ y → Raises (.bne rs1 rs2 b) .jump 0 br s) ∧
      (x.toInt < y.toInt → Raises (.blt rs1 rs2 b) .jump 0 br s) ∧
      (y.toInt ≤ x.toInt → Raises (.bge rs1 rs2 b) .jump 0 br s) ∧
      (x.toNat < y.toNat → Raises (.bltu rs1 rs2 b) .jump 0 br s) ∧
      (y.toNat ≤ x.toNat → Raises (.bgeu rs1 rs2 b) .jump 0 br s))

/-! ### Loads and stores -/

/-- The five loads on every lane, when every lane's access is aligned and reaches memory: little-endian bytes as the lane
sees them, sign- or zero-extended; and what a CPU sees in memory: its own youngest buffered store, else the cache's byte
if DEN is set, the byte is not in UNCACHED_REGIONS and its line is present, else main memory's (R65, R102, R104, R112,
R121, R124, R240 to R245, R249). -/
def Obligations.LoadsComplete : Prop :=
  ∀ (rd rs1 : Reg) (imm : BitVec 12) (s : State),
    let byte := fun (c : CpuId) (s : State) (i : Word) => readByte c (reg c rs1 s + imm.signExtend 32 + i).toNat s
    (AccessesOk 1 rs1 imm s →
      WritesReg (.lb rd rs1 imm) .load rd pcPlus4 (fun c s => (byte c s 0).signExtend 32) s ∧
      WritesReg (.lbu rd rs1 imm) .load rd pcPlus4 (fun c s => (byte c s 0).setWidth 32) s) ∧
    (AccessesOk 2 rs1 imm s →
      WritesReg (.lh rd rs1 imm) .load rd pcPlus4 (fun c s => (byte c s 1 ++ byte c s 0).signExtend 32) s ∧
      WritesReg (.lhu rd rs1 imm) .load rd pcPlus4 (fun c s => (byte c s 1 ++ byte c s 0).setWidth 32) s) ∧
    (AccessesOk 4 rs1 imm s →
      WritesReg (.lw rd rs1 imm) .load rd pcPlus4
        (fun c s => byte c s 3 ++ byte c s 2 ++ byte c s 1 ++ byte c s 0) s) ∧
    (∀ c a, addrKind s.cfg a = .memory →
      (∀ b, forward (s.cpu c).sbuf a = some b → readByte c a s = b) ∧
      (forward (s.cpu c).sbuf a = none →
        let cached := hasBit s.pncache s.cfg.denBit = true ∧ s.cfg.uncached.any (·.contains a) = false
        (cached → ∀ l, Cache.find s.cache (a / s.cfg.lineBytes) = some l →
          readByte c a s = l.data.getD (a % s.cfg.lineBytes) 0) ∧
        (¬cached ∨ Cache.find s.cache (a / s.cfg.lineBytes) = none → readByte c a s = Memory.read s.main a)))

/-- The three stores on every lane, when every lane's access is aligned and reaches memory or a device: each lane then reads
the low bytes of its own `x[rs2]` at its own address, where memory is, every other byte as before; the other CPUs, main
memory and the cache are as before (R105, R112, R240, R246 to R249). -/
def Obligations.StoresComplete : Prop :=
  ∀ (rs2 rs1 : Reg) (imm : BitVec 12) (s : State),
    let ea := fun c => effAddr c rs1 imm s
    let stores := fun (i : Instr) (n : Nat) => AccessesPresent n rs1 imm s →
      ∃ t, exec i s = .next t ∧
        (∀ c ∈ lanes s, ∀ k, k < n → deviceAt s.cfg ((ea c).toNat + k) = false →
          readByte c ((ea c).toNat + k) t = (reg c rs2 s).extractLsb' (8 * k) 8) ∧
        (∀ c ∈ lanes s, ∀ a, ¬InAccess n (ea c) a → readByte c a t = readByte c a s) ∧
        (∀ c ∈ lanes s, (t.cpu c).sbuf =
          ((List.range n).map (fun k => ((ea c).toNat + k, (reg c rs2 s).extractLsb' (8 * k) 8))) :: (s.cpu c).sbuf) ∧
        (∀ c, c ∉ lanes s → ∀ a, readByte c a t = readByte c a s) ∧
        t.main = s.main ∧ t.cache = s.cache ∧ SameRegs s t ∧
        pcOf s.cur t = pcPlus4 s ∧ SamePcsBut s.cur s t ∧ Counted .store s t ∧ SameSystem s t ∧ SameFetch s t
    stores (.sb rs2 rs1 imm) 1 ∧ stores (.sh rs2 rs1 imm) 2 ∧ stores (.sw rs2 rs1 imm) 4

/-- A misaligned halfword or word access, by a CPU that leads no linked group, raises code 4 (loads) or 6 (stores) with
the effective address as trap value; no register and no byte changes (R106, R240). -/
def Obligations.MisalignedAccessesRaise : Prop :=
  ∀ (rd rs1 : Reg) (imm : BitVec 12) (s : State), grouped s = false →
    let ea := reg s.cur rs1 s + imm.signExtend 32
    (ea.toNat % 2 ≠ 0 → Raises (.lh rd rs1 imm) .load 4 ea s ∧ Raises (.lhu rd rs1 imm) .load 4 ea s ∧
      Raises (.sh rd rs1 imm) .store 6 ea s) ∧
    (ea.toNat % 4 ≠ 0 → Raises (.lw rd rs1 imm) .load 4 ea s ∧ Raises (.sw rd rs1 imm) .store 6 ea s)

/-- Outside main memory. An aligned access that touches an address where the platform has nothing is a fault, for every
load, store and cache operation; none returns a value (R111, U18, D4). A load whose lanes all reach memory or a device
goes on: on every lane `rd` takes the bytes as that lane sees them before the instruction, where a device answers with a
byte of which nothing is known but that all lanes get the same at one address; nothing else changes but the count of
device reads, the model's own (R110, R116, R371, log 22). -/
def Obligations.AccessesOutsideMainMemory : Prop :=
  ∀ (rd rs1 : Reg) (imm : BitVec 12) (s : State),
    let ea := reg s.cur rs1 s + imm.signExtend 32
    let kindAt := fun k : Nat => addrKind s.cfg (ea + BitVec.ofNat 32 k).toNat
    let byte := fun (c : CpuId) (k : Word) => readByte c (reg c rs1 s + imm.signExtend 32 + k).toNat s
    let stops := fun (n : Nat) (i : Instr) => grouped s = false → ea.toNat % n = 0 →
      (∃ k, k < n ∧ kindAt k = .absent) → exec i s = .fault (.absentAddress ea)
    let loads := fun (n : Nat) (v : CpuId → Word) (i : Instr) => AccessesPresent n rs1 imm s →
      ∃ t, exec i s = .next t ∧ (∀ c ∈ lanes s, reg c rd t = if rd = 0 then 0 else v c) ∧
        (∀ c r, (c ∉ lanes s ∨ r ≠ rd) → reg c r t = reg c r s) ∧
        pcOf s.cur t = pcPlus4 s ∧ SamePcsBut s.cur s t ∧ Counted .load s t ∧ SameFetch s t ∧
        t.main = s.main ∧ t.cache = s.cache ∧ (∀ c, (t.cpu c).sbuf = (s.cpu c).sbuf) ∧
        SameSystem s { t with deviceReads := s.deviceReads }
    (∀ i ∈ [Instr.lb rd rs1 imm, .lbu rd rs1 imm, .sb rd rs1 imm, .cinv rs1 imm, .cwb rs1 imm, .cflush rs1 imm],
      stops 1 i) ∧
    (∀ i ∈ [Instr.lh rd rs1 imm, .lhu rd rs1 imm, .sh rd rs1 imm], stops 2 i) ∧
    (∀ i ∈ [Instr.lw rd rs1 imm, .sw rd rs1 imm], stops 4 i) ∧
    loads 1 (fun c => (byte c 0).signExtend 32) (.lb rd rs1 imm) ∧
    loads 1 (fun c => (byte c 0).setWidth 32) (.lbu rd rs1 imm) ∧
    loads 2 (fun c => (byte c 1 ++ byte c 0).signExtend 32) (.lh rd rs1 imm) ∧
    loads 2 (fun c => (byte c 1 ++ byte c 0).setWidth 32) (.lhu rd rs1 imm) ∧
    loads 4 (fun c => byte c 3 ++ byte c 2 ++ byte c 1 ++ byte c 0) (.lw rd rs1 imm)

/-- A CPU reads back what it stored, in any mixture of widths: after a word is stored at an aligned address that is no
device's, the word, both halfwords and all four bytes read as R105 says. -/
def Obligations.MixedWidthsReadBack : Prop :=
  ∀ (c : CpuId) (a v : Word) (s : State), a.toNat % 4 = 0 → (∀ k, k < 4 → deviceAt s.cfg (a.toNat + k) = false) →
    let t := memWrite c a 4 v s
    memRead32 c a t = v ∧ memRead16 c a t = v.extractLsb' 0 16 ∧ memRead16 c (a + 2) t = v.extractLsb' 16 16 ∧
    memRead8 c a t = v.extractLsb' 0 8 ∧ memRead8 c (a + 1) t = v.extractLsb' 8 8 ∧
    memRead8 c (a + 2) t = v.extractLsb' 16 8 ∧ memRead8 c (a + 3) t = v.extractLsb' 24 8

/-- A CPU sees its own stores in program order whatever its store buffer does: when one of its stores reaches the MemU,
every byte reads as before on it; when two are combined, or the MemU loads a line, every byte reads as before on every
CPU. The oldest store can always leave, and is then what the other CPUs read (R112, R113, R121). -/
def Obligations.BufferedStoresReachMemory : Prop :=
  ∀ (s : State) (c : CpuId) (k j n : Nat), MemoryInv s →
    (∀ a, readByte c a (applyEvent s (.drain c k)) = readByte c a s) ∧
    (∀ d a, readByte d a (applyEvent s (.combine c k j)) = readByte d a s) ∧
    (∀ d a, readByte d a (applyEvent s (.allocate n)) = readByte d a s) ∧
    (∀ younger st, (s.cpu c).sbuf = younger ++ [st] →
      let t := applyEvent s (.drain c younger.length)
      (t.cpu c).sbuf = younger ∧
      ∀ d, d ≠ c → ∀ a b, deviceAt s.cfg a = false → Store.find st a = some b → forward (s.cpu d).sbuf a = none →
        readByte d a t = b)

/-! ### FENCE -/

/-- FENCE, with any fields: every lane's store buffer and IFU buffer are empty afterwards, the other CPUs' are as before,
no register changes (R114, R260, R261). -/
def Obligations.FenceEmptiesBuffers : Prop :=
  ∀ (fm pred succ : BitVec 4) (rs1 rd : Reg) (s : State),
    ∃ t, exec (.fence fm pred succ rs1 rd) s = .next t ∧
      (∀ c ∈ lanes s, (t.cpu c).sbuf = [] ∧ (t.cpu c).ifu = []) ∧
      (∀ c, c ∉ lanes s → (t.cpu c).sbuf = (s.cpu c).sbuf ∧ (t.cpu c).ifu = (s.cpu c).ifu) ∧
      SameRegs s t ∧ pcOf s.cur t = pcPlus4 s ∧ SamePcsBut s.cur s t ∧ Counted .system s t ∧ SameSystem s t

/-- After a FENCE by a CPU that leads no linked group every CPU, wherever its own store buffer holds nothing for the byte,
reads what the fencing CPU read before, and so does that CPU itself; and main memory keeps every byte that is cached:
FENCE writes no line back (R113, R114, R260). -/
def Obligations.FencePublishesStores : Prop :=
  ∀ (fm pred succ : BitVec 4) (rs1 rd : Reg) (s t : State), MemoryInv s → grouped s = false →
    exec (.fence fm pred succ rs1 rd) s = .next t →
    (∀ d a, forward (t.cpu d).sbuf a = none → readByte d a t = readByte s.cur a s) ∧
    (∀ a, dataCached s a = true → Memory.read t.main a = Memory.read s.main a)

/-- FENCE.I does what FENCE does, but only minstret counts it (R262). -/
def Obligations.FenceIActsAsFence : Prop :=
  ∀ (fm pred succ : BitVec 4) (imm : BitVec 12) (rs1 rd rs1' rd' : Reg) (s : State),
    ∃ t u, exec (.fence fm pred succ rs1 rd) s = .next t ∧ exec (.fenceI imm rs1' rd') s = .next u ∧
      { u with counters := t.counters } = t ∧ Counted .uncounted s u

/-! ### CSR instructions -/

/-- The six CSR instructions on the trap CSRs of the CePU: the old value goes to `rd`, and the CSR keeps what its fields
accept of the operand, the old value with the operand's bits set, or with them cleared; the forms that do not write
leave it. With a linked group the access is the CePU's (R270 to R277, R279, R35, R43 to R47). -/
def Obligations.TrapCsrAccess : Prop :=
  ∀ (p : PlainCsr) (rd rs1 : Reg) (u : BitVec 5) (s : State), s.cur = 0 →
    let x := reg 0 rs1 s; let z : Word := u.setWidth 32; let old := p.get s
    AccessesCsr (.csrrw rd p.num rs1) p rd (some x) s ∧
    AccessesCsr (.csrrs rd p.num rs1) p rd (if rs1 = 0 then none else some (old ||| x)) s ∧
    AccessesCsr (.csrrc rd p.num rs1) p rd (if rs1 = 0 then none else some (old &&& ~~~x)) s ∧
    AccessesCsr (.csrrwi rd p.num u) p rd (some z) s ∧
    AccessesCsr (.csrrsi rd p.num u) p rd (if u = 0 then none else some (old ||| z)) s ∧
    AccessesCsr (.csrrci rd p.num u) p rd (if u = 0 then none else some (old &&& ~~~z)) s

/-- What the other CSRs read on the CePU, by each form that does not write, with or without a linked group (R31 to R37, R61
to R74); and pnce: `active`, but any bit for a CoPU in exception state (R62, U8). -/
def Obligations.CsrValuesRead : Prop :=
  ∀ (s : State) (rd : Reg) (i : Instr), Config.Wf s.cfg → s.cur = 0 →
    (∀ n v, (n, v) ∈ csrValues s → i ∈ csrReads rd n → ReadsCsr i rd v s) ∧
    (i ∈ csrReads rd s.cfg.csrNums.ce →
      ∃ v t, AgreeBut s.xstate v s.active ∧ exec i s = .next t ∧ reg 0 rd t = (if rd = 0 then 0 else v) ∧
        CsrFrame rd s t ∧ Counted .system s t ∧ SameSystem s { t with drawn := s.drawn })

/-- Bit c of pnm2cp is set exactly for the CPUs of capability 2 or more (R67). -/
def Obligations.CapabilityBits : Prop :=
  ∀ (cfg : Config) (k : Nat), (pnm2cpValue cfg).getLsbD k =
    (if h : k < 32 then decide (k < cfg.numCpus) && cfg.cap ⟨k, h⟩ != .linked else false)

/-- A form that writes a read-only CSR raises code 2 on the CePU, even if the operand register holds 0; `rd` is not
written (R270 (2), R271, R30). -/
def Obligations.ReadOnlyCsrWriteRaises : Prop :=
  ∀ (s : State) (rd : Reg) (src : BitVec 5) (n : CsrNum) (i : Instr), Config.Wf s.cfg → s.cur = 0 → grouped s = false →
    n ∈ readOnlyCsrs s.cfg → i ∈ csrWrites rd n src →
    Raises i .system 2 (if s.cfg.mtvalIllegalWord then encode s.cfg i else 0) s

/-- mvendorid: reads 0 on every CPU that executes the instruction, the CePU, a CoPU or each lane of a linked group, by every
form that does not write; a write by the CePU alone raises code 2 with the trap value of R334, one by a linked group is
refused as every exception of a group (log 24), and one by a CoPU is ignored (R31, R79, R270, R334, R360, D24). -/
def Obligations.MvendoridFixedZero : Prop :=
  ∀ (s : State) (rd : Reg) (src : BitVec 5) (i : Instr),
    (i ∈ csrReads rd 0xF11 → WritesReg i .system rd pcPlus4 (fun _ _ => 0) s) ∧
    (i ∈ csrWrites rd 0xF11 src →
      (s.cur = 0 → grouped s = false → Raises i .system 2 (if s.cfg.mtvalIllegalWord then encode s.cfg i else 0) s) ∧
      (s.cur = 0 → grouped s = true → exec i s = .refused .linkedException) ∧
      (s.cur ≠ 0 → WritesReg i .system rd pcPlus4 (fun _ _ => 0) s))

/-- marchid, outside a linked group: reads 0 on the CePU by every form that does not write, and a write raises code 2 (R30,
R32, R270, R334). -/
def Obligations.MarchidFixedZero : Prop :=
  ∀ (s : State) (rd : Reg) (src : BitVec 5) (i : Instr), s.cur = 0 → grouped s = false →
    (i ∈ csrReads rd 0xF12 → WritesReg i .system rd pcPlus4 (fun _ _ => 0) s) ∧
    (i ∈ csrWrites rd 0xF12 src →
      Raises i .system 2 (if s.cfg.mtvalIllegalWord then encode s.cfg i else 0) s)

/-- mhpmevent3 to mhpmevent31, mie, mip and the four timer CSRs: all six CSR instructions read 0, write nothing and raise
nothing (R41, R42, R54, R58). -/
def Obligations.FixedZeroCsrsIgnoreWrites : Prop :=
  ∀ (s : State) (rd : Reg) (src : BitVec 5) (n : CsrNum) (i : Instr), s.cur = 0 → grouped s = false →
    n ∈ fixedZeroCsrs → i ∈ csrInstrs rd n src → WritesReg i .system rd pcPlus4 (fun _ _ => 0) s

/-- The numbers that do not exist are those outside Table 3.3 and the ParaNut CSRs; all six CSR instructions of the CePU,
with or without a linked group, read 0 from them, write nothing and raise nothing (R30 (d), R59). -/
def Obligations.NonexistentCsrsIgnored : Prop :=
  ∀ (s : State) (rd : Reg) (src : BitVec 5) (n : CsrNum) (i : Instr),
    (csrOf s.cfg n = none ↔ tableCsr n = false ∧ n ∉ s.cfg.csrNums.toList) ∧
    (s.cur = 0 → csrOf s.cfg n = none → i ∈ csrInstrs rd n src → ReadsCsr i rd 0 s)

/-- A CSR instruction of the CePU that writes one half of a counter leaves the value it writes, for a set or clear computed
from the half it reads, in place of the instruction's count, and keeps the other half; every other counter counts the
instruction. What is read of mcycle is its value of that moment, of which nothing is known, and so is the half of it kept
then; a form that does not read keeps the half of the last read or write (R50, R51, R55, R272 to R278, log 10). -/
def Obligations.CounterWriteReplacesCount : Prop :=
  ∀ (s : State) (rd : Reg) (src : BitVec 5) (n : Fin 32) (i : Instr), s.cur = 0 → n ≠ 1 →
    counterExists s.cfg n = true →
    let writes := fun (num : CsrNum) (half : BitVec 64 → Word) (new : BitVec 64 → Word → BitVec 64) =>
      i ∈ csrWrites rd num src →
      ∃ old : BitVec 64, (n ≠ 0 ∨ i = .csrrw 0 num src ∨ i = .csrrwi 0 num src → old = counter n s) ∧
        ∀ v, (i, v) ∈ csrWriteForms rd num src (half old) s →
        ∃ t, exec i s = .next t ∧
          counter n t = BitVec.ofNat 64 ((new old v).toNat % 2 ^ counterWidth s.cfg n) ∧
          (∀ m, m ≠ n → counter m t =
            if (m = 2 ∨ m = 7) ∧ counterExists s.cfg m = true
            then BitVec.ofNat 64 (((counter m s).toNat + 1) % 2 ^ counterWidth s.cfg m) else counter m s) ∧
          reg 0 rd t = (if rd = 0 then 0 else half old) ∧ CsrFrame rd s t ∧ SameSystem s { t with drawn := s.drawn }
    writes (BitVec.ofNat 12 (0xB00 + n.val)) (·.extractLsb' 0 32) (fun old v => old.extractLsb' 32 32 ++ v) ∧
    writes (BitVec.ofNat 12 (0xB80 + n.val)) (·.extractLsb' 32 32) (fun old v => v ++ old.extractLsb' 0 32)

/-- A form that reads a counter without writing it gets the half it names, as of before the instruction itself is counted,
and 0 from a counter that does not exist; of mcycle it gets the half of what mcycle then holds, of which nothing else is
known (R50, R51, R52, R278, log 10). -/
def Obligations.CounterReadBeforeCount : Prop :=
  ∀ (s : State) (rd : Reg) (n : Fin 32) (i : Instr), s.cur = 0 → n ≠ 1 →
    let reads := fun (num : CsrNum) (half : BitVec 64 → Word) => i ∈ csrReads rd num →
      (n ≠ 0 ∨ counterExists s.cfg 0 = false → ReadsCsr i rd (half (counter n s)) s) ∧
      (n = 0 → ∃ t, exec i s = .next t ∧ reg 0 rd t = (if rd = 0 then 0 else half (counter 0 t)) ∧ CsrFrame rd s t ∧
        (∀ m, m ≠ 0 → counter m t =
          if (m = 2 ∨ m = 7) ∧ counterExists s.cfg m = true
          then BitVec.ofNat 64 (((counter m s).toNat + 1) % 2 ^ counterWidth s.cfg m) else counter m s) ∧
        SameSystem s { t with drawn := s.drawn })
    reads (BitVec.ofNat 12 (0xB00 + n.val)) (·.extractLsb' 0 32) ∧
    reads (BitVec.ofNat 12 (0xB80 + n.val)) (·.extractLsb' 32 32)

/-- A CSR instruction of the CePU, linked group or not, that writes to `pnce` a value v with bit 0 set, no bit of a faulted
CoPU clear and no CoPU of capability 1 enabled unlinked (a set or clear only while no transition is pending): the request
is v, `active` stays, and the faulted CoPUs written 1 leave their exception state and, if active, wait for the next MRET.
What it reads is `active`, but any bit for a CoPU in exception state (R62, R278, R327, R352, R354, R279). -/
def Obligations.PnceWriteRequests : Prop :=
  ∀ (s : State) (rd : Reg) (src : BitVec 5) (i : Instr), Config.Wf s.cfg → s.cur = 0 →
    i ∈ csrWrites rd s.cfg.csrNums.ce src →
    ∃ old, AgreeBut s.xstate old s.active ∧ ∀ v, (i, v) ∈ csrWriteForms rd s.cfg.csrNums.ce src old s →
      (s.pnceReq = s.active ∨ i = .csrrw rd s.cfg.csrNums.ce src ∨ i = .csrrwi rd s.cfg.csrNums.ce src) →
      v.getLsbD 0 = true → s.xstate &&& copuMask s &&& ~~~v = 0 →
      (∀ c : CpuId, c ≠ 0 → c.val < s.cfg.numCpus → s.cfg.cap c = .linked → hasBit v c = true →
        hasBit s.pnlm c = true ∧ hasBit s.pnlmIllegal c = false) →
      WritesCsr i rd old s fun t => t.pnceReq = v &&& cpuMask s ∧ t.xstate = s.xstate &&& ~~~(v &&& cpuMask s) ∧
        t.handled = s.handled ||| (s.xstate &&& v &&& cpuMask s &&& s.active) ∧
        SameCsrs s { t with pnceReq := s.pnceReq } ∧
        SameModes s { t with xstate := s.xstate, handled := s.handled } ∧
        SameModel s { t with drawn := s.drawn, owed := s.owed }

/-- A CSR instruction of the CePU, linked group or not, that writes to `pnlm` a value v and changes no bit of an enabled or
active CoPU: every bit of a CoPU takes the written value (but a 0 written for an inactive CoPU of capability 1, which may
read as anything and keeps the CoPU from being enabled until a 1 is written), every other bit is 0 (R63, R270, R329,
R279, U2). -/
def Obligations.PnlmWriteChoosesMode : Prop :=
  ∀ (s : State) (rd : Reg) (src : BitVec 5) (i : Instr) (v : Word), Config.Wf s.cfg → s.cur = 0 →
    (i, v) ∈ csrWriteForms rd s.cfg.csrNums.lm src s.pnlm s →
    let busy := s.pnceReq ||| s.active
    (v ^^^ s.pnlm) &&& copuMask s &&& busy = 0 →
    WritesCsr i rd s.pnlm s fun t =>
      (∀ c : CpuId, c ≠ 0 → c.val < s.cfg.numCpus →
        (s.cfg.cap c ≠ .linked ∨ hasBit v c = true ∨ hasBit busy c = true →
          hasBit t.pnlm c = hasBit v c ∧ hasBit t.pnlmIllegal c = false) ∧
        (s.cfg.cap c = .linked → hasBit v c = false → hasBit busy c = false → hasBit t.pnlmIllegal c = true)) ∧
      t.pnlm &&& ~~~copuMask s = 0 ∧
      SameSystem s { t with pnlm := s.pnlm, pnlmIllegal := s.pnlmIllegal, drawn := s.drawn }

/-- The CSR instructions of the CePU, linked group or not. A form that writes pnxsel leaves the written bits of the CPUs that
exist in it; one that writes pncache leaves the written IEN and DEN bits in it; both read the old value. With exactly the
bit of CoPU c set in pnxsel, pncause and pnepc read what CoPU c recorded (R64, R65, R69, R70, R270 to R277, R355). -/
def Obligations.ExceptionSelectShowsCopu : Prop :=
  ∀ (s : State) (rd : Reg) (src : BitVec 5) (i : Instr) (v : Word), Config.Wf s.cfg → s.cur = 0 →
    ((i, v) ∈ csrWriteForms rd s.cfg.csrNums.xsel src s.pnxsel s →
      WritesCsr i rd s.pnxsel s fun t =>
        t.pnxsel = v &&& cpuMask s ∧ SameSystemButDrawn s { t with pnxsel := s.pnxsel }) ∧
    ((i, v) ∈ csrWriteForms rd s.cfg.csrNums.cache src s.pncache s →
      ∃ t, exec i s = .next t ∧ reg 0 rd t = (if rd = 0 then 0 else s.pncache) ∧
        (∀ b, t.pncache.getLsbD b = (v.getLsbD b && (b == s.cfg.ienBit.val || b == s.cfg.denBit.val))) ∧
        CsrFrame rd s { t with pncache := s.pncache } ∧ Counted .system s t ∧
        SameSystemButDrawn s { t with pncache := s.pncache }) ∧
    (∀ c : CpuId, c ≠ 0 → c.val < s.cfg.numCpus → s.pnxsel = cpuBit c →
      (i ∈ csrReads rd s.cfg.csrNums.cause → ReadsCsr i rd (s.cpu c).xcause s) ∧
      (i ∈ csrReads rd s.cfg.csrNums.epc → ReadsCsr i rd (s.cpu c).xepc s))

/-- A CSR instruction on a CoPU changes no register but `rd`, no CSR, no counter and no memory, whatever it writes, and
raises nothing; mvendorid reads 0 and mhartid reads c. On every lane of a linked group, as on the CePU alone, a form that
does not write reads the lane's own number from mhartid, and whatever it reads it changes no register but `rd` of the
lanes, no CSR but mcycle, no mode and no memory (R79, R279, R330, R34). -/
def Obligations.CopuCsrAccess : Prop :=
  ∀ (s : State) (rd : Reg) (src : BitVec 5) (n : CsrNum) (i : Instr),
    (s.cur ≠ 0 → i ∈ csrInstrs rd n src →
      (∃ t, exec i s = .next t ∧ (∀ c r, (c ≠ s.cur ∨ r ≠ rd) → reg c r t = reg c r s) ∧
        pcOf s.cur t = pcPlus4 s ∧ SamePcsBut s.cur s t ∧ SameCounters s t ∧ SameCsrs s t ∧ SameModes s t ∧
        SameMemory s t ∧ SameFetch s t) ∧
      (n = 0xF11 → WritesReg i .system rd pcPlus4 (fun _ _ => 0) s) ∧
      (n = 0xF14 → WritesReg i .system rd pcPlus4 (fun c _ => BitVec.ofNat 32 c.val) s)) ∧
    (s.cur = 0 → i ∈ csrReads rd n →
      (∃ t, exec i s = .next t ∧ CsrFrame rd s t ∧ SameSystem s { t with drawn := s.drawn } ∧
        ∀ m, m ≠ 0 → counter m t =
          if (m = 2 ∨ m = 7) ∧ counterExists s.cfg m = true
          then BitVec.ofNat 64 (((counter m s).toNat + 1) % 2 ^ counterWidth s.cfg m) else counter m s) ∧
      (n = 0xF14 → WritesReg i .system rd pcPlus4 (fun c _ => BitVec.ofNat 32 c.val) s))

/-- The writes the spec gives no meaning stop the machine by name, by each form that writes, linked group or not:
pngrpsel non-zero; pnce with bit 0 clear, with the bit of a faulted CoPU clear, or enabling a CoPU of capability 1 whose
pnlm bit is clear or was last written 0; a set or clear of pnce bits while a transition is pending; and pnlm changing
the bit of an enabled or active CoPU (R61 to R63, R278, R328, R329, R354). -/
def Obligations.MeaninglessWritesRefused : Prop :=
  ∀ (s : State) (rd : Reg) (src : BitVec 5) (i : Instr), Config.Wf s.cfg → s.cur = 0 →
    let ce := s.cfg.csrNums.ce
    (∀ v, (i, v) ∈ csrWriteForms rd s.cfg.csrNums.grpsel src s.pngrpsel s → v ≠ 0 →
      exec i s = .refused .groupSelect) ∧
    (i ∈ csrWrites rd ce src →
      ((i ≠ .csrrw rd ce src ∧ i ≠ .csrrwi rd ce src) → s.pnceReq ≠ s.active →
        exec i s = .refused .pnceTransitionPending) ∧
      ∃ old, AgreeBut s.xstate old s.active ∧ ∀ v, (i, v) ∈ csrWriteForms rd ce src old s →
        (s.pnceReq = s.active ∨ i = .csrrw rd ce src ∨ i = .csrrwi rd ce src) →
        (v.getLsbD 0 = false → exec i s = .refused .cepuDisabled) ∧
        (v.getLsbD 0 = true → s.xstate &&& copuMask s &&& ~~~v ≠ 0 → exec i s = .refused .faultedCopuDisabled) ∧
        (v.getLsbD 0 = true → s.xstate &&& copuMask s &&& ~~~v = 0 →
          (∃ c : CpuId, c ≠ 0 ∧ c.val < s.cfg.numCpus ∧ s.cfg.cap c = .linked ∧ hasBit v c = true ∧
            (hasBit s.pnlm c = false ∨ hasBit s.pnlmIllegal c = true)) →
          exec i s = .refused .unlinkedWithoutFetch)) ∧
    (∀ v, (i, v) ∈ csrWriteForms rd s.cfg.csrNums.lm src s.pnlm s →
      (v ^^^ s.pnlm) &&& copuMask s &&& (s.pnceReq ||| s.active) ≠ 0 →
      exec i s = .refused .modeChangedWhileEnabled)

/-! ### Exceptions and return -/

/-- ECALL raises code 11 with trap value 0 and EBREAK code 3 with 0 or its own address, on a CPU that leads no linked
group (R291, R292, R334, R340, R352). -/
def Obligations.CallAndBreakRaise : Prop :=
  ∀ s : State, grouped s = false →
    Raises .ecall .system 11 0 s ∧
    Raises .ebreak .system 3 (if s.cfg.mtvalEbreakAddr then curPc s else 0) s

/-- MRET on the CePU with no linked group: the pc comes from mepc, MIE from MPIE, MPIE becomes 1, in_trap is cleared; the
CoPUs whose exception was handled go on at COPU_RESUME_PC of their exception's address; and nothing else changes:
mcause, mtval and pnx keep their values (R293, R343, R354). -/
def Obligations.MretReturns : Prop :=
  ∀ s : State, s.cur = 0 → grouped s = false →
    ∃ t, exec .mret s = .next t ∧ pcOf 0 t = s.mepc &&& ~~~3 ∧
      t.mstatus = (if s.mstatus.getLsbD 7 then 0x88 else 0x80) ∧ t.inTrap = false ∧ t.handled = 0 ∧
      (∀ c, c ≠ 0 → pcOf c t =
        if hasBit s.handled c
        then (match s.cfg.resumePc with | .next => (s.cpu c).xepc + 4 | .same => (s.cpu c).xepc) else pcOf c s) ∧
      SameRegs s t ∧ Counted .system s t ∧ SameMemory s t ∧ SameFetch s t ∧
      SameCsrs s { t with mstatus := s.mstatus } ∧
      SameModes s { t with inTrap := s.inTrap, handled := s.handled } ∧ SameModel s { t with owed := s.owed }

/-- An exception in an instruction of a linked group stops the machine by name: ECALL, EBREAK, a control transfer to a
misaligned target, an access misaligned on some lane, a write to a read-only CSR. So does MRET on a CoPU or in a linked
group (R360, R293, D32). -/
def Obligations.LinkedExceptionsRefused : Prop :=
  ∀ (s : State) (rd rs1 rs2 : Reg) (off : BitVec 21) (imm : BitVec 12) (b : BitVec 13),
    let x := reg 0 rs1 s; let y := reg 0 rs2 s; let ea := fun c => effAddr c rs1 imm s
    let stops := fun i : Instr => exec i s = .refused .linkedException
    let misaligned := fun n : Nat => (∃ c ∈ lanes s, (ea c).toNat % n ≠ 0) ∧
      ∀ c ∈ lanes s, (ea c).toNat % n = 0 → accessKind s.cfg (ea c) n ≠ .absent
    (grouped s = true →
      stops .ecall ∧ stops .ebreak ∧ exec .mret s = .refused .mretOnCopu ∧
      ((curPc s + off.signExtend 32).getLsbD 1 = true → stops (.jal rd off)) ∧
      ((x + imm.signExtend 32).getLsbD 1 = true → stops (.jalr rd rs1 imm)) ∧
      ((curPc s + b.signExtend 32).getLsbD 1 = true →
        (x = y → stops (.beq rs1 rs2 b)) ∧ (x ≠ y → stops (.bne rs1 rs2 b)) ∧
        (x.toInt < y.toInt → stops (.blt rs1 rs2 b)) ∧ (y.toInt ≤ x.toInt → stops (.bge rs1 rs2 b)) ∧
        (x.toNat < y.toNat → stops (.bltu rs1 rs2 b)) ∧ (y.toNat ≤ x.toNat → stops (.bgeu rs1 rs2 b))) ∧
      (misaligned 2 → stops (.lh rd rs1 imm) ∧ stops (.lhu rd rs1 imm) ∧ stops (.sh rd rs1 imm)) ∧
      (misaligned 4 → stops (.lw rd rs1 imm) ∧ stops (.sw rd rs1 imm)) ∧
      (Config.Wf s.cfg → ∀ n ∈ readOnlyCsrs s.cfg, ∀ i ∈ csrWrites rd n rs1, stops i)) ∧
    (s.cur ≠ 0 → exec .mret s = .refused .mretOnCopu)

/-! ### HALT and the cache operations -/

/-- HALT on the CePU: the machine is halted, every pc is the reset vector, every CoPU is inactive and unrequested, every
IFU is reset; memory and the other CSRs stay (R301, R322). That registers and exception state stay is the model's choice
(log 34). -/
def Obligations.HaltStopsMachine : Prop :=
  ∀ s : State, s.cur = 0 →
    ∃ t, exec .halt s = .next t ∧ t.halted = true ∧ t.active = s.active &&& 1 ∧ t.pnceReq = s.pnceReq &&& 1 ∧
      (∀ c, pcOf c t = s.cfg.resetVector ∧ (t.cpu c).ifu = []) ∧
      SameRegs s t ∧ SameMemory s t ∧ Counted .uncounted s t ∧
      SameCsrs s { t with active := s.active, pnceReq := s.pnceReq } ∧ SameModes s { t with halted := s.halted }

/-- HALT on a CoPU: it alone enters Mode 0. That its request bit is withdrawn is the spec's own reading (D33), and that its
registers keep their values is the model's choice, which R24 warns not to rely on (R301, log 34). -/
def Obligations.HaltStopsCopu : Prop :=
  ∀ s : State, s.cur ≠ 0 →
    ∃ t, exec .halt s = .next t ∧ t.active = s.active &&& ~~~cpuBit s.cur ∧ t.pnceReq = s.pnceReq &&& ~~~cpuBit s.cur ∧
      pcOf s.cur t = s.cfg.resetVector ∧ (t.cpu s.cur).ifu = [] ∧ SamePcsBut s.cur s t ∧
      (∀ c, c ≠ s.cur → (t.cpu c).ifu = (s.cpu c).ifu) ∧ SameRegs s t ∧ SameMemory s t ∧ SameCounters s t ∧
      SameCsrs s { t with active := s.active, pnceReq := s.pnceReq } ∧ SameModes s t

/-- The cache operations by a CPU that leads no linked group, on the line of an address where memory or a device is, after
that CPU's earlier stores have reached the MemU (state d): CINV drops the line, so its bytes are main memory's; CWB makes
main memory hold the line's bytes and changes nothing a cached access sees; CFLUSH does the same write-back, but for the
bytes that another bus master wrote under the line and no cached store has overwritten, and then drops the line; main
memory and the cache keep every other line (R122, R123, R302 to R305). After another bus master writes a byte, CINV or
CFLUSH on its line lets the CPU read it, unless a store of that CPU to the byte still waits (R115, R405). That CFLUSH leaves
those bytes out, against R122's formula, is the model's choice (log 43). -/
def Obligations.CacheOperationsActOnLine : Prop :=
  ∀ (base : Reg) (off : BitVec 12) (s : State), MemoryInv s → grouped s = false →
    let ea := reg s.cur base s + off.signExtend 32
    let line := ea.toNat / s.cfg.lineBytes
    let inLine := fun a : Nat => a / s.cfg.lineBytes = line ∧ deviceAt s.cfg a = false
    addrKind s.cfg ea.toNat ≠ .absent →
    let d := drainAll s.cur s
    let rest := fun (t : State) => (t.cpu s.cur).sbuf = [] ∧ (∀ c, c ≠ s.cur → (t.cpu c).sbuf = (s.cpu c).sbuf) ∧
      SameRegs s t ∧ pcOf s.cur t = pcPlus4 s ∧ SamePcsBut s.cur s t ∧ Counted .uncounted s t ∧
      SameSystem s t ∧ SameFetch s t ∧
      ∀ a, a / s.cfg.lineBytes ≠ line → Memory.read t.main a = Memory.read d.main a ∧ memuRead true a t = memuRead true a d
    let saved := fun (t : State) => ∀ a, inLine a → Memory.read t.main a = memuRead true a d
    (∃ t, exec (.cinv base off) s = .next t ∧ rest t ∧ t.main = d.main ∧
      Cache.find t.cache line = none ∧ ∀ a, inLine a → memuRead true a t = Memory.read d.main a) ∧
    (∃ t, exec (.cwb base off) s = .next t ∧ rest t ∧ saved t ∧
      ((Cache.find t.cache line).isSome = (Cache.find d.cache line).isSome) ∧
      ∀ a, inLine a → memuRead true a t = memuRead true a d) ∧
    (∃ t, exec (.cflush base off) s = .next t ∧ rest t ∧ Cache.find t.cache line = none ∧
      ∀ a, inLine a → memuRead true a t = Memory.read t.main a ∧
        Memory.read t.main a = if foreignAt a d then Memory.read d.main a else memuRead true a d) ∧
    (∀ (x : Word) (b : Byte), x.toNat / s.cfg.lineBytes = line → addrKind s.cfg x.toNat = .memory →
      forward (s.cpu s.cur).sbuf x.toNat = none → ∀ i ∈ [Instr.cinv base off, .cflush base off],
      ∃ t, exec i (applyEvent s (.busWrite x b)) = .next t ∧ readByte s.cur x.toNat t = b)

/-! ### Modes -/

/-- The CPUs that execute an instruction: the executing CPU alone, or the CePU with every CoPU that is active, linked,
not in exception state nor waiting for the MRET after it, while no trap is handled; each once (R330, R341, R352). -/
def Obligations.LinkedGroup : Prop :=
  ∀ s : State, (lanes s).Nodup ∧ ∀ c, c ∈ lanes s ↔
    c = s.cur ∨ (s.cur = 0 ∧ c ≠ 0 ∧ c.val < s.cfg.numCpus ∧ hasBit s.active c = true ∧ hasBit s.pnlm c = true ∧
      hasBit s.xstate c = false ∧ hasBit s.handled c = false ∧ s.inTrap = false)

/-- A pending transition of a CoPU happens: activation sets its bit, in Mode 2 with the pc at the reset vector;
deactivation clears it and resets pc and IFU; nothing happens while a trap is handled, and no other CPU changes
(R325, R327, R341). Two clauses are the model's (DEDUCED): deactivation takes the CoPU's bit out of handled, and activation
leaves it (log 25); the CoPU's xstate bit stays (log 39). -/
def Obligations.TransitionsSettle : Prop :=
  ∀ (s : State) (c : CpuId), c ≠ 0 → c.val < s.cfg.numCpus →
    let t := applyEvent s (.settle c)
    (s.inTrap = true → t = s) ∧
    (s.inTrap = false → hasBit s.pnceReq c = true → hasBit s.active c = false →
      t.active = s.active ||| cpuBit c ∧ t.handled = s.handled ∧ (hasBit s.pnlm c = false → modeOf t c = .unlinked ∧ pcOf c t = s.cfg.resetVector) ∧
      (hasBit s.pnlm c = true → modeOf t c = .linked)) ∧
    (s.inTrap = false → hasBit s.pnceReq c = false → hasBit s.active c = true →
      t.active = s.active &&& ~~~cpuBit c ∧ t.handled = s.handled &&& ~~~cpuBit c ∧
      modeOf t c = .halted ∧ pcOf c t = s.cfg.resetVector ∧ (t.cpu c).ifu = []) ∧
    (∀ d, d ≠ c → t.cpu d = s.cpu d) ∧ (t.cpu c).sbuf = (s.cpu c).sbuf ∧ SameCsrs s { t with active := s.active } ∧
    SameModes s { t with handled := s.handled } ∧ t.main = s.main ∧ t.cache = s.cache

/-- While a trap is handled no CoPU executes: a step that begins then changes no register of a CoPU, whatever the agenda;
and unless it is the CePU's HALT it changes no IFU buffer of a CoPU, and no pc but that of a CoPU whose exception was
handled, which an MRET sets (R341, R354). -/
def Obligations.CopusSuspendedInTrap : Prop :=
  ∀ s t : State, s.inTrap = true → step s = .next t → ∀ c, c ≠ 0 →
    (∀ r, reg c r t = reg c r s) ∧
    (t.halted = false → (t.cpu c).ifu = (s.cpu c).ifu ∧ (hasBit s.handled c = false → pcOf c t = pcOf c s))

/-- No instruction changes a general register of a CPU that does not execute it (R24, R330). -/
def Obligations.OnlyLanesChangeRegisters : Prop :=
  ∀ (i : Instr) (s t : State), exec i s = .next t → ∀ c, c ∉ lanes s → ∀ r, reg c r t = reg c r s

/-- No instruction of a CoPU changes the CePU's CSRs other than pnce, its counters, its trap state, or another CPU's
registers, pc or exception record (R79, R20, R352). -/
def Obligations.CopuCannotChangeCepu : Prop :=
  ∀ (i : Instr) (s t : State), s.cur ≠ 0 → exec i s = .next t →
    SameCsrs s { t with active := s.active, pnceReq := s.pnceReq } ∧ SameCounters s t ∧ t.inTrap = s.inTrap ∧
    t.halted = s.halted ∧ ∀ d, d ≠ s.cur → t.cpu d = s.cpu d

/-- Once the CePU has executed HALT no step changes a register, a pc, a CSR or a counter, or leaves that state: the run
has ended (R301, R322, R415). -/
def Obligations.HaltedMachineStays : Prop :=
  ∀ s : State, ModeInv s → s.halted = true →
    ∃ t, step s = .next t ∧ t.halted = true ∧ SameRegs s t ∧ (∀ c, pcOf c t = pcOf c s) ∧ SameCsrs s t ∧
      SameCounters s t

/-! ### Invariants that every step keeps -/

/-- Every program counter, mtvec, mepc and every xepc stays a multiple of four (R26, R43, R45). -/
def Obligations.StepKeepsAligned : Prop :=
  ∀ s t : State, AlignedInv s → step s = .next t → AlignedInv t

/-- The fixed bits of the CSRs stay as the spec says they read (R35, R61, R63 to R65, R68). -/
def Obligations.StepKeepsCsrBits : Prop :=
  ∀ s t : State, CsrInv s → step s = .next t → CsrInv t

/-- The execution modes stay legal (R62, R80, R301, R328). -/
def Obligations.StepKeepsModes : Prop :=
  ∀ s t : State, ModeInv s → step s = .next t → ModeInv t

/-- Main memory, the cache and the store buffers keep their form. -/
def Obligations.StepKeepsMemoryForm : Prop :=
  ∀ s t : State, MemoryInv s → step s = .next t → MemoryInv t

/-- The counters stay within their widths, and no step changes the configuration (R51, R8). -/
def Obligations.StepKeepsCountersAndConfig : Prop :=
  ∀ s t : State, step s = .next t → t.cfg = s.cfg ∧ (CounterInv s → CounterInv t)

/-! ### Reset -/

/-- What reset leaves in any configuration, of what the spec states (R90, R390). -/
def Obligations.ResetState : Prop :=
  ∀ cfg : Config, let s := State.resetWith cfg
    (∀ c, reg c 0 s = 0 ∧ pcOf c s = cfg.resetVector ∧ (s.cpu c).sbuf = [] ∧ (s.cpu c).ifu = []) ∧
    modeOf s 0 = .autonomous ∧ (∀ c, c ≠ 0 → modeOf s c = .halted) ∧
    s.pnceReq = 1 ∧ s.active = 1 ∧ s.pnlm = 0 ∧ s.pnxsel = 0 ∧ s.pngrpsel = 0 ∧ s.pnx = 0 ∧
    s.xstate = 0 ∧ s.inTrap = false ∧ s.halted = false ∧ s.mstatus = 0 ∧ (∀ n, counter n s = 0) ∧ s.cache = []

/-- The invariants hold after reset in every admitted configuration, and the reset configuration is admitted. -/
def Obligations.ResetMeetsInvariants : Prop :=
  Config.Wf Config.default ∧ State.reset = State.resetWith Config.default ∧
  ∀ cfg, Config.Wf cfg → let s := State.resetWith cfg
    AlignedInv s ∧ CsrInv s ∧ ModeInv s ∧ MemoryInv s ∧ CounterInv s
end

