-- ==== Sys2Proof/Laws/Memory.lean ====
section
/-! SUPPORT. Main memory and the cache as lists: reading after writing, and that every operation keeps the canonical
form. -/

namespace Sys2Proof.Machine

/-! ### Main memory: reading after writing -/

@[simp] theorem Memory.read_nil (a : Nat) : Memory.read [] a = unlisted := rfl

theorem Memory.read_filter (m : Memory) (a x : Nat) :
    Memory.read (m.filter (fun e => e.1 != a)) x = if x = a then unlisted else Memory.read m x := by
  induction m with
  | nil => simp
  | cons e r ih =>
    obtain ⟨k, b⟩ := e
    by_cases hk : k = a
    · subst hk
      simp only [List.filter_cons, bne_self_eq_false, Bool.false_eq_true, if_false, ih, Memory.read]
      split
      · rfl
      · next h => rw [if_neg (Ne.symm h)]
    · simp only [List.filter_cons, bne_iff_ne, ne_eq, hk, not_false_eq_true, if_true, Memory.read, ih]
      by_cases hx : x = a
      · subst hx; simp [hk]
      · simp [hx]

theorem Memory.read_insert {m : Memory} {a : Nat} (h : ∀ e ∈ m, e.1 ≠ a) (b : Byte) (x : Nat) :
    Memory.read (Memory.insert m a b) x = if x = a then b else Memory.read m x := by
  induction m with
  | nil => simp [Memory.insert, Memory.read, eq_comm]
  | cons e r ih =>
    obtain ⟨k, c⟩ := e
    have hk : k ≠ a := h (k, c) (by simp)
    have ih := ih (fun e he => h e (by simp [he]))
    unfold Memory.insert
    split
    · simp [Memory.read, eq_comm]
    · simp only [Memory.read, ih]
      by_cases hx : x = a
      · subst hx; simp [hk]
      · simp [hx]

/-- A byte reads as written last; every other byte is left alone. -/
theorem Memory.read_write (m : Memory) (a : Nat) (b : Byte) (x : Nat) :
    Memory.read (Memory.write m a b) x = if x = a then b else Memory.read m x := by
  unfold Memory.write
  dsimp only
  split
  · next h => rw [Memory.read_filter, h]
  · rw [Memory.read_insert (by simp), Memory.read_filter]
    split <;> rfl

theorem Memory.read_writeBytes (m : Memory) (a : Nat) (bs : List Byte) (x : Nat) :
    Memory.read (Memory.writeBytes m a bs) x =
      if a ≤ x ∧ x < a + bs.length then bs.getD (x - a) unlisted else Memory.read m x := by
  induction bs generalizing m a with
  | nil =>
    have : ¬(a ≤ x ∧ x < a + ([] : List Byte).length) := by simp
    rw [if_neg this]; rfl
  | cons b r ih =>
    rw [Memory.writeBytes, ih, Memory.read_write]
    by_cases h1 : x = a
    · subst h1
      have h2 : ¬(x + 1 ≤ x ∧ x < x + 1 + r.length) := by omega
      rw [if_neg h2]; simp
    · by_cases h2 : a + 1 ≤ x ∧ x < a + 1 + r.length
      · have h3 : a ≤ x ∧ x < a + (b :: r).length := by simp; omega
        rw [if_pos h2, if_pos h3]
        have : x - a = (x - (a + 1)) + 1 := by omega
        rw [this]; simp
      · have h3 : ¬(a ≤ x ∧ x < a + (b :: r).length) := by simp; omega
        rw [if_neg h2, if_neg h3, if_neg h1]

@[simp] theorem Memory.length_readBytes (m : Memory) (a n : Nat) : (Memory.readBytes m a n).length = n := by
  simp [Memory.readBytes]

theorem Memory.getD_readBytes (m : Memory) (a : Nat) {n i : Nat} (h : i < n) (d : Byte) :
    (Memory.readBytes m a n).getD i d = Memory.read m (a + i) := by
  simp [Memory.readBytes, h]

/-! ### Main memory: the canonical form -/

theorem Memory.wf_nil : Memory.wf [] := ⟨List.Pairwise.nil, by simp⟩

theorem Memory.mem_insert {m : Memory} {a : Nat} {b : Byte} {e : Host.Cell} :
    e ∈ Memory.insert m a b ↔ e = (a, b) ∨ e ∈ m := by
  induction m with
  | nil => simp [Memory.insert]
  | cons x r ih =>
    obtain ⟨k, c⟩ := x
    unfold Memory.insert
    split
    · simp
    · simp only [List.mem_cons, ih]
      constructor
      · rintro (h | h | h) <;> simp [h]
      · rintro (h | h | h) <;> simp [h]

theorem Memory.pairwise_insert {m : Memory} (h : m.Pairwise (fun x y => x.1 < y.1)) {a : Nat} (hn : ∀ e ∈ m, e.1 ≠ a)
    (b : Byte) : (Memory.insert m a b).Pairwise (fun x y => x.1 < y.1) := by
  induction m with
  | nil => simp [Memory.insert]
  | cons x r ih =>
    obtain ⟨k, c⟩ := x
    have hr := List.pairwise_cons.1 h
    unfold Memory.insert
    split
    · next hk =>
      refine List.pairwise_cons.2 ⟨fun e he => ?_, h⟩
      rcases List.mem_cons.1 he with h1 | h1
      · subst h1; exact hk
      · exact Nat.lt_trans hk (hr.1 e h1)
    · next hk =>
      refine List.pairwise_cons.2 ⟨fun e he => ?_, ih hr.2 (fun e he => hn e (by simp [he]))⟩
      rcases Memory.mem_insert.1 he with h1 | h1
      · subst h1
        have := hn (k, c) (by simp)
        show k < a
        simp at this; omega
      · exact hr.1 e h1

/-- A write keeps the canonical form. -/
theorem Memory.wf_write {m : Memory} (h : Memory.wf m) (a : Nat) (b : Byte) : Memory.wf (Memory.write m a b) := by
  have hf : Memory.wf (m.filter (fun e => e.1 != a)) :=
    ⟨h.1.filter _, fun e he => h.2 e (List.mem_filter.1 he).1⟩
  unfold Memory.write
  dsimp only
  split
  · exact hf
  · next hb =>
    refine ⟨Memory.pairwise_insert hf.1 (by simp) b, fun e he => ?_⟩
    rcases Memory.mem_insert.1 he with h1 | h1
    · subst h1; exact hb
    · exact hf.2 e h1

/-- So does a write of several bytes. -/
theorem Memory.wf_writeBytes {m : Memory} (h : Memory.wf m) (a : Nat) (bs : List Byte) :
    Memory.wf (Memory.writeBytes m a bs) := by
  induction bs generalizing m a with
  | nil => exact h
  | cons b r ih => exact ih (Memory.wf_write h a b) (a + 1)

/-- In a sorted list every address below the first reads as unlisted. -/
theorem Memory.read_of_lt {m : Memory} {x : Nat} (h : ∀ e ∈ m, x < e.1) : Memory.read m x = unlisted := by
  induction m with
  | nil => rfl
  | cons e r ih =>
    have := h e (by simp)
    rw [Memory.read, if_neg (by omega), ih (fun e he => h e (by simp [he]))]

/-- Memories in canonical form that read the same are the same data. -/
theorem Memory.ext_read {m n : Memory} (hm : Memory.wf m) (hn : Memory.wf n)
    (h : ∀ a, Memory.read m a = Memory.read n a) : m = n := by
  induction m generalizing n with
  | nil =>
    cases n with
    | nil => rfl
    | cons e r =>
      have := h e.1
      simp only [Memory.read, if_true] at this
      exact absurd this.symm (hn.2 e (by simp))
  | cons e r ih =>
    cases n with
    | nil =>
      have := h e.1
      simp only [Memory.read, if_true] at this
      exact absurd this (hm.2 e (by simp))
    | cons f q =>
      obtain ⟨k, b⟩ := e
      obtain ⟨l, c⟩ := f
      have h1 := List.pairwise_cons.1 hm.1
      have h2 := List.pairwise_cons.1 hn.1
      have hkl : k = l := by
        rcases Nat.lt_trichotomy k l with hlt | heq | hgt
        · have h0 := h k
          rw [Memory.read, if_pos rfl, Memory.read_of_lt (m := (l, c) :: q)] at h0
          · exact absurd h0 (hm.2 (k, b) (by simp))
          · intro e he
            rcases List.mem_cons.1 he with h3 | h3
            · subst h3; exact hlt
            · exact Nat.lt_trans hlt (h2.1 e h3)
        · exact heq
        · have h0 := h l
          rw [Memory.read_of_lt (m := (k, b) :: r), Memory.read, if_pos rfl] at h0
          · exact absurd h0.symm (hn.2 (l, c) (by simp))
          · intro e he
            rcases List.mem_cons.1 he with h3 | h3
            · subst h3; exact hgt
            · exact Nat.lt_trans hgt (h1.1 e h3)
      subst hkl
      have hb : b = c := by
        have h0 := h k
        simpa [Memory.read] using h0
      subst hb
      congr 1
      refine ih ⟨h1.2, fun e he => hm.2 e (by simp [he])⟩ ⟨h2.2, fun e he => hn.2 e (by simp [he])⟩ fun a => ?_
      by_cases ha : k = a
      · subst ha
        rw [Memory.read_of_lt h1.1, Memory.read_of_lt h2.1]
      · have h0 := h a
        simpa [Memory.read, ha] using h0

/-! ### The cache -/

theorem Cache.find_remove (k : Cache) (n x : Nat) :
    Cache.find (Cache.remove k n) x = if x = n then none else Cache.find k x := by
  induction k with
  | nil => simp [Cache.remove, Cache.find]
  | cons l r ih =>
    unfold Cache.remove at *
    by_cases hl : l.num = n
    · simp only [List.filter_cons, hl, bne_self_eq_false, Bool.false_eq_true, if_false, ih, Cache.find]
      split
      · rfl
      · next h => rw [if_neg (Ne.symm h)]
    · simp only [List.filter_cons, bne_iff_ne, ne_eq, hl, not_false_eq_true, if_true, Cache.find, ih]
      by_cases hx : x = n
      · subst hx; simp [hl]
      · simp [hx]

theorem Cache.find_insert {k : Cache} {l : CacheLine} (h : ∀ e ∈ k, e.num ≠ l.num) (x : Nat) :
    Cache.find (Cache.insert k l) x = if x = l.num then some l else Cache.find k x := by
  induction k with
  | nil => simp [Cache.insert, Cache.find, eq_comm]
  | cons e r ih =>
    have hk : e.num ≠ l.num := h _ (by simp)
    have ih := ih (fun e he => h e (by simp [he]))
    unfold Cache.insert
    split
    · simp [Cache.find, eq_comm]
    · simp only [Cache.find, ih]
      by_cases hx : x = l.num
      · subst hx; simp [hk]
      · simp [hx]

/-- A line that was put is found; every other line is left alone. -/
theorem Cache.find_put (k : Cache) (l : CacheLine) (x : Nat) :
    Cache.find (Cache.put k l) x = if x = l.num then some l else Cache.find k x := by
  unfold Cache.put
  rw [Cache.find_insert (by simp [Cache.remove]), Cache.find_remove]
  split <;> rfl

theorem Cache.mem_insert {k : Cache} {l e : CacheLine} : e ∈ Cache.insert k l ↔ e = l ∨ e ∈ k := by
  induction k with
  | nil => simp [Cache.insert]
  | cons x r ih =>
    unfold Cache.insert
    split
    · simp
    · simp only [List.mem_cons, ih]
      constructor
      · rintro (h | h | h) <;> simp [h]
      · rintro (h | h | h) <;> simp [h]

theorem Cache.mem_remove {k : Cache} {n : Nat} {e : CacheLine} : e ∈ Cache.remove k n ↔ e ∈ k ∧ e.num ≠ n := by
  simp [Cache.remove]

theorem Cache.mem_put {k : Cache} {l e : CacheLine} : e ∈ Cache.put k l ↔ e = l ∨ (e ∈ k ∧ e.num ≠ l.num) := by
  rw [Cache.put, Cache.mem_insert, Cache.mem_remove]

theorem Cache.mem_of_find {k : Cache} {n : Nat} {l : CacheLine} (h : Cache.find k n = some l) : l ∈ k ∧ l.num = n := by
  induction k with
  | nil => cases h
  | cons x r ih =>
    unfold Cache.find at h
    split at h
    · next hx => cases h; exact ⟨by simp, hx⟩
    · exact ⟨by simp [(ih h).1], (ih h).2⟩

theorem Cache.pairwise_remove {k : Cache} (h : k.Pairwise (fun x y => x.num < y.num)) (n : Nat) :
    (Cache.remove k n).Pairwise (fun x y => x.num < y.num) := h.filter _

theorem Cache.pairwise_insert {k : Cache} (h : k.Pairwise (fun x y => x.num < y.num)) {l : CacheLine}
    (hn : ∀ e ∈ k, e.num ≠ l.num) : (Cache.insert k l).Pairwise (fun x y => x.num < y.num) := by
  induction k with
  | nil => simp [Cache.insert]
  | cons x r ih =>
    have hr := List.pairwise_cons.1 h
    unfold Cache.insert
    split
    · next hk =>
      refine List.pairwise_cons.2 ⟨fun e he => ?_, h⟩
      rcases List.mem_cons.1 he with h1 | h1
      · subst h1; exact hk
      · exact Nat.lt_trans hk (hr.1 e h1)
    · next hk =>
      refine List.pairwise_cons.2 ⟨fun e he => ?_, ih hr.2 (fun e he => hn e (by simp [he]))⟩
      rcases Cache.mem_insert.1 he with h1 | h1
      · subst h1
        have := hn x (by simp)
        omega
      · exact hr.1 e h1

/-- Putting a line keeps the lines in order. -/
theorem Cache.pairwise_put {k : Cache} (h : k.Pairwise (fun x y => x.num < y.num)) (l : CacheLine) :
    (Cache.put k l).Pairwise (fun x y => x.num < y.num) :=
  Cache.pairwise_insert (Cache.pairwise_remove h _) (by simp [Cache.remove])

/-- A mark changes no byte of a line. -/
theorem Cache.find_mark_data (k : Cache) (n i x : Nat) :
    (Cache.find (Cache.mark k n i) x).map CacheLine.data = (Cache.find k x).map CacheLine.data := by
  unfold Cache.mark
  split
  · next l hl =>
    obtain ⟨_, hn⟩ := Cache.mem_of_find hl
    rw [Cache.find_put]
    split
    · next hx => rw [hx]; subst hn; rw [hl]; rfl
    · rfl
  · rfl

/-! ### Stores -/

@[simp] theorem forward_nil (a : Nat) : forward [] a = none := rfl

theorem forward_cons (st : Store) (buf : List Store) (a : Nat) :
    forward (st :: buf) a = (Store.find st a).or (forward buf a) := by
  simp only [forward]
  cases Store.find st a <;> rfl

theorem Store.find_none_iff {st : Store} {a : Nat} : Store.find st a = none ↔ ∀ e ∈ st, e.1 ≠ a := by
  induction st with
  | nil => simp [Store.find]
  | cons e r ih =>
    unfold Store.find
    split
    · next h => simp [h]
    · next h => simp [ih, h]

theorem forward_append (x y : List Store) (a : Nat) : forward (x ++ y) a = (forward x a).or (forward y a) := by
  induction x with
  | nil => simp
  | cons st r ih => simp [forward_cons, ih, Option.or_assoc]

/-- A store that writes a byte shares it with no store it is disjoint from. -/
theorem Store.find_of_disjoint {x y : Store} (h : Store.disjoint x y = true) {a : Nat} {b : Byte}
    (hx : Store.find x a = some b) : Store.find y a = none := by
  rw [Store.find_none_iff]
  intro e he hea
  have hn : ¬∀ f ∈ x, f.1 ≠ a := fun hc => by rw [Store.find_none_iff.2 hc] at hx; cases hx
  apply hn
  intro f hf hfa
  have := List.all_eq_true.1 (List.all_eq_true.1 h f hf) e he
  simp [hfa, hea] at this

theorem Store.find_append (x y : Store) (a : Nat) : Store.find (x ++ y) a = (Store.find x a).or (Store.find y a) := by
  induction x with
  | nil => simp [Store.find]
  | cons e r ih =>
    simp only [List.cons_append, Store.find]
    split
    · rfl
    · exact ih

/-- A merged store writes the younger store's bytes, and elsewhere the older one's. -/
theorem Store.find_merge (older younger : Store) (a : Nat) :
    Store.find (Store.merge older younger) a = (Store.find younger a).or (Store.find older a) := by
  rw [Store.merge, Store.find_append]
  cases h : Store.find younger a with
  | some b => rfl
  | none =>
    simp only [Option.none_or]
    induction older with
    | nil => rfl
    | cons e r ih =>
      by_cases hk : Store.find younger e.1 = none
      · simp only [List.filter_cons, hk, Option.isNone_none, if_true, Store.find, ih]
      · have hne : e.1 ≠ a := fun he => hk (he ▸ h)
        have : (Store.find younger e.1).isNone = false := by
          cases hf : Store.find younger e.1 with
          | none => exact absurd hf hk
          | some b => rfl
        simp only [List.filter_cons, this, Bool.false_eq_true, if_false, ih, Store.find, hne]

end Sys2Proof.Machine
end

