-- ==== Sys2Proof/Laws/State.lean ====
section
/-! SUPPORT. What each field of State and of Cpu reads after each update of a CPU, so that no later proof unfolds a
record update. -/

namespace Sys2Proof.Machine

/-! ### The CPU vector -/

@[simp] theorem getElem_cpus_eq_cpu (s : State) (c : CpuId) (h : c.val < 32) : s.cpus[c.val]'h = s.cpu c := rfl

/-- A state built from fields gives its CPUs by its vector; with the field lemmas this reads any record update. -/
@[simp] theorem cpu_mk (cfg : Config) (cpus : Vector Cpu 32)
    (a1 a2 a3 a4 a5 a6 : Word) (counters : Vector (BitVec 64) 32) (b1 b2 b3 b4 b5 b6 b7 b8 : Word) (p q : Bool)
    (main : Memory) (cache : Cache) (cur : CpuId) (lo : List CpuId) (ag : List Turn) (dr : Nat) (ow ha il : Word) (dv : Nat)
    (c : CpuId) :
    State.cpu ⟨cfg, cpus, a1, a2, a3, a4, a5, a6, counters, b1, b2, b3, b4, b5, b6, b7, b8, p, q, main, cache, cur, lo,
      ag, dr, ow, ha, il, dv⟩ c = cpus[c.val] := rfl

/-! ### setCpu -/

@[simp] theorem setCpu_cfg (s : State) (c : CpuId) (x : Cpu) : (s.setCpu c x).cfg = s.cfg := rfl

@[simp] theorem setCpu_mstatus (s : State) (c : CpuId) (x : Cpu) : (s.setCpu c x).mstatus = s.mstatus := rfl

@[simp] theorem setCpu_mtvec (s : State) (c : CpuId) (x : Cpu) : (s.setCpu c x).mtvec = s.mtvec := rfl

@[simp] theorem setCpu_mscratch (s : State) (c : CpuId) (x : Cpu) : (s.setCpu c x).mscratch = s.mscratch := rfl

@[simp] theorem setCpu_mepc (s : State) (c : CpuId) (x : Cpu) : (s.setCpu c x).mepc = s.mepc := rfl

@[simp] theorem setCpu_mcause (s : State) (c : CpuId) (x : Cpu) : (s.setCpu c x).mcause = s.mcause := rfl

@[simp] theorem setCpu_mtval (s : State) (c : CpuId) (x : Cpu) : (s.setCpu c x).mtval = s.mtval := rfl

@[simp] theorem setCpu_counters (s : State) (c : CpuId) (x : Cpu) : (s.setCpu c x).counters = s.counters := rfl

@[simp] theorem setCpu_pngrpsel (s : State) (c : CpuId) (x : Cpu) : (s.setCpu c x).pngrpsel = s.pngrpsel := rfl

@[simp] theorem setCpu_pnlm (s : State) (c : CpuId) (x : Cpu) : (s.setCpu c x).pnlm = s.pnlm := rfl

@[simp] theorem setCpu_pnxsel (s : State) (c : CpuId) (x : Cpu) : (s.setCpu c x).pnxsel = s.pnxsel := rfl

@[simp] theorem setCpu_pncache (s : State) (c : CpuId) (x : Cpu) : (s.setCpu c x).pncache = s.pncache := rfl

@[simp] theorem setCpu_pnx (s : State) (c : CpuId) (x : Cpu) : (s.setCpu c x).pnx = s.pnx := rfl

@[simp] theorem setCpu_pnceReq (s : State) (c : CpuId) (x : Cpu) : (s.setCpu c x).pnceReq = s.pnceReq := rfl

@[simp] theorem setCpu_active (s : State) (c : CpuId) (x : Cpu) : (s.setCpu c x).active = s.active := rfl

@[simp] theorem setCpu_xstate (s : State) (c : CpuId) (x : Cpu) : (s.setCpu c x).xstate = s.xstate := rfl

@[simp] theorem setCpu_inTrap (s : State) (c : CpuId) (x : Cpu) : (s.setCpu c x).inTrap = s.inTrap := rfl

@[simp] theorem setCpu_halted (s : State) (c : CpuId) (x : Cpu) : (s.setCpu c x).halted = s.halted := rfl

@[simp] theorem setCpu_main (s : State) (c : CpuId) (x : Cpu) : (s.setCpu c x).main = s.main := rfl

@[simp] theorem setCpu_cache (s : State) (c : CpuId) (x : Cpu) : (s.setCpu c x).cache = s.cache := rfl

@[simp] theorem setCpu_cur (s : State) (c : CpuId) (x : Cpu) : (s.setCpu c x).cur = s.cur := rfl

@[simp] theorem setCpu_laneOrder (s : State) (c : CpuId) (x : Cpu) : (s.setCpu c x).laneOrder = s.laneOrder := rfl

@[simp] theorem setCpu_agenda (s : State) (c : CpuId) (x : Cpu) : (s.setCpu c x).agenda = s.agenda := rfl

@[simp] theorem setCpu_drawn (s : State) (c : CpuId) (x : Cpu) : (s.setCpu c x).drawn = s.drawn := rfl

@[simp] theorem setCpu_owed (s : State) (c : CpuId) (x : Cpu) : (s.setCpu c x).owed = s.owed := rfl

@[simp] theorem setCpu_handled (s : State) (c : CpuId) (x : Cpu) : (s.setCpu c x).handled = s.handled := rfl

@[simp] theorem setCpu_pnlmIllegal (s : State) (c : CpuId) (x : Cpu) : (s.setCpu c x).pnlmIllegal = s.pnlmIllegal := rfl

@[simp] theorem setCpu_deviceReads (s : State) (c : CpuId) (x : Cpu) : (s.setCpu c x).deviceReads = s.deviceReads := rfl

theorem setCpu_cpu (s : State) (c d : CpuId) (x : Cpu) : (s.setCpu c x).cpu d = if d = c then x else s.cpu d := by
  simp only [State.setCpu, State.cpu, Vector.getElem_set, eq_comm (a := c.val), Fin.ext_iff]

@[simp] theorem setCpu_cpu_self (s : State) (c : CpuId) (x : Cpu) : (s.setCpu c x).cpu c = x := by
  simp [setCpu_cpu]

@[simp] theorem setCpu_cpu_of_ne (s : State) {c d : CpuId} (x : Cpu) (h : d ≠ c) : (s.setCpu c x).cpu d = s.cpu d := by
  simp [setCpu_cpu, h]

/-! ### mapCpus -/

@[simp] theorem mapCpus_cfg (s : State) (g : Cpu → Cpu) : (s.mapCpus g).cfg = s.cfg := rfl

@[simp] theorem mapCpus_mstatus (s : State) (g : Cpu → Cpu) : (s.mapCpus g).mstatus = s.mstatus := rfl

@[simp] theorem mapCpus_mtvec (s : State) (g : Cpu → Cpu) : (s.mapCpus g).mtvec = s.mtvec := rfl

@[simp] theorem mapCpus_mscratch (s : State) (g : Cpu → Cpu) : (s.mapCpus g).mscratch = s.mscratch := rfl

@[simp] theorem mapCpus_mepc (s : State) (g : Cpu → Cpu) : (s.mapCpus g).mepc = s.mepc := rfl

@[simp] theorem mapCpus_mcause (s : State) (g : Cpu → Cpu) : (s.mapCpus g).mcause = s.mcause := rfl

@[simp] theorem mapCpus_mtval (s : State) (g : Cpu → Cpu) : (s.mapCpus g).mtval = s.mtval := rfl

@[simp] theorem mapCpus_counters (s : State) (g : Cpu → Cpu) : (s.mapCpus g).counters = s.counters := rfl

@[simp] theorem mapCpus_pngrpsel (s : State) (g : Cpu → Cpu) : (s.mapCpus g).pngrpsel = s.pngrpsel := rfl

@[simp] theorem mapCpus_pnlm (s : State) (g : Cpu → Cpu) : (s.mapCpus g).pnlm = s.pnlm := rfl

@[simp] theorem mapCpus_pnxsel (s : State) (g : Cpu → Cpu) : (s.mapCpus g).pnxsel = s.pnxsel := rfl

@[simp] theorem mapCpus_pncache (s : State) (g : Cpu → Cpu) : (s.mapCpus g).pncache = s.pncache := rfl

@[simp] theorem mapCpus_pnx (s : State) (g : Cpu → Cpu) : (s.mapCpus g).pnx = s.pnx := rfl

@[simp] theorem mapCpus_pnceReq (s : State) (g : Cpu → Cpu) : (s.mapCpus g).pnceReq = s.pnceReq := rfl

@[simp] theorem mapCpus_active (s : State) (g : Cpu → Cpu) : (s.mapCpus g).active = s.active := rfl

@[simp] theorem mapCpus_xstate (s : State) (g : Cpu → Cpu) : (s.mapCpus g).xstate = s.xstate := rfl

@[simp] theorem mapCpus_inTrap (s : State) (g : Cpu → Cpu) : (s.mapCpus g).inTrap = s.inTrap := rfl

@[simp] theorem mapCpus_halted (s : State) (g : Cpu → Cpu) : (s.mapCpus g).halted = s.halted := rfl

@[simp] theorem mapCpus_main (s : State) (g : Cpu → Cpu) : (s.mapCpus g).main = s.main := rfl

@[simp] theorem mapCpus_cache (s : State) (g : Cpu → Cpu) : (s.mapCpus g).cache = s.cache := rfl

@[simp] theorem mapCpus_cur (s : State) (g : Cpu → Cpu) : (s.mapCpus g).cur = s.cur := rfl

@[simp] theorem mapCpus_laneOrder (s : State) (g : Cpu → Cpu) : (s.mapCpus g).laneOrder = s.laneOrder := rfl

@[simp] theorem mapCpus_agenda (s : State) (g : Cpu → Cpu) : (s.mapCpus g).agenda = s.agenda := rfl

@[simp] theorem mapCpus_drawn (s : State) (g : Cpu → Cpu) : (s.mapCpus g).drawn = s.drawn := rfl

@[simp] theorem mapCpus_owed (s : State) (g : Cpu → Cpu) : (s.mapCpus g).owed = s.owed := rfl

@[simp] theorem mapCpus_handled (s : State) (g : Cpu → Cpu) : (s.mapCpus g).handled = s.handled := rfl

@[simp] theorem mapCpus_pnlmIllegal (s : State) (g : Cpu → Cpu) : (s.mapCpus g).pnlmIllegal = s.pnlmIllegal := rfl

@[simp] theorem mapCpus_deviceReads (s : State) (g : Cpu → Cpu) : (s.mapCpus g).deviceReads = s.deviceReads := rfl

@[simp] theorem mapCpus_cpu (s : State) (g : Cpu → Cpu) (c : CpuId) : (s.mapCpus g).cpu c = g (s.cpu c) := by
  simp only [State.mapCpus, State.cpu, Vector.getElem_mk, List.getElem_toArray, List.getElem_map, Array.getElem_toList,
    Vector.getElem_toArray]

/-! ### setReg and setPc -/

@[simp] theorem setReg_cfg (c : CpuId) (r : Reg) (v : Word) (s : State) : (setReg c r v s).cfg = s.cfg := by
  unfold setReg; split <;> rfl

@[simp] theorem setPc_cfg (c : CpuId) (v : Word) (s : State) : (setPc c v s).cfg = s.cfg := rfl

@[simp] theorem setReg_mstatus (c : CpuId) (r : Reg) (v : Word) (s : State) : (setReg c r v s).mstatus = s.mstatus := by
  unfold setReg; split <;> rfl

@[simp] theorem setPc_mstatus (c : CpuId) (v : Word) (s : State) : (setPc c v s).mstatus = s.mstatus := rfl

@[simp] theorem setReg_mtvec (c : CpuId) (r : Reg) (v : Word) (s : State) : (setReg c r v s).mtvec = s.mtvec := by
  unfold setReg; split <;> rfl

@[simp] theorem setPc_mtvec (c : CpuId) (v : Word) (s : State) : (setPc c v s).mtvec = s.mtvec := rfl

@[simp] theorem setReg_mscratch (c : CpuId) (r : Reg) (v : Word) (s : State) : (setReg c r v s).mscratch = s.mscratch := by
  unfold setReg; split <;> rfl

@[simp] theorem setPc_mscratch (c : CpuId) (v : Word) (s : State) : (setPc c v s).mscratch = s.mscratch := rfl

@[simp] theorem setReg_mepc (c : CpuId) (r : Reg) (v : Word) (s : State) : (setReg c r v s).mepc = s.mepc := by
  unfold setReg; split <;> rfl

@[simp] theorem setPc_mepc (c : CpuId) (v : Word) (s : State) : (setPc c v s).mepc = s.mepc := rfl

@[simp] theorem setReg_mcause (c : CpuId) (r : Reg) (v : Word) (s : State) : (setReg c r v s).mcause = s.mcause := by
  unfold setReg; split <;> rfl

@[simp] theorem setPc_mcause (c : CpuId) (v : Word) (s : State) : (setPc c v s).mcause = s.mcause := rfl

@[simp] theorem setReg_mtval (c : CpuId) (r : Reg) (v : Word) (s : State) : (setReg c r v s).mtval = s.mtval := by
  unfold setReg; split <;> rfl

@[simp] theorem setPc_mtval (c : CpuId) (v : Word) (s : State) : (setPc c v s).mtval = s.mtval := rfl

@[simp] theorem setReg_counters (c : CpuId) (r : Reg) (v : Word) (s : State) : (setReg c r v s).counters = s.counters := by
  unfold setReg; split <;> rfl

@[simp] theorem setPc_counters (c : CpuId) (v : Word) (s : State) : (setPc c v s).counters = s.counters := rfl

@[simp] theorem setReg_pngrpsel (c : CpuId) (r : Reg) (v : Word) (s : State) : (setReg c r v s).pngrpsel = s.pngrpsel := by
  unfold setReg; split <;> rfl

@[simp] theorem setPc_pngrpsel (c : CpuId) (v : Word) (s : State) : (setPc c v s).pngrpsel = s.pngrpsel := rfl

@[simp] theorem setReg_pnlm (c : CpuId) (r : Reg) (v : Word) (s : State) : (setReg c r v s).pnlm = s.pnlm := by
  unfold setReg; split <;> rfl

@[simp] theorem setPc_pnlm (c : CpuId) (v : Word) (s : State) : (setPc c v s).pnlm = s.pnlm := rfl

@[simp] theorem setReg_pnxsel (c : CpuId) (r : Reg) (v : Word) (s : State) : (setReg c r v s).pnxsel = s.pnxsel := by
  unfold setReg; split <;> rfl

@[simp] theorem setPc_pnxsel (c : CpuId) (v : Word) (s : State) : (setPc c v s).pnxsel = s.pnxsel := rfl

@[simp] theorem setReg_pncache (c : CpuId) (r : Reg) (v : Word) (s : State) : (setReg c r v s).pncache = s.pncache := by
  unfold setReg; split <;> rfl

@[simp] theorem setPc_pncache (c : CpuId) (v : Word) (s : State) : (setPc c v s).pncache = s.pncache := rfl

@[simp] theorem setReg_pnx (c : CpuId) (r : Reg) (v : Word) (s : State) : (setReg c r v s).pnx = s.pnx := by
  unfold setReg; split <;> rfl

@[simp] theorem setPc_pnx (c : CpuId) (v : Word) (s : State) : (setPc c v s).pnx = s.pnx := rfl

@[simp] theorem setReg_pnceReq (c : CpuId) (r : Reg) (v : Word) (s : State) : (setReg c r v s).pnceReq = s.pnceReq := by
  unfold setReg; split <;> rfl

@[simp] theorem setPc_pnceReq (c : CpuId) (v : Word) (s : State) : (setPc c v s).pnceReq = s.pnceReq := rfl

@[simp] theorem setReg_active (c : CpuId) (r : Reg) (v : Word) (s : State) : (setReg c r v s).active = s.active := by
  unfold setReg; split <;> rfl

@[simp] theorem setPc_active (c : CpuId) (v : Word) (s : State) : (setPc c v s).active = s.active := rfl

@[simp] theorem setReg_xstate (c : CpuId) (r : Reg) (v : Word) (s : State) : (setReg c r v s).xstate = s.xstate := by
  unfold setReg; split <;> rfl

@[simp] theorem setPc_xstate (c : CpuId) (v : Word) (s : State) : (setPc c v s).xstate = s.xstate := rfl

@[simp] theorem setReg_inTrap (c : CpuId) (r : Reg) (v : Word) (s : State) : (setReg c r v s).inTrap = s.inTrap := by
  unfold setReg; split <;> rfl

@[simp] theorem setPc_inTrap (c : CpuId) (v : Word) (s : State) : (setPc c v s).inTrap = s.inTrap := rfl

@[simp] theorem setReg_halted (c : CpuId) (r : Reg) (v : Word) (s : State) : (setReg c r v s).halted = s.halted := by
  unfold setReg; split <;> rfl

@[simp] theorem setPc_halted (c : CpuId) (v : Word) (s : State) : (setPc c v s).halted = s.halted := rfl

@[simp] theorem setReg_main (c : CpuId) (r : Reg) (v : Word) (s : State) : (setReg c r v s).main = s.main := by
  unfold setReg; split <;> rfl

@[simp] theorem setPc_main (c : CpuId) (v : Word) (s : State) : (setPc c v s).main = s.main := rfl

@[simp] theorem setReg_cache (c : CpuId) (r : Reg) (v : Word) (s : State) : (setReg c r v s).cache = s.cache := by
  unfold setReg; split <;> rfl

@[simp] theorem setPc_cache (c : CpuId) (v : Word) (s : State) : (setPc c v s).cache = s.cache := rfl

@[simp] theorem setReg_cur (c : CpuId) (r : Reg) (v : Word) (s : State) : (setReg c r v s).cur = s.cur := by
  unfold setReg; split <;> rfl

@[simp] theorem setPc_cur (c : CpuId) (v : Word) (s : State) : (setPc c v s).cur = s.cur := rfl

@[simp] theorem setReg_laneOrder (c : CpuId) (r : Reg) (v : Word) (s : State) : (setReg c r v s).laneOrder = s.laneOrder := by
  unfold setReg; split <;> rfl

@[simp] theorem setPc_laneOrder (c : CpuId) (v : Word) (s : State) : (setPc c v s).laneOrder = s.laneOrder := rfl

@[simp] theorem setReg_agenda (c : CpuId) (r : Reg) (v : Word) (s : State) : (setReg c r v s).agenda = s.agenda := by
  unfold setReg; split <;> rfl

@[simp] theorem setPc_agenda (c : CpuId) (v : Word) (s : State) : (setPc c v s).agenda = s.agenda := rfl

@[simp] theorem setReg_drawn (c : CpuId) (r : Reg) (v : Word) (s : State) : (setReg c r v s).drawn = s.drawn := by
  unfold setReg; split <;> rfl

@[simp] theorem setPc_drawn (c : CpuId) (v : Word) (s : State) : (setPc c v s).drawn = s.drawn := rfl

@[simp] theorem setReg_owed (c : CpuId) (r : Reg) (v : Word) (s : State) : (setReg c r v s).owed = s.owed := by
  unfold setReg; split <;> rfl

@[simp] theorem setReg_handled (c : CpuId) (r : Reg) (v : Word) (s : State) : (setReg c r v s).handled = s.handled := by
  unfold setReg; split <;> rfl

@[simp] theorem setReg_pnlmIllegal (c : CpuId) (r : Reg) (v : Word) (s : State) : (setReg c r v s).pnlmIllegal = s.pnlmIllegal := by
  unfold setReg; split <;> rfl

@[simp] theorem setReg_deviceReads (c : CpuId) (r : Reg) (v : Word) (s : State) : (setReg c r v s).deviceReads = s.deviceReads := by
  unfold setReg; split <;> rfl

@[simp] theorem setPc_owed (c : CpuId) (v : Word) (s : State) : (setPc c v s).owed = s.owed := rfl

@[simp] theorem setPc_handled (c : CpuId) (v : Word) (s : State) : (setPc c v s).handled = s.handled := rfl

@[simp] theorem setPc_pnlmIllegal (c : CpuId) (v : Word) (s : State) : (setPc c v s).pnlmIllegal = s.pnlmIllegal := rfl

@[simp] theorem setPc_deviceReads (c : CpuId) (v : Word) (s : State) : (setPc c v s).deviceReads = s.deviceReads := rfl

@[simp] theorem setReg_cpu_pc (c d : CpuId) (r : Reg) (v : Word) (s : State) :
    ((setReg c r v s).cpu d).pc = (s.cpu d).pc := by
  unfold setReg; split
  · rfl
  · rw [setCpu_cpu]; split
    · next h => rw [h]
    · rfl

@[simp] theorem setReg_cpu_sbuf (c d : CpuId) (r : Reg) (v : Word) (s : State) :
    ((setReg c r v s).cpu d).sbuf = (s.cpu d).sbuf := by
  unfold setReg; split
  · rfl
  · rw [setCpu_cpu]; split
    · next h => rw [h]
    · rfl

@[simp] theorem setReg_cpu_ifu (c d : CpuId) (r : Reg) (v : Word) (s : State) :
    ((setReg c r v s).cpu d).ifu = (s.cpu d).ifu := by
  unfold setReg; split
  · rfl
  · rw [setCpu_cpu]; split
    · next h => rw [h]
    · rfl

@[simp] theorem setReg_cpu_xcause (c d : CpuId) (r : Reg) (v : Word) (s : State) :
    ((setReg c r v s).cpu d).xcause = (s.cpu d).xcause := by
  unfold setReg; split
  · rfl
  · rw [setCpu_cpu]; split
    · next h => rw [h]
    · rfl

@[simp] theorem setReg_cpu_xepc (c d : CpuId) (r : Reg) (v : Word) (s : State) :
    ((setReg c r v s).cpu d).xepc = (s.cpu d).xepc := by
  unfold setReg; split
  · rfl
  · rw [setCpu_cpu]; split
    · next h => rw [h]
    · rfl

@[simp] theorem setPc_cpu_regs (c d : CpuId) (v : Word) (s : State) :
    ((setPc c v s).cpu d).regs = (s.cpu d).regs := by
  unfold setPc; rw [setCpu_cpu]; split
  · next h => rw [h]
  · rfl

@[simp] theorem setPc_cpu_sbuf (c d : CpuId) (v : Word) (s : State) :
    ((setPc c v s).cpu d).sbuf = (s.cpu d).sbuf := by
  unfold setPc; rw [setCpu_cpu]; split
  · next h => rw [h]
  · rfl

@[simp] theorem setPc_cpu_ifu (c d : CpuId) (v : Word) (s : State) :
    ((setPc c v s).cpu d).ifu = (s.cpu d).ifu := by
  unfold setPc; rw [setCpu_cpu]; split
  · next h => rw [h]
  · rfl

@[simp] theorem setPc_cpu_xcause (c d : CpuId) (v : Word) (s : State) :
    ((setPc c v s).cpu d).xcause = (s.cpu d).xcause := by
  unfold setPc; rw [setCpu_cpu]; split
  · next h => rw [h]
  · rfl

@[simp] theorem setPc_cpu_xepc (c d : CpuId) (v : Word) (s : State) :
    ((setPc c v s).cpu d).xepc = (s.cpu d).xepc := by
  unfold setPc; rw [setCpu_cpu]; split
  · next h => rw [h]
  · rfl

/-- What pcOf reads after setPc. -/
theorem pcOf_setPc (c d : CpuId) (v : Word) (s : State) : pcOf d (setPc c v s) = if d = c then v else pcOf d s := by
  simp only [pcOf, setPc, setCpu_cpu]; split <;> rfl

@[simp] theorem pcOf_setPc_self (c : CpuId) (v : Word) (s : State) : pcOf c (setPc c v s) = v := by simp [pcOf_setPc]

@[simp] theorem pcOf_setReg (c d : CpuId) (r : Reg) (v : Word) (s : State) : pcOf d (setReg c r v s) = pcOf d s := by
  simp [pcOf]

/-! ### Reading registers -/

theorem reg_zero (c : CpuId) (s : State) : reg c 0 s = 0 := by simp [reg]

/-- Registers are read from the CPU alone. -/
theorem reg_congr {c : CpuId} {s t : State} (h : (t.cpu c).regs = (s.cpu c).regs) (r : Reg) : reg c r t = reg c r s := by
  simp [reg, h]

@[simp] theorem reg_setPc (c d : CpuId) (r : Reg) (v : Word) (s : State) : reg d r (setPc c v s) = reg d r s :=
  reg_congr (by simp) r

/-- What reg reads after setReg: the written value, unless the register is x0 (R22). -/
theorem reg_setReg (c d : CpuId) (q r : Reg) (v : Word) (s : State) :
    reg d r (setReg c q v s) = if d = c ∧ r = q ∧ q ≠ 0 then v else reg d r s := by
  unfold setReg
  split
  · next h => simp [h]
  · next h =>
    unfold reg
    split
    · next hr => simp only [hr]; split
                 · next hh => exact absurd (hh.2.1.symm) h
                 · rfl
    · next hr =>
      rw [setCpu_cpu]
      by_cases hd : d = c
      · subst hd
        simp only [↓reduceIte, Vector.getElem_set, true_and]
        by_cases hq : r = q
        · subst hq; simp only [↓reduceIte, true_and]; rw [if_pos h]
        · have : q.toNat ≠ r.toNat := fun e => hq (BitVec.eq_of_toNat_eq e.symm)
          simp [this, hq]
      · simp [hd]

/-- A write to x0 is discarded (R22). -/
@[simp] theorem setReg_zero (c : CpuId) (v : Word) (s : State) : setReg c 0 v s = s := by simp [setReg]

end Sys2Proof.Machine
end

