-- ==== Sys2Proof/Laws/Lanes.lean ====
section
/-! SUPPORT. Which CPUs execute an instruction, and what an instruction's data path on its lanes comes to. -/

namespace Sys2Proof.Machine

/-! ### The lanes -/

theorem mem_cpuIds (c : CpuId) : c ∈ cpuIds := by revert c; decide

theorem cpuIds_nodup : cpuIds.Nodup := by decide

theorem actingOrder_perm (s : State) : (actingOrder s).Perm cpuIds := by
  unfold actingOrder
  split
  · next h => exact List.isPerm_iff.1 h
  · exact List.Perm.refl _

theorem joined_zero (s : State) : joined s 0 = false := by
  unfold joined modeOf
  cases s.halted <;> rfl

/-- The executing CPU, and with the CePU its linked group (R330). -/
theorem mem_lanes (s : State) (c : CpuId) : c ∈ lanes s ↔ c = s.cur ∨ (s.cur = 0 ∧ joined s c = true) := by
  unfold lanes
  split
  · next h =>
    have := (actingOrder_perm s).mem_iff.2 (mem_cpuIds c)
    simp [this, h]
  · next h => simp [h]

theorem lanes_nodup (s : State) : (lanes s).Nodup := by
  unfold lanes
  split
  · exact ((actingOrder_perm s).nodup_iff.2 cpuIds_nodup).filter _
  · simp

theorem cur_mem_lanes (s : State) : s.cur ∈ lanes s := (mem_lanes s _).2 (.inl rfl)

/-- A list without repeats whose one member is c is [c]. -/
theorem eq_singleton_of_nodup {α : Type} {l : List α} {c : α} (hn : l.Nodup) (h : ∀ x, x ∈ l ↔ x = c) : l = [c] := by
  match l, hn, h with
  | [], _, h => exact absurd ((h c).2 rfl) (by simp)
  | [x], _, h => rw [(h x).1 (by simp)]
  | x :: y :: r, hn, h =>
    have hx := (h x).1 (by simp)
    have hy := (h y).1 (by simp)
    simp [hx, hy] at hn

/-- Without a linked group an instruction runs on the executing CPU alone. -/
theorem lanes_of_not_grouped {s : State} (h : grouped s = false) : lanes s = [s.cur] := by
  refine eq_singleton_of_nodup (lanes_nodup s) fun x => ?_
  rw [mem_lanes]
  refine ⟨fun hx => hx.elim id fun ⟨h0, hj⟩ => ?_, .inl⟩
  rw [grouped, h0] at h
  have : cpuIds.any (joined s) = false := by simpa using h
  rw [List.any_eq_false] at this
  exact absurd hj (this x (mem_cpuIds x))

theorem not_grouped_of_cur_ne {s : State} (h : s.cur ≠ 0) : grouped s = false := by simp [grouped, h]

/-! ### The data path on the lanes -/

/-- Only CPUs differ. -/
def OnlyCpus (s t : State) : Prop := t = { s with cpus := t.cpus }

theorem OnlyCpus.refl (s : State) : OnlyCpus s s := rfl

theorem OnlyCpus.setCpu {s t : State} (h : OnlyCpus s t) (c : CpuId) (x : Cpu) : OnlyCpus s (t.setCpu c x) := by
  unfold OnlyCpus at *
  rw [h]; rfl

@[simp] theorem setCpu_same (s : State) (c : CpuId) : s.setCpu c (s.cpu c) = s := by
  have : s.cpus.set c.val (s.cpu c) = s.cpus := by
    ext i hi
    simp only [Vector.getElem_set]
    split
    · next h => subst h; rfl
    · rfl
  show { s with cpus := s.cpus.set c.val (s.cpu c) } = s
  rw [this]

/-- A CPU vector is known by its entries. -/
theorem ext_cpus {s t : State} (h : OnlyCpus s t) (hc : ∀ c, t.cpu c = s.cpu c) : t = s := by
  have : t.cpus = s.cpus := by
    ext i hi
    exact hc ⟨i, hi⟩
  rw [h, this]

/-- A write of a register is a change of one CPU. -/
theorem setReg_eq_setCpu (c : CpuId) (r : Reg) (v : Word) (s : State) :
    setReg c r v s = s.setCpu c ((setReg c r v s).cpu c) := by
  unfold setReg
  split
  · simp
  · simp

/-- Lanes that each change their own CPU only, to something the state before decides: all of it is done, each lane's CPU is
changed, and nothing else. -/
theorem forLanes_own (f : CpuId → State → Effect) (g : CpuId → Cpu) (l : List CpuId) (hn : l.Nodup) (s : State)
    (hf : ∀ c ∈ l, ∀ t, OnlyCpus s t → t.cpu c = s.cpu c → f c t = .done (t.setCpu c (g c))) :
    ∃ t, forLanes f l s = .done t ∧ OnlyCpus s t ∧ ∀ c, t.cpu c = if c ∈ l then g c else s.cpu c := by
  suffices H : ∀ (l : List CpuId), l.Nodup → ∀ u, OnlyCpus s u → (∀ c ∈ l, u.cpu c = s.cpu c) →
      (∀ c ∈ l, ∀ t, OnlyCpus s t → t.cpu c = s.cpu c → f c t = .done (t.setCpu c (g c))) →
      ∃ t, forLanes f l u = .done t ∧ OnlyCpus s t ∧ ∀ c, t.cpu c = if c ∈ l then g c else u.cpu c from
    H l hn s rfl (fun _ _ => rfl) hf
  intro l
  induction l with
  | nil => intro _ u hu _ _; exact ⟨u, rfl, hu, fun c => by simp⟩
  | cons a r ih =>
    intro hn u hu hs hf
    have ha := hf a (by simp) u hu (hs a (by simp))
    have hn' := List.nodup_cons.1 hn
    obtain ⟨t, ht, ho, hc⟩ := ih hn'.2 (u.setCpu a (g a)) (hu.setCpu a _)
      (fun c hc => by
        have : c ≠ a := fun e => hn'.1 (e ▸ hc)
        rw [setCpu_cpu_of_ne _ _ this]; exact hs c (by simp [hc]))
      (fun c hc => hf c (by simp [hc]))
    refine ⟨t, by simp only [forLanes, ha, ht], ho, fun c => ?_⟩
    rw [hc c, setCpu_cpu]
    by_cases h1 : c = a
    · subst h1; simp [hn'.1]
    · by_cases h2 : c ∈ r <;> simp [h1, h2]

/-- Lanes that are each done in a step that keeps a relation: all of it is done, and the relation holds between the state
before and the state after, and what each lane has reached stays. -/
theorem forLanes_rel (f : CpuId → State → Effect) (R : State → State → Prop) (Q : CpuId → State → Prop)
    (refl : ∀ s, R s s) (trans : ∀ s t u, R s t → R t u → R s u) (l : List CpuId) (s : State)
    (hf : ∀ c ∈ l, ∀ t, R s t → ∃ u, f c t = .done u ∧ R t u ∧ Q c u)
    (keep : ∀ c ∈ l, ∀ t u d, R s t → f c t = .done u → Q d t → Q d u) :
    ∃ t, forLanes f l s = .done t ∧ R s t ∧ ∀ c ∈ l, Q c t := by
  suffices H : ∀ (l : List CpuId) (done : List CpuId) (u : State), R s u → (∀ c ∈ done, Q c u) →
      (∀ c ∈ l, ∀ t, R s t → ∃ u, f c t = .done u ∧ R t u ∧ Q c u) →
      (∀ c ∈ l, ∀ t u d, R s t → f c t = .done u → Q d t → Q d u) →
      ∃ t, forLanes f l u = .done t ∧ R s t ∧ ∀ c ∈ done ++ l, Q c t by
    simpa using H l [] s (refl s) (by simp) hf keep
  intro l
  induction l with
  | nil => intro done u hu hq _ _; exact ⟨u, rfl, hu, by simpa using hq⟩
  | cons a r ih =>
    intro done u hu hq hf keep
    obtain ⟨v, hv, hr, hqa⟩ := hf a (by simp) u hu
    obtain ⟨t, ht, hR, hQ⟩ := ih (done ++ [a]) v (trans _ _ _ hu hr)
      (by
        intro c hc
        rcases List.mem_append.1 hc with h | h
        · exact keep a (by simp) u v c hu hv (hq c h)
        · simp at h; subst h; exact hqa)
      (fun c hc => hf c (by simp [hc])) (fun c hc => keep c (by simp [hc]))
    exact ⟨t, by simp only [forLanes, hv, ht], hR, by simpa using hQ⟩

/-- What holds of every lane's end holds of the whole data path's end. -/
theorem forLanes_done (f : CpuId → State → Effect) (R : State → State → Prop)
    (refl : ∀ s, R s s) (trans : ∀ s t u, R s t → R t u → R s u) :
    ∀ (l : List CpuId) (s t : State), (∀ c ∈ l, ∀ u v, f c u = .done v → R u v) → forLanes f l s = .done t → R s t := by
  intro l
  induction l with
  | nil => intro s t _ h; simp only [forLanes] at h; cases h; exact refl _
  | cons a r ih =>
    intro s t hf h
    simp only [forLanes] at h
    split at h
    · next u hu => exact trans _ _ _ (hf a (by simp) s u hu) (ih u t (fun c hc => hf c (by simp [hc])) h)
    all_goals cases h

end Sys2Proof.Machine
end

