-- ==== Sys2Proof/Laws/Ops.lean ====
section
/-! SUPPORT. What the shared operations of Machine/Ops.lean can do: counting, completion, taking an exception and
returning from one. -/

namespace Sys2Proof.Machine

/-! ### Counting -/

/-- A counter write changes the counters only. -/
theorem setCounter_eq (n : Fin 32) (v : BitVec 64) (s : State) :
    setCounter n v s = { s with counters := (setCounter n v s).counters } := by
  unfold setCounter; split <;> rfl

theorem bumpUnless_eq (skip : Option (Fin 32)) (n : Fin 32) (s : State) :
    bumpUnless skip n s = { s with counters := (bumpUnless skip n s).counters } := by
  unfold bumpUnless bump; split
  · rfl
  · exact setCounter_eq _ _ _

/-- Completion changes the counters only. -/
theorem retire_eq (k : EventClass) (skip : Option (Fin 32)) (s : State) :
    retire k skip s = { s with counters := (retire k skip s).counters } := by
  unfold retire
  split
  · dsimp only
    split
    · next n _ =>
      rw [bumpUnless_eq skip n, bumpUnless_eq skip 2]
    · exact bumpUnless_eq _ _ _
  · rfl

/-- A trapping instruction changes the counters and the number of drawn values only. -/
theorem countTrapped_eq (k : EventClass) (s : State) :
    countTrapped k s =
      { s with counters := (countTrapped k s).counters, drawn := (countTrapped k s).drawn } := by
  unfold countTrapped
  split
  · split
    · rw [setCounter_eq]
    · rfl
  · rfl

@[simp] theorem setCounter_cfg (n : Fin 32) (v : BitVec 64) (s : State) : (setCounter n v s).cfg = s.cfg := by
  rw [setCounter_eq]

@[simp] theorem setCounter_cpus (n : Fin 32) (v : BitVec 64) (s : State) : (setCounter n v s).cpus = s.cpus := by
  rw [setCounter_eq]

@[simp] theorem setCounter_mstatus (n : Fin 32) (v : BitVec 64) (s : State) : (setCounter n v s).mstatus = s.mstatus := by
  rw [setCounter_eq]

@[simp] theorem setCounter_mtvec (n : Fin 32) (v : BitVec 64) (s : State) : (setCounter n v s).mtvec = s.mtvec := by
  rw [setCounter_eq]

@[simp] theorem setCounter_mscratch (n : Fin 32) (v : BitVec 64) (s : State) : (setCounter n v s).mscratch = s.mscratch := by
  rw [setCounter_eq]

@[simp] theorem setCounter_mepc (n : Fin 32) (v : BitVec 64) (s : State) : (setCounter n v s).mepc = s.mepc := by
  rw [setCounter_eq]

@[simp] theorem setCounter_mcause (n : Fin 32) (v : BitVec 64) (s : State) : (setCounter n v s).mcause = s.mcause := by
  rw [setCounter_eq]

@[simp] theorem setCounter_mtval (n : Fin 32) (v : BitVec 64) (s : State) : (setCounter n v s).mtval = s.mtval := by
  rw [setCounter_eq]

@[simp] theorem setCounter_pngrpsel (n : Fin 32) (v : BitVec 64) (s : State) : (setCounter n v s).pngrpsel = s.pngrpsel := by
  rw [setCounter_eq]

@[simp] theorem setCounter_pnlm (n : Fin 32) (v : BitVec 64) (s : State) : (setCounter n v s).pnlm = s.pnlm := by
  rw [setCounter_eq]

@[simp] theorem setCounter_pnxsel (n : Fin 32) (v : BitVec 64) (s : State) : (setCounter n v s).pnxsel = s.pnxsel := by
  rw [setCounter_eq]

@[simp] theorem setCounter_pncache (n : Fin 32) (v : BitVec 64) (s : State) : (setCounter n v s).pncache = s.pncache := by
  rw [setCounter_eq]

@[simp] theorem setCounter_pnx (n : Fin 32) (v : BitVec 64) (s : State) : (setCounter n v s).pnx = s.pnx := by
  rw [setCounter_eq]

@[simp] theorem setCounter_pnceReq (n : Fin 32) (v : BitVec 64) (s : State) : (setCounter n v s).pnceReq = s.pnceReq := by
  rw [setCounter_eq]

@[simp] theorem setCounter_active (n : Fin 32) (v : BitVec 64) (s : State) : (setCounter n v s).active = s.active := by
  rw [setCounter_eq]

@[simp] theorem setCounter_xstate (n : Fin 32) (v : BitVec 64) (s : State) : (setCounter n v s).xstate = s.xstate := by
  rw [setCounter_eq]

@[simp] theorem setCounter_inTrap (n : Fin 32) (v : BitVec 64) (s : State) : (setCounter n v s).inTrap = s.inTrap := by
  rw [setCounter_eq]

@[simp] theorem setCounter_halted (n : Fin 32) (v : BitVec 64) (s : State) : (setCounter n v s).halted = s.halted := by
  rw [setCounter_eq]

@[simp] theorem setCounter_main (n : Fin 32) (v : BitVec 64) (s : State) : (setCounter n v s).main = s.main := by
  rw [setCounter_eq]

@[simp] theorem setCounter_cache (n : Fin 32) (v : BitVec 64) (s : State) : (setCounter n v s).cache = s.cache := by
  rw [setCounter_eq]

@[simp] theorem setCounter_cur (n : Fin 32) (v : BitVec 64) (s : State) : (setCounter n v s).cur = s.cur := by
  rw [setCounter_eq]

@[simp] theorem setCounter_laneOrder (n : Fin 32) (v : BitVec 64) (s : State) : (setCounter n v s).laneOrder = s.laneOrder := by
  rw [setCounter_eq]

@[simp] theorem setCounter_agenda (n : Fin 32) (v : BitVec 64) (s : State) : (setCounter n v s).agenda = s.agenda := by
  rw [setCounter_eq]

@[simp] theorem setCounter_drawn (n : Fin 32) (v : BitVec 64) (s : State) : (setCounter n v s).drawn = s.drawn := by
  rw [setCounter_eq]

@[simp] theorem setCounter_owed (n : Fin 32) (v : BitVec 64) (s : State) : (setCounter n v s).owed = s.owed := by
  rw [setCounter_eq]

@[simp] theorem setCounter_handled (n : Fin 32) (v : BitVec 64) (s : State) : (setCounter n v s).handled = s.handled := by
  rw [setCounter_eq]

@[simp] theorem setCounter_pnlmIllegal (n : Fin 32) (v : BitVec 64) (s : State) : (setCounter n v s).pnlmIllegal = s.pnlmIllegal := by
  rw [setCounter_eq]

@[simp] theorem setCounter_deviceReads (n : Fin 32) (v : BitVec 64) (s : State) : (setCounter n v s).deviceReads = s.deviceReads := by
  rw [setCounter_eq]

@[simp] theorem setCounter_cpu (n : Fin 32) (v : BitVec 64) (s : State) (c : CpuId) : (setCounter n v s).cpu c = s.cpu c := by
  rw [setCounter_eq]; rfl

@[simp] theorem reg_setCounter (c : CpuId) (r : Reg) (n : Fin 32) (v : BitVec 64) (s : State) : reg c r (setCounter n v s) = reg c r s := by
  simp [reg]

@[simp] theorem pcOf_setCounter (c : CpuId) (n : Fin 32) (v : BitVec 64) (s : State) : pcOf c (setCounter n v s) = pcOf c s := by
  simp [pcOf]

@[simp] theorem retire_cfg (k : EventClass) (skip : Option (Fin 32)) (s : State) : (retire k skip s).cfg = s.cfg := by
  rw [retire_eq]

@[simp] theorem retire_cpus (k : EventClass) (skip : Option (Fin 32)) (s : State) : (retire k skip s).cpus = s.cpus := by
  rw [retire_eq]

@[simp] theorem retire_mstatus (k : EventClass) (skip : Option (Fin 32)) (s : State) : (retire k skip s).mstatus = s.mstatus := by
  rw [retire_eq]

@[simp] theorem retire_mtvec (k : EventClass) (skip : Option (Fin 32)) (s : State) : (retire k skip s).mtvec = s.mtvec := by
  rw [retire_eq]

@[simp] theorem retire_mscratch (k : EventClass) (skip : Option (Fin 32)) (s : State) : (retire k skip s).mscratch = s.mscratch := by
  rw [retire_eq]

@[simp] theorem retire_mepc (k : EventClass) (skip : Option (Fin 32)) (s : State) : (retire k skip s).mepc = s.mepc := by
  rw [retire_eq]

@[simp] theorem retire_mcause (k : EventClass) (skip : Option (Fin 32)) (s : State) : (retire k skip s).mcause = s.mcause := by
  rw [retire_eq]

@[simp] theorem retire_mtval (k : EventClass) (skip : Option (Fin 32)) (s : State) : (retire k skip s).mtval = s.mtval := by
  rw [retire_eq]

@[simp] theorem retire_pngrpsel (k : EventClass) (skip : Option (Fin 32)) (s : State) : (retire k skip s).pngrpsel = s.pngrpsel := by
  rw [retire_eq]

@[simp] theorem retire_pnlm (k : EventClass) (skip : Option (Fin 32)) (s : State) : (retire k skip s).pnlm = s.pnlm := by
  rw [retire_eq]

@[simp] theorem retire_pnxsel (k : EventClass) (skip : Option (Fin 32)) (s : State) : (retire k skip s).pnxsel = s.pnxsel := by
  rw [retire_eq]

@[simp] theorem retire_pncache (k : EventClass) (skip : Option (Fin 32)) (s : State) : (retire k skip s).pncache = s.pncache := by
  rw [retire_eq]

@[simp] theorem retire_pnx (k : EventClass) (skip : Option (Fin 32)) (s : State) : (retire k skip s).pnx = s.pnx := by
  rw [retire_eq]

@[simp] theorem retire_pnceReq (k : EventClass) (skip : Option (Fin 32)) (s : State) : (retire k skip s).pnceReq = s.pnceReq := by
  rw [retire_eq]

@[simp] theorem retire_active (k : EventClass) (skip : Option (Fin 32)) (s : State) : (retire k skip s).active = s.active := by
  rw [retire_eq]

@[simp] theorem retire_xstate (k : EventClass) (skip : Option (Fin 32)) (s : State) : (retire k skip s).xstate = s.xstate := by
  rw [retire_eq]

@[simp] theorem retire_inTrap (k : EventClass) (skip : Option (Fin 32)) (s : State) : (retire k skip s).inTrap = s.inTrap := by
  rw [retire_eq]

@[simp] theorem retire_halted (k : EventClass) (skip : Option (Fin 32)) (s : State) : (retire k skip s).halted = s.halted := by
  rw [retire_eq]

@[simp] theorem retire_main (k : EventClass) (skip : Option (Fin 32)) (s : State) : (retire k skip s).main = s.main := by
  rw [retire_eq]

@[simp] theorem retire_cache (k : EventClass) (skip : Option (Fin 32)) (s : State) : (retire k skip s).cache = s.cache := by
  rw [retire_eq]

@[simp] theorem retire_cur (k : EventClass) (skip : Option (Fin 32)) (s : State) : (retire k skip s).cur = s.cur := by
  rw [retire_eq]

@[simp] theorem retire_laneOrder (k : EventClass) (skip : Option (Fin 32)) (s : State) : (retire k skip s).laneOrder = s.laneOrder := by
  rw [retire_eq]

@[simp] theorem retire_agenda (k : EventClass) (skip : Option (Fin 32)) (s : State) : (retire k skip s).agenda = s.agenda := by
  rw [retire_eq]

@[simp] theorem retire_drawn (k : EventClass) (skip : Option (Fin 32)) (s : State) : (retire k skip s).drawn = s.drawn := by
  rw [retire_eq]

@[simp] theorem retire_owed (k : EventClass) (skip : Option (Fin 32)) (s : State) : (retire k skip s).owed = s.owed := by
  rw [retire_eq]

@[simp] theorem retire_handled (k : EventClass) (skip : Option (Fin 32)) (s : State) : (retire k skip s).handled = s.handled := by
  rw [retire_eq]

@[simp] theorem retire_pnlmIllegal (k : EventClass) (skip : Option (Fin 32)) (s : State) : (retire k skip s).pnlmIllegal = s.pnlmIllegal := by
  rw [retire_eq]

@[simp] theorem retire_deviceReads (k : EventClass) (skip : Option (Fin 32)) (s : State) : (retire k skip s).deviceReads = s.deviceReads := by
  rw [retire_eq]

@[simp] theorem retire_cpu (k : EventClass) (skip : Option (Fin 32)) (s : State) (c : CpuId) : (retire k skip s).cpu c = s.cpu c := by
  rw [retire_eq]; rfl

@[simp] theorem reg_retire (c : CpuId) (r : Reg) (k : EventClass) (skip : Option (Fin 32)) (s : State) : reg c r (retire k skip s) = reg c r s := by
  simp [reg]

@[simp] theorem pcOf_retire (c : CpuId) (k : EventClass) (skip : Option (Fin 32)) (s : State) : pcOf c (retire k skip s) = pcOf c s := by
  simp [pcOf]

@[simp] theorem countTrapped_cfg (k : EventClass) (s : State) : (countTrapped k s).cfg = s.cfg := by
  rw [countTrapped_eq]

@[simp] theorem countTrapped_cpus (k : EventClass) (s : State) : (countTrapped k s).cpus = s.cpus := by
  rw [countTrapped_eq]

@[simp] theorem countTrapped_mstatus (k : EventClass) (s : State) : (countTrapped k s).mstatus = s.mstatus := by
  rw [countTrapped_eq]

@[simp] theorem countTrapped_mtvec (k : EventClass) (s : State) : (countTrapped k s).mtvec = s.mtvec := by
  rw [countTrapped_eq]

@[simp] theorem countTrapped_mscratch (k : EventClass) (s : State) : (countTrapped k s).mscratch = s.mscratch := by
  rw [countTrapped_eq]

@[simp] theorem countTrapped_mepc (k : EventClass) (s : State) : (countTrapped k s).mepc = s.mepc := by
  rw [countTrapped_eq]

@[simp] theorem countTrapped_mcause (k : EventClass) (s : State) : (countTrapped k s).mcause = s.mcause := by
  rw [countTrapped_eq]

@[simp] theorem countTrapped_mtval (k : EventClass) (s : State) : (countTrapped k s).mtval = s.mtval := by
  rw [countTrapped_eq]

@[simp] theorem countTrapped_pngrpsel (k : EventClass) (s : State) : (countTrapped k s).pngrpsel = s.pngrpsel := by
  rw [countTrapped_eq]

@[simp] theorem countTrapped_pnlm (k : EventClass) (s : State) : (countTrapped k s).pnlm = s.pnlm := by
  rw [countTrapped_eq]

@[simp] theorem countTrapped_pnxsel (k : EventClass) (s : State) : (countTrapped k s).pnxsel = s.pnxsel := by
  rw [countTrapped_eq]

@[simp] theorem countTrapped_pncache (k : EventClass) (s : State) : (countTrapped k s).pncache = s.pncache := by
  rw [countTrapped_eq]

@[simp] theorem countTrapped_pnx (k : EventClass) (s : State) : (countTrapped k s).pnx = s.pnx := by
  rw [countTrapped_eq]

@[simp] theorem countTrapped_pnceReq (k : EventClass) (s : State) : (countTrapped k s).pnceReq = s.pnceReq := by
  rw [countTrapped_eq]

@[simp] theorem countTrapped_active (k : EventClass) (s : State) : (countTrapped k s).active = s.active := by
  rw [countTrapped_eq]

@[simp] theorem countTrapped_xstate (k : EventClass) (s : State) : (countTrapped k s).xstate = s.xstate := by
  rw [countTrapped_eq]

@[simp] theorem countTrapped_inTrap (k : EventClass) (s : State) : (countTrapped k s).inTrap = s.inTrap := by
  rw [countTrapped_eq]

@[simp] theorem countTrapped_halted (k : EventClass) (s : State) : (countTrapped k s).halted = s.halted := by
  rw [countTrapped_eq]

@[simp] theorem countTrapped_main (k : EventClass) (s : State) : (countTrapped k s).main = s.main := by
  rw [countTrapped_eq]

@[simp] theorem countTrapped_cache (k : EventClass) (s : State) : (countTrapped k s).cache = s.cache := by
  rw [countTrapped_eq]

@[simp] theorem countTrapped_cur (k : EventClass) (s : State) : (countTrapped k s).cur = s.cur := by
  rw [countTrapped_eq]

@[simp] theorem countTrapped_laneOrder (k : EventClass) (s : State) : (countTrapped k s).laneOrder = s.laneOrder := by
  rw [countTrapped_eq]

@[simp] theorem countTrapped_agenda (k : EventClass) (s : State) : (countTrapped k s).agenda = s.agenda := by
  rw [countTrapped_eq]

@[simp] theorem countTrapped_owed (k : EventClass) (s : State) : (countTrapped k s).owed = s.owed := by
  rw [countTrapped_eq]

@[simp] theorem countTrapped_handled (k : EventClass) (s : State) : (countTrapped k s).handled = s.handled := by
  rw [countTrapped_eq]

@[simp] theorem countTrapped_pnlmIllegal (k : EventClass) (s : State) : (countTrapped k s).pnlmIllegal = s.pnlmIllegal := by
  rw [countTrapped_eq]

@[simp] theorem countTrapped_deviceReads (k : EventClass) (s : State) : (countTrapped k s).deviceReads = s.deviceReads := by
  rw [countTrapped_eq]

@[simp] theorem countTrapped_cpu (k : EventClass) (s : State) (c : CpuId) : (countTrapped k s).cpu c = s.cpu c := by
  rw [countTrapped_eq]; rfl

@[simp] theorem reg_countTrapped (c : CpuId) (r : Reg) (k : EventClass) (s : State) : reg c r (countTrapped k s) = reg c r s := by
  simp [reg]

@[simp] theorem pcOf_countTrapped (c : CpuId) (k : EventClass) (s : State) : pcOf c (countTrapped k s) = pcOf c s := by
  simp [pcOf]
/-- A counter is known by the configuration and the counters. -/
theorem counter_congr {s t : State} (hc : t.cfg = s.cfg) (h : t.counters = s.counters) (n : Fin 32) :
    counter n t = counter n s := by simp only [counter, hc, h]

theorem counter_setCounter (m n : Fin 32) (v : BitVec 64) (s : State) :
    counter m (setCounter n v s) =
      if m = n ∧ counterExists s.cfg n = true then counterTrunc s.cfg n v else counter m s := by
  unfold counter
  rw [setCounter_cfg]
  unfold setCounter
  by_cases hn : counterExists s.cfg n = true
  · rw [if_pos hn]
    by_cases hm : m = n
    · subst hm; simp [hn]
    · have : n.val ≠ m.val := fun e => hm (Fin.ext e.symm)
      simp [hm, Vector.getElem_set_ne _ _ this]
  · rw [if_neg hn]
    by_cases hm : m = n
    · subst hm; simp [hn]
    · simp [hm]

/-- One more, modulo the counter's width. -/
theorem counterTrunc_succ (cfg : Config) (n : Fin 32) (x : BitVec 64) :
    counterTrunc cfg n (x + 1) = BitVec.ofNat 64 ((x.toNat + 1) % 2 ^ counterWidth cfg n) := by
  unfold counterTrunc
  have hx : (x + 1).toNat = (x.toNat + 1) % 2 ^ 64 := by simp [BitVec.toNat_add]
  rw [hx]
  rcases Nat.le_total (counterWidth cfg n) 64 with h | h
  · rw [Nat.mod_mod_of_dvd _ (Nat.pow_dvd_pow 2 h)]
  · apply BitVec.eq_of_toNat_eq
    simp only [BitVec.toNat_ofNat]
    have hlt : (x.toNat + 1) % 2 ^ 64 < 2 ^ counterWidth cfg n :=
      Nat.lt_of_lt_of_le (Nat.mod_lt _ (by decide)) (Nat.pow_le_pow_right (by decide) h)
    rw [Nat.mod_eq_of_lt hlt, Nat.mod_mod, Nat.mod_mod_of_dvd (x.toNat + 1) (Nat.pow_dvd_pow 2 h)]

theorem counter_bumpUnless (m : Fin 32) (skip : Option (Fin 32)) (n : Fin 32) (s : State) :
    counter m (bumpUnless skip n s) =
      if m = n ∧ skip ≠ some n ∧ counterExists s.cfg n = true
      then BitVec.ofNat 64 (((counter n s).toNat + 1) % 2 ^ counterWidth s.cfg n) else counter m s := by
  unfold bumpUnless bump
  by_cases hs : skip = some n
  · simp [hs]
  · rw [if_neg hs, counter_setCounter, counterTrunc_succ]
    simp [hs]

theorem slot_ne_two (k : EventClass) : k.slot ≠ some 2 := by cases k <;> decide

/-- What the counters hold after an instruction of a class has completed (R51, R53, R278, R330). -/
theorem counter_retire (m : Fin 32) (k : EventClass) (skip : Option (Fin 32)) (s : State) :
    counter m (retire k skip s) =
      if s.cur = 0 ∧ (m = 2 ∨ k.slot = some m) ∧ skip ≠ some m ∧ counterExists s.cfg m = true
      then BitVec.ofNat 64 (((counter m s).toNat + 1) % 2 ^ counterWidth s.cfg m) else counter m s := by
  have hcfg : (bumpUnless skip 2 s).cfg = s.cfg := by rw [bumpUnless_eq]
  unfold retire
  by_cases h0 : s.cur = 0
  · rw [if_pos h0]
    dsimp only
    have h2 := slot_ne_two k
    split
    · next n hn =>
      have hn2 : n ≠ 2 := fun e => h2 (e ▸ hn)
      rw [counter_bumpUnless, counter_bumpUnless, counter_bumpUnless, hcfg]
      by_cases hm : m = n
      · subst hm; simp [h0, hn, hn2]
      · by_cases hm2 : m = 2
        · subst hm2; simp [h0, hm]
        · simp [hm, hm2, hn, eq_comm (a := n)]
    · next hn =>
      rw [counter_bumpUnless]
      by_cases hm2 : m = 2
      · subst hm2; simp [h0]
      · simp [hm2, hn]
  · rw [if_neg h0]; simp [h0]

/-- A counter that is not the class's own is not touched by a trapping instruction (U14). -/
theorem counter_countTrapped {k : EventClass} {n : Fin 32} (h : k.slot ≠ some n) (s : State) :
    counter n (countTrapped k s) = counter n s := by
  unfold countTrapped
  split
  · next m hm =>
    have hne : n ≠ m := fun e => h (e ▸ hm)
    split
    · rw [counter_setCounter]
      simp only [hne, false_and, if_false]; rfl
    · rfl
  · rfl

/-- Completion counts as the statements' Counted says. -/
theorem counted_retire {k : EventClass} {s t : State} (hc : t.cfg = s.cfg) (hu : t.cur = s.cur)
    (hn : t.counters = s.counters) : Counted k s (retire k none t) := by
  intro n
  rw [counter_retire, hc, hu, counter_congr hc hn]
  simp

/-! ### Completion of an instruction -/

@[simp] theorem finish_done (k : EventClass) (skip : Option (Fin 32)) (next : Word) (s t : State) :
    finish k skip next s (.done t) = .next (retire k skip (setPc t.cur next t)) := rfl

@[simp] theorem finish_raises (k : EventClass) (skip : Option (Fin 32)) (next : Word) (s : State) (e : Exn) (v : Word) :
    finish k skip next s (.raises e v) = raiseException k e v s := rfl

@[simp] theorem finish_stuck (k : EventClass) (skip : Option (Fin 32)) (next : Word) (s : State) (r : Fault) :
    finish k skip next s (.stuck r) = .fault r := rfl

@[simp] theorem finish_refuse (k : EventClass) (skip : Option (Fin 32)) (next : Word) (s : State) (r : Refusal) :
    finish k skip next s (.refuse r) = .refused r := rfl

/-- All a completed instruction can come to: its data path is done, or it took an exception alone. -/
theorem finish_next {k : EventClass} {skip : Option (Fin 32)} {next : Word} {s t : State} {e : Effect}
    (h : finish k skip next s e = .next t) :
    (∃ u, e = .done u ∧ t = retire k skip (setPc u.cur next u)) ∨
      (∃ x v, e = .raises x v ∧ grouped s = false ∧ t = takeException k x v s) := by
  cases e with
  | done u => exact .inl ⟨u, rfl, by simpa using h.symm⟩
  | raises x v =>
    refine .inr ⟨x, v, rfl, ?_⟩
    simp only [finish_raises, raiseException] at h
    split at h
    · cases h
    · next hg => exact ⟨by simpa using hg, by cases h; rfl⟩
  | stuck r => cases h
  | refuse r => cases h

theorem raiseException_next {k : EventClass} {e : Exn} {v : Word} {s t : State}
    (h : raiseException k e v s = .next t) : grouped s = false ∧ t = takeException k e v s := by
  unfold raiseException at h
  split at h
  · cases h
  · next hg => exact ⟨by simpa using hg, by cases h; rfl⟩

/-- An instruction on the executing CPU alone. -/
theorem onLanes_single {k : EventClass} {next : Word} {f : CpuId → State → Effect} {s : State}
    (h : grouped s = false) : onLanes k next f s = finish k none next s (f s.cur s) := by
  simp only [onLanes, lanes_of_not_grouped h, forLanes]
  cases f s.cur s <;> rfl

/-- A register is known by its CPU's registers. -/
theorem setReg_cpu (c : CpuId) (r : Reg) (v : Word) (s : State) :
    (setReg c r v s).cpu c = { s.cpu c with regs := if r = 0 then (s.cpu c).regs else (s.cpu c).regs.set r.toNat v r.isLt } := by
  unfold setReg
  split <;> simp

@[simp] theorem setReg_cpu_of_ne {c d : CpuId} (r : Reg) (v : Word) {s : State} (h : d ≠ c) :
    (setReg c r v s).cpu d = s.cpu d := by
  unfold setReg
  split
  · rfl
  · exact setCpu_cpu_of_ne _ _ h

/-- An instruction that writes one register on every lane completes: what the state holds then. -/
theorem onLanes_write (k : EventClass) (next : Word) (rd : Reg) (f : CpuId → State → Effect) (w : CpuId → Word) (s : State)
    (hf : ∀ c ∈ lanes s, ∀ t, OnlyCpus s t → t.cpu c = s.cpu c → f c t = .done (setReg c rd (w c) t)) :
    ∃ u, onLanes k next f s = .next (retire k none (setPc s.cur next u)) ∧ OnlyCpus s u ∧
      ∀ c, u.cpu c = if c ∈ lanes s then (setReg c rd (w c) s).cpu c else s.cpu c := by
  obtain ⟨u, hu, ho, hc⟩ := forLanes_own f (fun c => (setReg c rd (w c) s).cpu c) (lanes s) (lanes_nodup s) s (by
      intro c hl t ht hs
      rw [hf c hl t ht hs, setReg_eq_setCpu, setReg_cpu, setReg_cpu, hs])
  refine ⟨u, ?_, ho, hc⟩
  have hcur : u.cur = s.cur := by rw [ho]
  simp only [onLanes, hu, finish_done, hcur]

/-- What is kept when only CPUs differ, and of them no pc, buffer or exception record. -/
theorem sameSystem_of_onlyCpus {s t : State} (h : OnlyCpus s t) (hx : ∀ c, (t.cpu c).xcause = (s.cpu c).xcause)
    (he : ∀ c, (t.cpu c).xepc = (s.cpu c).xepc) : SameSystem s t := by
  unfold OnlyCpus at h
  refine ⟨?_, ?_, ?_⟩ <;> constructor <;> first | exact hx | exact he | (rw [h])

theorem sameSystem_retire {s t : State} {k : EventClass} {skip : Option (Fin 32)} (h : SameSystem s t) :
    SameSystem s (retire k skip t) := by
  obtain ⟨a, b, c⟩ := h
  exact ⟨by cases a; constructor <;> simpa, by cases b; constructor <;> simpa, by cases c; constructor <;> simpa⟩

theorem memuRead_congr {s t : State} (hm : t.main = s.main) (hk : t.cache = s.cache) (hc : t.cfg = s.cfg)
    (hd : t.deviceReads = s.deviceReads) (cached : Bool) (a : Nat) : memuRead cached a t = memuRead cached a s := by
  unfold memuRead lineOf; rw [hm, hk, hc, hd]

theorem readByte_congr {s t : State} {c : CpuId} (hm : t.main = s.main) (hk : t.cache = s.cache)
    (hb : (t.cpu c).sbuf = (s.cpu c).sbuf) (hc : t.cfg = s.cfg) (hp : t.pncache = s.pncache)
    (hd : t.deviceReads = s.deviceReads) (a : Nat) : readByte c a t = readByte c a s := by
  unfold readByte dataCached; rw [hb, hp, hc, memuRead_congr hm hk hc hd]

theorem sameMemory_of {s t : State} (hm : t.main = s.main) (hk : t.cache = s.cache)
    (hb : ∀ c, (t.cpu c).sbuf = (s.cpu c).sbuf) (hc : t.cfg = s.cfg) (hp : t.pncache = s.pncache)
    (hd : t.deviceReads = s.deviceReads) : SameMemory s t :=
  ⟨hm, hk, hb, fun c a => readByte_congr hm hk (hb c) hc hp hd a⟩

/-- A register write on every lane is what the statements' WritesReg says. -/
theorem writesReg_onLanes {i : Instr} {k : EventClass} {rd : Reg} {next : State → Word} {f : CpuId → State → Effect}
    {w : CpuId → State → Word} {s : State} (hi : exec i s = onLanes k (next s) f s)
    (h : ∀ c ∈ lanes s, ∀ t, OnlyCpus s t → t.cpu c = s.cpu c → f c t = .done (setReg c rd (w c s) t)) :
    WritesReg i k rd next w s := by
  obtain ⟨u, hu, ho, hc⟩ := onLanes_write k (next s) rd f (fun c => w c s) s h
  have hf : ∀ c, (u.cpu c).pc = (s.cpu c).pc ∧ (u.cpu c).sbuf = (s.cpu c).sbuf ∧ (u.cpu c).ifu = (s.cpu c).ifu ∧
      (u.cpu c).xcause = (s.cpu c).xcause ∧ (u.cpu c).xepc = (s.cpu c).xepc := by
    intro c; rw [hc c]; split <;> simp
  have hcur : u.cur = s.cur := by rw [ho]
  refine ⟨_, hi.trans hu, ?_, ?_, ?_, ?_, ?_, ?_, ?_, ?_⟩
  · intro c hl
    rw [reg_retire, reg_setPc]
    by_cases h0 : rd = 0
    · simp [h0, reg]
    · simp only [reg, h0, if_false, hc c, hl, if_true, setReg_cpu, Vector.getElem_set_self]
  · intro c r h
    rw [reg_retire, reg_setPc]
    unfold reg
    by_cases h0 : r = 0
    · simp [h0]
    · simp only [h0, if_false, hc c]
      by_cases hl : c ∈ lanes s
      · have hr : rd.toNat ≠ r.toNat := fun e => (h.resolve_left (by simpa using hl)) (BitVec.eq_of_toNat_eq e.symm)
        simp only [hl, if_true, setReg_cpu]
        split
        · rfl
        · exact Vector.getElem_set_ne _ _ hr
      · simp [hl]
  · simp
  · intro c hcs
    rw [pcOf_retire, pcOf_setPc, if_neg hcs]
    exact (hf c).1
  · exact counted_retire (by rw [setPc_cfg, ho]) (by simpa using hcur) (by rw [setPc_counters, ho])
  · refine sameSystem_retire (sameSystem_of_onlyCpus (ho.setCpu _ _) ?_ ?_) <;> intro c <;>
      simp only [setPc_cpu_xcause, setPc_cpu_xepc, hf c]
  · refine sameMemory_of ?_ ?_ ?_ ?_ ?_ ?_ <;> first | (intro c; simp [hf c]) | (rw [retire_eq]; simp; rw [ho])
  · intro c; simp [hf c]

/-- The same for a value that the lane's own CPU decides. -/
theorem writesReg_of {i : Instr} {k : EventClass} {rd : Reg} {next : State → Word} {v w : CpuId → State → Word} {s : State}
    (hi : exec i s = writeOnLanes k (next s) rd v s)
    (hv : ∀ c t, OnlyCpus s t → t.cpu c = s.cpu c → v c t = v c s)
    (hw : ∀ c ∈ lanes s, v c s = w c s) : WritesReg i k rd next w s :=
  writesReg_onLanes hi fun c hl t ht hc => by rw [hv c t ht hc, hw c hl]

/-! ### Exceptions -/

@[simp] theorem copuException_cpu (c d : CpuId) (e : Exn) (s : State) :
    (copuException c e s).cpu d =
      if d = c then { s.cpu c with xcause := e.code, xepc := align4 (pcOf c s) } else s.cpu d :=
  setCpu_cpu s c d _

theorem trapEntry_cpu (e : Exn) (v : Word) (s : State) (c : CpuId) :
    (trapEntry e v s).cpu c = if c = 0 then { s.cpu 0 with pc := align4 s.mtvec } else s.cpu c :=
  setCpu_cpu _ 0 c _

/-- The CoPUs whose exception was handled go on at their resume address; nothing else changes but that they wait no
longer (R354). -/
theorem resumeCopus_spec (s : State) :
    resumeCopus s = { s with cpus := (resumeCopus s).cpus, handled := 0 } ∧
    ∀ c, (resumeCopus s).cpu c =
      if hasBit s.handled c then { s.cpu c with pc := resumePc s.cfg (s.cpu c).xepc } else s.cpu c := by
  have key : ∀ l : List CpuId, l.Nodup → ∀ u : State, u.cfg = s.cfg →
      let t := l.foldl (fun t c => t.setCpu c { t.cpu c with pc := resumePc t.cfg (t.cpu c).xepc }) u
      OnlyCpus u t ∧ ∀ c, t.cpu c = if c ∈ l then { u.cpu c with pc := resumePc s.cfg (u.cpu c).xepc } else u.cpu c := by
    intro l
    induction l with
    | nil => intro _ u _; exact ⟨rfl, fun c => by simp⟩
    | cons a r ih =>
      intro hn u hu
      have hn' := List.nodup_cons.1 hn
      obtain ⟨h1, h2⟩ := ih hn'.2 (u.setCpu a { u.cpu a with pc := resumePc u.cfg (u.cpu a).xepc }) hu
      refine ⟨?_, fun c => ?_⟩
      · rw [List.foldl_cons]; unfold OnlyCpus at *; rw [h1]; rfl
      · rw [List.foldl_cons, h2]
        by_cases hc : c = a
        · subst hc; simp [hn'.1, hu]
        · simp [hc]
  obtain ⟨h1, h2⟩ := key (cpuIds.filter (hasBit s.handled)) (cpuIds_nodup.filter _) s rfl
  refine ⟨?_, fun c => (h2 c).trans ?_⟩
  · unfold resumeCopus; unfold OnlyCpus at h1; rw [h1]
  · simp [mem_cpuIds]

/-- What the return from a trap changes (R293, R343, R354). -/
theorem trapReturn_eq (s : State) :
    trapReturn s = { s with
      cpus := (trapReturn s).cpus, mstatus := mstatusWith (mpie s) true, inTrap := false, handled := 0,
      owed := s.xstate &&& copuMask s } := by
  have h := (resumeCopus_spec s).1
  unfold trapReturn setPc State.setCpu
  dsimp only
  rw [h]

theorem trapReturn_cpu (s : State) (c : CpuId) :
    (trapReturn s).cpu c = if c = 0 then { (resumeCopus s).cpu 0 with pc := align4 s.mepc } else (resumeCopus s).cpu c :=
  setCpu_cpu _ 0 c _

/-- Of a CPU the return changes the pc alone. -/
theorem trapReturn_cpu_but_pc (s : State) (c : CpuId) : (trapReturn s).cpu c = { s.cpu c with pc := pcOf c (trapReturn s) } := by
  unfold pcOf
  rw [trapReturn_cpu]
  split
  · next h => subst h; rw [(resumeCopus_spec s).2]; split <;> rfl
  · rw [(resumeCopus_spec s).2]; split <;> rfl

/-- The trap entry is what the statements' TookTrap says (R340, R341). -/
theorem tookTrap_trapEntry (k : EventClass) (e : Exn) (v : Word) (s : State) :
    TookTrap k e.code v (pcOf 0 s) s (trapEntry e v (countTrapped k s)) := by
  have cp := fun c => trapEntry_cpu e v (countTrapped k s) c
  have c1 : ∀ c, ((trapEntry e v (countTrapped k s)).cpu c).regs = (s.cpu c).regs := by
    intro c; rw [cp]; split <;> simp_all
  have c2 : ∀ c, ((trapEntry e v (countTrapped k s)).cpu c).sbuf = (s.cpu c).sbuf := by
    intro c; rw [cp]; split <;> simp_all
  have c3 : ∀ c, ((trapEntry e v (countTrapped k s)).cpu c).ifu = (s.cpu c).ifu := by
    intro c; rw [cp]; split <;> simp_all
  have c4 : ∀ c, ((trapEntry e v (countTrapped k s)).cpu c).xcause = (s.cpu c).xcause := by
    intro c; rw [cp]; split <;> simp_all
  have c5 : ∀ c, ((trapEntry e v (countTrapped k s)).cpu c).xepc = (s.cpu c).xepc := by
    intro c; rw [cp]; split <;> simp_all
  have hs : mstatusWith false (mie s) = if s.mstatus.getLsbD 3 then 0x80 else 0 := by
    unfold mstatusWith mie; cases s.mstatus.getLsbD 3 <;> rfl
  have hm : SameMemory s (trapEntry e v (countTrapped k s)) := by
    refine sameMemory_of ?_ ?_ c2 ?_ ?_ ?_ <;> simp [trapEntry]
  refine ⟨?_, ?_, ?_, ?_, ?_, ?_, ?_, ?_, ?_, ?_, ?_, ?_, ?_, ?_, ?_, ?_, ?_, ?_, ?_, ?_, ?_, c4, c5, hm, c3, ?_, ?_, ?_⟩
  · simp [trapEntry, align4]
  · simp [trapEntry]
  · simp [trapEntry]
  · simp [trapEntry, copuMask]
  · rw [← hs]; simp [trapEntry, mie]
  · simp [trapEntry]
  · simp [trapEntry, align4]
  · intro c hc; unfold pcOf; rw [cp, if_neg hc]; simp
  · intro c r; exact reg_congr (c1 c) r
  any_goals simp [trapEntry]
  · intro n hn
    rw [← counter_countTrapped hn s]
    exact counter_congr (by simp) (by simp) n

/-- A CoPU's exception is what the statements' TookCopuException says (R352). -/
theorem tookCopuException_copuException (e : Exn) (c : CpuId) (s : State) :
    TookCopuException c e.code s (copuException c e s) := by
  have cp := fun d => copuException_cpu c d e s
  refine ⟨rfl, by simp, by simp [align4], ?_, ?_, ?_, ⟨rfl, rfl, rfl, rfl, rfl, rfl, rfl, rfl, rfl, rfl, rfl, rfl, rfl⟩,
    rfl, rfl, rfl, rfl, sameMemory_of rfl rfl ?_ rfl rfl rfl, ?_, ⟨rfl, rfl, rfl, rfl, rfl, rfl, rfl⟩, fun n => counter_congr rfl rfl n⟩
  · intro d hd; simp [hd]
  · intro d; unfold pcOf; rw [cp]; split <;> simp_all
  · intro d r; refine reg_congr ?_ r; rw [cp]; split <;> simp_all
  · intro d; rw [cp]; split <;> simp_all
  · intro d; rw [cp]; split <;> simp_all

/-- Raising an exception outside a linked group is what the statements' Raises says (R10). -/
theorem raises_of {i : Instr} {k : EventClass} {e : Exn} {v : Word} {s : State} (hg : grouped s = false)
    (h : exec i s = raiseException k e v s) : Raises i k e.code v s := by
  refine ⟨takeException k e v s, by rw [h, raiseException, if_neg (by simp [hg])], ?_⟩
  by_cases h0 : s.cur = 0
  · simp only [h0, if_true, takeException, curPc]
    exact tookTrap_trapEntry k e v s
  · simp only [h0, if_false, takeException]
    exact tookCopuException_copuException e _ s

/-- A data path that does nothing on any lane leaves the state. -/
theorem forLanes_id (f : CpuId → State → Effect) (l : List CpuId) (s : State) (h : ∀ c t, f c t = .done t) :
    forLanes f l s = .done s := by
  induction l with
  | nil => rfl
  | cons a r ih => simp only [forLanes, h, ih]

/-- An instruction without a data path is what the statements' OnlyGoesOn says. -/
theorem onlyGoesOn_of {i : Instr} {k : EventClass} {next : Word} {s : State}
    (h : exec i s = onLanes k next (fun _ t => .done t) s) : OnlyGoesOn i k next s := by
  refine ⟨retire k none (setPc s.cur next s), ?_, by simp, ?_, ?_, counted_retire (by simp) (by simp) (by simp),
    sameSystem_retire (by constructor <;> constructor <;> simp),
    sameMemory_of (by simp) (by simp) (by simp) (by simp) (by simp) (by simp), ?_⟩
  · rw [h, onLanes, forLanes_id _ _ _ (fun _ _ => rfl)]; rfl
  · intro c hc; simp [pcOf_setPc, hc]
  · intro c r; simp
  · intro c; simp

end Sys2Proof.Machine
end

