-- ==== Sys2Proof/Laws/Memu.lean ====
section
/-! SUPPORT. The memory unit and the store buffers: what each operation changes, what a byte reads afterwards, and that
the form of memory is kept. -/

namespace Sys2Proof.Machine

/-! ### What the operations change -/

/-- Only main memory and the cache differ. -/
def OnlyMemu (s t : State) : Prop := t = { s with main := t.main, cache := t.cache }

theorem OnlyMemu.refl (s : State) : OnlyMemu s s := rfl

theorem OnlyMemu.trans {s t u : State} (h : OnlyMemu s t) (h' : OnlyMemu t u) : OnlyMemu s u := by
  unfold OnlyMemu at *
  rw [h', h]

theorem onlyMemu_writeBeside (a : Nat) (b : Byte) (s : State) : OnlyMemu s (writeBeside a b s) := rfl

theorem onlyMemu_memuWrite (cached : Bool) (a : Nat) (b : Byte) (s : State) : OnlyMemu s (memuWrite cached a b s) := by
  unfold memuWrite
  split_ifs <;> rfl

theorem onlyMemu_commitStore (st : Store) (s : State) : OnlyMemu s (commitStore st s) := by
  unfold commitStore
  induction st generalizing s with
  | nil => rfl
  | cons e r ih => exact (onlyMemu_memuWrite _ _ _ s).trans (ih _)

theorem onlyMemu_writeBackLine (n : Nat) (s : State) : OnlyMemu s (writeBackLine n s) := by
  unfold writeBackLine; split <;> rfl

theorem onlyMemu_dropLine (n : Nat) (s : State) : OnlyMemu s (dropLine n s) := rfl

theorem onlyMemu_loadLine (n : Nat) (s : State) : OnlyMemu s (loadLine n s) := by
  unfold loadLine; split <;> rfl

theorem onlyMemu_refreshLine (n : Nat) (s : State) : OnlyMemu s (refreshLine n s) := by
  unfold refreshLine; split <;> rfl

theorem onlyMemu_flushLine (n : Nat) (s : State) : OnlyMemu s (flushLine n s) :=
  ((onlyMemu_refreshLine n s).trans (onlyMemu_writeBackLine n _)).trans (onlyMemu_dropLine n _)

theorem onlyMemu_commitAll (buf : List Store) (s : State) : OnlyMemu s (buf.foldr commitStore s) := by
  induction buf with
  | nil => rfl
  | cons st r ih => exact ih.trans (onlyMemu_commitStore _ _)

theorem OnlyMemu.cpu {s t : State} (h : OnlyMemu s t) (c : CpuId) : t.cpu c = s.cpu c := by
  unfold OnlyMemu at h; rw [h]; rfl

theorem OnlyMemu.cfg {s t : State} (h : OnlyMemu s t) : t.cfg = s.cfg := by unfold OnlyMemu at h; rw [h]

theorem OnlyMemu.dataCached {s t : State} (h : OnlyMemu s t) (a : Nat) : dataCached t a = dataCached s a := by
  unfold OnlyMemu at h; rw [h]; rfl

/-- Draining a store buffer changes main memory, the cache and that buffer only. -/
theorem drainAll_eq (c : CpuId) (s : State) :
    drainAll c s = { s.setCpu c { s.cpu c with sbuf := [] } with
      main := (drainAll c s).main, cache := (drainAll c s).cache } := by
  have h := onlyMemu_commitAll (s.cpu c).sbuf s
  unfold drainAll
  dsimp only
  rw [h.cpu c]
  unfold OnlyMemu at h
  rw [h]
  rfl

theorem drainAll_cpu (c d : CpuId) (s : State) :
    (drainAll c s).cpu d = if d = c then { s.cpu c with sbuf := [] } else s.cpu d := by
  rw [drainAll_eq]
  exact setCpu_cpu s c d _

theorem drainAll_main (c : CpuId) (s : State) : (drainAll c s).main = ((s.cpu c).sbuf.foldr commitStore s).main := rfl

theorem drainAll_cache (c : CpuId) (s : State) : (drainAll c s).cache = ((s.cpu c).sbuf.foldr commitStore s).cache := rfl

theorem pushStore_cpu (c d : CpuId) (st : Store) (s : State) :
    (pushStore c st s).cpu d = if d = c then { s.cpu c with sbuf := st :: (s.cpu c).sbuf } else s.cpu d :=
  setCpu_cpu s c d _

/-- Only CPUs, main memory and the cache differ. -/
def OnlyData (s t : State) : Prop := t = { s with cpus := t.cpus, main := t.main, cache := t.cache }

theorem OnlyData.refl (s : State) : OnlyData s s := rfl

theorem OnlyData.trans {s t u : State} (h : OnlyData s t) (h' : OnlyData t u) : OnlyData s u := by
  unfold OnlyData at *
  rw [h', h]

theorem OnlyData.setCpu {s t : State} (h : OnlyData s t) (c : CpuId) (x : Cpu) : OnlyData s (t.setCpu c x) := by
  unfold OnlyData at *
  rw [h]; rfl

theorem OnlyMemu.onlyData {s t : State} (h : OnlyMemu s t) : OnlyData s t := by
  unfold OnlyMemu at h
  unfold OnlyData
  rw [h]

theorem OnlyCpus.onlyData {s t : State} (h : OnlyCpus s t) : OnlyData s t := by
  unfold OnlyCpus at h
  unfold OnlyData
  rw [h]

theorem onlyData_drainAll (c : CpuId) (s : State) : OnlyData s (drainAll c s) :=
  (onlyMemu_commitAll (s.cpu c).sbuf s).onlyData.setCpu _ _

theorem OnlyData.fields {s t : State} (h : OnlyData s t) :
    t.cfg = s.cfg ∧ t.cur = s.cur ∧ t.counters = s.counters ∧ t.pncache = s.pncache := by
  unfold OnlyData at h; rw [h]; simp

theorem OnlyData.sameSystem {s t : State} (h : OnlyData s t) (hx : ∀ c, (t.cpu c).xcause = (s.cpu c).xcause)
    (he : ∀ c, (t.cpu c).xepc = (s.cpu c).xepc) : SameSystem s t := by
  unfold OnlyData at h
  refine ⟨?_, ?_, ?_⟩ <;> constructor <;> first | exact hx | exact he | (rw [h])

/-- FENCE on one lane: the CPU's buffers are empty, its registers and the other CPUs are as before (R260). -/
theorem fenceLane_done (c : CpuId) (s : State) :
    ∃ t, fenceLane c s = .done t ∧ OnlyData s t ∧ t.main = (drainAll c s).main ∧ t.cache = (drainAll c s).cache ∧
      ∀ d, t.cpu d = if d = c then { s.cpu c with sbuf := [], ifu := [] } else s.cpu d := by
  refine ⟨_, rfl, (onlyData_drainAll c s).setCpu _ _, rfl, rfl, fun d => ?_⟩
  rw [setCpu_cpu, drainAll_cpu, drainAll_cpu]
  by_cases h : d = c <;> simp [h]

/-! ### The form of memory -/

/-- Main memory and the cache in their form. -/
structure MemuForm (s : State) : Prop where
  main  : Memory.wf s.main
  order : s.cache.Pairwise (fun x y => x.num < y.num)
  whole : ∀ l ∈ s.cache, l.data.length = s.cfg.lineBytes ∧ l.foreign.length = s.cfg.lineBytes

theorem MemoryInv.form {s : State} (h : MemoryInv s) : MemuForm s := ⟨h.main, h.order, h.whole⟩

theorem lineFromMain_whole (s : State) (n : Nat) :
    (lineFromMain s n).data.length = s.cfg.lineBytes ∧ (lineFromMain s n).foreign.length = s.cfg.lineBytes := by
  simp [lineFromMain]

/-- A line that is present, or the one a load brings in, is whole. -/
theorem MemuForm.line {s : State} (h : MemuForm s) (n : Nat) :
    let l := (Cache.find s.cache n).getD (lineFromMain s n)
    l.data.length = s.cfg.lineBytes ∧ l.foreign.length = s.cfg.lineBytes := by
  cases hf : Cache.find s.cache n with
  | some l => exact h.whole l (Cache.mem_of_find hf).1
  | none => exact lineFromMain_whole s n

/-- A whole line that is put keeps the form, whatever well-formed memory stands beside it. -/
theorem MemuForm.put {s : State} (h : MemuForm s) {m : Memory} (hm : Memory.wf m) {l : CacheLine}
    (hl : l.data.length = s.cfg.lineBytes ∧ l.foreign.length = s.cfg.lineBytes) :
    MemuForm { s with main := m, cache := Cache.put s.cache l } := by
  refine ⟨hm, Cache.pairwise_put h.order _, fun e he => ?_⟩
  rcases Cache.mem_put.1 he with rfl | he
  · exact hl
  · exact h.whole e he.1

theorem memuForm_writeBeside {s : State} (h : MemuForm s) (a : Nat) (b : Byte) : MemuForm (writeBeside a b s) := by
  unfold writeBeside Cache.mark
  split
  · next l hf => exact h.put (Memory.wf_write h.main _ _) (by simpa using h.whole l (Cache.mem_of_find hf).1)
  · exact ⟨Memory.wf_write h.main _ _, h.order, h.whole⟩

theorem memuForm_memuWrite {s : State} (h : MemuForm s) (cached : Bool) (a : Nat) (b : Byte) :
    MemuForm (memuWrite cached a b s) := by
  unfold memuWrite
  split
  · exact h
  split
  · exact h.put h.main (by simpa using h.line (lineOf s.cfg a))
  split
  · exact memuForm_writeBeside h a b
  · exact ⟨Memory.wf_write h.main _ _, h.order, h.whole⟩

theorem memuForm_commitStore {s : State} (h : MemuForm s) (st : Store) : MemuForm (commitStore st s) := by
  unfold commitStore
  induction st generalizing s with
  | nil => exact h
  | cons e r ih => exact ih (memuForm_memuWrite h _ _ _)

theorem memuForm_commitAll {s : State} (h : MemuForm s) (buf : List Store) : MemuForm (buf.foldr commitStore s) := by
  induction buf with
  | nil => exact h
  | cons st r ih => exact memuForm_commitStore ih st

theorem memuForm_drainAll {s : State} (h : MemuForm s) (c : CpuId) : MemuForm (drainAll c s) := by
  have := memuForm_commitAll h (s.cpu c).sbuf
  exact ⟨this.main, this.order, this.whole⟩

theorem memuForm_writeBackLine {s : State} (h : MemuForm s) (n : Nat) : MemuForm (writeBackLine n s) := by
  unfold writeBackLine
  split
  · next l hf => exact h.put (Memory.wf_writeBytes h.main _ _) ⟨(h.whole l (Cache.mem_of_find hf).1).1, by simp⟩
  · exact h

theorem memuForm_refreshLine {s : State} (h : MemuForm s) (n : Nat) : MemuForm (refreshLine n s) := by
  unfold refreshLine
  split
  · next l hf => exact h.put h.main ⟨by simp, (h.whole l (Cache.mem_of_find hf).1).2⟩
  · exact h

theorem memuForm_dropLine {s : State} (h : MemuForm s) (n : Nat) : MemuForm (dropLine n s) :=
  ⟨h.main, Cache.pairwise_remove h.order n, fun l hl => h.whole l (Cache.mem_remove.1 hl).1⟩

theorem memuForm_flushLine {s : State} (h : MemuForm s) (n : Nat) : MemuForm (flushLine n s) :=
  memuForm_dropLine (memuForm_writeBackLine (memuForm_refreshLine h n) n) n

theorem memuForm_loadLine {s : State} (h : MemuForm s) (n : Nat) : MemuForm (loadLine n s) := by
  unfold loadLine
  split
  · exact h
  · exact h.put h.main (lineFromMain_whole s n)

/-- The memory State.reset begins with has the form. -/
theorem memuForm_reset (cfg : Config) : MemuForm (State.resetWith cfg) :=
  ⟨Memory.wf_nil, List.Pairwise.nil, by simp [State.resetWith]⟩

/-- A store of n bytes at a multiple of n is a well-formed store. -/
theorem store_wf_storeCells {n : Nat} (hn : n = 1 ∨ n = 2 ∨ n = 4) {a : Word} (h : alignedTo n a = true) (v : Word) :
    Store.wf (storeCells a n v) := by
  have ha : a.toNat % n = 0 := by simpa [alignedTo] using h
  have hlt := a.isLt
  have key : ∀ i, i < n → (a + BitVec.ofNat 32 i).toNat = a.toNat + i := by
    intro i hi
    rw [BitVec.toNat_add, BitVec.toNat_ofNat]
    rcases hn with rfl | rfl | rfl <;> omega
  refine ⟨?_, ?_⟩
  · simp only [storeCells, List.map_map]
    refine (List.nodup_map_iff_inj_on List.nodup_range).2 ?_
    intro i hi j hj hij
    rw [List.mem_range] at hi hj
    simp only [Function.comp, key i hi, key j hj] at hij
    omega
  · simp only [Store.sameWord, storeCells, List.all_eq_true, List.mem_map, List.mem_range, beq_iff_eq]
    rintro _ ⟨i, hi, rfl⟩ _ ⟨j, hj, rfl⟩
    simp only [key i hi, key j hj]
    rcases hn with rfl | rfl | rfl <;> omega

/-! ### What a byte reads afterwards -/

theorem lineBytes_pos (cfg : Config) : 0 < cfg.lineBytes := Nat.two_pow_pos _

/-- A byte in a line loaded from main memory is main memory's. -/
theorem getD_lineFromMain (s : State) (a : Nat) (d : Byte) :
    (lineFromMain s (lineOf s.cfg a)).data.getD (a % s.cfg.lineBytes) d = Memory.read s.main a := by
  show (Memory.readBytes _ _ _).getD _ _ = _
  rw [Memory.getD_readBytes _ _ (Nat.mod_lt _ (lineBytes_pos _))]
  unfold lineOf
  rw [Nat.div_add_mod']

/-- A device reads the same until it is read again. -/
theorem memuRead_device {s t : State} {a : Nat} (hd : deviceAt s.cfg a = true) (hc : t.cfg = s.cfg)
    (hr : t.deviceReads = s.deviceReads) (k k' : Bool) : memuRead k a t = memuRead k' a s := by
  simp [memuRead, hc, hd, hr]

theorem OnlyMemu.deviceReads {s t : State} (h : OnlyMemu s t) : t.deviceReads = s.deviceReads := by
  unfold OnlyMemu at h; rw [h]

/-- A mark changes no read. -/
theorem memuRead_mark (cached : Bool) (a n i : Nat) (s : State) :
    memuRead cached a { s with cache := Cache.mark s.cache n i } = memuRead cached a s := by
  have h := Cache.find_mark_data s.cache n i (lineOf s.cfg a)
  unfold memuRead
  cases cached
  · rfl
  · dsimp only
    rw [if_pos rfl, if_pos rfl]
    revert h
    cases Cache.find (Cache.mark s.cache n i) (lineOf s.cfg a) <;> cases Cache.find s.cache (lineOf s.cfg a) <;> intro h
    · rfl
    · cases h
    · cases h
    · simp only [Option.map_some, Option.some.injEq] at h
      dsimp only
      rw [h]

/-- A byte written to the MemU reads as written, unless a device took it, and every other byte as before (R121). -/
theorem memuRead_memuWrite {s : State} (h : MemuForm s) (a x : Nat) (b : Byte) :
    memuRead (dataCached s a) a (memuWrite (dataCached s x) x b s) =
      if a = x ∧ deviceAt s.cfg a = false then b else memuRead (dataCached s a) a s := by
  have ho := onlyMemu_memuWrite (dataCached s x) x b s
  by_cases hda : deviceAt s.cfg a = true
  · rw [memuRead_device hda ho.cfg ho.deviceReads _ (dataCached s a)]
    simp [hda]
  have hda' : deviceAt s.cfg a = false := by simpa using hda
  by_cases hdx : deviceAt s.cfg x = true
  · have hax : a ≠ x := fun he => hda (he ▸ hdx)
    simp [memuWrite, hdx, hax]
  have hdx' : deviceAt s.cfg x = false := by simpa using hdx
  simp only [hda', and_true]
  by_cases hx : dataCached s x = true
  · rw [memuWrite, if_neg hdx, if_pos hx]
    by_cases ha : dataCached s a = true
    · simp only [memuRead, hda', Bool.false_eq_true, if_false, ha, if_true, Cache.find_put]
      have hlen : ((Cache.find s.cache (lineOf s.cfg x)).getD (lineFromMain s (lineOf s.cfg x))).data.length
          = s.cfg.lineBytes := (h.line _).1
      by_cases hl : lineOf s.cfg a = lineOf s.cfg x
      · rw [if_pos hl]
        dsimp only
        by_cases hax : a = x
        · subst hax
          rw [if_pos rfl, List.getD_eq_getElem _ _ (by rw [List.length_set, hlen]; exact Nat.mod_lt _ (lineBytes_pos _))]
          simp
        · have hm : x % s.cfg.lineBytes ≠ a % s.cfg.lineBytes := by
            intro he
            apply hax
            have h1 := Nat.div_add_mod a s.cfg.lineBytes
            have h2 := Nat.div_add_mod x s.cfg.lineBytes
            unfold lineOf at hl
            rw [hl, ← he] at h1
            omega
          rw [if_neg hax, List.getD_eq_getElem?_getD, List.getElem?_set_ne hm, ← List.getD_eq_getElem?_getD, ← hl]
          cases hf : Cache.find s.cache (lineOf s.cfg a) with
          | some l => rfl
          | none => exact getD_lineFromMain s a _
      · rw [if_neg hl, if_neg (fun he => hl (by rw [he]))]
    · have hax : a ≠ x := fun he => ha (he ▸ hx)
      rw [if_neg hax]
      simp [memuRead, hda', ha]
  · have hw : memuRead (dataCached s a) a (memuWrite (dataCached s x) x b s) =
        memuRead (dataCached s a) a { s with main := Memory.write s.main x b } := by
      rw [memuWrite, if_neg hdx, if_neg hx]
      split
      · exact memuRead_mark _ _ _ _ { s with main := Memory.write s.main x b }
      · rfl
    rw [hw]
    by_cases ha : dataCached s a = true
    · have hax : a ≠ x := fun he => hx (he ▸ ha)
      simp only [memuRead, hda', Bool.false_eq_true, if_false, ha, if_true, Memory.read_write, if_neg hax]
    · simp only [memuRead, hda', Bool.false_eq_true, if_false, ha, Memory.read_write]

/-- A store that reaches the MemU: its bytes read as stored where there is no device, every other byte as before. -/
theorem memuRead_commitStore {s : State} (h : MemuForm s) {st : Store} (hn : (st.map Prod.fst).Nodup) (a : Nat) :
    memuRead (dataCached s a) a (commitStore st s) =
      (if deviceAt s.cfg a then none else Store.find st a).getD (memuRead (dataCached s a) a s) := by
  by_cases hda : deviceAt s.cfg a = true
  · have ho := onlyMemu_commitStore st s
    rw [if_pos hda]
    exact memuRead_device hda ho.cfg ho.deviceReads _ _
  have hda' : deviceAt s.cfg a = false := by simpa using hda
  rw [if_neg hda]
  clear hda
  induction st generalizing s with
  | nil => rfl
  | cons e r ih =>
    have hn' : e.1 ∉ r.map Prod.fst ∧ (r.map Prod.fst).Nodup := by simpa using hn
    have ho := onlyMemu_memuWrite (dataCached s e.1) e.1 e.2 s
    have := ih (memuForm_memuWrite h (dataCached s e.1) e.1 e.2) hn'.2 (by rw [ho.cfg]; exact hda')
    rw [ho.dataCached a, memuRead_memuWrite h] at this
    show memuRead _ a (commitStore r (memuWrite (dataCached s e.1) e.1 e.2 s)) = _
    rw [this, Store.find]
    by_cases ha : e.1 = a
    · have hf : Store.find r a = none := by
        rw [Store.find_none_iff]
        intro x hx he
        exact hn'.1 (List.mem_map.2 ⟨x, hx, he.trans ha.symm⟩)
      rw [hf, if_pos ⟨ha.symm, hda'⟩, if_pos ha]; rfl
    · rw [if_neg (fun hh => ha hh.1.symm), if_neg ha]

/-- A store buffer that is emptied: every byte reads as the CPU's own loads read it before (R112, R114). -/
theorem memuRead_commitAll {s : State} (h : MemuForm s) {buf : List Store} (hn : ∀ st ∈ buf, (st.map Prod.fst).Nodup)
    (a : Nat) : memuRead (dataCached s a) a (buf.foldr commitStore s) =
      (if deviceAt s.cfg a then none else forward buf a).getD (memuRead (dataCached s a) a s) := by
  induction buf with
  | nil => simp [forward]
  | cons st r ih =>
    have ih := ih (fun x hx => hn x (by simp [hx]))
    have := memuRead_commitStore (memuForm_commitAll h r) (hn st (by simp)) a
    rw [(onlyMemu_commitAll r s).dataCached a, ih, (onlyMemu_commitAll r s).cfg] at this
    rw [List.foldr_cons, this, forward_cons]
    split
    · rfl
    · cases Store.find st a <;> rfl

/-- What a CPU's loads see (R112), with the choice between its own store and the MemU as one value. -/
theorem readByte_eq (c : CpuId) (a : Nat) (s : State) :
    readByte c a s =
      (if deviceAt s.cfg a then none else forward (s.cpu c).sbuf a).getD (memuRead (dataCached s a) a s) := by
  unfold readByte; split <;> simp_all

/-! ### What a flush leaves -/

/-- After a flush the line is absent, and main memory holds, of the line, what another bus master wrote there later and
elsewhere what a cached access read before; it keeps every other byte (R304, R115, log 43). -/
theorem flushLine_main (n a : Nat) (s : State) :
    Cache.find (flushLine n s).cache n = none ∧
    (deviceAt s.cfg a = false → Memory.read (flushLine n s).main a =
      if lineOf s.cfg a = n ∧ foreignAt a s = false then memuRead true a s else Memory.read s.main a) := by
  refine ⟨by simp [flushLine, dropLine, Cache.find_remove], fun hd => ?_⟩
  have hpos := lineBytes_pos s.cfg
  cases hf : Cache.find s.cache n with
  | none =>
    have e : (flushLine n s).main = s.main := by simp [flushLine, dropLine, refreshLine, writeBackLine, hf]
    rw [e]
    split
    · next hl => simp [memuRead, hd, hl.1, hf]
    · rfl
  | some l =>
    have e : (flushLine n s).main = Memory.writeBytes s.main (n * s.cfg.lineBytes)
        ((List.range s.cfg.lineBytes).map fun i =>
          if l.foreign.getD i false then Memory.read s.main (n * s.cfg.lineBytes + i) else l.data.getD i unlisted) := by
      simp [flushLine, dropLine, refreshLine, writeBackLine, hf, Cache.find_put, (Cache.mem_of_find hf).2]
    rw [e, Memory.read_writeBytes, List.length_map, List.length_range]
    have h1 := Nat.div_add_mod' a s.cfg.lineBytes
    have hlt := Nat.mod_lt a hpos
    by_cases hl : lineOf s.cfg a = n
    · have ha : n * s.cfg.lineBytes + a % s.cfg.lineBytes = a := by unfold lineOf at hl; rw [← hl]; exact h1
      have hi : a - n * s.cfg.lineBytes = a % s.cfg.lineBytes := by omega
      rw [if_pos ⟨by omega, by omega⟩, hi, List.getD_eq_getElem _ _ (by simpa using hlt)]
      simp only [List.getElem_map, List.getElem_range, ha, foreignAt, memuRead, hd, hl, hf, Bool.false_eq_true, if_false,
        if_true, true_and]
      cases l.foreign.getD (a % s.cfg.lineBytes) false <;> simp
    · rw [if_neg (fun hh => hl ?_), if_neg (fun hh => hl hh.1)]
      exact Nat.div_eq_of_lt_le hh.1 (by rw [Nat.add_mul]; omega)

end Sys2Proof.Machine
end

