-- ==== Sys2Proof/Laws/Access.lean ====
section
/-! SUPPORT. Loads and stores on one lane: what an access that is aligned and reaches memory does. -/

namespace Sys2Proof.Machine

/-- What stays when only CPUs differ. -/
theorem OnlyCpus.fields {s t : State} (h : OnlyCpus s t) :
    t.main = s.main ∧ t.cache = s.cache ∧ t.cfg = s.cfg ∧ t.pncache = s.pncache ∧ t.cur = s.cur ∧
      t.counters = s.counters := by
  unfold OnlyCpus at h; rw [h]; simp

theorem effAddr_congr {c : CpuId} {s t : State} (h : t.cpu c = s.cpu c) (rs1 : Reg) (imm : BitVec 12) :
    effAddr c rs1 imm t = effAddr c rs1 imm s := by
  unfold effAddr
  rw [reg_congr (s := s) (by rw [h])]

/-- An access that reaches memory or a device goes on. -/
theorem wherePresent_of {a : Word} {n : Nat} {s : State} (h : accessKind s.cfg a n ≠ .absent) (e : Effect) :
    wherePresent a n s e = e := by
  unfold wherePresent
  cases hk : accessKind s.cfg a n <;> first | rfl | exact absurd hk h

/-- After an access to memory no device has been read. -/
theorem afterRead_memory {k : Nat} {a : Word} {n : Nat} {s : State} (h : accessKind s.cfg a n = .memory) :
    afterRead k a n s = s := by
  simp only [afterRead, h]

/-- A load whose access is aligned and reaches memory or a device writes its value. -/
theorem loadLane_present {k n : Nat} {c : CpuId} {rd rs1 : Reg} {imm : BitVec 12} {value : CpuId → Word → State → Word}
    {s : State} (ha : alignedTo n (effAddr c rs1 imm s) = true) (hm : accessKind s.cfg (effAddr c rs1 imm s) n ≠ .absent) :
    loadLane k n rd rs1 imm value c s =
      .done (setReg c rd (value c (effAddr c rs1 imm s) { s with deviceReads := k })
        (afterRead k (effAddr c rs1 imm s) n s)) := by
  simp only [loadLane, ha, if_true, wherePresent_of hm]

/-- A load whose access is aligned and reaches memory writes its value. -/
theorem loadLane_done {n : Nat} {c : CpuId} {rd rs1 : Reg} {imm : BitVec 12} {value : CpuId → Word → State → Word}
    {s : State} (ha : alignedTo n (effAddr c rs1 imm s) = true) (hm : accessKind s.cfg (effAddr c rs1 imm s) n = .memory) :
    loadLane s.deviceReads n rd rs1 imm value c s = .done (setReg c rd (value c (effAddr c rs1 imm s) s) s) := by
  rw [loadLane_present ha (by rw [hm]; decide), afterRead_memory hm]

/-- A store whose access is aligned and reaches memory or a device enters the store buffer. -/
theorem storeLane_done {n : Nat} {c : CpuId} {rs2 rs1 : Reg} {imm : BitVec 12} {s : State}
    (ha : alignedTo n (effAddr c rs1 imm s) = true) (hm : accessKind s.cfg (effAddr c rs1 imm s) n ≠ .absent) :
    storeLane n rs2 rs1 imm c s = .done (memWrite c (effAddr c rs1 imm s) n (reg c rs2 s) s) := by
  simp only [storeLane, ha, if_true, wherePresent_of hm]

/-- The same on a lane of a group whose earlier lanes have acted. -/
theorem loadLane_done_of {n : Nat} {c : CpuId} {rd rs1 : Reg} {imm : BitVec 12} {value : CpuId → Word → State → Word}
    {s t : State} (hok : AccessesOk n rs1 imm s) (hc : c ∈ lanes s) (ht : OnlyCpus s t) (he : t.cpu c = s.cpu c) :
    loadLane s.deviceReads n rd rs1 imm value c t = .done (setReg c rd (value c (effAddr c rs1 imm s) t) t) := by
  have h := hok c hc
  have hk : s.deviceReads = t.deviceReads := by unfold OnlyCpus at ht; rw [ht]
  rw [hk, loadLane_done] <;> rw [effAddr_congr he]
  · exact h.1
  · rw [ht.fields.2.2.1]; exact h.2

theorem storeLane_done_of {n : Nat} {c : CpuId} {rs2 rs1 : Reg} {imm : BitVec 12}
    {s t : State} (hok : AccessesPresent n rs1 imm s) (hc : c ∈ lanes s) (ht : OnlyCpus s t) (he : t.cpu c = s.cpu c) :
    storeLane n rs2 rs1 imm c t = .done (t.setCpu c { s.cpu c with
      sbuf := storeCells (effAddr c rs1 imm s) n (reg c rs2 s) :: (s.cpu c).sbuf }) := by
  have h := hok c hc
  rw [storeLane_done, effAddr_congr he, reg_congr (s := s) (by rw [he]), memWrite, pushStore, he]
  · rw [effAddr_congr he]; exact h.1
  · rw [effAddr_congr he, ht.fields.2.2.1]; exact h.2

/-- The addresses of an aligned access do not wrap. -/
theorem toNat_add_of_aligned {n : Nat} (hn : n = 1 ∨ n = 2 ∨ n = 4) {a : Word} (h : alignedTo n a = true) {i : Nat}
    (hi : i < n) : (a + BitVec.ofNat 32 i).toNat = a.toNat + i := by
  have ha : a.toNat % n = 0 := by simpa [alignedTo] using h
  have hlt := a.isLt
  rw [BitVec.toNat_add, BitVec.toNat_ofNat]
  rcases hn with rfl | rfl | rfl <;> omega

/-- The byte a store writes at an address (R105). -/
theorem find_storeCells {n : Nat} (hn : n = 1 ∨ n = 2 ∨ n = 4) {a : Word} (h : alignedTo n a = true) (v : Word) (k : Nat) :
    Store.find (storeCells a n v) k =
      if a.toNat ≤ k ∧ k < a.toNat + n then some (v.extractLsb' (8 * (k - a.toNat)) 8) else none := by
  have hcells : storeCells a n v = (List.range n).map (fun i => (a.toNat + i, v.extractLsb' (8 * i) 8)) :=
    List.map_congr_left fun i hi => by rw [toNat_add_of_aligned hn h (List.mem_range.1 hi)]; rfl
  rw [hcells]
  rcases hn with rfl | rfl | rfl
  all_goals
    simp only [List.range_succ, List.range_zero, List.nil_append, List.map_cons, List.map_nil, List.cons_append,
      Store.find]
    split_ifs <;> first | omega | (subst_vars; simp)

/-! ### What the platform has under an access -/

theorem accessKind_absent {cfg : Config} {a : Word} {n k : Nat} (hk : k < n)
    (h : addrKind cfg (a + BitVec.ofNat 32 k).toNat = .absent) : accessKind cfg a n = .absent := by
  have hm : AddrKind.absent ∈ (List.range n).map (fun i => addrKind cfg (a + BitVec.ofNat 32 i).toNat) :=
    List.mem_map.2 ⟨k, List.mem_range.2 hk, h⟩
  unfold accessKind
  rw [if_neg, if_pos (List.contains_iff_mem.2 hm)]
  intro hall
  exact absurd (List.all_eq_true.1 hall _ hm) (by decide)

theorem accessKind_device {cfg : Config} {a : Word} {n k : Nat} (hk : k < n)
    (h : addrKind cfg (a + BitVec.ofNat 32 k).toNat = .device)
    (hn : ∀ j, j < n → addrKind cfg (a + BitVec.ofNat 32 j).toNat ≠ .absent) : accessKind cfg a n = .device := by
  have hm : AddrKind.device ∈ (List.range n).map (fun i => addrKind cfg (a + BitVec.ofNat 32 i).toNat) :=
    List.mem_map.2 ⟨k, List.mem_range.2 hk, h⟩
  unfold accessKind
  rw [if_neg, if_neg]
  · intro hc
    obtain ⟨j, hj, he⟩ := List.mem_map.1 (List.contains_iff_mem.1 hc)
    exact hn j (List.mem_range.1 hj) he
  · intro hall
    exact absurd (List.all_eq_true.1 hall _ hm) (by decide)

end Sys2Proof.Machine
end

