-- ==== Sys2Proof/Laws/Bits.lean ====
section
/-! SUPPORT. The registers with one bit per CPU, bit by bit. -/

namespace Sys2Proof.Machine

/-- A word is known by its 32 CPU bits. -/
theorem word_ext {x y : Word} (h : ∀ c, hasBit x c = hasBit y c) : x = y := by
  apply BitVec.eq_of_getLsbD_eq
  intro k hk
  exact h ⟨k, hk⟩

@[simp] theorem hasBit_zero (c : CpuId) : hasBit 0#32 c = false := by simp [hasBit]

@[simp] theorem hasBit_and (x y : Word) (c : CpuId) : hasBit (x &&& y) c = (hasBit x c && hasBit y c) := by simp [hasBit]

@[simp] theorem hasBit_or (x y : Word) (c : CpuId) : hasBit (x ||| y) c = (hasBit x c || hasBit y c) := by simp [hasBit]

@[simp] theorem hasBit_xor (x y : Word) (c : CpuId) : hasBit (x ^^^ y) c = (hasBit x c != hasBit y c) := by simp [hasBit]

@[simp] theorem hasBit_not (x : Word) (c : CpuId) : hasBit (~~~x) c = !hasBit x c := by simp [hasBit]

@[simp] theorem hasBit_cpuBit (d c : CpuId) : hasBit (cpuBit d) c = decide (c = d) := by
  revert c d; decide

@[simp] theorem hasBit_one (c : CpuId) : hasBit 1#32 c = decide (c = 0) := by revert c; decide

theorem getLsbD_zero_eq_hasBit (x : Word) : x.getLsbD 0 = hasBit x 0 := rfl

@[simp] theorem hasBit_cpuMask (s : State) (c : CpuId) : hasBit (cpuMask s) c = decide (c.val < s.cfg.numCpus) := by
  simp only [hasBit, cpuMask, BitVec.getLsbD_ofNat, Nat.testBit_two_pow_sub_one, c.isLt, decide_true, Bool.true_and]

@[simp] theorem hasBit_copuMask (s : State) (c : CpuId) :
    hasBit (copuMask s) c = (decide (c.val < s.cfg.numCpus) && decide (c ≠ 0)) := by
  have : copuMask s = cpuMask s &&& ~~~1#32 := rfl
  rw [this, hasBit_and, hasBit_not, hasBit_cpuMask, hasBit_one]
  simp

/-- Bit c of a mask built from a predicate. -/
@[simp] theorem hasBit_maskOf (p : CpuId → Bool) (c : CpuId) : hasBit (maskOf p) c = p c := by
  have key : ∀ (l : List CpuId), hasBit (l.foldr (fun c v => if p c then v ||| cpuBit c else v) 0) c
      = decide (c ∈ l ∧ p c = true) := by
    intro l
    induction l with
    | nil => simp
    | cons a r ih =>
      simp only [List.foldr_cons]
      split
      · next ha =>
        rw [hasBit_or, ih, hasBit_cpuBit]
        by_cases hc : c = a
        · subst hc; simp [ha]
        · simp [hc]
      · next ha =>
        rw [ih]
        by_cases hc : c = a
        · subst hc; simp [ha]
        · simp [hc]
  unfold maskOf
  rw [key]
  simp [mem_cpuIds]

/-- A word is zero if none of its bits is set. -/
theorem eq_zero_iff_hasBit {x : Word} : x = 0 ↔ ∀ c, hasBit x c = false :=
  ⟨fun h c => by rw [h]; simp, fun h => word_ext fun c => by rw [h c]; simp⟩

theorem ne_zero_iff_hasBit {x : Word} : x ≠ 0 ↔ ∃ c, hasBit x c = true := by
  rw [Ne, eq_zero_iff_hasBit]
  simp

/-- The mode of a CoPU in terms of its bits (R80). -/
theorem modeOf_copu {s : State} {c : CpuId} (h0 : c ≠ 0) (hn : c.val < s.cfg.numCpus) :
    modeOf s c = if hasBit s.active c = false then .halted else if hasBit s.pnlm c then .linked else .unlinked := by
  unfold modeOf
  rw [if_neg h0, if_neg (by omega)]
  cases hasBit s.active c <;> simp

/-- Which CoPUs are in the linked group (R330, R341). -/
theorem joined_iff (s : State) (c : CpuId) :
    joined s c = true ↔ c ≠ 0 ∧ c.val < s.cfg.numCpus ∧ hasBit s.active c = true ∧ hasBit s.pnlm c = true ∧
      hasBit s.xstate c = false ∧ hasBit s.handled c = false ∧ s.inTrap = false := by
  unfold joined
  by_cases h0 : c = 0
  · subst h0; unfold modeOf; cases s.halted <;> simp
  · by_cases hn : c.val < s.cfg.numCpus
    · rw [modeOf_copu h0 hn]
      cases hasBit s.active c <;> cases hasBit s.pnlm c <;> cases hasBit s.xstate c <;>
        cases hasBit s.handled c <;> cases s.inTrap <;> simp [h0, hn]
    · have : modeOf s c = .halted := by
        unfold modeOf; rw [if_neg h0, if_pos (by omega)]
      rw [this]
      simp [hn]

end Sys2Proof.Machine
end

