-- ==== Sys2Proof/Laws/Csr.lean ====
section
/-! SUPPORT. Which register a CSR number is, and what a CSR instruction comes to without a linked group. -/

namespace Sys2Proof.Machine

/-! ### Numbers -/

theorem lookupCsr_none_iff {α : Type} [DecidableEq α] {n : α} {l : List (α × CsrReg)} :
    lookupCsr n l = none ↔ ∀ e ∈ l, e.1 ≠ n := by
  induction l with
  | nil => simp [lookupCsr]
  | cons e r ih =>
    unfold lookupCsr
    split
    · next h => simp [h]
    · next h => simp [ih, h]

/-- Entry i of a list with distinct numbers is found by its number. -/
theorem lookupCsr_of_mem {α : Type} [DecidableEq α] {n : α} {r : CsrReg} {l : List (α × CsrReg)}
    (hn : (l.map Prod.fst).Nodup) (h : (n, r) ∈ l) : lookupCsr n l = some r := by
  induction l with
  | nil => simp at h
  | cons e q ih =>
    have hn' : e.1 ∉ q.map Prod.fst ∧ (q.map Prod.fst).Nodup := by simpa using hn
    unfold lookupCsr
    rcases List.mem_cons.1 h with he | he
    · subst he; simp
    · have : e.1 ≠ n := by
        intro hen
        exact hn'.1 (List.mem_map.2 ⟨(n, r), he, hen.symm⟩)
      rw [if_neg this]
      exact ih hn'.2 he

theorem blockIndex_none_iff {base n : Nat} : blockIndex base n = none ↔ ¬(base ≤ n ∧ n < base + 32) := by
  unfold blockIndex; split <;> simp_all

theorem blockIndex_some {base n : Nat} (h : base ≤ n ∧ n < base + 32) :
    blockIndex base n = some ⟨n - base, by omega⟩ := by
  unfold blockIndex; rw [dif_pos h]

theorem counterCsr_none_iff (n : Nat) :
    counterCsr n = none ↔ ¬(0xB00 ≤ n ∧ n < 0xB20 ∧ n ≠ 0xB01) ∧ ¬(0xB80 ≤ n ∧ n < 0xBA0 ∧ n ≠ 0xB81) ∧
      ¬(0x323 ≤ n ∧ n < 0x340) := by
  unfold counterCsr
  by_cases h1 : 0xB00 ≤ n ∧ n < 0xB00 + 32
  · rw [blockIndex_some h1]
    simp only [Fin.ext_iff, Fin.val_one]
    split <;> simp <;> omega
  · rw [blockIndex_none_iff.2 h1]
    by_cases h2 : 0xB80 ≤ n ∧ n < 0xB80 + 32
    · simp only [blockIndex_some h2, Fin.ext_iff, Fin.val_one]
      split <;> simp <;> omega
    · simp only [blockIndex_none_iff.2 h2]
      by_cases h3 : 0x320 ≤ n ∧ n < 0x320 + 32
      · simp only [blockIndex_some h3]
        split <;> simp <;> omega
      · simp only [blockIndex_none_iff.2 h3]
        simp; omega

/-- The numbers outside Table 3.3. -/
theorem tableCsr_false_iff (n : CsrNum) :
    tableCsr n = false ↔ lookupCsr n.toNat tableCsrs = none ∧ counterCsr n.toNat = none := by
  have hm : ((tableCsrs.map Prod.fst).contains n.toNat = false) ↔ lookupCsr n.toNat tableCsrs = none := by
    rw [lookupCsr_none_iff, List.contains_eq_mem, decide_eq_false_iff_not, List.mem_map]
    constructor
    · intro h e he hn; exact h ⟨e, he, hn⟩
    · rintro h ⟨e, he, hn⟩; exact h e he hn
  have hl : [0xF11, 0xF12, 0xF13, 0xF14, 0x300, 0x301, 0x304, 0x305, 0x340, 0x341, 0x342, 0x343, 0x344,
      0xF01, 0xF02, 0xF03, 0xF04] = tableCsrs.map Prod.fst := rfl
  rw [← hm, counterCsr_none_iff]
  unfold tableCsr
  dsimp only
  rw [hl]
  simp only [Bool.or_eq_false_iff, Bool.and_eq_false_iff, decide_eq_false_iff_not, bne_eq_false_iff_eq, and_assoc]
  constructor
  · rintro ⟨h, a, b, c⟩; exact ⟨h, by omega, by omega, by omega⟩
  · rintro ⟨h, a, b, c⟩; exact ⟨h, by omega, by omega, by omega⟩

/-- The numbers that do not exist (R59). -/
theorem csrOf_none_iff (cfg : Config) (n : CsrNum) :
    csrOf cfg n = none ↔ tableCsr n = false ∧ n ∉ cfg.csrNums.toList := by
  have hp : lookupCsr n (pnCsrs cfg.csrNums) = none ↔ n ∉ cfg.csrNums.toList := by
    rw [lookupCsr_none_iff]
    have : cfg.csrNums.toList = (pnCsrs cfg.csrNums).map Prod.fst := rfl
    rw [this, List.mem_map]
    constructor
    · rintro h ⟨e, he, hn⟩; exact h e he hn
    · intro h e he hn; exact h ⟨e, he, hn⟩
  rw [tableCsr_false_iff, ← hp]
  unfold csrOf
  split
  · next h => simp [h]
  · next h =>
    split
    · next h' => simp [h']
    · next h' => simp [h, h']

/-- The ParaNut CSRs under their configured numbers (R60). -/
theorem csrOf_pn {cfg : Config} (hw : Config.Wf cfg) {n : CsrNum} {r : CsrReg} (h : (n, r) ∈ pnCsrs cfg.csrNums) :
    csrOf cfg n = some r := by
  have hm : n ∈ cfg.csrNums.toList := by
    show n ∈ (pnCsrs cfg.csrNums).map Prod.fst
    exact List.mem_map.2 ⟨(n, r), h, rfl⟩
  have ht := (tableCsr_false_iff n).1 (hw.csrOutside n hm)
  unfold csrOf
  rw [ht.1, ht.2]
  exact lookupCsr_of_mem hw.csrDistinct h

/-- The low halves of the counters (R50 to R52). -/
theorem csrOf_counterLo (cfg : Config) {n : Fin 32} (h : n ≠ 1) :
    csrOf cfg (BitVec.ofNat 12 (0xB00 + n.val)) = some (.counterLo n) := by
  have key : ∀ n : Fin 32, n ≠ 1 → lookupCsr (BitVec.ofNat 12 (0xB00 + n.val)).toNat tableCsrs = none ∧
      counterCsr (BitVec.ofNat 12 (0xB00 + n.val)).toNat = some (.counterLo n) := by decide
  unfold csrOf
  rw [(key n h).1, (key n h).2]

/-- Their high halves. -/
theorem csrOf_counterHi (cfg : Config) {n : Fin 32} (h : n ≠ 1) :
    csrOf cfg (BitVec.ofNat 12 (0xB80 + n.val)) = some (.counterHi n) := by
  have key : ∀ n : Fin 32, n ≠ 1 → lookupCsr (BitVec.ofNat 12 (0xB80 + n.val)).toNat tableCsrs = none ∧
      counterCsr (BitVec.ofNat 12 (0xB80 + n.val)).toNat = some (.counterHi n) := by decide
  unfold csrOf
  rw [(key n h).1, (key n h).2]

/-! ### The instructions without a linked group -/

/-- A CSR instruction of the CePU. -/
theorem csrInstr_cepu {a : CsrAccess} {src : CpuId → State → Word} {s : State} (h0 : s.cur = 0)
    (hg : grouped s = false) : csrInstr a src s =
      finish .system (if a.writes then csrCounter s.cfg a.csr else none) (pcPlus4 s) s (cepuCsrLane a (src 0 s) s) := by
  simp only [csrInstr, lanes_of_not_grouped hg, h0, forLanes, if_true]
  cases cepuCsrLane a (src 0 s) s <;> rfl

/-- A CSR instruction of a CoPU. -/
theorem csrInstr_copu {a : CsrAccess} {src : CpuId → State → Word} {s : State} (h0 : s.cur ≠ 0) :
    csrInstr a src s =
      finish .system (if a.writes then csrCounter s.cfg a.csr else none) (pcPlus4 s) s (copuCsrLane a s.cur s) := by
  simp only [csrInstr, lanes_of_not_grouped (not_grouped_of_cur_ne h0), forLanes, h0, if_false]
  cases copuCsrLane a s.cur s <;> rfl

/-- A data path of the CePU alone runs once, whatever its group. -/
theorem forLanes_cepu_only {f : CpuId → State → Effect} (h : ∀ c t, c ≠ 0 → f c t = .done t) {l : List CpuId}
    (hn : l.Nodup) (s : State) : forLanes f l s = if 0 ∈ l then f 0 s else .done s := by
  induction l generalizing s with
  | nil => rfl
  | cons a r ih =>
    have hn' := List.nodup_cons.1 hn
    by_cases ha : a = 0
    · subst ha
      simp only [forLanes, List.mem_cons, true_or, if_true]
      cases hf : f 0 s with
      | done t => simp only [ih hn'.2, hn'.1, if_false]
      | _ => rfl
    · simp only [forLanes, h a s ha, ih hn'.2, List.mem_cons, Ne.symm ha, false_or]

/-- A CSR instruction of the CePU that only writes, with or without a linked group (R279). -/
theorem csrInstr_cepu_write {a : CsrAccess} {src : CpuId → State → Word} {s : State} (h0 : s.cur = 0)
    (hr : a.reads = false) : csrInstr a src s =
      finish .system (if a.writes then csrCounter s.cfg a.csr else none) (pcPlus4 s) s (cepuCsrLane a (src 0 s) s) := by
  unfold csrInstr
  have hm : (0 : CpuId) ∈ lanes s := (mem_lanes s 0).2 (.inl h0.symm)
  rw [forLanes_cepu_only (fun c t hc => by simp [hc, copuCsrLane, hr]) (lanes_nodup s), if_pos hm, if_pos rfl]

/-! ### CSR writes -/

/-- What no CSR write changes. -/
theorem csrWrite_done {r : CsrReg} {x : Word} {s t : State} (h : csrWrite r x s = .done t) :
    t.cfg = s.cfg ∧ t.cpus = s.cpus ∧ t.cur = s.cur ∧ t.main = s.main ∧ t.cache = s.cache ∧ t.inTrap = s.inTrap ∧
      t.halted = s.halted ∧ t.active = s.active ∧ t.pnx = s.pnx ∧ t.laneOrder = s.laneOrder ∧ t.agenda = s.agenda ∧
      t.deviceReads = s.deviceReads := by
  cases r
  case counterLo n => cases h; simp [writeCounterLo]
  case counterHi n => cases h; simp [writeCounterHi]
  case pngrpsel =>
    simp only [csrWrite] at h
    split at h <;> cases h
    simp
  case pnce =>
    simp only [csrWrite, writePnce] at h
    split at h
    · cases h
    split at h
    · cases h
    split at h <;> cases h
    simp [markHandled]
  case pnlm =>
    simp only [csrWrite, writePnlm] at h
    split at h
    · cases h
    split at h <;> cases h <;> simp [drawWord]
  all_goals cases h; simp

end Sys2Proof.Machine
end

