-- ==== Sys2Proof/Laws/Exec.lean ====
section
/-! SUPPORT. Said once: everything a lane, an instruction, an event and a step can do. -/

namespace Sys2Proof.Machine

/-! ### One lane -/

/-- Everything the data path of an instruction can do on one CPU. -/
inductive LaneStep (c : CpuId) : State → State → Prop where
  | nothing (s : State) : LaneStep c s s
  | writes (rd : Reg) (v : Word) (k d : Nat) (s : State) :
    LaneStep c s (setReg c rd v { s with drawn := k, deviceReads := d })
  | stores (a : Word) (n : Nat) (v : Word) (s : State) (hn : n = 1 ∨ n = 2 ∨ n = 4) (ha : alignedTo n a = true) :
    LaneStep c s (memWrite c a n v s)
  | fences (s t : State) (h : fenceLane c s = .done t) : LaneStep c s t
  | drops (n : Nat) (s : State) : LaneStep c s (dropLine n (drainAll c s))
  | writesBack (n : Nat) (s : State) : LaneStep c s (writeBackLine n (drainAll c s))
  | flushes (n : Nat) (s : State) : LaneStep c s (flushLine n (drainAll c s))
  | accesses (h : c = 0) (a : CsrAccess) (src : Word) (s t : State) (h : cepuCsrLane a src s = .done t) :
    LaneStep c s t

theorem wherePresent_done {a : Word} {n : Nat} {s t : State} {e : Effect} (h : wherePresent a n s e = .done t) :
    e = .done t := by
  unfold wherePresent at h
  split at h
  · exact h
  · exact h
  · cases h

/-- A read changes at most the count of device reads. -/
theorem afterRead_eq (k : Nat) (a : Word) (n : Nat) (s : State) :
    ∃ d, afterRead k a n s = { s with deviceReads := d } := by
  unfold afterRead
  split
  · exact ⟨_, rfl⟩
  · exact ⟨s.deviceReads, rfl⟩
  · exact ⟨s.deviceReads, rfl⟩

theorem afterFetch_eq (s : State) : ∃ k, afterFetch s = { s with deviceReads := k } := by
  unfold afterFetch
  split
  · exact ⟨s.deviceReads, rfl⟩
  · exact afterRead_eq _ _ _ s

theorem laneStep_load {k n : Nat} {rd rs1 : Reg} {imm : BitVec 12} {value : CpuId → Word → State → Word} {c : CpuId}
    {s t : State} (h : loadLane k n rd rs1 imm value c s = .done t) : LaneStep c s t := by
  unfold loadLane at h
  dsimp only at h
  split at h
  · cases wherePresent_done h
    obtain ⟨d, hd⟩ := afterRead_eq k (effAddr c rs1 imm s) n s
    rw [hd]
    exact .writes rd _ s.drawn d s
  · cases h

theorem laneStep_store {n : Nat} (hn : n = 1 ∨ n = 2 ∨ n = 4) {rs2 rs1 : Reg} {imm : BitVec 12} {c : CpuId} {s t : State}
    (h : storeLane n rs2 rs1 imm c s = .done t) : LaneStep c s t := by
  unfold storeLane at h
  dsimp only at h
  split at h
  · next ha =>
    cases wherePresent_done h
    exact .stores _ n _ s hn ha
  · cases h

/-- A read of any CSR draws at most a value, and may bring mcycle up to date. -/
theorem csrReadNum_state (n : CsrNum) (s : State) :
    ∃ x k, (csrReadNum n s).2 = { s with counters := s.counters.set 0 x, drawn := k } := by
  have same : ∀ k, ∃ x k', ({ s with drawn := k } : State) = { s with counters := s.counters.set 0 x, drawn := k' } :=
    fun k => ⟨s.counters[0], k, by rw [Vector.set_getElem_self]⟩
  have cyc : ∃ x k, (readCycle s).2 = { s with counters := s.counters.set 0 x, drawn := k } := by
    unfold readCycle
    split
    · exact ⟨_, _, rfl⟩
    · exact same s.drawn
  have cnt : ∀ m, ∃ x k, (readCounter m s).2 = { s with counters := s.counters.set 0 x, drawn := k } := by
    intro m
    unfold readCounter
    split
    · exact cyc
    · exact same s.drawn
  unfold csrReadNum
  split
  · next r _ =>
    cases r <;> first | exact same s.drawn | skip
    case counterLo m _ => exact cnt m
    case counterHi m _ => exact cnt m
    case pnce =>
      simp only [csrRead, readPnce]
      split
      · exact same s.drawn
      · exact same (s.drawn + 1)
    case pncause =>
      simp only [csrRead, ofSelected]
      split
      · exact same s.drawn
      · exact same (s.drawn + 1)
    case pnepc =>
      simp only [csrRead, ofSelected]
      split
      · exact same s.drawn
      · exact same (s.drawn + 1)
  · exact same s.drawn

/-- What the CSR access of the CePU comes to when it is done: a read, which may draw; the write of `rd`; and the write
of the register (R270). -/
theorem cepuCsrLane_done {a : CsrAccess} {src : Word} {s t : State} (h : cepuCsrLane a src s = .done t) :
    ∃ y k rd v, let u := setReg 0 rd v { s with counters := s.counters.set 0 y, drawn := k }
      t = u ∨ ∃ r x, csrOf s.cfg a.csr = some r ∧ csrWrite r x u = .done t := by
  unfold cepuCsrLane at h
  split at h
  · cases h
  · split at h
    · cases h
    · have fin : ∀ u : State, u.cfg = s.cfg →
          ∀ x, (if a.writes = true then csrWriteNum a.csr x u else .done u) = .done t →
          (t = u ∨ ∃ r x, csrOf s.cfg a.csr = some r ∧ csrWrite r x u = .done t) := by
        intro u hu x hx
        split at hx
        · unfold csrWriteNum at hx
          rw [hu] at hx
          split at hx
          · next r hr => exact .inr ⟨r, x, hr, hx⟩
          · cases hx; exact .inl rfl
        · cases hx; exact .inl rfl
      cases hr : a.reads with
      | true =>
        obtain ⟨y, k, he⟩ := csrReadNum_state a.csr s
        simp only [hr, if_true, he] at h
        exact ⟨y, k, a.rd, (csrReadNum a.csr s).1, fin _ (by simp) _ h⟩
      | false =>
        simp only [hr, Bool.false_eq_true, if_false] at h
        refine ⟨s.counters[0], s.drawn, 0, 0, fin _ rfl (a.op.new 0 src) ?_⟩
        rw [Vector.set_getElem_self]
        exact h

theorem laneStep_copuCsr {a : CsrAccess} {c : CpuId} {s t : State} (h : copuCsrLane a c s = .done t) : LaneStep c s t := by
  unfold copuCsrLane at h
  split at h
  · have hk : ∃ k, (copuCsrRead c a.csr s).2 = { s with drawn := k } := by
      unfold copuCsrRead
      split <;> exact ⟨_, rfl⟩
    obtain ⟨k, hk⟩ := hk
    dsimp only at h
    cases h
    rw [hk]
    exact .writes a.rd _ k s.deviceReads s
  · cases h; exact .nothing s

/-- What no lane changes. -/
theorem laneStep_same {c : CpuId} {s t : State} (h : LaneStep c s t) :
    t.cfg = s.cfg ∧ t.cur = s.cur ∧ t.inTrap = s.inTrap ∧ t.halted = s.halted ∧ t.active = s.active ∧ t.pnx = s.pnx ∧
      ∀ d, (t.cpu d).xcause = (s.cpu d).xcause ∧ (t.cpu d).xepc = (s.cpu d).xepc := by
  have data : ∀ t : State, OnlyData s t →
      (∀ d, (t.cpu d).xcause = (s.cpu d).xcause ∧ (t.cpu d).xepc = (s.cpu d).xepc) →
      t.cfg = s.cfg ∧ t.cur = s.cur ∧ t.inTrap = s.inTrap ∧ t.halted = s.halted ∧ t.active = s.active ∧ t.pnx = s.pnx ∧
        ∀ d, (t.cpu d).xcause = (s.cpu d).xcause ∧ (t.cpu d).xepc = (s.cpu d).xepc := by
    intro t ho hd
    unfold OnlyData at ho
    exact ⟨by rw [ho], by rw [ho], by rw [ho], by rw [ho], by rw [ho], by rw [ho], hd⟩
  have drained : ∀ d, ((drainAll c s).cpu d).xcause = (s.cpu d).xcause ∧ ((drainAll c s).cpu d).xepc = (s.cpu d).xepc := by
    intro d; rw [drainAll_cpu]; split <;> simp_all
  have acted : ∀ u, OnlyMemu (drainAll c s) u → ∀ d, (u.cpu d).xcause = (s.cpu d).xcause ∧
      (u.cpu d).xepc = (s.cpu d).xepc := by
    intro u hu d; rw [hu.cpu]; exact drained d
  have cache : ∀ u, OnlyMemu (drainAll c s) u → OnlyData s u := fun u hu => (onlyData_drainAll c s).trans hu.onlyData
  cases h with
  | nothing => exact data _ rfl (fun _ => ⟨rfl, rfl⟩)
  | writes rd v k d => exact ⟨by simp, by simp, by simp, by simp, by simp, by simp, fun d => by simp⟩
  | stores a n v hn ha =>
    exact data _ ((OnlyData.refl s).setCpu _ _) fun d => by unfold memWrite; rw [pushStore_cpu]; split <;> simp_all
  | fences _ _ h =>
    obtain ⟨u, h1, h2, _, _, h5⟩ := fenceLane_done c s
    rw [h1] at h; cases h
    exact data _ h2 fun d => by rw [h5]; split <;> simp_all
  | drops n => exact data _ (cache _ (onlyMemu_dropLine n _)) (acted _ (onlyMemu_dropLine n _))
  | writesBack n => exact data _ (cache _ (onlyMemu_writeBackLine n _)) (acted _ (onlyMemu_writeBackLine n _))
  | flushes n => exact data _ (cache _ (onlyMemu_flushLine n _)) (acted _ (onlyMemu_flushLine n _))
  | accesses h0 a src _ _ h =>
    obtain ⟨y, k, rd, v, h | ⟨r, x, _, h⟩⟩ := cepuCsrLane_done h
    · subst h
      exact ⟨by simp, by simp, by simp, by simp, by simp, by simp, fun d => by simp⟩
    · obtain ⟨e1, ec, e2, _, _, e5, e6, e7, e8, _⟩ := csrWrite_done h
      refine ⟨by simp [e1], by simp [e2], by simp [e5], by simp [e6], by simp [e7], by simp [e8], fun d => ?_⟩
      simp only [State.cpu, ec]
      rw [← State.cpu, ← State.cpu]
      simp

/-! ### One instruction -/

/-- Everything an instruction can do that answers a next state: its lanes act, each as LaneStep says, and it goes on at
an address, counted; or it raises an exception; or it returns from a trap; or it halts. -/
inductive ExecStep (i : Instr) (s : State) : State → Prop where
  | lanes (k : EventClass) (skip : Option (Fin 32)) (next : Word) (f : CpuId → State → Effect) (u : State)
    (hf : ∀ c v w, f c v = .done w → LaneStep c v w) (hu : forLanes f (lanes s) s = .done u)
    (hn : curPc s &&& 3 = 0 → i.wf = true → next &&& 3 = 0) :
    ExecStep i s (retire k skip (setPc u.cur next u))
  | raises (k : EventClass) (e : Exn) (v : Word) (hg : grouped s = false) : ExecStep i s (takeException k e v s)
  | returns (h0 : s.cur = 0) (hg : grouped s = false) : ExecStep i s (retire .system none (trapReturn s))
  | haltsMachine (h0 : s.cur = 0) : ExecStep i s (haltMachine s)
  | haltsCopu (h0 : s.cur ≠ 0) : ExecStep i s (haltCopu s.cur s)

theorem and_three_add_four {a : Word} (h : a &&& 3 = 0) : (a + 4) &&& 3 = 0 := by
  apply BitVec.eq_of_toNat_eq
  have h' := congrArg BitVec.toNat h
  have e : ∀ n : Nat, n &&& 3 = n % 4 := fun n => Nat.and_two_pow_sub_one_eq_mod n 2
  have e3 : (3 : Word).toNat = 3 := rfl
  have e4 : (4 : Word).toNat = 4 := rfl
  have e0 : (0 : Word).toNat = 0 := rfl
  rw [BitVec.toNat_and, e3, e0, e] at h'
  rw [BitVec.toNat_and, BitVec.toNat_add, e3, e4, e0, e]
  omega

theorem execStep_finish {i : Instr} {k : EventClass} {skip : Option (Fin 32)} {next : Word} {f : CpuId → State → Effect}
    {s t : State} (hf : ∀ c v w, f c v = .done w → LaneStep c v w)
    (hn : curPc s &&& 3 = 0 → i.wf = true → next &&& 3 = 0)
    (h : finish k skip next s (forLanes f (lanes s) s) = .next t) : ExecStep i s t := by
  rcases finish_next h with ⟨u, hu, rfl⟩ | ⟨e, v, _, hg, rfl⟩
  · exact .lanes k skip next f u hf hu hn
  · exact .raises k e v hg

theorem execStep_writes {i : Instr} {k : EventClass} {rd : Reg} {v : CpuId → State → Word} {next : Word} {s t : State}
    (hn : curPc s &&& 3 = 0 → i.wf = true → next &&& 3 = 0)
    (h : writeOnLanes k next rd v s = .next t) : ExecStep i s t :=
  execStep_finish (fun c u w he => by cases he; exact .writes rd _ u.drawn u.deviceReads u) hn h

theorem execStep_raise {i : Instr} {k : EventClass} {e : Exn} {v : Word} {s t : State}
    (h : raiseException k e v s = .next t) : ExecStep i s t := by
  obtain ⟨hg, rfl⟩ := raiseException_next h
  exact .raises k e v hg

theorem execStep_csr {i : Instr} {a : CsrAccess} {src : CpuId → State → Word} {s t : State}
    (h : csrInstr a src s = .next t) : ExecStep i s t := by
  refine execStep_finish ?_ (fun h _ => and_three_add_four h) h
  intro c v w he
  split at he
  · next h0 => exact .accesses h0 a _ v w he
  · exact laneStep_copuCsr he

/-- An even address with bit 1 clear is a multiple of four. -/
theorem aligned_of_even {a : Word} (h0 : a.getLsbD 0 = false) (h1 : targetMisaligned a = false) : a &&& 3 = 0 := by
  apply BitVec.eq_of_getLsbD_eq
  intro k hk
  rw [BitVec.getLsbD_and]
  unfold targetMisaligned at h1
  match k with
  | 0 => rw [h0]; simp
  | 1 => rw [h1]; simp
  | k + 2 =>
    have : (3 : Word).getLsbD (k + 2) = false := by
      rw [show (3 : Word) = BitVec.ofNat 32 (2 ^ 2 - 1) from rfl, BitVec.getLsbD_ofNat, Nat.testBit_two_pow_sub_one]
      simp
    rw [this]; simp

theorem getLsbD_zero_add (a b : Word) : (a + b).getLsbD 0 = (a.getLsbD 0 ^^ b.getLsbD 0) := by
  rw [BitVec.getLsbD_add (by decide)]
  simp [BitVec.carry, Nat.mod_one]

theorem even_of_aligned {a : Word} (h : a &&& 3 = 0) : a.getLsbD 0 = false := by
  have := congrArg (fun x : Word => x.getLsbD 0) h
  simpa [BitVec.getLsbD_and] using this

theorem execStep_jump {i : Instr} {rd : Reg} {target : Word} {s t : State}
    (hn : curPc s &&& 3 = 0 → i.wf = true → target.getLsbD 0 = false) (h : jumpTo rd target s = .next t) :
    ExecStep i s t := by
  unfold jumpTo at h
  split at h
  · exact execStep_raise h
  · next hm => exact execStep_writes (fun ha hw => aligned_of_even (hn ha hw) (by simpa using hm)) h

theorem execStep_branch {i : Instr} {taken : Bool} {off : BitVec 13} {s t : State}
    (hn : i.wf = true → off.getLsbD 0 = false) (h : branchIf taken off s = .next t) : ExecStep i s t := by
  unfold branchIf at h
  split at h
  · split at h
    · exact execStep_raise h
    · next hm =>
      refine execStep_finish (fun c u w he => by cases he; exact .nothing u) (fun ha hw => ?_) h
      refine aligned_of_even ?_ (by simpa using hm)
      have := hn hw
      rw [getLsbD_zero_add, even_of_aligned ha, branchOffset, BitVec.getLsbD_signExtend]
      simpa using this
  · exact execStep_finish (fun c u w he => by cases he; exact .nothing u) (fun ha _ => and_three_add_four ha) h

theorem execStep_cache {i : Instr} {act : Nat → State → State} {base : Reg} {off : BitVec 12} {s t : State}
    (ha : ∀ c n u, LaneStep c u (act n (drainAll c u)))
    (h : onLanes .uncounted (pcPlus4 s) (cacheLane act base off) s = .next t) : ExecStep i s t := by
  refine execStep_finish ?_ (fun h _ => and_three_add_four h) h
  intro c v w he
  cases wherePresent_done he
  exact ha c _ v

/-- Everything exec can do. -/
theorem exec_cases {i : Instr} {s t : State} (h : exec i s = .next t) : ExecStep i s t := by
  have pc4 : curPc s &&& 3 = 0 → i.wf = true → pcPlus4 s &&& 3 = 0 := fun h _ => and_three_add_four h
  cases i
  case jal rd off =>
    refine execStep_jump (fun ha hw => ?_) h
    have : off.getLsbD 0 = false := by simpa [Instr.wf] using hw
    rw [getLsbD_zero_add, even_of_aligned ha]
    rw [jumpOffset, BitVec.getLsbD_signExtend]
    simpa using this
  case jalr rd rs1 imm =>
    refine execStep_jump (fun _ _ => ?_) h
    simp only [jalrTarget, BitVec.getLsbD_and]
    simp
  case beq a b off => exact execStep_branch (fun hw => by simpa [Instr.wf] using hw) h
  case bne a b off => exact execStep_branch (fun hw => by simpa [Instr.wf] using hw) h
  case blt a b off => exact execStep_branch (fun hw => by simpa [Instr.wf] using hw) h
  case bge a b off => exact execStep_branch (fun hw => by simpa [Instr.wf] using hw) h
  case bltu a b off => exact execStep_branch (fun hw => by simpa [Instr.wf] using hw) h
  case bgeu a b off => exact execStep_branch (fun hw => by simpa [Instr.wf] using hw) h
  case lb => exact execStep_finish (fun _ _ _ he => laneStep_load he) pc4 h
  case lh => exact execStep_finish (fun _ _ _ he => laneStep_load he) pc4 h
  case lw => exact execStep_finish (fun _ _ _ he => laneStep_load he) pc4 h
  case lbu => exact execStep_finish (fun _ _ _ he => laneStep_load he) pc4 h
  case lhu => exact execStep_finish (fun _ _ _ he => laneStep_load he) pc4 h
  case sb => exact execStep_finish (fun _ _ _ he => laneStep_store (.inl rfl) he) pc4 h
  case sh => exact execStep_finish (fun _ _ _ he => laneStep_store (.inr (.inl rfl)) he) pc4 h
  case sw => exact execStep_finish (fun _ _ _ he => laneStep_store (.inr (.inr rfl)) he) pc4 h
  case fence => exact execStep_finish (fun _ _ _ he => .fences _ _ he) pc4 h
  case fenceI => exact execStep_finish (fun _ _ _ he => .fences _ _ he) pc4 h
  case csrrw => exact execStep_csr h
  case csrrs => exact execStep_csr h
  case csrrc => exact execStep_csr h
  case csrrwi => exact execStep_csr h
  case csrrsi => exact execStep_csr h
  case csrrci => exact execStep_csr h
  case ecall => exact execStep_raise h
  case ebreak => exact execStep_raise h
  case mret =>
    change execMret s = _ at h
    unfold execMret at h
    split at h
    · next hc => cases h; exact .returns hc.1 hc.2
    · cases h
  case halt =>
    change execHalt s = _ at h
    unfold execHalt at h
    split at h
    · next hc => cases h; exact .haltsMachine hc
    · next hc => cases h; exact .haltsCopu hc
  case cinv => exact execStep_cache (fun c n u => .drops n u) h
  case cwb => exact execStep_cache (fun c n u => .writesBack n u) h
  case cflush => exact execStep_cache (fun c n u => .flushes n u) h
  all_goals exact execStep_writes pc4 h

/-! ### One step -/

/-- Everything a step can do after its turn has begun: nothing, a CoPU trap, an instruction, or the Illegal instruction
exception of a word that is none; the fetch may have read a device. -/
inductive StepCase (s : State) : State → Prop where
  | idle (h : runnable s s.cur = false) : StepCase s s
  | copuTrap (hr : runnable s s.cur = true) (h0 : s.cur = 0) : StepCase s (trapEntry .copu 0 s)
  | instr (hr : runnable s s.cur = true) (k : Nat) (i : Instr) (w : Word) (t : State) (hd : decode s.cfg w = .ok i)
    (h : exec i { s with deviceReads := k } = .next t) : StepCase s t
  | illegal (hr : runnable s s.cur = true) (k : Nat) (v : Word) (hg : grouped s = false) :
    StepCase s (takeException .uncounted .illegal v { s with deviceReads := k })

theorem step_cases {s t : State} (h : step s = .next t) : StepCase (beginTurn s) t := by
  unfold step at h
  dsimp only at h
  split at h
  · next hr =>
    split at h
    · next hd =>
      cases h
      refine .copuTrap hr ?_
      simp only [copuTrapDue, Bool.and_eq_true, beq_iff_eq] at hd
      exact hd.1.1.1
    · unfold executeNext at h
      split at h
      · next r hf =>
        unfold fetchWord at hf
        dsimp only at hf
        split at hf
        · cases hf
        · split at hf
          · cases hf
          · cases hf
          · cases hf; cases h
      · next w hf =>
        obtain ⟨k, hk⟩ := afterFetch_eq (beginTurn s)
        rw [hk] at h
        split at h
        · next i hd => exact .instr hr k i w t hd h
        · next e hd =>
          cases e with
          | illegal =>
            obtain ⟨hg, rfl⟩ := raiseException_next h
            exact .illegal hr k _ hg
          | reservedCustom0 => cases h
          | truncated => cases h
  · next hr =>
    cases h
    exact .idle (by simpa using hr)

/-- What every event keeps holds after the events of a turn. -/
theorem beginTurn_keeps {P : State → Prop} (hev : ∀ s e, P s → P (applyEvent s e))
    (hmodel : ∀ s ag c l, P s → P { s with agenda := ag, cur := c, laneOrder := l }) {s : State} (h : P s) :
    P (beginTurn s) := by
  have key : ∀ (l : List Event) u, P u → P (l.foldl applyEvent u) := by
    intro l
    induction l with
    | nil => intro u hu; exact hu
    | cons e r ih => intro u hu; exact ih _ (hev u e hu)
  exact hmodel _ _ _ _ (key _ s h)

/-- Only CPUs of a running machine execute. -/
theorem running {s : State} (h : runnable s s.cur = true) : s.halted = false := by
  unfold runnable at h
  split at h <;> simp_all

/-- What every event, every lane, every completion, every exception, the return and HALT keep, every step keeps. -/
theorem step_keeps {P : State → Prop} (hev : ∀ s e, P s → P (applyEvent s e))
    (hmodel : ∀ s ag c l, P s → P { s with agenda := ag, cur := c, laneOrder := l })
    (hread : ∀ s k, P s → P { s with deviceReads := k })
    (hlane : ∀ c s t, s.halted = false → P s → LaneStep c s t → P t)
    (hfin : ∀ s u i w k skip next, decode s.cfg w = .ok i → P s → P u →
      (curPc s &&& 3 = 0 → i.wf = true → next &&& 3 = 0) → P (retire k skip (setPc u.cur next u)))
    (htrap : ∀ e v s k, P s → P (trapEntry e v (countTrapped k s)))
    (hcopu : ∀ e s, runnable s s.cur = true → s.cur ≠ 0 → P s → P (copuException s.cur e s))
    (hret : ∀ s, P s → P (retire .system none (trapReturn s)))
    (hhalt : ∀ s, s.cur = 0 → P s → P (haltMachine s))
    (hhaltCopu : ∀ s, s.cur ≠ 0 → P s → P (haltCopu s.cur s))
    {s t : State} (h : step s = .next t) (hs : P s) : P t := by
  have hb := beginTurn_keeps hev hmodel hs
  have hx : ∀ k e v (s : State), runnable s s.cur = true → P s → P (takeException k e v s) := by
    intro k e v s hr hs
    unfold takeException
    split
    · exact htrap _ _ _ _ hs
    · next h0 => exact hcopu _ _ hr h0 hs
  cases step_cases h with
  | idle => exact hb
  | copuTrap => exact htrap .copu 0 _ .uncounted hb
  | instr hr kd i w _ hd he =>
    have hb := hread _ kd hb
    cases exec_cases he with
    | lanes k skip next f u hf hu hn =>
      have hu' := forLanes_done f (fun s t => s.halted = false ∧ P s → t.halted = false ∧ P t) (fun _ h => h)
        (fun _ _ _ a b h => b (a h)) _ _ _
        (fun c _ u v huv hu => ⟨(laneStep_same (hf c u v huv)).2.2.2.1.trans hu.1, hlane c u v hu.1 hu.2 (hf c u v huv)⟩)
        hu ⟨running hr, hb⟩
      exact hfin { beginTurn s with deviceReads := kd } _ i w _ _ _ hd hb hu'.2 hn
    | raises => exact hx _ _ _ _ hr hb
    | returns => exact hret _ hb
    | haltsMachine h0 => exact hhalt _ h0 hb
    | haltsCopu h0 => exact hhaltCopu _ h0 hb
  | illegal hr k => exact hx _ _ _ _ hr (hread _ k hb)

end Sys2Proof.Machine
end

