-- ==== Sys2Proof/Laws/CsrLanes.lean ====
section
/-! SUPPORT. Said once: what a CSR instruction of the CePU comes to when its linked group executes it too. -/

namespace Sys2Proof.Machine

/-- What the other lanes of a CSR instruction do to the state: registers `rd` of CoPUs in a list and the number of drawn
values change, nothing else (R79). -/
structure OtherLanes (rd : Reg) (l : List CpuId) (s t : State) : Prop where
  rest : t = { s with cpus := t.cpus, drawn := t.drawn }
  cpu  : ∀ c, t.cpu c = { s.cpu c with regs := (t.cpu c).regs }
  cepu : t.cpu 0 = s.cpu 0
  out  : ∀ c, c ∉ l → t.cpu c = s.cpu c
  regs : ∀ c r, r ≠ rd → reg c r t = reg c r s
  none : l = [] ∨ l = [0] → t = s

theorem OtherLanes.refl (rd : Reg) (l : List CpuId) (s : State) : OtherLanes rd l s s :=
  ⟨rfl, fun _ => rfl, rfl, fun _ _ => rfl, fun _ _ _ => rfl, fun _ => rfl⟩

/-- One more CoPU lane. -/
theorem OtherLanes.cons {rd : Reg} {l : List CpuId} {c : CpuId} {s t u : State} (hc : c ≠ 0)
    (h : ∃ v k, t = setReg c rd v { s with drawn := k }) (h' : OtherLanes rd l t u) : OtherLanes rd (c :: l) s u := by
  obtain ⟨v, k, rfl⟩ := h
  have hcpu : ∀ d, d ≠ c → (setReg c rd v { s with drawn := k }).cpu d = s.cpu d := fun d hd => setReg_cpu_of_ne rd v hd
  have hreg : (setReg c rd v { s with drawn := k }) =
      { s with cpus := (setReg c rd v { s with drawn := k }).cpus, drawn := k } := by
    unfold setReg; split <;> rfl
  refine ⟨?_, fun d => ?_, ?_, fun d hd => ?_, fun d r hr => ?_, fun hl => ?_⟩
  · have := h'.rest
    rw [hreg] at this
    exact this
  · rw [h'.cpu d]
    by_cases hdc : d = c
    · subst hdc; rw [setReg_cpu]; rfl
    · rw [hcpu d hdc]
  · rw [h'.cepu, hcpu 0 (Ne.symm hc)]
  · rw [h'.out d (fun hh => hd (List.mem_cons_of_mem _ hh)), hcpu d (fun e => hd (e ▸ List.mem_cons_self))]
  · rw [h'.regs d r hr, reg_setReg]
    rw [if_neg (fun hh => hr hh.2.1)]
    rfl
  · rcases hl with hl | hl
    · cases hl
    · exact absurd (List.cons.inj hl).1 hc

/-- The access of a CoPU writes at most its own `rd`, with a value of which it may draw. -/
theorem copuCsrLane_done (a : CsrAccess) (c : CpuId) (s : State) :
    ∃ v k, copuCsrLane a c s = .done (setReg c a.rd v { s with drawn := k }) ∨
      copuCsrLane a c s = .done s := by
  unfold copuCsrLane
  split
  · have hk : ∃ k, (copuCsrRead c a.csr s).2 = { s with drawn := k } := by
      unfold copuCsrRead
      split
      · exact ⟨s.drawn, rfl⟩
      · exact ⟨s.drawn, rfl⟩
      · exact ⟨_, rfl⟩
    obtain ⟨k, hk⟩ := hk
    refine ⟨(copuCsrRead c a.csr s).1, k, .inl ?_⟩
    dsimp only
    rw [hk]
  · exact ⟨0, 0, .inr rfl⟩

/-- CoPU lanes alone. -/
theorem forLanes_copus (a : CsrAccess) (src : CpuId → State → Word) :
    ∀ (l : List CpuId) (s : State), 0 ∉ l → ∃ u,
      forLanes (fun c t => if c = 0 then cepuCsrLane a (src c t) t else copuCsrLane a c t) l s = .done u ∧
        OtherLanes a.rd l s u := by
  intro l
  induction l with
  | nil => intro s _; exact ⟨s, rfl, .refl _ _ _⟩
  | cons c r ih =>
    intro s h0
    have hc : c ≠ 0 := fun e => h0 (e ▸ List.mem_cons_self)
    have hr : 0 ∉ r := fun hh => h0 (List.mem_cons_of_mem _ hh)
    obtain ⟨v, k, hd | hd⟩ := copuCsrLane_done a c s
    · obtain ⟨u, hu, ho⟩ := ih (setReg c a.rd v { s with drawn := k }) hr
      exact ⟨u, by simp only [forLanes, if_neg hc, hd, hu], .cons hc ⟨v, k, rfl⟩ ho⟩
    · obtain ⟨u, hu, ho⟩ := ih s hr
      exact ⟨u, by simp only [forLanes, if_neg hc, hd, hu], .cons hc ⟨reg c a.rd s, s.drawn, by
        unfold setReg reg
        split
        · rfl
        · rw [Vector.set_getElem_self]; exact (setCpu_same s c).symm⟩ ho⟩

/-- A CSR instruction of the CePU, with or without a linked group: some CoPU lanes act, then the CePU makes its access,
then the other CoPU lanes act; an exception or a refusal of the CePU's access is the instruction's (R279, R330). -/
theorem csrInstr_lanes {a : CsrAccess} {src : CpuId → State → Word} {s : State} (h0 : s.cur = 0)
    (hsrc : ∀ t, t.cpu 0 = s.cpu 0 → src 0 t = src 0 s) :
    ∃ p, OtherLanes a.rd (lanes s) s p ∧
      match cepuCsrLane a (src 0 s) p with
      | .done q => ∃ u, OtherLanes a.rd (lanes s) q u ∧
          csrInstr a src s = .next (retire .system (if a.writes then csrCounter s.cfg a.csr else none)
            (setPc 0 (pcPlus4 s) u))
      | .raises e v => csrInstr a src s = raiseException .system e v s
      | .stuck f => csrInstr a src s = .fault f
      | .refuse r => csrInstr a src s = .refused r := by
  have key : ∀ (l : List CpuId) (s0 : State), l.Nodup → 0 ∈ l → (∀ t, t.cpu 0 = s0.cpu 0 → src 0 t = src 0 s) →
      ∃ p, OtherLanes a.rd l s0 p ∧
        match cepuCsrLane a (src 0 s) p with
        | .done q => ∃ u, OtherLanes a.rd l q u ∧
            forLanes (fun c t => if c = 0 then cepuCsrLane a (src c t) t else copuCsrLane a c t) l s0 = .done u
        | e => forLanes (fun c t => if c = 0 then cepuCsrLane a (src c t) t else copuCsrLane a c t) l s0 = e := by
    intro l
    induction l with
    | nil => intro s0 _ h; cases h
    | cons c r ih =>
      intro s0 hn hm hs
      have hn' := List.nodup_cons.1 hn
      by_cases hc : c = 0
      · subst hc
        refine ⟨s0, .refl _ _ _, ?_⟩
        have e := hs s0 rfl
        cases hq : cepuCsrLane a (src 0 s) s0 with
        | done q =>
          obtain ⟨u, hu, ho⟩ := forLanes_copus a src r q hn'.1
          refine ⟨u, ⟨ho.rest, ho.cpu, ho.cepu, fun d hd => ho.out d (fun hh => hd (List.mem_cons_of_mem _ hh)), ho.regs,
            fun hl => ho.none ?_⟩, ?_⟩
          · rcases hl with hl | hl
            · cases hl
            · exact .inl (List.cons.inj hl).2
          · simp only [forLanes, if_true, e, hq, hu]
        | _ => simp only [forLanes, if_true, e, hq]
      · have hm' : 0 ∈ r := (List.mem_cons.1 hm).resolve_left (fun e => hc e.symm)
        have step : ∀ s1, (∃ v k, s1 = setReg c a.rd v { s0 with drawn := k }) → copuCsrLane a c s0 = .done s1 →
            ∃ p, OtherLanes a.rd (c :: r) s0 p ∧
              match cepuCsrLane a (src 0 s) p with
              | .done q => ∃ u, OtherLanes a.rd (c :: r) q u ∧
                  forLanes (fun c t => if c = 0 then cepuCsrLane a (src c t) t else copuCsrLane a c t) (c :: r) s0 = .done u
              | e => forLanes (fun c t => if c = 0 then cepuCsrLane a (src c t) t else copuCsrLane a c t) (c :: r) s0 = e := by
          intro s1 h1 h2
          have hs1 : s1.cpu 0 = s0.cpu 0 := by
            obtain ⟨v, k, rfl⟩ := h1; exact setReg_cpu_of_ne _ _ (Ne.symm hc)
          obtain ⟨p, hp, hr⟩ := ih s1 hn'.2 hm' (fun t ht => hs t (ht.trans hs1))
          refine ⟨p, .cons hc h1 hp, ?_⟩
          have hrw : forLanes (fun c t => if c = 0 then cepuCsrLane a (src c t) t else copuCsrLane a c t) (c :: r) s0 =
              forLanes (fun c t => if c = 0 then cepuCsrLane a (src c t) t else copuCsrLane a c t) r s1 := by
            simp only [forLanes, if_neg hc, h2]
          rw [hrw]
          cases hq : cepuCsrLane a (src 0 s) p with
          | done q =>
            simp only [hq] at hr
            obtain ⟨u, ho, hu⟩ := hr
            refine ⟨u, ⟨ho.rest, ho.cpu, ho.cepu, fun d hd => ho.out d (fun hh => hd (List.mem_cons_of_mem _ hh)),
              ho.regs, fun hl => ?_⟩, hu⟩
            rcases hl with hl | hl
            · cases hl
            · exact absurd (List.cons.inj hl).1 hc
          | _ => simpa only [hq] using hr
        obtain ⟨v, k, hd | hd⟩ := copuCsrLane_done a c s0
        · exact step _ ⟨v, k, rfl⟩ hd
        · refine step s0 ⟨reg c a.rd s0, s0.drawn, ?_⟩ hd
          unfold setReg reg
          split
          · rfl
          · rw [Vector.set_getElem_self]; exact (setCpu_same s0 c).symm
  obtain ⟨p, hp, hr⟩ := key (lanes s) s (lanes_nodup s) ((mem_lanes s 0).2 (.inl h0.symm)) hsrc
  refine ⟨p, hp, ?_⟩
  have hpc : p.cur = 0 := by rw [hp.rest]; exact h0
  unfold csrInstr
  cases hq : cepuCsrLane a (src 0 s) p with
  | done q =>
    simp only [hq] at hr
    obtain ⟨u, ho, hu⟩ := hr
    refine ⟨u, ho, ?_⟩
    have hqc : q.cur = 0 := ((laneStep_same (.accesses rfl a _ p q hq)).2.1).trans hpc
    have huc : u.cur = 0 := by rw [ho.rest]; exact hqc
    rw [hu, finish_done, huc]
  | _ => simp only [hq] at hr; rw [hr]; rfl

/-- What is kept of the CPUs when a CSR instruction of the CePU completes, and what its `rd` holds. The value of pncache
decides what a byte reads, so it is taken back. -/
theorem csrFrame_of {rd : Reg} {v : Word} {s p q u : State} {k : EventClass} {skip : Option (Fin 32)} (h0 : s.cur = 0)
    (hp : OtherLanes rd (lanes s) s p) (hq : q.cpus = (setReg 0 rd v p).cpus) (hm : q.main = s.main)
    (hk : q.cache = s.cache) (hc : q.cfg = s.cfg) (hd : q.deviceReads = s.deviceReads)
    (hu : OtherLanes rd (lanes s) q u) :
    CsrFrame rd s { retire k skip (setPc 0 (pcPlus4 s) u) with pncache := s.pncache } ∧
      reg 0 rd (retire k skip (setPc 0 (pcPlus4 s) u)) = if rd = 0 then 0 else v := by
  have hqc : ∀ c, q.cpu c = (setReg 0 rd v p).cpu c := fun c => by unfold State.cpu; rw [hq]
  have hcur : (0 : CpuId) ∈ lanes s := (mem_lanes s 0).2 (.inl h0.symm)
  have cpu : ∀ c, u.cpu c = { s.cpu c with regs := (u.cpu c).regs } := by
    intro c
    rw [hu.cpu c, hqc]
    by_cases h : c = 0
    · subst h; rw [setReg_cpu, hp.cpu 0]
    · rw [setReg_cpu_of_ne _ _ h, hp.cpu c]
  have tcpu : ∀ c, (retire k skip (setPc 0 (pcPlus4 s) u)).cpu c =
      if c = 0 then { u.cpu 0 with pc := pcPlus4 s } else u.cpu c := by
    intro c; rw [retire_cpu, setPc, setCpu_cpu]
  have field : ∀ {α : Type} (f : Cpu → α), (∀ x r, f { x with regs := r } = f x) → (∀ x y, f { x with pc := y } = f x) →
      ∀ c, f ((retire k skip (setPc 0 (pcPlus4 s) u)).cpu c) = f (s.cpu c) := by
    intro α f h1 h2 c
    rw [tcpu]
    split
    · next h => subst h; rw [h2, cpu, h1]
    · rw [cpu, h1]
  have ureg : ∀ c r, reg c r (retire k skip (setPc 0 (pcPlus4 s) u)) = reg c r u := fun c r => by simp
  refine ⟨⟨fun c r h => ?_, ?_, fun c h => ?_, ?_, fun c => ?_⟩, ?_⟩
  · show reg c r (retire k skip (setPc 0 (pcPlus4 s) u)) = _
    rw [ureg]
    rcases h with h | h
    · have hc0 : c ≠ 0 := fun e => h (e ▸ hcur)
      refine reg_congr ?_ r
      rw [hu.out c h, hqc, setReg_cpu_of_ne _ _ hc0, hp.out c h]
    · rw [hu.regs c r h, reg_congr (s := setReg 0 rd v p) (by rw [hqc]), reg_setReg, if_neg (fun e => h e.2.1),
        hp.regs c r h]
  · show pcOf 0 (retire k skip (setPc 0 (pcPlus4 s) u)) = _
    simp
  · show (((retire k skip (setPc 0 (pcPlus4 s) u)).cpu c)).pc = _
    rw [tcpu, if_neg h, cpu]
    rfl
  · refine sameMemory_of ?_ ?_ (fun c => field Cpu.sbuf (fun _ _ => rfl) (fun _ _ => rfl) c) ?_ rfl ?_
    · show (retire k skip (setPc 0 (pcPlus4 s) u)).main = _
      rw [retire_main, setPc_main, hu.rest]; exact hm
    · show (retire k skip (setPc 0 (pcPlus4 s) u)).cache = _
      rw [retire_cache, setPc_cache, hu.rest]; exact hk
    · show (retire k skip (setPc 0 (pcPlus4 s) u)).cfg = _
      rw [retire_cfg, setPc_cfg, hu.rest]; exact hc
    · show (retire k skip (setPc 0 (pcPlus4 s) u)).deviceReads = _
      rw [retire_deviceReads, setPc_deviceReads, hu.rest]; exact hd
  · exact field Cpu.ifu (fun _ _ => rfl) (fun _ _ => rfl) c
  · rw [ureg, reg_congr (s := setReg 0 rd v p) (by rw [hu.cepu, hqc]), reg_setReg]
    by_cases hr : rd = 0
    · simp [hr, reg]
    · rw [if_pos ⟨rfl, rfl, hr⟩, if_neg hr]

/-- What a CSR instruction of the CePU comes to, with or without a linked group, when its own access reads `old` and leaves
the state g in everything but CPUs and the number of drawn values. -/
theorem csrInstr_completes {a : CsrAccess} {src : CpuId → State → Word} {s : State} (h0 : s.cur = 0)
    (hsrc : ∀ t, t.cpu 0 = s.cpu 0 → src 0 t = src 0 s) {skip : Option (Fin 32)}
    (hskip : (if a.writes then csrCounter s.cfg a.csr else none) = skip)
    (H : ∀ p, OtherLanes a.rd (lanes s) s p → ∃ q old, cepuCsrLane a (src 0 s) p = .done q ∧
      q.cpus = (setReg 0 a.rd old p).cpus ∧ q.main = s.main ∧ q.cache = s.cache ∧ q.cfg = s.cfg ∧
      q.deviceReads = s.deviceReads ∧ q.cur = s.cur) :
    ∃ p q old t, OtherLanes a.rd (lanes s) s p ∧ cepuCsrLane a (src 0 s) p = .done q ∧
      q.cpus = (setReg 0 a.rd old p).cpus ∧ csrInstr a src s = .next t ∧
      CsrFrame a.rd s { t with pncache := s.pncache } ∧ reg 0 a.rd t = (if a.rd = 0 then 0 else old) ∧
      t = { q with cpus := t.cpus, drawn := t.drawn, counters := t.counters } ∧
      (grouped s = false → t.drawn = q.drawn ∧ p = s) ∧
      (∀ c, (t.cpu c).xcause = (s.cpu c).xcause ∧ (t.cpu c).xepc = (s.cpu c).xepc) ∧
      ∀ m, counter m t =
        if (m = 2 ∨ m = 7) ∧ skip ≠ some m ∧ counterExists s.cfg m = true
        then BitVec.ofNat 64 (((counter m q).toNat + 1) % 2 ^ counterWidth s.cfg m) else counter m q := by
  obtain ⟨p, hp, hm⟩ := csrInstr_lanes (a := a) (src := src) h0 hsrc
  obtain ⟨q, old, hq, h1, h2, h3, h4, h5, h6⟩ := H p hp
  rw [hq] at hm
  obtain ⟨u, hu, he⟩ := hm
  rw [hskip] at he
  obtain ⟨hf, hr⟩ := csrFrame_of (k := .system) (skip := skip) h0 hp h1 h2 h3 h4 h5 hu
  have hus := hu.rest
  refine ⟨p, q, old, _, hp, hq, h1, he, hf, hr, ?_, fun hg => ?_, fun c => ?_, fun m => ?_⟩
  · have hsp : setPc 0 (pcPlus4 s) u = { q with cpus := (setPc 0 (pcPlus4 s) u).cpus, drawn := u.drawn } := by
      unfold setPc State.setCpu
      rw [hus]
    rw [retire_eq]
    generalize (retire .system skip (setPc 0 (pcPlus4 s) u)).counters = z
    rw [hsp]
  · have hl : lanes s = [0] := by rw [lanes_of_not_grouped hg, h0]
    rw [retire_drawn, setPc_drawn, hu.none (.inr hl)]
    exact ⟨rfl, hp.none (.inr hl)⟩
  · simp only [retire_cpu, setPc_cpu_xcause, setPc_cpu_xepc]
    have hqc : q.cpu c = (setReg 0 a.rd old p).cpu c := by unfold State.cpu; rw [h1]
    rw [hu.cpu c]
    show (q.cpu c).xcause = _ ∧ (q.cpu c).xepc = _
    rw [hqc, setReg_cpu_xcause, setReg_cpu_xepc, hp.cpu c]
    exact ⟨rfl, rfl⟩
  · have hcfg : (setPc 0 (pcPlus4 s) u).cfg = s.cfg := by rw [setPc_cfg, hus]; exact h4
    have hcnt : counter m (setPc 0 (pcPlus4 s) u) = counter m q :=
      counter_congr (by rw [hcfg, h4]) (by rw [setPc_counters, hus]) m
    rw [counter_retire, hcfg, hcnt, setPc_cur, hus]
    have hs7 : (EventClass.system.slot = some m) = (m = 7) := by
      show (some (7 : Fin 32) = some m) = _
      simp [eq_comm]
    simp only [hs7, h6, h0, true_and]

end Sys2Proof.Machine
end

