-- ==== Sys2Proof/Laws/Decode.lean ====
section
/-! SUPPORT. The fields of an encoded word, and an encoded word from its fields: what a round trip needs of each
encoding format (R141, R143). -/

namespace Sys2Proof

/-! ### Fields of an encoded word -/

section R
variable (f7 : BitVec 7) (b a : Reg) (f3 : BitVec 3) (d : Reg) (op : BitVec 7)

@[simp] theorem opcodeOf_encodeR : opcodeOf (encodeR f7 b a f3 d op) = op := by
  ext k hk; simp only [opcodeOf, encodeR, BitVec.getElem_extractLsb', BitVec.getLsbD_append]
  simp [hk]

@[simp] theorem rdOf_encodeR : rdOf (encodeR f7 b a f3 d op) = d := by
  ext k hk; simp only [rdOf, encodeR, BitVec.getElem_extractLsb', BitVec.getLsbD_append]
  simp [show ¬ 7 + k < 7 from by omega, show 7 + k - 7 = k from by omega, hk]

@[simp] theorem funct3Of_encodeR : funct3Of (encodeR f7 b a f3 d op) = f3 := by
  ext k hk; simp only [funct3Of, encodeR, BitVec.getElem_extractLsb', BitVec.getLsbD_append]
  simp [show ¬ 12 + k < 7 from by omega, show ¬ 12 + k - 7 < 5 from by omega, show 12 + k - 7 - 5 = k from by omega, hk]

@[simp] theorem rs1Of_encodeR : rs1Of (encodeR f7 b a f3 d op) = a := by
  ext k hk; simp only [rs1Of, encodeR, BitVec.getElem_extractLsb', BitVec.getLsbD_append]
  simp [show ¬ 15 + k < 7 from by omega, show ¬ 15 + k - 7 < 5 from by omega, show ¬ 15 + k - 7 - 5 < 3 from by omega,
    show 15 + k - 7 - 5 - 3 = k from by omega, hk]

@[simp] theorem rs2Of_encodeR : rs2Of (encodeR f7 b a f3 d op) = b := by
  ext k hk; simp only [rs2Of, encodeR, BitVec.getElem_extractLsb', BitVec.getLsbD_append]
  simp [show ¬ 20 + k < 7 from by omega, show ¬ 20 + k - 7 < 5 from by omega, show ¬ 20 + k - 7 - 5 < 3 from by omega,
    show ¬ 20 + k - 7 - 5 - 3 < 5 from by omega, show 20 + k - 7 - 5 - 3 - 5 = k from by omega, hk]

@[simp] theorem funct7Of_encodeR : funct7Of (encodeR f7 b a f3 d op) = f7 := by
  ext k hk; simp only [funct7Of, encodeR, BitVec.getElem_extractLsb', BitVec.getLsbD_append]
  simp [show ¬ 25 + k < 7 from by omega, show ¬ 25 + k - 7 < 5 from by omega, show ¬ 25 + k - 7 - 5 < 3 from by omega,
    show ¬ 25 + k - 7 - 5 - 3 < 5 from by omega, show ¬ 25 + k - 7 - 5 - 3 - 5 < 5 from by omega,
    show 25 + k - 7 - 5 - 3 - 5 - 5 = k from by omega, BitVec.getLsbD_eq_getElem hk]

end R

section I
variable (i : BitVec 12) (a : Reg) (f3 : BitVec 3) (d : Reg) (op : BitVec 7)

@[simp] theorem opcodeOf_encodeI : opcodeOf (encodeI i a f3 d op) = op := by
  ext k hk; simp only [opcodeOf, encodeI, BitVec.getElem_extractLsb', BitVec.getLsbD_append]
  simp [hk]

@[simp] theorem rdOf_encodeI : rdOf (encodeI i a f3 d op) = d := by
  ext k hk; simp only [rdOf, encodeI, BitVec.getElem_extractLsb', BitVec.getLsbD_append]
  simp [show ¬ 7 + k < 7 from by omega, show 7 + k - 7 = k from by omega, hk]

@[simp] theorem funct3Of_encodeI : funct3Of (encodeI i a f3 d op) = f3 := by
  ext k hk; simp only [funct3Of, encodeI, BitVec.getElem_extractLsb', BitVec.getLsbD_append]
  simp [show ¬ 12 + k < 7 from by omega, show ¬ 12 + k - 7 < 5 from by omega, show 12 + k - 7 - 5 = k from by omega, hk]

@[simp] theorem rs1Of_encodeI : rs1Of (encodeI i a f3 d op) = a := by
  ext k hk; simp only [rs1Of, encodeI, BitVec.getElem_extractLsb', BitVec.getLsbD_append]
  simp [show ¬ 15 + k < 7 from by omega, show ¬ 15 + k - 7 < 5 from by omega, show ¬ 15 + k - 7 - 5 < 3 from by omega,
    show 15 + k - 7 - 5 - 3 = k from by omega, hk]

@[simp] theorem immI_encodeI : immI (encodeI i a f3 d op) = i := by
  ext k hk; simp only [immI, encodeI, BitVec.getElem_extractLsb', BitVec.getLsbD_append]
  simp [show ¬ 20 + k < 7 from by omega, show ¬ 20 + k - 7 < 5 from by omega, show ¬ 20 + k - 7 - 5 < 3 from by omega,
    show ¬ 20 + k - 7 - 5 - 3 < 5 from by omega, show 20 + k - 7 - 5 - 3 - 5 = k from by omega, BitVec.getLsbD_eq_getElem hk]

end I

section U
variable (i : BitVec 20) (d : Reg) (op : BitVec 7)

@[simp] theorem opcodeOf_encodeU : opcodeOf (encodeU i d op) = op := by
  ext k hk; simp only [opcodeOf, encodeU, BitVec.getElem_extractLsb', BitVec.getLsbD_append]
  simp [hk]

@[simp] theorem rdOf_encodeU : rdOf (encodeU i d op) = d := by
  ext k hk; simp only [rdOf, encodeU, BitVec.getElem_extractLsb', BitVec.getLsbD_append]
  simp [show ¬ 7 + k < 7 from by omega, show 7 + k - 7 = k from by omega, hk]

@[simp] theorem immU_encodeU : immU (encodeU i d op) = i := by
  ext k hk; simp only [immU, encodeU, BitVec.getElem_extractLsb', BitVec.getLsbD_append]
  simp [show ¬ 12 + k < 7 from by omega, show ¬ 12 + k - 7 < 5 from by omega, show 12 + k - 7 - 5 = k from by omega,
    BitVec.getLsbD_eq_getElem hk]

end U

@[simp] theorem opcodeOf_encodeS (i : BitVec 12) (b a : Reg) (f3 : BitVec 3) (op : BitVec 7) : opcodeOf (encodeS i b a f3 op) = op := by
  simp [encodeS]

@[simp] theorem funct3Of_encodeS (i : BitVec 12) (b a : Reg) (f3 : BitVec 3) (op : BitVec 7) : funct3Of (encodeS i b a f3 op) = f3 := by
  simp [encodeS]

@[simp] theorem rs1Of_encodeS (i : BitVec 12) (b a : Reg) (f3 : BitVec 3) (op : BitVec 7) : rs1Of (encodeS i b a f3 op) = a := by
  simp [encodeS]

@[simp] theorem rs2Of_encodeS (i : BitVec 12) (b a : Reg) (f3 : BitVec 3) (op : BitVec 7) : rs2Of (encodeS i b a f3 op) = b := by
  simp [encodeS]

@[simp] theorem opcodeOf_encodeB (i : BitVec 13) (b a : Reg) (f3 : BitVec 3) (op : BitVec 7) : opcodeOf (encodeB i b a f3 op) = op := by
  simp [encodeB]

@[simp] theorem funct3Of_encodeB (i : BitVec 13) (b a : Reg) (f3 : BitVec 3) (op : BitVec 7) : funct3Of (encodeB i b a f3 op) = f3 := by
  simp [encodeB]

@[simp] theorem rs1Of_encodeB (i : BitVec 13) (b a : Reg) (f3 : BitVec 3) (op : BitVec 7) : rs1Of (encodeB i b a f3 op) = a := by
  simp [encodeB]

@[simp] theorem rs2Of_encodeB (i : BitVec 13) (b a : Reg) (f3 : BitVec 3) (op : BitVec 7) : rs2Of (encodeB i b a f3 op) = b := by
  simp [encodeB]

@[simp] theorem opcodeOf_encodeJ (i : BitVec 21) (d : Reg) (op : BitVec 7) : opcodeOf (encodeJ i d op) = op := by
  simp [encodeJ]

@[simp] theorem rdOf_encodeJ (i : BitVec 21) (d : Reg) (op : BitVec 7) : rdOf (encodeJ i d op) = d := by
  simp [encodeJ]

/-! ### A word from its fields -/

theorem encodeR_fields (w : Word) :
    encodeR (funct7Of w) (rs2Of w) (rs1Of w) (funct3Of w) (rdOf w) (opcodeOf w) = w := by
  apply BitVec.eq_of_getLsbD_eq
  intro k hk
  simp only [encodeR, funct7Of, rs2Of, rs1Of, funct3Of, rdOf, opcodeOf, BitVec.getLsbD_append,
    BitVec.getLsbD_extractLsb']
  interval_cases k <;> simp

theorem encodeI_fields (w : Word) :
    encodeI (immI w) (rs1Of w) (funct3Of w) (rdOf w) (opcodeOf w) = w := by
  apply BitVec.eq_of_getLsbD_eq
  intro k hk
  simp only [encodeI, immI, rs1Of, funct3Of, rdOf, opcodeOf, BitVec.getLsbD_append,
    BitVec.getLsbD_extractLsb']
  interval_cases k <;> simp

theorem encodeS_fields (w : Word) :
    encodeS (immS w) (rs2Of w) (rs1Of w) (funct3Of w) (opcodeOf w) = w := by
  apply BitVec.eq_of_getLsbD_eq
  intro k hk
  simp only [encodeS, encodeR, immS, rs2Of, rs1Of, funct3Of, opcodeOf, BitVec.getLsbD_append,
    BitVec.getLsbD_extractLsb']
  interval_cases k <;> simp

theorem encodeB_fields (w : Word) :
    encodeB (immB w) (rs2Of w) (rs1Of w) (funct3Of w) (opcodeOf w) = w := by
  apply BitVec.eq_of_getLsbD_eq
  intro k hk
  simp only [encodeB, encodeR, immB, rs2Of, rs1Of, funct3Of, opcodeOf, BitVec.getLsbD_append,
    BitVec.getLsbD_extractLsb']
  interval_cases k <;> simp

theorem encodeU_fields (w : Word) :
    encodeU (immU w) (rdOf w) (opcodeOf w) = w := by
  apply BitVec.eq_of_getLsbD_eq
  intro k hk
  simp only [encodeU, immU, rdOf, opcodeOf, BitVec.getLsbD_append,
    BitVec.getLsbD_extractLsb']
  interval_cases k <;> simp

theorem encodeJ_fields (w : Word) :
    encodeJ (immJ w) (rdOf w) (opcodeOf w) = w := by
  apply BitVec.eq_of_getLsbD_eq
  intro k hk
  simp only [encodeJ, encodeU, immJ, rdOf, opcodeOf, BitVec.getLsbD_append,
    BitVec.getLsbD_extractLsb']
  interval_cases k <;> simp

theorem encodeFence_fields (w : Word) :
    encodeI (w.extractLsb' 28 4 ++ w.extractLsb' 24 4 ++ w.extractLsb' 20 4) (rs1Of w) (funct3Of w) (rdOf w) (opcodeOf w) = w := by
  apply BitVec.eq_of_getLsbD_eq
  intro k hk
  simp only [encodeI, rs1Of, funct3Of, rdOf, opcodeOf, BitVec.getLsbD_append,
    BitVec.getLsbD_extractLsb']
  interval_cases k <;> simp

@[simp] theorem immS_encodeS (i : BitVec 12) (b a : Reg) (f3 : BitVec 3) (op : BitVec 7) :
    immS (encodeS i b a f3 op) = i := by
  apply BitVec.eq_of_getLsbD_eq
  intro k hk
  simp only [immS, encodeS, encodeR, BitVec.getLsbD_append,
    BitVec.getLsbD_extractLsb']
  interval_cases k <;> simp

theorem immB_encodeB {i : BitVec 13} (h : i.getLsbD 0 = false) (b a : Reg) (f3 : BitVec 3) (op : BitVec 7) :
    immB (encodeB i b a f3 op) = i := by
  have h0 : i[0] = false := by simpa using h
  apply BitVec.eq_of_getLsbD_eq
  intro k hk
  simp only [immB, encodeB, encodeR, BitVec.getLsbD_append,
    BitVec.getLsbD_extractLsb']
  interval_cases k <;> simp [h0]

theorem immJ_encodeJ {i : BitVec 21} (h : i.getLsbD 0 = false) (d : Reg) (op : BitVec 7) :
    immJ (encodeJ i d op) = i := by
  have h0 : i[0] = false := by simpa using h
  apply BitVec.eq_of_getLsbD_eq
  intro k hk
  simp only [immJ, encodeJ, encodeU, BitVec.getLsbD_append,
    BitVec.getLsbD_extractLsb']
  interval_cases k <;> simp [h0]

end Sys2Proof
end

