-- ==== Sys2Proof/Laws/PerInstr.lean ====
section
/-! SUPPORT. A statement about every instruction as syntax, one lemma per constructor. -/

namespace Sys2Proof.Laws

/-- The major opcodes under which there are instructions (R145). -/
def majorOpcodes : List (BitVec 7) :=
  [0x03, 0x0B, 0x0F, 0x13, 0x17, 0x23, 0x33, 0x37, 0x63, 0x67, 0x6F, 0x73]

/-- Whatever its fields and the configured codes are, the instruction's word lies under one of the major opcodes. -/
def MajorOpcode.Statement (i : Instr) : Prop := ∀ cfg, opcodeOf (encode cfg i) ∈ majorOpcodes

theorem major_encodeR {f7 : BitVec 7} {b a : Reg} {f3 : BitVec 3} {d : Reg} {op : BitVec 7} (h : op ∈ majorOpcodes) :
    opcodeOf (encodeR f7 b a f3 d op) ∈ majorOpcodes := by rwa [opcodeOf_encodeR]

theorem major_encodeI {i : BitVec 12} {a : Reg} {f3 : BitVec 3} {d : Reg} {op : BitVec 7} (h : op ∈ majorOpcodes) :
    opcodeOf (encodeI i a f3 d op) ∈ majorOpcodes := by rwa [opcodeOf_encodeI]

theorem major_encodeU {i : BitVec 20} {d : Reg} {op : BitVec 7} (h : op ∈ majorOpcodes) :
    opcodeOf (encodeU i d op) ∈ majorOpcodes := by rwa [opcodeOf_encodeU]

theorem MajorOpcode.addi : ∀ rd rs1 imm, MajorOpcode.Statement (.addi rd rs1 imm) :=
  fun _ _ _ _ => major_encodeI (by decide)
theorem MajorOpcode.slti : ∀ rd rs1 imm, MajorOpcode.Statement (.slti rd rs1 imm) :=
  fun _ _ _ _ => major_encodeI (by decide)
theorem MajorOpcode.sltiu : ∀ rd rs1 imm, MajorOpcode.Statement (.sltiu rd rs1 imm) :=
  fun _ _ _ _ => major_encodeI (by decide)
theorem MajorOpcode.andi : ∀ rd rs1 imm, MajorOpcode.Statement (.andi rd rs1 imm) :=
  fun _ _ _ _ => major_encodeI (by decide)
theorem MajorOpcode.ori : ∀ rd rs1 imm, MajorOpcode.Statement (.ori rd rs1 imm) :=
  fun _ _ _ _ => major_encodeI (by decide)
theorem MajorOpcode.xori : ∀ rd rs1 imm, MajorOpcode.Statement (.xori rd rs1 imm) :=
  fun _ _ _ _ => major_encodeI (by decide)
theorem MajorOpcode.slli : ∀ rd rs1 shamt, MajorOpcode.Statement (.slli rd rs1 shamt) :=
  fun _ _ _ _ => major_encodeR (by decide)
theorem MajorOpcode.srli : ∀ rd rs1 shamt, MajorOpcode.Statement (.srli rd rs1 shamt) :=
  fun _ _ _ _ => major_encodeR (by decide)
theorem MajorOpcode.srai : ∀ rd rs1 shamt, MajorOpcode.Statement (.srai rd rs1 shamt) :=
  fun _ _ _ _ => major_encodeR (by decide)
theorem MajorOpcode.lui : ∀ rd imm, MajorOpcode.Statement (.lui rd imm) :=
  fun _ _ _ => major_encodeU (by decide)
theorem MajorOpcode.auipc : ∀ rd imm, MajorOpcode.Statement (.auipc rd imm) :=
  fun _ _ _ => major_encodeU (by decide)
theorem MajorOpcode.add : ∀ rd rs1 rs2, MajorOpcode.Statement (.add rd rs1 rs2) :=
  fun _ _ _ _ => major_encodeR (by decide)
theorem MajorOpcode.sub : ∀ rd rs1 rs2, MajorOpcode.Statement (.sub rd rs1 rs2) :=
  fun _ _ _ _ => major_encodeR (by decide)
theorem MajorOpcode.slt : ∀ rd rs1 rs2, MajorOpcode.Statement (.slt rd rs1 rs2) :=
  fun _ _ _ _ => major_encodeR (by decide)
theorem MajorOpcode.sltu : ∀ rd rs1 rs2, MajorOpcode.Statement (.sltu rd rs1 rs2) :=
  fun _ _ _ _ => major_encodeR (by decide)
theorem MajorOpcode.and : ∀ rd rs1 rs2, MajorOpcode.Statement (.and rd rs1 rs2) :=
  fun _ _ _ _ => major_encodeR (by decide)
theorem MajorOpcode.or : ∀ rd rs1 rs2, MajorOpcode.Statement (.or rd rs1 rs2) :=
  fun _ _ _ _ => major_encodeR (by decide)
theorem MajorOpcode.xor : ∀ rd rs1 rs2, MajorOpcode.Statement (.xor rd rs1 rs2) :=
  fun _ _ _ _ => major_encodeR (by decide)
theorem MajorOpcode.sll : ∀ rd rs1 rs2, MajorOpcode.Statement (.sll rd rs1 rs2) :=
  fun _ _ _ _ => major_encodeR (by decide)
theorem MajorOpcode.srl : ∀ rd rs1 rs2, MajorOpcode.Statement (.srl rd rs1 rs2) :=
  fun _ _ _ _ => major_encodeR (by decide)
theorem MajorOpcode.sra : ∀ rd rs1 rs2, MajorOpcode.Statement (.sra rd rs1 rs2) :=
  fun _ _ _ _ => major_encodeR (by decide)
theorem MajorOpcode.jal : ∀ rd off, MajorOpcode.Statement (.jal rd off) :=
  fun _ _ _ => major_encodeU (by decide)
theorem MajorOpcode.jalr : ∀ rd rs1 imm, MajorOpcode.Statement (.jalr rd rs1 imm) :=
  fun _ _ _ _ => major_encodeI (by decide)
theorem MajorOpcode.beq : ∀ rs1 rs2 off, MajorOpcode.Statement (.beq rs1 rs2 off) :=
  fun _ _ _ _ => major_encodeR (by decide)
theorem MajorOpcode.bne : ∀ rs1 rs2 off, MajorOpcode.Statement (.bne rs1 rs2 off) :=
  fun _ _ _ _ => major_encodeR (by decide)
theorem MajorOpcode.blt : ∀ rs1 rs2 off, MajorOpcode.Statement (.blt rs1 rs2 off) :=
  fun _ _ _ _ => major_encodeR (by decide)
theorem MajorOpcode.bge : ∀ rs1 rs2 off, MajorOpcode.Statement (.bge rs1 rs2 off) :=
  fun _ _ _ _ => major_encodeR (by decide)
theorem MajorOpcode.bltu : ∀ rs1 rs2 off, MajorOpcode.Statement (.bltu rs1 rs2 off) :=
  fun _ _ _ _ => major_encodeR (by decide)
theorem MajorOpcode.bgeu : ∀ rs1 rs2 off, MajorOpcode.Statement (.bgeu rs1 rs2 off) :=
  fun _ _ _ _ => major_encodeR (by decide)
theorem MajorOpcode.lb : ∀ rd rs1 imm, MajorOpcode.Statement (.lb rd rs1 imm) :=
  fun _ _ _ _ => major_encodeI (by decide)
theorem MajorOpcode.lh : ∀ rd rs1 imm, MajorOpcode.Statement (.lh rd rs1 imm) :=
  fun _ _ _ _ => major_encodeI (by decide)
theorem MajorOpcode.lw : ∀ rd rs1 imm, MajorOpcode.Statement (.lw rd rs1 imm) :=
  fun _ _ _ _ => major_encodeI (by decide)
theorem MajorOpcode.lbu : ∀ rd rs1 imm, MajorOpcode.Statement (.lbu rd rs1 imm) :=
  fun _ _ _ _ => major_encodeI (by decide)
theorem MajorOpcode.lhu : ∀ rd rs1 imm, MajorOpcode.Statement (.lhu rd rs1 imm) :=
  fun _ _ _ _ => major_encodeI (by decide)
theorem MajorOpcode.sb : ∀ rs2 rs1 imm, MajorOpcode.Statement (.sb rs2 rs1 imm) :=
  fun _ _ _ _ => major_encodeR (by decide)
theorem MajorOpcode.sh : ∀ rs2 rs1 imm, MajorOpcode.Statement (.sh rs2 rs1 imm) :=
  fun _ _ _ _ => major_encodeR (by decide)
theorem MajorOpcode.sw : ∀ rs2 rs1 imm, MajorOpcode.Statement (.sw rs2 rs1 imm) :=
  fun _ _ _ _ => major_encodeR (by decide)
theorem MajorOpcode.fence : ∀ fm pred succ rs1 rd, MajorOpcode.Statement (.fence fm pred succ rs1 rd) :=
  fun _ _ _ _ _ _ => major_encodeI (by decide)
theorem MajorOpcode.fenceI : ∀ imm rs1 rd, MajorOpcode.Statement (.fenceI imm rs1 rd) :=
  fun _ _ _ _ => major_encodeI (by decide)
theorem MajorOpcode.csrrw : ∀ rd csr rs1, MajorOpcode.Statement (.csrrw rd csr rs1) :=
  fun _ _ _ _ => major_encodeI (by decide)
theorem MajorOpcode.csrrs : ∀ rd csr rs1, MajorOpcode.Statement (.csrrs rd csr rs1) :=
  fun _ _ _ _ => major_encodeI (by decide)
theorem MajorOpcode.csrrc : ∀ rd csr rs1, MajorOpcode.Statement (.csrrc rd csr rs1) :=
  fun _ _ _ _ => major_encodeI (by decide)
theorem MajorOpcode.csrrwi : ∀ rd csr uimm, MajorOpcode.Statement (.csrrwi rd csr uimm) :=
  fun _ _ _ _ => major_encodeI (by decide)
theorem MajorOpcode.csrrsi : ∀ rd csr uimm, MajorOpcode.Statement (.csrrsi rd csr uimm) :=
  fun _ _ _ _ => major_encodeI (by decide)
theorem MajorOpcode.csrrci : ∀ rd csr uimm, MajorOpcode.Statement (.csrrci rd csr uimm) :=
  fun _ _ _ _ => major_encodeI (by decide)
theorem MajorOpcode.ecall : MajorOpcode.Statement .ecall := fun _ => major_encodeI (by decide)
theorem MajorOpcode.ebreak : MajorOpcode.Statement .ebreak := fun _ => major_encodeI (by decide)
theorem MajorOpcode.mret : MajorOpcode.Statement .mret := fun _ => major_encodeI (by decide)
theorem MajorOpcode.halt : MajorOpcode.Statement .halt := fun _ => major_encodeI (by decide)
theorem MajorOpcode.cinv : ∀ base off, MajorOpcode.Statement (.cinv base off) :=
  fun _ _ _ => major_encodeI (by decide)
theorem MajorOpcode.cwb : ∀ base off, MajorOpcode.Statement (.cwb base off) :=
  fun _ _ _ => major_encodeI (by decide)
theorem MajorOpcode.cflush : ∀ base off, MajorOpcode.Statement (.cflush base off) :=
  fun _ _ _ => major_encodeI (by decide)

end Sys2Proof.Laws
end

