-- ==== Sys2Proof/Tests/Slice0.lean ====
section
/-! SUPPORT. Tests: ill-formed terms, words written out from the encodings, single steps with the values of
spec/95_test_vectors.md and of the rules' examples, and for each statement with hypotheses a state that meets them. -/

namespace Sys2Proof.Tests

open Sys2Proof.Machine

/-! ### Well-formedness: a control-transfer offset is a multiple of two (R143) -/

theorem test_illformed_jal : Instr.wf (.jal 1 3) = false := by decide
theorem test_illformed_beq : Instr.wf (.beq 1 2 1) = false := by decide
theorem test_illformed_bne : Instr.wf (.bne 1 2 1) = false := by decide
theorem test_illformed_blt : Instr.wf (.blt 1 2 0x1FFF) = false := by decide
theorem test_illformed_bge : Instr.wf (.bge 1 2 7) = false := by decide
theorem test_illformed_bltu : Instr.wf (.bltu 1 2 9) = false := by decide
theorem test_illformed_bgeu : Instr.wf (.bgeu 1 2 0xFFF) = false := by decide
theorem test_wellformed_jal : Instr.wf (.jal 1 0x1FFFFE) = true := by decide

/-! ### Written-out words -/

/-- The word decodes to the instruction, and the instruction encodes to the word. -/
def isWord (w : Nat) (i : Instr) : Bool :=
  decide (decodeTableWord 32 w = some i) && encode Config.default i == BitVec.ofNat 32 w

theorem test_word_addi : isWord 0xFFF30293 (.addi 5 6 0xFFF) = true := by decide
theorem test_word_slti : isWord 0xFFF32293 (.slti 5 6 0xFFF) = true := by decide
theorem test_word_sltiu : isWord 0x00133293 (.sltiu 5 6 1) = true := by decide
theorem test_word_andi : isWord 0x0FF37293 (.andi 5 6 0xFF) = true := by decide
theorem test_word_ori : isWord 0x80036293 (.ori 5 6 0x800) = true := by decide
theorem test_word_xori : isWord 0xFFF34293 (.xori 5 6 0xFFF) = true := by decide
theorem test_word_slli : isWord 0x01F31293 (.slli 5 6 31) = true := by decide
theorem test_word_srli : isWord 0x00435293 (.srli 5 6 4) = true := by decide
theorem test_word_srai : isWord 0x40435293 (.srai 5 6 4) = true := by decide
theorem test_word_lui : isWord 0xFFFFF2B7 (.lui 5 0xFFFFF) = true := by decide
theorem test_word_auipc : isWord 0x00001297 (.auipc 5 1) = true := by decide
theorem test_word_add : isWord 0x007302B3 (.add 5 6 7) = true := by decide
theorem test_word_sub : isWord 0x407302B3 (.sub 5 6 7) = true := by decide
theorem test_word_slt : isWord 0x007322B3 (.slt 5 6 7) = true := by decide
theorem test_word_sltu : isWord 0x007032B3 (.sltu 5 0 7) = true := by decide
theorem test_word_and : isWord 0x007372B3 (.and 5 6 7) = true := by decide
theorem test_word_or : isWord 0x007362B3 (.or 5 6 7) = true := by decide
theorem test_word_xor : isWord 0x007342B3 (.xor 5 6 7) = true := by decide
theorem test_word_sll : isWord 0x007312B3 (.sll 5 6 7) = true := by decide
theorem test_word_srl : isWord 0x007352B3 (.srl 5 6 7) = true := by decide
theorem test_word_sra : isWord 0x407352B3 (.sra 5 6 7) = true := by decide
theorem test_word_jal : isWord 0xFFDFF06F (.jal 0 0x1FFFFC) = true := by decide
theorem test_word_jalr : isWord 0x004300E7 (.jalr 1 6 4) = true := by decide
theorem test_word_beq : isWord 0x00730463 (.beq 6 7 8) = true := by decide
theorem test_word_bne : isWord 0xFE731CE3 (.bne 6 7 0x1FF8) = true := by decide
theorem test_word_blt : isWord 0x00734863 (.blt 6 7 16) = true := by decide
theorem test_word_bge : isWord 0x00735863 (.bge 6 7 16) = true := by decide
theorem test_word_bltu : isWord 0x00736863 (.bltu 6 7 16) = true := by decide
theorem test_word_bgeu : isWord 0x80737063 (.bgeu 6 7 0x1000) = true := by decide
theorem test_word_lb : isWord 0xFFF30283 (.lb 5 6 0xFFF) = true := by decide
theorem test_word_lh : isWord 0x00231283 (.lh 5 6 2) = true := by decide
theorem test_word_lw : isWord 0x00832283 (.lw 5 6 8) = true := by decide
theorem test_word_lbu : isWord 0x00334283 (.lbu 5 6 3) = true := by decide
theorem test_word_lhu : isWord 0x00235283 (.lhu 5 6 2) = true := by decide
theorem test_word_sb : isWord 0x007300A3 (.sb 7 6 1) = true := by decide
theorem test_word_sh : isWord 0xFE731F23 (.sh 7 6 0xFFE) = true := by decide
theorem test_word_sw : isWord 0x7E732FA3 (.sw 7 6 0x7FF) = true := by decide
theorem test_word_fence : isWord 0x0310000F (.fence 0 3 1 0 0) = true := by decide
theorem test_word_fenceI : isWord 0x0000100F (.fenceI 0 0 0) = true := by decide
theorem test_word_csrrw : isWord 0x340312F3 (.csrrw 5 0x340 6) = true := by decide
theorem test_word_csrrs : isWord 0xF14022F3 (.csrrs 5 0xF14 0) = true := by decide
theorem test_word_csrrc : isWord 0x300332F3 (.csrrc 5 0x300 6) = true := by decide
theorem test_word_csrrwi : isWord 0x340FD073 (.csrrwi 0 0x340 31) = true := by decide
theorem test_word_csrrsi : isWord 0x300462F3 (.csrrsi 5 0x300 8) = true := by decide
theorem test_word_csrrci : isWord 0x30047073 (.csrrci 0 0x300 8) = true := by decide
theorem test_word_ecall : isWord 0x00000073 .ecall = true := by decide
theorem test_word_ebreak : isWord 0x00100073 .ebreak = true := by decide
theorem test_word_mret : isWord 0x30200073 .mret = true := by decide
theorem test_word_halt : isWord 0x0000000B .halt = true := by decide
theorem test_word_cinv : isWord 0x0103100B (.cinv 6 16) = true := by decide
theorem test_word_cwb : isWord 0x0103200B (.cwb 6 16) = true := by decide
theorem test_word_cflush : isWord 0x0103300B (.cflush 6 16) = true := by decide

/-- SRET, URET, WFI, MUL, an unassigned SYSTEM word and a 16-bit word are no instructions (R160). -/
theorem test_illegal_words :
    [0x10200073, 0x00200073, 0x10500073, 0x027302B3, 0x00004073, 0x00000001].all
      (fun w => decide (decode Config.default (BitVec.ofNat 32 w) = .error .illegal)) = true := by decide

/-- CUSTOM-0 with funct3 4, HALT with rd = 1 and with rs1 = 1 are reserved (R160 (d)). -/
theorem test_reserved_words :
    [0x0000400B, 0x0000008B, 0x0000800B].all
      (fun w => decide (decode Config.default (BitVec.ofNat 32 w) = .error .reservedCustom0)) = true := by decide

/-! ### Single steps -/

/-- The reset state with the CePU at a pc, some of its registers and some bytes of main memory. -/
def start (pc : Word) (regs : List (Reg × Word)) (bytes : List (Nat × Byte) := []) : State :=
  setPc 0 pc (regs.foldl (fun s x => setReg 0 x.1 x.2 s)
    { State.reset with main := bytes.foldl (fun m x => Memory.write m x.1 x.2) [] })

/-- One step that runs a word answers a next state with a property. -/
def runs (s : State) (w : Nat) (p : State → Bool) : Bool :=
  match step (s.withFetchWord 32 w) with
  | .next t => p t
  | .fault _ => false
  | .refused _ => false

/-- One instruction answers a next state with a property. -/
def execs (i : Instr) (s : State) (p : State → Bool) : Bool :=
  match exec i s with
  | .next t => p t
  | .fault _ => false
  | .refused _ => false

/-- The CePU traps with a cause and a trap value, and mepc is the old pc. -/
def trapped (cause tval addr : Word) (t : State) : Bool :=
  t.mcause == cause && t.mtval == tval && t.mepc == addr && t.inTrap && pcOf 0 t == t.mtvec

theorem test_addi :
    runs (start 0x100 [(6, 0)]) 0xFFF30293 (fun t => reg 0 5 t == 0xFFFFFFFF && pcOf 0 t == 0x104) = true := by decide

theorem test_addi_wraps_and_counts :
    runs (start 0x100 [(6, 1)]) 0xFFF30293
      (fun t => reg 0 5 t == 0 && counter 2 t == 1 && counter 3 t == 1 && counter 4 t == 0) = true := by decide

theorem test_slti :
    runs (start 0x100 [(6, 0xFFFFFFFE)]) 0xFFF32293 (fun t => reg 0 5 t == 1 && pcOf 0 t == 0x104) = true := by decide

theorem test_slti_not_less :
    runs (start 0x100 [(6, 0)]) 0xFFF32293 (fun t => reg 0 5 t == 0 && pcOf 0 t == 0x104) = true := by decide

theorem test_sltiu :
    runs (start 0x100 [(6, 0)]) 0x00133293 (fun t => reg 0 5 t == 1 && pcOf 0 t == 0x104) = true := by decide

theorem test_sltiu_not_less :
    runs (start 0x100 [(6, 7)]) 0x00133293 (fun t => reg 0 5 t == 0 && pcOf 0 t == 0x104) = true := by decide

theorem test_andi :
    runs (start 0x100 [(6, 0x12345678)]) 0x0FF37293 (fun t => reg 0 5 t == 0x78 && pcOf 0 t == 0x104) = true := by decide

theorem test_ori :
    runs (start 0x100 [(6, 1)]) 0x80036293 (fun t => reg 0 5 t == 0xFFFFF801 && pcOf 0 t == 0x104) = true := by decide

theorem test_xori :
    runs (start 0x100 [(6, 0x0F0F0F0F)]) 0xFFF34293 (fun t => reg 0 5 t == 0xF0F0F0F0 && pcOf 0 t == 0x104) = true := by decide

theorem test_slli :
    runs (start 0x100 [(6, 3)]) 0x01F31293 (fun t => reg 0 5 t == 0x80000000 && pcOf 0 t == 0x104) = true := by decide

theorem test_srli :
    runs (start 0x100 [(6, 0x80000010)]) 0x00435293 (fun t => reg 0 5 t == 0x08000001 && pcOf 0 t == 0x104) = true := by decide

theorem test_srai :
    runs (start 0x100 [(6, 0x80000010)]) 0x40435293 (fun t => reg 0 5 t == 0xF8000001 && pcOf 0 t == 0x104) = true := by decide

theorem test_lui :
    runs (start 0x100 []) 0xFFFFF2B7 (fun t => reg 0 5 t == 0xFFFFF000 && pcOf 0 t == 0x104) = true := by decide

theorem test_auipc :
    runs (start 0x100 []) 0x00001297 (fun t => reg 0 5 t == 0x1100 && pcOf 0 t == 0x104) = true := by decide

theorem test_add :
    runs (start 0x100 [(6, 0xFFFFFFFF), (7, 2)]) 0x007302B3 (fun t => reg 0 5 t == 1 && pcOf 0 t == 0x104) = true := by decide

theorem test_sub :
    runs (start 0x100 [(6, 3), (7, 5)]) 0x407302B3 (fun t => reg 0 5 t == 0xFFFFFFFE && pcOf 0 t == 0x104) = true := by decide

theorem test_slt :
    runs (start 0x100 [(6, 0xFFFFFFFF), (7, 1)]) 0x007322B3 (fun t => reg 0 5 t == 1 && pcOf 0 t == 0x104) = true := by decide

theorem test_sltu :
    runs (start 0x100 [(7, 9)]) 0x007032B3 (fun t => reg 0 5 t == 1 && pcOf 0 t == 0x104) = true := by decide

theorem test_sltu_zero :
    runs (start 0x100 [(7, 0)]) 0x007032B3 (fun t => reg 0 5 t == 0 && pcOf 0 t == 0x104) = true := by decide

theorem test_and :
    runs (start 0x100 [(6, 0xFF00FF00), (7, 0x0FF00FF0)]) 0x007372B3 (fun t => reg 0 5 t == 0x0F000F00 && pcOf 0 t == 0x104) = true := by decide

theorem test_or :
    runs (start 0x100 [(6, 0xFF00FF00), (7, 0x0FF00FF0)]) 0x007362B3 (fun t => reg 0 5 t == 0xFFF0FFF0 && pcOf 0 t == 0x104) = true := by decide

theorem test_xor :
    runs (start 0x100 [(6, 0xFF00FF00), (7, 0x0FF00FF0)]) 0x007342B3 (fun t => reg 0 5 t == 0xF0F0F0F0 && pcOf 0 t == 0x104) = true := by decide

theorem test_sll :
    runs (start 0x100 [(6, 1), (7, 33)]) 0x007312B3 (fun t => reg 0 5 t == 2 && pcOf 0 t == 0x104) = true := by decide

theorem test_srl :
    runs (start 0x100 [(6, 0x80000000), (7, 31)]) 0x007352B3 (fun t => reg 0 5 t == 1 && pcOf 0 t == 0x104) = true := by decide

theorem test_sra :
    runs (start 0x100 [(6, 0x80000000), (7, 31)]) 0x407352B3 (fun t => reg 0 5 t == 0xFFFFFFFF && pcOf 0 t == 0x104) = true := by decide

theorem test_jal :
    runs (start 0x100 []) 0x008000EF (fun t => reg 0 1 t == 0x104 && pcOf 0 t == 0x108) = true := by decide

theorem test_jal_misaligned :
    execs (.jal 1 6) (start 0x100 []) (fun t => trapped 0 0x106 0x100 t && reg 0 1 t == 0) = true := by decide

theorem test_jalr :
    runs (start 0x100 [(6, 0x200)]) 0x004300E7 (fun t => reg 0 1 t == 0x104 && pcOf 0 t == 0x204) = true := by decide

theorem test_jalr_same_register :
    execs (.jalr 1 1 1) (start 0x100 [(1, 0x200)]) (fun t => reg 0 1 t == 0x104 && pcOf 0 t == 0x200) = true := by decide

theorem test_beq :
    runs (start 0x100 [(6, 3), (7, 3)]) 0x00730463 (fun t => pcOf 0 t == 0x108) = true := by decide

theorem test_beq_not_taken :
    runs (start 0x100 [(6, 3), (7, 4)]) 0x00730463 (fun t => pcOf 0 t == 0x104) = true := by decide

theorem test_bne :
    runs (start 0x100 [(6, 1), (7, 0)]) 0xFE731CE3 (fun t => pcOf 0 t == 0xF8) = true := by decide

theorem test_blt :
    runs (start 0x100 [(6, 0xFFFFFFFF), (7, 0)]) 0x00734863 (fun t => pcOf 0 t == 0x110) = true := by decide

theorem test_bge :
    runs (start 0x100 [(6, 0xFFFFFFFF), (7, 0)]) 0x00735863 (fun t => pcOf 0 t == 0x104) = true := by decide

theorem test_bge_equal :
    runs (start 0x100 [(6, 5), (7, 5)]) 0x00735863 (fun t => pcOf 0 t == 0x110) = true := by decide

theorem test_bltu :
    runs (start 0x100 [(6, 0xFFFFFFFF), (7, 0)]) 0x00736863 (fun t => pcOf 0 t == 0x104) = true := by decide

theorem test_bgeu :
    runs (start 0x2000 [(6, 0xFFFFFFFF), (7, 0)]) 0x80737063 (fun t => pcOf 0 t == 0x1000) = true := by decide

theorem test_bne_misaligned :
    execs (.bne 1 0 2) (start 0x100 [(1, 1)]) (trapped 0 0x102 0x100) = true := by decide

theorem test_lb :
    runs (start 0 [(6, 0x1004)] [(0x1003, 0x80)]) 0xFFF30283 (fun t => reg 0 5 t == 0xFFFFFF80 && counter 4 t == 1) = true := by decide

theorem test_lh :
    runs (start 0 [(6, 0x1000)] [(0x1003, 0x80)]) 0x00231283 (fun t => reg 0 5 t == 0xFFFF8000 && counter 4 t == 1) = true := by decide

theorem test_lw :
    runs (start 0 [(6, 0x1000)] [(0x1008, 0x78), (0x1009, 0x56), (0x100A, 0x34), (0x100B, 0x12)]) 0x00832283 (fun t => reg 0 5 t == 0x12345678 && counter 4 t == 1) = true := by decide

theorem test_lbu :
    runs (start 0 [(6, 0x1000)] [(0x1003, 0x80)]) 0x00334283 (fun t => reg 0 5 t == 0x80 && counter 4 t == 1) = true := by decide

theorem test_lhu :
    runs (start 0 [(6, 0x1000)] [(0x1003, 0x80)]) 0x00235283 (fun t => reg 0 5 t == 0x8000 && counter 4 t == 1) = true := by decide

theorem test_lw_misaligned :
    runs (start 0x20 [(5, 7), (6, 0x1001)]) 0x00832283 (fun t => trapped 4 0x1009 0x20 t && reg 0 5 t == 7) = true := by decide

theorem test_sb :
    runs (start 0 [(6, 0x1000), (7, 0xAABBCCDD)]) 0x007300A3 (fun t => readByte 0 0x1001 t == 0xDD && readByte 0 0x1000 t == 0 && readByte 0 0x1002 t == 0) = true := by decide

theorem test_sh :
    runs (start 0 [(6, 0x1004), (7, 0xAABBCCDD)]) 0xFE731F23 (fun t => readByte 0 0x1002 t == 0xDD && readByte 0 0x1003 t == 0xCC && readByte 0 0x1004 t == 0) = true := by decide

theorem test_sw :
    runs (start 0 [(6, 0x1000), (7, 0x12345678)]) 0x00732423 (fun t => readByte 0 0x1008 t == 0x78 && readByte 0 0x1009 t == 0x56 && readByte 0 0x100A t == 0x34 && readByte 0 0x100B t == 0x12) = true := by decide

theorem test_sw_misaligned :
    runs (start 0x20 [(6, 0), (7, 1)]) 0x7E732FA3 (trapped 6 0x7FF 0x20) = true := by decide

theorem test_sw_hidden_from_other_cpu :
    execs (.sw 7 6 0) (start 0 [(6, 0x1000), (7, 0xFF)])
      (fun t => readByte 0 0x1000 t == 0xFF && readByte 1 0x1000 t == 0) = true := by decide

/-- The CePU has a buffered store of 0xFF to 0x1000 and a stale prefetched word. -/
def stored : State :=
  let s := memWrite 0 0x1000 1 0xFF (start 0 [(6, 0x1000)])
  s.setCpu 0 { s.cpu 0 with ifu := [(0x40, 7)] }

theorem test_fence :
    execs (.fence 0 3 1 0 0) stored
      (fun t => readByte 1 0x1000 t == 0xFF && (t.cpu 0).ifu.isEmpty && counter 7 t == 1) = true := by decide

theorem test_fenceI :
    execs (.fenceI 0 0 0) stored
      (fun t => readByte 1 0x1000 t == 0xFF && (t.cpu 0).ifu.isEmpty && counter 7 t == 0) = true := by decide

theorem test_csrrw :
    runs { start 0 [(6, 0x12345678)] with mscratch := 0xAAAA5555 } 0x340312F3
      (fun t => reg 0 5 t == 0xAAAA5555 && t.mscratch == 0x12345678) = true := by decide

theorem test_csrrw_minstret :
    execs (.csrrw 0 0xB02 6) (start 0 [(6, 100)]) (fun t => counter 2 t == 100 && counter 7 t == 1) = true := by decide

theorem test_csrrs :
    runs (start 0 [(6, 0xFFFFFFFF)]) 0x30032073 (fun t => t.mstatus == 0x88) = true := by decide

theorem test_csrrs_mhartid_on_copu :
    execs (.csrrs 5 0xF14 0) { State.reset with cur := 2 } (fun t => reg 2 5 t == 2) = true := by decide

theorem test_csrrc :
    runs { start 0 [(6, 8)] with mstatus := 0x88 } 0x300332F3 (fun t => reg 0 5 t == 0x88 && t.mstatus == 0x80) = true := by decide

theorem test_csrrwi :
    runs (start 0 []) 0x340FD073 (fun t => t.mscratch == 0x1F) = true := by decide

theorem test_csrrwi_read_only :
    execs (.csrrwi 5 0xF14 0) (start 0x20 [(5, 9)])
      (fun t => t.mcause == 2 && t.mepc == 0x20 && t.inTrap && reg 0 5 t == 9) = true := by decide

theorem test_csrrsi :
    runs (start 0 []) 0x300462F3 (fun t => reg 0 5 t == 0 && t.mstatus == 8) = true := by decide

theorem test_csrrci :
    runs { start 0 [] with mstatus := 0x88 } 0x30047073 (fun t => t.mstatus == 0x80) = true := by decide

theorem test_ecall :
    runs { start 0x120 [] with mtvec := 0x400, mstatus := 8 } 0x00000073
      (fun t => trapped 11 0 0x120 t && pcOf 0 t == 0x400 && t.mstatus == 0x80 && counter 2 t == 0) = true := by decide

theorem test_ebreak :
    runs { start 0x124 [] with mtvec := 0x400 } 0x00100073
      (fun t => t.mcause == 3 && t.mepc == 0x124 && pcOf 0 t == 0x400) = true := by decide

theorem test_ecall_on_copu :
    execs .ecall { State.reset with cur := 1, active := 3 }
      (fun t => t.xstate == 2 && (t.cpu 1).xcause == 11 && t.mcause == 0 && !t.inTrap) = true := by decide

theorem test_mret :
    runs { start 0x400 [] with mepc := 0x204, mstatus := 0x80, inTrap := true } 0x30200073
      (fun t => pcOf 0 t == 0x204 && t.mstatus == 0x88 && !t.inTrap) = true := by decide

theorem test_halt :
    execs .halt { start 0x40 [] with active := 7, pnceReq := 7 }
      (fun t => t.halted && t.active == 1 && t.pnceReq == 1 && pcOf 0 t == 0) = true := by decide

theorem test_halt_on_copu :
    execs .halt { State.reset with cur := 1, active := 7, pnceReq := 7 }
      (fun t => !t.halted && t.active == 5 && t.pnceReq == 5) = true := by decide

/-- Data accesses use the cache, which holds 0xFF at 0x1010 above a 7 in main memory. -/
def cached : State :=
  let s := { start 0 [(6, 0x1000)] [(0x1010, 7)] with pncache := 1 }
  memuWrite true 0x1010 0xFF s

theorem test_cinv :
    runs cached 0x0103100B (fun t => readByte 0 0x1010 t == 7 && t.cache.isEmpty) = true := by decide

theorem test_cwb :
    runs cached 0x0103200B (fun t => Memory.read t.main 0x1010 == 0xFF && readByte 0 0x1010 t == 0xFF && !t.cache.isEmpty) = true := by decide

theorem test_cflush :
    runs cached 0x0103300B (fun t => Memory.read t.main 0x1010 == 0xFF && t.cache.isEmpty) = true := by decide

/-- An eviction keeps what a bypassing store wrote under a line without newer data (R112, R120); CFLUSH copies the line
over it (R304). -/
theorem test_evict_and_flush_clean_line :
    (let s := memuWrite false 0x1011 9 (writeBackLine 0x101 cached)
     Memory.read (evictLine 0x101 s).main 0x1011 == 9 && (evictLine 0x101 s).cache.isEmpty &&
     runs s 0x0103300B (fun t => Memory.read t.main 0x1010 == 0xFF && Memory.read t.main 0x1011 == 0)) = true := by
  decide

/-- CFLUSH keeps what another bus master wrote under a line, with or without newer data (R115, R405), and writes back the
rest of it (R304). -/
theorem test_flush_under_bus_master :
    [cached, writeBackLine 0x101 cached].all (fun s =>
      runs (applyEvent s (.busWrite 0x1011 9)) 0x0103300B
        (fun t => Memory.read t.main 0x1010 == 0xFF && readByte 0 0x1011 t == 9)) = true := by decide

/-- A cached store after that is written back (R105, R304). -/
theorem test_flush_store_after_bus_master :
    runs (memuWrite true 0x1011 5 (applyEvent cached (.busWrite 0x1011 9))) 0x0103300B
      (fun t => Memory.read t.main 0x1011 == 5) = true := by decide

/-- With DEN off and IEN on a store bypasses the line that fetches use, as another bus master's does (R118). -/
theorem test_flush_under_bypassing_store :
    runs (commitStore [(0x1011, 9)] { cached with pncache := 2 }) 0x0103300B
      (fun t => Memory.read t.main 0x1010 == 0xFF && Memory.read t.main 0x1011 == 9) = true := by decide

/-- A line wholly in UNCACHED_REGIONS stays out of the cache, the line before them comes in (log 41). -/
theorem test_allocate_uncached :
    (let s := State.resetWith { Config.default with uncached := [⟨0x100, 0x20⟩] }
     (allocateLine 0x10 s).cache.isEmpty && !(allocateLine 0xF s).cache.isEmpty) = true := by decide

theorem test_illegal_word :
    runs (start 0x30 []) 0x10500073 (fun t => t.mcause == 2 && t.mepc == 0x30 && counter 2 t == 0) = true := by decide

theorem test_linked_add :
    execs (.add 5 6 7) { setReg 1 7 9 (start 0 [(6, 1)]) with active := 3, pnlm := 2 }
      (fun t => reg 0 5 t == 1 && reg 1 5 t == 9 && pcOf 0 t == 4) = true := by decide

/-! ### Witnesses: for each statement with hypotheses, states and operands that meet them

Each theorem is named after the statement's id in OBLIGATIONS.json. -/

/-- An answer is a next state. -/
def isNext (r : Result) : Bool :=
  match r with
  | .next _ => true
  | .fault _ => false
  | .refused _ => false

theorem exists_of_isNext {r : Result} (h : isNext r = true) : ∃ t, r = .next t := by
  cases r with
  | next t => exact ⟨t, rfl⟩
  | fault f => exact Bool.noConfusion (h : false = true)
  | refused f => exact Bool.noConfusion (h : false = true)

theorem witness_configuration : Config.Wf Config.default where
  cpus := by decide
  cepu := by decide
  copus := by decide
  resetAligned := by decide
  line := by decide
  memFits := by decide
  perfCounters := by decide
  perfBits := by decide
  cacheWays := by decide
  cacheBits := by decide
  funct3 := by decide
  csrDistinct := by decide
  csrOutside := by simp [Config.default, PnCsrNums.toList, tableCsr]

theorem reset_cpu (c : CpuId) : State.reset.cpu c = Cpu.reset 0 := by
  unfold State.cpu State.reset State.resetWith
  exact Vector.getElem_replicate c.isLt

theorem witness_memoryInv : MemoryInv State.reset where
  main := by decide
  order := by decide
  whole := by intro l h; exact absurd h List.not_mem_nil
  sbuf := by intro c st h; rw [reset_cpu] at h; exact absurd h List.not_mem_nil

theorem witness_alignedInv : AlignedInv State.reset where
  vector := by decide
  pc := by intro c; unfold pcOf; rw [reset_cpu]; decide
  xepc := by intro c; rw [reset_cpu]; decide
  mtvec := by decide
  mepc := by decide

theorem witness_csrInv : CsrInv State.reset where
  mstatus := by decide
  pngrpsel := by decide
  pnlm := by decide
  pnxsel := by decide
  pncache := by decide
  pnx := by decide

theorem witness_modeInv : ModeInv { State.reset with halted := true } where
  numCpus := by decide
  cepu := by decide
  active := by decide
  pnceReq := by decide
  xstate := by decide
  linked := by decide
  halted := by decide
  handled := by decide

theorem witness_modeInv_reset : ModeInv State.reset where
  numCpus := by decide
  cepu := by decide
  active := by decide
  pnceReq := by decide
  xstate := by decide
  linked := by decide
  halted := by decide
  handled := by decide

theorem witness_counterInv : CounterInv State.reset := by unfold CounterInv; decide

theorem witness_O1 : Config.Wf Config.default ∧ Instr.wf (.jal 31 0x1FFFFE) = true :=
  ⟨witness_configuration, by decide⟩

theorem witness_O2 : decode Config.default 0xFFDFF06F = .ok (.jal 0 0x1FFFFC) := by decide

theorem witness_O4 :
    opcodeOf 0x0000007F ∉ [0x03, 0x0B, 0x0F, 0x13, 0x17, 0x23, 0x33, 0x37, 0x63, 0x67, 0x6F, 0x73] ∧
    (0xFFFFFFFE : Word).extractLsb' 0 2 ≠ 3 ∧ opcodeOf 0x00004073 ≠ 0x0B ∧ opcodeOf 0x0000400B = 0x0B := by decide

/-- The reset state with a word at the reset vector. -/
def withWord (w : Nat) : State := State.reset.withFetchWord 32 w

/-- Thirty-four bytes of memory, and a device of fourteen bytes above them. -/
def smallMemory : State :=
  State.resetWith { Config.default with memBytes := 34, uncached := [⟨34, 14⟩] }

/-- A word whose first byte is 0x37 is a LUI, whatever its other bytes. -/
theorem decodes_lui (cfg : Config) (x y z : Byte) : ∃ i, decodeBytes cfg [0x37, x, y, z] = .ok (i, []) := by
  have h : opcodeOf (wordOfBytes 0x37 x y z) = 0x37 := by
    have e : opcodeOf (wordOfBytes 0x37 x y z) = (0x37 : Byte).extractLsb' 0 7 := by
      unfold opcodeOf wordOfBytes
      exact BitVec.extractLsb'_append_eq_of_add_le (by decide)
    rw [e]; decide
  exact ⟨.lui (rdOf (wordOfBytes 0x37 x y z)) (immU (wordOfBytes 0x37 x y z)), by
    simp only [decodeBytes, decode, h]; rfl⟩

/-- A CPU that cannot execute, a prefetched word, and a word in memory. -/
theorem witness_O5 :
    (let t := beginTurn { State.reset with halted := true }; runnable t t.cur = false) ∧
    (let s := { withWord 0xFFF30293 with agenda := [⟨[.prefetch 0 0], 0, false, []⟩] }; let t := beginTurn s
     runnable t t.cur = true ∧ copuTrapDue (responds s) t = false ∧
     prefetched (curPc t) (t.cpu t.cur).ifu = some 0xFFF30293 ∧ decode t.cfg 0xFFF30293 = .ok (.addi 5 6 0xFFF)) ∧
    (let t := beginTurn (withWord 0xFFF30293); let a := curPc t
     runnable t t.cur = true ∧ copuTrapDue (responds (withWord 0xFFF30293)) t = false ∧
     prefetched a (t.cpu t.cur).ifu = none ∧ accessKind t.cfg a 4 = .memory ∧
     decodeBytes t.cfg
       ((List.range 4).map (fun n =>
         memuRead (instrCached t (a + BitVec.ofNat 32 n).toNat) (a + BitVec.ofNat 32 n).toNat t))
         = .ok (.addi 5 6 0xFFF, [])) := by decide

/-- A word of which the device gives the upper half, and the first address where there is nothing. -/
theorem witness_O5_outside :
    (let s := setPc 0 32 { smallMemory with main := [(32, 0x37)] }; let t := beginTurn s; let a := curPc t
     runnable t t.cur = true ∧ copuTrapDue (responds s) t = false ∧ prefetched a (t.cpu t.cur).ifu = none ∧
     accessKind t.cfg a 4 = .device ∧
     ∃ i, decodeBytes t.cfg
       ((List.range 4).map (fun n =>
         memuRead (instrCached t (a + BitVec.ofNat 32 n).toNat) (a + BitVec.ofNat 32 n).toNat t)) = .ok (i, [])) ∧
    (let s := setPc 0 48 smallMemory; let t := beginTurn s
     runnable t t.cur = true ∧ copuTrapDue (responds s) t = false ∧ prefetched (curPc t) (t.cpu t.cur).ifu = none ∧
     accessKind t.cfg (curPc t) 4 = .absent) :=
  ⟨⟨by decide, by decide, by decide, by decide, decodes_lui _ 0 (Free.device 0 34) (Free.device 0 35)⟩, by decide⟩

/-- An illegal word on the CePU, on CoPU 1 and in a linked group, and a reserved word. -/
theorem witness_O6 :
    (let t := beginTurn (withWord 0x10500073)
     runnable t t.cur = true ∧ copuTrapDue (responds (withWord 0x10500073)) t = false ∧
     fetchWord t = .ok 0x10500073 ∧ decode t.cfg 0x10500073 = .error .illegal ∧ grouped t = false ∧ t.cur = 0) ∧
    (let s := { withWord 0x10500073 with active := 3, pnceReq := 3, agenda := [⟨[], 1, false, []⟩] }; let t := beginTurn s
     runnable t t.cur = true ∧ copuTrapDue (responds s) t = false ∧ fetchWord t = .ok 0x10500073 ∧
     grouped t = false ∧ t.cur = 1) ∧
    (let s := { withWord 0x10500073 with active := 3, pnceReq := 3, pnlm := 2, agenda := [plainTurn] }; let t := beginTurn s
     runnable t t.cur = true ∧ copuTrapDue (responds s) t = false ∧ fetchWord t = .ok 0x10500073 ∧ grouped t = true) ∧
    (let t := beginTurn (withWord 0x0000400B)
     runnable t t.cur = true ∧ copuTrapDue (responds (withWord 0x0000400B)) t = false ∧
     fetchWord t = .ok 0x0000400B ∧ decode t.cfg 0x0000400B = .error .reservedCustom0) :=
  ⟨⟨by decide, by decide, rfl, by decide, by decide, by decide⟩,
    ⟨by decide, by decide, rfl, by decide, by decide⟩, ⟨by decide, by decide, rfl, by decide⟩,
    ⟨by decide, by decide, rfl, by decide⟩⟩

/-- CoPU 2 is in exception state, and the CePU's turn is next. -/
def faulted : State := { State.reset with active := 5, pnceReq := 5, xstate := 4, agenda := [⟨[], 0, true, []⟩] }

theorem witness_O7 : let t := beginTurn faulted
    t.cfg.excGate = .inTrap ∧ t.cur = 0 ∧ t.halted = false ∧ t.inTrap = false ∧ t.xstate &&& copuMask t ≠ 0 ∧
    responds faulted = true := by decide

theorem witness_O8 : faulted.cfg.excGate = .inTrap ∧ faulted.cur = 0 ∧ grouped faulted = false ∧
    faulted.halted = false ∧ faulted.xstate &&& copuMask faulted ≠ 0 ∧ (∃ t, exec .mret faulted = .next t) ∧
    execs .mret faulted (fun t => (beginTurn t).cur == 0) = true :=
  ⟨by decide, by decide, by decide, by decide, by decide, exists_of_isNext (by decide), by decide⟩

/-- A target of 0xFFFFFFFC by JAL, and a sum of 1 by JALR, whose bit 0 is dropped. -/
theorem witness_O15 : let s := start 0 [(6, 0xFFFFFFFF)]
    (curPc s + (0x1FFFFC : BitVec 21).signExtend 32).getLsbD 1 = false ∧
    (reg s.cur 6 s + (2 : BitVec 12).signExtend 32).getLsbD 1 = false := by decide

/-- A taken BEQ to the farthest aligned target, and one not taken with a misaligned offset. -/
theorem witness_O16 : let s := start 0x2000 [(6, 1)]
    (decide (reg s.cur 6 s = reg s.cur 6 s) = true ∧ (curPc s + (0x1000 : BitVec 13).signExtend 32).getLsbD 1 = false) ∧
    (decide (reg s.cur 6 s = reg s.cur 7 s) = false ∧ (curPc s + (2 : BitVec 13).signExtend 32).getLsbD 1 = true) := by
  decide

theorem witness_O17 : let s := start 0 [(6, 0xFFFFFFFF)]
    grouped s = false ∧ (curPc s + (0x1FFFFE : BitVec 21).signExtend 32).getLsbD 1 = true ∧
    ((reg s.cur 6 s + (0 : BitVec 12).signExtend 32) &&& ~~~1).getLsbD 1 = true ∧
    (curPc s + (0x1FFE : BitVec 13).signExtend 32).getLsbD 1 = true ∧
    reg s.cur 6 s = reg s.cur 6 s ∧ reg s.cur 6 s ≠ reg s.cur 7 s ∧ (reg s.cur 6 s).toInt < (reg s.cur 7 s).toInt ∧
    (reg s.cur 6 s).toInt ≤ (reg s.cur 7 s).toInt ∧ (reg s.cur 7 s).toNat < (reg s.cur 6 s).toNat ∧
    (reg s.cur 7 s).toNat ≤ (reg s.cur 6 s).toNat := by decide

/-- A linked CoPU with the CePU, whose registers are 0. -/
def linkedPair : State := { State.reset with active := 3, pnceReq := 3, pnlm := 2 }

/-- The topmost byte, halfword and word of memory, on both lanes of a linked group; a byte that a store buffer holds,
one that the cache holds, and one in main memory. -/
theorem witness_O18 : (AccessesOk 1 0 0xFFF linkedPair ∧ AccessesOk 2 0 0xFFE linkedPair ∧
      AccessesOk 4 0 0xFFC linkedPair ∧ (1 : CpuId) ∈ lanes linkedPair) ∧
    addrKind stored.cfg 0x1000 = .memory ∧ forward (stored.cpu 0).sbuf 0x1000 = some 0xFF ∧
    (forward (cached.cpu 0).sbuf 0x1010 = none ∧ hasBit cached.pncache cached.cfg.denBit = true ∧
      cached.cfg.uncached.any (·.contains 0x1010) = false ∧
      (Cache.find cached.cache (0x1010 / cached.cfg.lineBytes)).isSome = true) ∧
    hasBit State.reset.pncache State.reset.cfg.denBit = false := by
  unfold AccessesOk; decide

/-- The topmost word, on both lanes of a linked group, and a word of which the device has the upper half. -/
theorem witness_O19 : AccessesPresent 1 0 0xFFF linkedPair ∧ AccessesPresent 2 0 0xFFE linkedPair ∧
    AccessesPresent 4 0 0xFFC linkedPair ∧ AccessesPresent 4 0 32 smallMemory ∧
    deviceAt smallMemory.cfg 33 = false ∧ deviceAt smallMemory.cfg 34 = true ∧
    InAccess 4 (effAddr 0 0 0xFFC linkedPair) 0xFFFFFFFF ∧ ¬InAccess 4 (effAddr 0 0 0xFFC linkedPair) 0xFFFFFFFB := by
  unfold AccessesPresent InAccess; decide

theorem witness_O20 : let s := start 0 [(6, 0xFFFFFFFF)]
    grouped s = false ∧ (reg s.cur 6 s + (0 : BitVec 12).signExtend 32).toNat % 2 ≠ 0 ∧
    (reg s.cur 6 s + (0xFFF : BitVec 12).signExtend 32).toNat % 4 ≠ 0 := by decide

/-- The CePU and CoPU 1 linked, with little memory. -/
def linkedSmall : State := { smallMemory with active := 3, pnceReq := 3, pnlm := 2 }

/-- Two lanes that load from one device address get one value (R116). -/
theorem test_linked_device_load :
    ∃ t, exec (.lw 5 0 36) linkedSmall = .next t ∧ reg 0 5 t = reg 1 5 t ∧ t.deviceReads = 1 := ⟨_, rfl, rfl, rfl⟩

/-- A word that memory and the device share, the device's last word, and the word and the byte after it; a linked group
in the device. -/
theorem witness_O21 : AccessesPresent 4 0 32 smallMemory ∧ AccessesPresent 4 0 44 smallMemory ∧
    AccessesPresent 2 0 46 smallMemory ∧ AccessesPresent 1 0 47 smallMemory ∧ grouped smallMemory = false ∧
    (let ea := reg smallMemory.cur 0 smallMemory + (48 : BitVec 12).signExtend 32
     ea.toNat % 4 = 0 ∧ ∃ k, k < 1 ∧ addrKind smallMemory.cfg (ea + BitVec.ofNat 32 k).toNat = .absent) ∧
    (AccessesPresent 4 0 36 linkedSmall ∧ (1 : CpuId) ∈ lanes linkedSmall ∧ deviceAt linkedSmall.cfg 36 = true) := by
  unfold AccessesPresent
  exact ⟨by decide, by decide, by decide, by decide, by decide, by decide, by decide⟩

theorem witness_O22 : (0xFFFFFFFC : Word).toNat % 4 = 0 ∧
    (∀ k, k < 4 → deviceAt State.reset.cfg ((0xFFFFFFFC : Word).toNat + k) = false) := by decide

/-- Two stores of one CPU, of which the older leaves; another CPU holds nothing for its byte. -/
theorem witness_O23 : MemoryInv State.reset ∧
    (let s := memWrite 0 0x1000 1 0xEE (memWrite 0 0x1000 1 0xFF (start 0 []))
     (s.cpu 0).sbuf = [[(0x1000, 0xEE)]] ++ [[(0x1000, 0xFF)]] ∧ (1 : CpuId) ≠ 0 ∧
     deviceAt s.cfg 0x1000 = false ∧ Store.find [(0x1000, 0xFF)] 0x1000 = some 0xFF ∧ forward (s.cpu 1).sbuf 0x1000 = none) :=
  ⟨witness_memoryInv, by decide⟩

/-- After the FENCE no buffer holds the byte, and data accesses are cached. -/
theorem witness_O25 : MemoryInv State.reset ∧ grouped State.reset = false ∧
    (∃ t, exec (.fence 0 0 0 0 0) State.reset = .next t) ∧
    execs (.fence 0 0 0 0 0) { stored with pncache := 1 }
      (fun t => decide (forward (t.cpu 1).sbuf 0x1000 = none) && dataCached t 0x1000) = true :=
  ⟨witness_memoryInv, by decide, exists_of_isNext (by decide), by decide⟩

theorem witness_O27 : State.reset.cur = 0 ∧ linkedPair.cur = 0 ∧ grouped linkedPair = true := by decide

/-- A read in a linked group, and a read of pnce while a CoPU is in exception state. -/
theorem witness_O28 : (Config.Wf linkedPair.cfg ∧ linkedPair.cur = 0 ∧ grouped linkedPair = true ∧
      ((0xF14, 0) : CsrNum × Word) ∈ csrValues linkedPair ∧ Instr.csrrs 5 0xF14 0 ∈ csrReads 5 0xF14) ∧
    (Config.Wf faulted.cfg ∧ faulted.cur = 0 ∧ faulted.xstate ≠ 0 ∧
      Instr.csrrci 5 faulted.cfg.csrNums.ce 0 ∈ csrReads 5 faulted.cfg.csrNums.ce) :=
  ⟨⟨witness_configuration, by decide, by decide, by simp [csrValues, linkedPair, State.reset, State.resetWith], by decide⟩,
    witness_configuration, by decide, by decide, by decide⟩

theorem witness_O30 : Config.Wf State.reset.cfg ∧ State.reset.cur = 0 ∧ grouped State.reset = false ∧
    State.reset.cfg.csrNums.memsize ∈ readOnlyCsrs State.reset.cfg ∧
    Instr.csrrci 5 State.reset.cfg.csrNums.memsize 31 ∈ csrWrites 5 State.reset.cfg.csrNums.memsize 31 :=
  ⟨witness_configuration, by decide, by decide, by decide, by decide⟩

/-- A read, and a write with x0 as operand by the CePU alone, in a linked group and by a CoPU. -/
theorem witness_O31 : Instr.csrrci 5 0xF11 0 ∈ csrReads 5 0xF11 ∧ Instr.csrrw 5 0xF11 0 ∈ csrWrites 5 0xF11 0 ∧
    (State.reset.cur = 0 ∧ grouped State.reset = false) ∧ (linkedPair.cur = 0 ∧ grouped linkedPair = true) ∧
    { State.reset with cur := 1 }.cur ≠ 0 := by decide

theorem witness_O32 : State.reset.cur = 0 ∧ grouped State.reset = false ∧ Instr.csrrsi 0 0xF12 0 ∈ csrReads 0 0xF12 ∧
    Instr.csrrsi 0 0xF12 1 ∈ csrWrites 0 0xF12 1 := by decide

theorem witness_O33 : State.reset.cur = 0 ∧ grouped State.reset = false ∧ 0x323 ∈ fixedZeroCsrs ∧ 0x33F ∈ fixedZeroCsrs ∧
    Instr.csrrw 5 0x33F 31 ∈ csrInstrs 5 0x33F 31 := by decide

theorem witness_O34 : State.reset.cur = 0 ∧ csrOf State.reset.cfg 0xB01 = none ∧
    csrOf State.reset.cfg 0xC00 = none ∧ Instr.csrrw 5 0xB01 6 ∈ csrInstrs 5 0xB01 6 := by decide

/-- mcycle by a form that reads and by one that does not, and a set of bits of the last counter that exists. -/
theorem witness_O35 : let s := start 0 [(6, 9)]
    s.cur = 0 ∧
    ((0 : Fin 32) ≠ 1 ∧ counterExists s.cfg 0 = true ∧
      Instr.csrrci 5 0xB00 3 ∈ csrWrites 5 (BitVec.ofNat 12 (0xB00 + (0 : Fin 32).val)) 3 ∧
      (Instr.csrrci 5 0xB00 3, (4 : Word)) ∈ csrWriteForms 5 0xB00 3 7 s ∧
      Instr.csrrwi 0 0xB80 31 ∈ csrWrites 0 (BitVec.ofNat 12 (0xB80 + (0 : Fin 32).val)) 31 ∧
      (Instr.csrrwi 0 0xB80 31, (31 : Word)) ∈ csrWriteForms 0 0xB80 31 0 s) ∧
    ((7 : Fin 32) ≠ 1 ∧ counterExists s.cfg 7 = true ∧
      Instr.csrrs 5 0xB07 6 ∈ csrWrites 5 (BitVec.ofNat 12 (0xB00 + (7 : Fin 32).val)) 6 ∧
      (Instr.csrrs 5 0xB07 6, (9 : Word)) ∈ csrWriteForms 5 0xB07 6 ((counter 7 s).extractLsb' 0 32) s) := by decide

/-- The last counter that exists, the last of the block, and mcycle, whether it exists or not. -/
theorem witness_O36 : State.reset.cur = 0 ∧
    (7 : Fin 32) ≠ 0 ∧ (7 : Fin 32) ≠ 1 ∧ (31 : Fin 32) ≠ 0 ∧ (31 : Fin 32) ≠ 1 ∧
    Instr.csrrs 5 0xB07 0 ∈ csrReads 5 (BitVec.ofNat 12 (0xB00 + (7 : Fin 32).val)) ∧
    Instr.csrrs 5 0xB9F 0 ∈ csrReads 5 (BitVec.ofNat 12 (0xB80 + (31 : Fin 32).val)) ∧
    Instr.csrrsi 5 0xB80 0 ∈ csrReads 5 (BitVec.ofNat 12 (0xB80 + (0 : Fin 32).val)) ∧
    counterExists State.reset.cfg 0 = true ∧ counterExists { Config.default with perfEnable := false } 0 = false := by
  decide

/-- CoPU 2 in exception state is enabled again, whatever is read; and CoPU 1 is enabled by a set of its bit. -/
theorem witness_O37 :
    (let s := faulted; let n := s.cfg.csrNums.ce
     Config.Wf s.cfg ∧ s.cur = 0 ∧ Instr.csrrwi 0 n 5 ∈ csrWrites 0 n 5 ∧
     (∀ old, (Instr.csrrwi 0 n 5, (5 : Word)) ∈ csrWriteForms 0 n 5 old s) ∧
     (5 : Word).getLsbD 0 = true ∧ s.xstate &&& copuMask s &&& ~~~5 = 0 ∧
     ∀ c : CpuId, c ≠ 0 → c.val < s.cfg.numCpus → s.cfg.cap c = .linked → hasBit 5 c = true →
       hasBit s.pnlm c = true ∧ hasBit s.pnlmIllegal c = false) ∧
    (let s := State.reset; let n := s.cfg.csrNums.ce
     s.pnceReq = s.active ∧ AgreeBut s.xstate 1 s.active ∧ Instr.csrrsi 5 n 2 ∈ csrWrites 5 n 2 ∧
     (Instr.csrrsi 5 n 2, (3 : Word)) ∈ csrWriteForms 5 n 2 1 s ∧ (3 : Word).getLsbD 0 = true ∧
     s.xstate &&& copuMask s &&& ~~~3 = 0 ∧
     ∀ c : CpuId, c ≠ 0 → c.val < s.cfg.numCpus → s.cfg.cap c = .linked → hasBit 3 c = true →
       hasBit s.pnlm c = true ∧ hasBit s.pnlmIllegal c = false) :=
  ⟨⟨witness_configuration, by decide, by decide, fun _ => .tail _ (.head _), by decide, by decide, by decide⟩,
    by unfold AgreeBut; decide⟩

/-- The bits of CoPUs 1 and 3 are set, of which 3 has capability 1 and 2 has not; then the bit of CoPU 3 is cleared. -/
theorem witness_O38 :
    (let s := start 0 [(6, 0xFFFFFFFA)]
     Config.Wf s.cfg ∧ s.cur = 0 ∧
     (Instr.csrrw 5 s.cfg.csrNums.lm 6, (0xFFFFFFFA : Word)) ∈ csrWriteForms 5 s.cfg.csrNums.lm 6 s.pnlm s ∧
     (0xFFFFFFFA ^^^ s.pnlm) &&& copuMask s &&& (s.pnceReq ||| s.active) = 0 ∧
     (3 : CpuId) ≠ 0 ∧ (3 : CpuId).val < s.cfg.numCpus ∧ hasBit 0xFFFFFFFA 3 = true ∧
     (2 : CpuId).val < s.cfg.numCpus ∧ s.cfg.cap 2 ≠ .linked) ∧
    (let s := { State.reset with pnlm := 8 }
     (Instr.csrrci 5 s.cfg.csrNums.lm 8, (0 : Word)) ∈ csrWriteForms 5 s.cfg.csrNums.lm 8 s.pnlm s ∧
     (0 ^^^ s.pnlm) &&& copuMask s &&& (s.pnceReq ||| s.active) = 0 ∧
     s.cfg.cap 3 = .linked ∧ hasBit 0 3 = false ∧ hasBit (s.pnceReq ||| s.active) 3 = false) :=
  ⟨⟨witness_configuration, by decide⟩, by decide⟩

/-- A set of the highest bit in pnxsel, a clear of DEN in pncache, and a read of what CoPU 3 recorded. -/
theorem witness_O39 :
    (let s := start 0 [(6, 0x80000000)]
     Config.Wf s.cfg ∧ s.cur = 0 ∧
     (Instr.csrrs 5 s.cfg.csrNums.xsel 6, (0x80000000 : Word)) ∈ csrWriteForms 5 s.cfg.csrNums.xsel 6 s.pnxsel s) ∧
    (let s := { State.reset with pncache := 3 }
     (Instr.csrrci 5 s.cfg.csrNums.cache 1, (2 : Word)) ∈ csrWriteForms 5 s.cfg.csrNums.cache 1 s.pncache s) ∧
    (let s := { State.reset with pnxsel := 8 }
     (3 : CpuId) ≠ 0 ∧ (3 : CpuId).val < s.cfg.numCpus ∧ s.pnxsel = cpuBit 3 ∧
     Instr.csrrs 5 s.cfg.csrNums.cause 0 ∈ csrReads 5 s.cfg.csrNums.cause) :=
  ⟨⟨witness_configuration, by decide, by decide⟩, by decide, by decide⟩

/-- The clauses on a CoPU, and the clauses on the CePU, which leads a linked group. -/
theorem witness_O40 : (let s := { State.reset with cur := 3 }
      s.cur ≠ 0 ∧ Instr.csrrs 5 0xF14 0 ∈ csrInstrs 5 0xF14 0 ∧ Instr.csrrw 5 0xF11 6 ∈ csrInstrs 5 0xF11 6) ∧
    linkedPair.cur = 0 ∧ grouped linkedPair = true ∧ Instr.csrrsi 5 0xF14 0 ∈ csrReads 5 0xF14 := by decide

/-- A non-zero group; a set of bits while a transition is pending; bit 0 clear; a faulted CoPU written 0; CoPU 3 enabled
with its pnlm bit clear, and with its pnlm bit illegal; and pnlm's bit of an active CoPU set. -/
theorem witness_O41 : Config.Wf State.reset.cfg ∧ State.reset.cur = 0 ∧
    (let n := State.reset.cfg.csrNums.grpsel
     (Instr.csrrsi 5 n 31, (31 : Word)) ∈ csrWriteForms 5 n 31 State.reset.pngrpsel State.reset) ∧
    (let s := { State.reset with pnceReq := 5 }; let n := s.cfg.csrNums.ce
     Instr.csrrsi 5 n 4 ∈ csrWrites 5 n 4 ∧ s.pnceReq ≠ s.active) ∧
    (let s := { faulted with pnlm := 8, pnlmIllegal := 8 }; let n := s.cfg.csrNums.ce
     (∀ old, (Instr.csrrwi 0 n 4, (4 : Word)) ∈ csrWriteForms 0 n 4 old s) ∧ (4 : Word).getLsbD 0 = false ∧
     (∀ old, (Instr.csrrwi 0 n 9, (9 : Word)) ∈ csrWriteForms 0 n 9 old s) ∧ (9 : Word).getLsbD 0 = true ∧
     s.xstate &&& copuMask s &&& ~~~9 ≠ 0 ∧
     (∀ old, (Instr.csrrwi 0 n 13, (13 : Word)) ∈ csrWriteForms 0 n 13 old s) ∧ (13 : Word).getLsbD 0 = true ∧
     s.xstate &&& copuMask s &&& ~~~13 = 0 ∧
     ((3 : CpuId) ≠ 0 ∧ (3 : CpuId).val < s.cfg.numCpus ∧ s.cfg.cap 3 = .linked ∧ hasBit 13 3 = true ∧
      hasBit s.pnlmIllegal 3 = true)) ∧
    hasBit faulted.pnlm 3 = false ∧
    (let s := { State.reset with active := 3 }; let n := s.cfg.csrNums.lm
     (Instr.csrrsi 5 n 2, (2 : Word)) ∈ csrWriteForms 5 n 2 s.pnlm s ∧
     (2 ^^^ s.pnlm) &&& copuMask s &&& (s.pnceReq ||| s.active) ≠ 0) :=
  ⟨witness_configuration, by decide, by decide, by decide,
    ⟨fun _ => .tail _ (.head _), by decide, fun _ => .tail _ (.head _), by decide, by decide,
      fun _ => .tail _ (.head _), by decide, by decide, by decide⟩, by decide, by decide⟩

/-- The executing CPU leads no linked group: the CePU, for whose MRET a CoPU waits, and a CoPU. -/
theorem witness_O42_O43 : (let s := { State.reset with active := 3, handled := 2 }
      grouped s = false ∧ s.cur = 0 ∧ hasBit s.handled 1 = true) ∧
    grouped { linkedPair with cur := 1 } = false := by decide

/-- A group of two of which lane 1 alone is misaligned, whose CePU has 2 and 0xFFFFFFFF in x7 and x8. -/
theorem witness_O44 : let s := setReg 0 8 0xFFFFFFFF (setReg 0 7 2 (setReg 1 6 1 linkedPair))
    grouped s = true ∧ Config.Wf s.cfg ∧ (curPc s + (2 : BitVec 21).signExtend 32).getLsbD 1 = true ∧
    (reg 0 7 s + (0 : BitVec 12).signExtend 32).getLsbD 1 = true ∧
    (curPc s + (0x1FFE : BitVec 13).signExtend 32).getLsbD 1 = true ∧
    reg 0 7 s ≠ reg 0 8 s ∧ (reg 0 8 s).toInt < (reg 0 7 s).toInt ∧ (reg 0 7 s).toNat < (reg 0 8 s).toNat ∧
    ((∃ c ∈ lanes s, (effAddr c 6 0 s).toNat % 2 ≠ 0) ∧
      ∀ c ∈ lanes s, (effAddr c 6 0 s).toNat % 2 = 0 → accessKind s.cfg (effAddr c 6 0 s) 2 ≠ .absent) ∧
    ((∃ c ∈ lanes s, (effAddr c 6 0 s).toNat % 4 ≠ 0) ∧
      ∀ c ∈ lanes s, (effAddr c 6 0 s).toNat % 4 = 0 → accessKind s.cfg (effAddr c 6 0 s) 4 ≠ .absent) ∧
    s.cfg.csrNums.x ∈ readOnlyCsrs s.cfg ∧
    Instr.csrrs 5 s.cfg.csrNums.x 6 ∈ csrWrites 5 s.cfg.csrNums.x 6 ∧ { s with cur := 1 }.cur ≠ 0 :=
  ⟨by decide, witness_configuration, by decide, by decide, by decide, by decide, by decide, by decide, by decide,
    by decide, by decide, by decide, by decide⟩

theorem witness_O45 : State.reset.cur = 0 := by decide

theorem witness_O46 : { linkedPair with cur := 1 }.cur ≠ 0 := by decide

theorem cached_memoryInv : MemoryInv cached where
  main := by decide
  order := by decide
  whole := by decide
  sbuf := by unfold Store.wf; decide

/-- The line of 0x1010, dirty, its first and its last byte, and the byte after it; the same line clean; an address
whose line is absent; an address of a device; and a byte of the line for another bus master. -/
theorem witness_O47 :
    (let s := setReg 0 6 0x1010 cached; let ea := reg s.cur 6 s + (0 : BitVec 12).signExtend 32
     let line := ea.toNat / s.cfg.lineBytes
     grouped s = false ∧ addrKind s.cfg ea.toNat ≠ .absent ∧
     (∃ l, Cache.find (drainAll s.cur s).cache line = some l ∧ l.dirty = true) ∧
     (0x1010 / s.cfg.lineBytes = line ∧ 0x101F / s.cfg.lineBytes = line ∧ ¬0x1020 / s.cfg.lineBytes = line) ∧
     deviceAt s.cfg 0x101F = false) ∧
    (∃ l, Cache.find (writeBackLine 0x101 cached).cache 0x101 = some l ∧ l.dirty = false) ∧
    Cache.find cached.cache 0x102 = none ∧ addrKind smallMemory.cfg 47 = .device ∧ MemoryInv cached ∧
    ((0x1011 : Word).toNat / cached.cfg.lineBytes = 0x101 ∧ addrKind cached.cfg (0x1011 : Word).toNat = .memory ∧
      forward (cached.cpu cached.cur).sbuf (0x1011 : Word).toNat = none ∧
      foreignAt 0x1011 (applyEvent cached (.busWrite 0x1011 9)) = true) :=
  ⟨⟨by decide, by decide, ⟨_, rfl, rfl⟩, by decide, by decide⟩, ⟨_, rfl, rfl⟩, by decide, by decide, cached_memoryInv,
    by decide⟩

/-- The clauses in their order: during a trap, activation unlinked and linked, and deactivation. -/
theorem witness_O49 : (1 : CpuId) ≠ 0 ∧ (1 : CpuId).val < State.reset.cfg.numCpus ∧
    { State.reset with inTrap := true, pnceReq := 3 }.inTrap = true ∧
    (let s := { State.reset with pnceReq := 3 }
     s.inTrap = false ∧ hasBit s.pnceReq 1 = true ∧ hasBit s.active 1 = false ∧ hasBit s.pnlm 1 = false) ∧
    (let s := { State.reset with pnceReq := 3, pnlm := 2 }
     s.inTrap = false ∧ hasBit s.pnceReq 1 = true ∧ hasBit s.active 1 = false ∧ hasBit s.pnlm 1 = true) ∧
    (let s := { State.reset with active := 3 }
     s.inTrap = false ∧ hasBit s.pnceReq 1 = false ∧ hasBit s.active 1 = true) := by decide

/-- A linked CoPU is suspended while the CePU runs an ADDI in its handler. -/
theorem witness_O50 : let s := { withWord 0xFFF30293 with inTrap := true, active := 3, pnceReq := 3, pnlm := 2 }
    s.inTrap = true ∧ (∃ t, step s = .next t ∧ t.halted = false) ∧ (1 : CpuId) ≠ 0 ∧ hasBit s.handled 1 = false :=
  ⟨by decide, ⟨_, rfl, rfl⟩, by decide, by decide⟩

theorem witness_O51 : (∃ t, exec (.addi 5 6 1) linkedPair = .next t) ∧ (2 : CpuId) ∉ lanes linkedPair :=
  ⟨exists_of_isNext (by decide), by decide⟩

theorem witness_O52 : let s := { State.reset with cur := 1, active := 3 }
    s.cur ≠ 0 ∧ ∃ t, exec .ecall s = .next t := ⟨by decide, exists_of_isNext (by decide)⟩

theorem witness_O53 : ModeInv { State.reset with halted := true } ∧ { State.reset with halted := true }.halted = true :=
  ⟨witness_modeInv, rfl⟩

theorem witness_O54 : AlignedInv State.reset ∧ ∃ t, step State.reset = .next t :=
  ⟨witness_alignedInv, exists_of_isNext (by decide)⟩

theorem witness_O55 : CsrInv State.reset ∧ ∃ t, step State.reset = .next t :=
  ⟨witness_csrInv, exists_of_isNext (by decide)⟩

theorem witness_O56 : ModeInv State.reset ∧ ∃ t, step State.reset = .next t :=
  ⟨witness_modeInv_reset, exists_of_isNext (by decide)⟩

theorem witness_O57 : MemoryInv State.reset ∧ ∃ t, step State.reset = .next t :=
  ⟨witness_memoryInv, exists_of_isNext (by decide)⟩

theorem witness_O58 : CounterInv State.reset ∧ ∃ t, step State.reset = .next t :=
  ⟨witness_counterInv, exists_of_isNext (by decide)⟩

theorem witness_O60 : Config.Wf Config.default := witness_configuration

end Sys2Proof.Tests
end

section
/-! SUPPORT. What every event changes, that every step keeps the configuration and the counters within their widths
(R8, R51), and that the state after reset meets the invariants (R90, R390). -/

namespace Sys2Proof.Machine

/-! ### What the events change -/

theorem onlyData_drainStore (c : CpuId) (k : Nat) (s : State) : OnlyData s (drainStore c k s) := by
  unfold drainStore
  dsimp only
  split
  · next st _ =>
    split
    · exact (onlyMemu_commitStore st s).onlyData.setCpu c _
    · exact .refl s
  · exact .refl s

theorem onlyData_combineStores (c : CpuId) (k j : Nat) (s : State) : OnlyData s (combineStores c k j s) := by
  unfold combineStores
  dsimp only
  split
  · split
    · exact (OnlyData.refl s).setCpu c _
    · exact .refl s
  · exact .refl s

theorem onlyMemu_allocateLine (n : Nat) (s : State) : OnlyMemu s (allocateLine n s) := by
  unfold allocateLine
  split
  · exact onlyMemu_loadLine n s
  · exact .refl s

theorem onlyMemu_evictLine (n : Nat) (s : State) : OnlyMemu s (evictLine n s) := by
  unfold evictLine
  split
  · split
    · exact (onlyMemu_writeBackLine n s).trans (onlyMemu_dropLine n _)
    · exact onlyMemu_dropLine n s
  · exact .refl s

theorem onlyData_forgetFetch (c : CpuId) (a : Word) (s : State) : OnlyData s (forgetFetch c a s) :=
  (OnlyData.refl s).setCpu c _

theorem onlyData_dropFetch (c : CpuId) (a : Word) (s : State) : OnlyData s (dropFetch c a s) := by
  unfold dropFetch
  split
  · exact onlyData_forgetFetch c a s
  · exact .refl s

theorem onlyData_prefetchWord (c : CpuId) (a : Word) (s : State) : OnlyData s (prefetchWord c a s) := by
  unfold prefetchWord
  split
  · exact (onlyData_forgetFetch c a s).setCpu c _
  · exact .refl s

theorem onlyMemu_busWrite (a : Word) (b : Byte) (s : State) : OnlyMemu s (busWrite a b s) := by
  unfold busWrite
  split
  · exact onlyMemu_writeBeside a.toNat b s
  · exact .refl s

/-- Every event changes CPUs, main memory and the cache only, but for the completion of a transition (R327). -/
theorem applyEvent_cases (s : State) (e : Event) :
    OnlyData s (applyEvent s e) ∨ ∃ c, applyEvent s e = settleCopu c s := by
  cases e with
  | drain c k => exact .inl (onlyData_drainStore c k s)
  | combine c k j => exact .inl (onlyData_combineStores c k j s)
  | allocate n => exact .inl (onlyMemu_allocateLine n s).onlyData
  | evict n => exact .inl (onlyMemu_evictLine n s).onlyData
  | prefetch c a => exact .inl (onlyData_prefetchWord c a s)
  | forget c a => exact .inl (onlyData_dropFetch c a s)
  | settle c => exact .inr ⟨c, rfl⟩
  | busWrite a b => exact .inl (onlyMemu_busWrite a b s).onlyData

/-- All a transition of CoPU c can come to. -/
theorem settleCopu_cases (c : CpuId) (s : State) :
    settleCopu c s = s ∨ settleCopu c s = activateCopu c s ∨ settleCopu c s = deactivateCopu c s := by
  unfold settleCopu
  split
  · split
    · exact .inr (.inl rfl)
    · exact .inr (.inr rfl)
  · exact .inl rfl

/-! ### The configuration and the counters' widths -/

/-- The configuration stays, and so do the counters within their widths. -/
def KeepsWidths (s t : State) : Prop := t.cfg = s.cfg ∧ (CounterInv s → CounterInv t)

theorem KeepsWidths.trans {s t u : State} (h : KeepsWidths s t) (h' : KeepsWidths t u) : KeepsWidths s u :=
  ⟨h'.1.trans h.1, h'.2 ∘ h.2⟩

/-- Every counter is as before or a value taken modulo its width. -/
theorem KeepsWidths.of_counter {s t : State} (hc : t.cfg = s.cfg)
    (h : ∀ n, counter n t = counter n s ∨ ∃ x, counter n t = BitVec.ofNat 64 (x % 2 ^ counterWidth s.cfg n)) :
    KeepsWidths s t := by
  refine ⟨hc, fun hs n => ?_⟩
  rw [hc]
  rcases h n with hn | ⟨x, hn⟩
  · rw [hn]; exact hs n
  · rw [hn, BitVec.toNat_ofNat]
    exact (Nat.mod_le _ _).trans_lt (Nat.mod_lt _ (Nat.two_pow_pos _))

theorem KeepsWidths.of_same {s t : State} (hc : t.cfg = s.cfg) (hk : t.counters = s.counters) : KeepsWidths s t :=
  .of_counter hc fun n => .inl (counter_congr hc hk n)

theorem OnlyData.keepsWidths {s t : State} (h : OnlyData s t) : KeepsWidths s t := by
  obtain ⟨hcfg, -, hcounters, -⟩ := h.fields
  exact .of_same hcfg hcounters

theorem keepsWidths_setCounter (n : Fin 32) (v : BitVec 64) (s : State) : KeepsWidths s (setCounter n v s) := by
  refine .of_counter (setCounter_cfg n v s) fun m => ?_
  rw [counter_setCounter]
  split
  · next h => obtain ⟨rfl, -⟩ := h; exact .inr ⟨v.toNat, rfl⟩
  · exact .inl rfl

theorem keepsWidths_retire (k : EventClass) (skip : Option (Fin 32)) (s : State) : KeepsWidths s (retire k skip s) := by
  refine .of_counter (retire_cfg k skip s) fun m => ?_
  rw [counter_retire]
  split
  · exact .inr ⟨_, rfl⟩
  · exact .inl rfl

theorem keepsWidths_countTrapped (k : EventClass) (s : State) : KeepsWidths s (countTrapped k s) := by
  unfold countTrapped
  split
  · split
    · exact KeepsWidths.trans (.of_same rfl rfl) (keepsWidths_setCounter _ _ { s with drawn := s.drawn + 1 })
    · exact .of_same rfl rfl
  · exact .of_same rfl rfl

/-- mcycle holds any 64-bit value (R50). -/
theorem keepsWidths_cycle (y : BitVec 64) (k : Nat) (s : State) :
    KeepsWidths s { s with counters := s.counters.set 0 y, drawn := k } := by
  refine .of_counter rfl fun n => ?_
  by_cases hn : n = 0
  · subst hn
    refine .inr ⟨(counter 0 { s with counters := s.counters.set 0 y, drawn := k }).toNat, ?_⟩
    rw [show counterWidth s.cfg 0 = 64 from rfl, Nat.mod_eq_of_lt (BitVec.isLt _), BitVec.ofNat_toNat,
      BitVec.setWidth_eq]
  · have h0 : (0 : Nat) ≠ n.val := fun e => hn (Fin.ext e.symm)
    exact .inl (by simp only [counter, Vector.getElem_set_ne _ _ h0])

theorem keepsWidths_applyEvent (s : State) (e : Event) : KeepsWidths s (applyEvent s e) := by
  rcases applyEvent_cases s e with h | ⟨c, h⟩
  · exact h.keepsWidths
  · rw [h]
    rcases settleCopu_cases c s with h | h | h <;> rw [h] <;> exact .of_same rfl rfl

/-- A CSR write reaches the counters only through setCounter, which truncates (R51, R55). -/
theorem keepsWidths_csrWrite {r : CsrReg} {x : Word} {s t : State} (h : csrWrite r x s = .done t) : KeepsWidths s t := by
  cases r
  case counterLo n => cases h; exact keepsWidths_setCounter n _ s
  case counterHi n => cases h; exact keepsWidths_setCounter n _ s
  case pngrpsel =>
    simp only [csrWrite] at h
    split at h <;> cases h
    exact .of_same rfl rfl
  case pnce =>
    simp only [csrWrite, writePnce] at h
    split_ifs at h
    cases h
    exact .of_same rfl rfl
  case pnlm =>
    simp only [csrWrite, writePnlm] at h
    split_ifs at h <;> cases h <;> exact .of_same rfl rfl
  all_goals cases h; exact .of_same rfl rfl

theorem keepsWidths_lane {c : CpuId} {s t : State} (h : LaneStep c s t) : KeepsWidths s t := by
  have drained := onlyData_drainAll c s
  cases h with
  | nothing => exact .of_same rfl rfl
  | writes rd v k d => exact .of_same (by simp) (by simp)
  | stores a n v => exact .of_same rfl rfl
  | fences _ _ h =>
    obtain ⟨u, hu, hdata, -⟩ := fenceLane_done c s
    rw [hu] at h
    cases h
    exact hdata.keepsWidths
  | drops n => exact (drained.trans (onlyMemu_dropLine n _).onlyData).keepsWidths
  | writesBack n => exact (drained.trans (onlyMemu_writeBackLine n _).onlyData).keepsWidths
  | flushes n => exact (drained.trans (onlyMemu_flushLine n _).onlyData).keepsWidths
  | accesses _ a src _ _ h =>
    obtain ⟨y, k, rd, v, hdone⟩ := cepuCsrLane_done h
    have hread := (keepsWidths_cycle y k s).trans
      (.of_same (setReg_cfg 0 rd v _) (setReg_counters 0 rd v _))
    rcases hdone with rfl | ⟨r, x, -, hwrite⟩
    · exact hread
    · exact hread.trans (keepsWidths_csrWrite hwrite)

theorem keepsWidths_trapReturn (s : State) : KeepsWidths s (trapReturn s) := by
  rw [trapReturn_eq]
  exact .of_same rfl rfl

/-- Settles O58: KeepsWidths is kept by every operation a step is made of. -/
theorem stepKeepsCountersAndConfig : Obligations.StepKeepsCountersAndConfig := by
  intro s t h
  refine step_keeps (P := KeepsWidths s) ?event ?model ?read ?lane ?finish ?trap ?copu ?trapReturn ?halt ?haltCopu h
    (.of_same rfl rfl)
  case event => exact fun u e hu => hu.trans (keepsWidths_applyEvent u e)
  case model => exact fun u _ _ _ hu => hu.trans (.of_same rfl rfl)
  case read => exact fun u _ hu => hu.trans (.of_same rfl rfl)
  case lane => exact fun _ u v _ hu hl => hu.trans (keepsWidths_lane hl)
  case finish =>
    exact fun _ u _ _ k skip next _ _ hu _ =>
      hu.trans (KeepsWidths.trans (.of_same rfl rfl) (keepsWidths_retire k skip (setPc u.cur next u)))
  case trap => exact fun e v u k hu => hu.trans ((keepsWidths_countTrapped k u).trans (.of_same rfl rfl))
  case copu => exact fun e u _ _ hu => hu.trans (.of_same rfl rfl)
  case trapReturn =>
    exact fun u hu => hu.trans ((keepsWidths_trapReturn u).trans (keepsWidths_retire .system none _))
  case halt => exact fun u _ hu => hu.trans ((keepsWidths_retire .uncounted none u).trans (.of_same rfl rfl))
  case haltCopu => exact fun u _ hu => hu.trans (.of_same rfl rfl)

/-! ### The state after reset -/

section
variable (cfg : Config)

@[simp] theorem resetWith_cpu (c : CpuId) : (State.resetWith cfg).cpu c = Cpu.reset cfg.resetVector := by
  unfold State.cpu State.resetWith
  exact Vector.getElem_replicate c.isLt

@[simp] theorem counter_resetWith (n : Fin 32) : counter n (State.resetWith cfg) = 0 := by
  unfold counter State.resetWith
  simp

theorem counterInv_resetWith : CounterInv (State.resetWith cfg) := by
  intro n
  rw [counter_resetWith]
  exact Nat.two_pow_pos _

theorem memoryInv_resetWith : MemoryInv (State.resetWith cfg) := by
  obtain ⟨hmain, horder, hwhole⟩ := memuForm_reset cfg
  refine ⟨hmain, horder, hwhole, fun c st hst => ?_⟩
  rw [resetWith_cpu] at hst
  exact absurd hst List.not_mem_nil

theorem csrInv_resetWith : CsrInv (State.resetWith cfg) where
  mstatus := BitVec.zero_and
  pngrpsel := rfl
  pnlm := BitVec.zero_and
  pnxsel := BitVec.zero_and
  pncache := BitVec.zero_and
  pnx := BitVec.zero_and

end

/-- The lower two bits of a word in both spellings of the model. -/
theorem and_three_of_extract {a : Word} (h : a.extractLsb' 0 2 = 0) : a &&& 3 = 0 := by
  have bit : ∀ k, k < 2 → a.getLsbD k = false := fun k hk => by
    simpa [BitVec.getLsbD_extractLsb', hk] using congrArg (fun x : BitVec 2 => x.getLsbD k) h
  exact aligned_of_even (bit 0 (by decide)) (bit 1 (by decide))

theorem alignedInv_resetWith {cfg : Config} (h : Config.Wf cfg) : AlignedInv (State.resetWith cfg) where
  vector := and_three_of_extract h.resetAligned
  pc c := by rw [pcOf, resetWith_cpu]; exact and_three_of_extract h.resetAligned
  xepc c := by rw [resetWith_cpu]; exact BitVec.zero_and
  mtvec := BitVec.zero_and
  mepc := BitVec.zero_and

/-- The CePU's bit alone names no CPU that does not exist. -/
theorem one_and_not_cpuMask {s : State} (h : 1 ≤ s.cfg.numCpus) : 1#32 &&& ~~~cpuMask s = 0 := by
  rw [eq_zero_iff_hasBit]
  intro c
  rw [hasBit_and, hasBit_not, hasBit_one, hasBit_cpuMask]
  by_cases hc : c = 0
  · subst hc
    simpa using Nat.lt_of_succ_le h
  · simp [hc]

theorem modeInv_resetWith {cfg : Config} (h : Config.Wf cfg) : ModeInv (State.resetWith cfg) where
  numCpus := h.cpus
  cepu :=
    have bit0 : (1#32).getLsbD 0 = true := by decide
    ⟨bit0, bit0⟩
  active := one_and_not_cpuMask h.cpus.1
  pnceReq := one_and_not_cpuMask h.cpus.1
  xstate := BitVec.zero_and
  linked := by
    intro c hc _ _ hbit
    have : hasBit 1#32 c = true := hbit.elim id id
    simp [hc] at this
  halted := by intro hh; cases hh
  handled := ⟨BitVec.zero_and, BitVec.zero_and⟩

/-- The reset configuration is an admitted one (log 1); proved here too, so that no proof leans on a test's witness. -/
theorem default_wf : Config.Wf Config.default where
  cpus := ⟨by decide, by decide⟩
  cepu := rfl
  copus := by decide
  resetAligned := rfl
  line := ⟨by decide, by decide⟩
  memFits := by decide
  perfCounters := ⟨by decide, by decide⟩
  perfBits := ⟨by decide, by decide⟩
  cacheWays := .inl rfl
  cacheBits := by decide
  funct3 := by decide
  csrDistinct := by decide
  csrOutside := by simp [Config.default, PnCsrNums.toList, tableCsr]

/-- Settles O60, one invariant at a time; only alignment and the modes need that the configuration is admitted. -/
theorem resetMeetsInvariants : Obligations.ResetMeetsInvariants :=
  ⟨default_wf, rfl, fun cfg h =>
    ⟨alignedInv_resetWith h, csrInv_resetWith cfg, modeInv_resetWith h, memoryInv_resetWith cfg,
      counterInv_resetWith cfg⟩⟩

end Sys2Proof.Machine
end

section
/-! SUPPORT. What control state is, and that every step keeps program counters aligned, the fixed bits of the CSRs and the
legal modes (R26, R35, R43, R45, R61 to R65, R80, R301, R328). -/

namespace Sys2Proof.Machine

/-! ### Control state -/

/-- Only general registers, buffers, memory, counters and the model's own fields differ: no program counter, no CSR but
the counters, no mode and no exception record. -/
structure SameControl (s t : State) : Prop where
  rest : t = { s with
    cpus := t.cpus, counters := t.counters, main := t.main, cache := t.cache, cur := t.cur, laneOrder := t.laneOrder,
    agenda := t.agenda, drawn := t.drawn, deviceReads := t.deviceReads }
  cpu : ∀ c, t.cpu c = { s.cpu c with regs := (t.cpu c).regs, sbuf := (t.cpu c).sbuf, ifu := (t.cpu c).ifu }

theorem SameControl.trans {s t u : State} (h : SameControl s t) (h' : SameControl t u) : SameControl s u where
  rest := by
    have e := h'.rest
    rw [h.rest] at e
    exact e
  cpu c := by rw [h'.cpu c, h.cpu c]

theorem SameControl.pcOf {s t : State} (h : SameControl s t) (c : CpuId) : pcOf c t = pcOf c s := by
  unfold Machine.pcOf; rw [h.cpu c]

theorem SameControl.xepc {s t : State} (h : SameControl s t) (c : CpuId) : (t.cpu c).xepc = (s.cpu c).xepc := by
  rw [h.cpu c]

/-- A state that differs in the model's own fields and the counters alone. -/
theorem SameControl.of_cpus {s t : State} (h : t = { s with
    counters := t.counters, cur := t.cur, laneOrder := t.laneOrder, agenda := t.agenda, drawn := t.drawn,
    deviceReads := t.deviceReads }) : SameControl s t where
  rest := by rw [h]
  cpu c := by rw [h]; rfl

theorem SameControl.refl (s : State) : SameControl s s := .of_cpus rfl

theorem OnlyMemu.sameControl {s t : State} (h : OnlyMemu s t) : SameControl s t where
  rest := by unfold OnlyMemu at h; rw [h]
  cpu c := by rw [h.cpu c]

/-- A change of one CPU's registers and buffers. -/
theorem SameControl.setCpu {s t : State} (h : SameControl s t) (c : CpuId) (r : Vector Word 32) (b : List Store)
    (f : List (Word × Word)) : SameControl s (t.setCpu c { t.cpu c with regs := r, sbuf := b, ifu := f }) where
  rest := by rw [State.setCpu, h.rest]
  cpu d := by
    rw [setCpu_cpu]
    split
    · next hd => rw [hd, h.cpu c]
    · exact h.cpu d

theorem sameControl_setReg (c : CpuId) (r : Reg) (v : Word) (s : State) : SameControl s (setReg c r v s) := by
  rw [setReg_eq_setCpu, setReg_cpu]
  exact (SameControl.refl s).setCpu c _ (s.cpu c).sbuf (s.cpu c).ifu

theorem sameControl_retire (k : EventClass) (skip : Option (Fin 32)) (s : State) : SameControl s (retire k skip s) :=
  .of_cpus (by rw [retire_eq])

theorem sameControl_countTrapped (k : EventClass) (s : State) : SameControl s (countTrapped k s) :=
  .of_cpus (by rw [countTrapped_eq])

theorem sameControl_drainAll (c : CpuId) (s : State) : SameControl s (drainAll c s) :=
  (onlyMemu_commitAll (s.cpu c).sbuf s).sameControl.setCpu c _ [] _

theorem sameControl_forgetFetch (c : CpuId) (a : Word) (s : State) : SameControl s (forgetFetch c a s) :=
  (SameControl.refl s).setCpu c _ _ _

/-- Every event leaves control state alone, but for the completion of a transition. -/
theorem sameControl_applyEvent (s : State) (e : Event) :
    SameControl s (applyEvent s e) ∨ ∃ c, applyEvent s e = settleCopu c s := by
  cases e with
  | drain c k =>
    left
    show SameControl s (drainStore c k s)
    unfold drainStore
    dsimp only
    split
    · next st _ =>
      split
      · exact (onlyMemu_commitStore st s).sameControl.setCpu c _ _ _
      · exact .refl s
    · exact .refl s
  | combine c k j =>
    left
    show SameControl s (combineStores c k j s)
    unfold combineStores
    dsimp only
    split
    · split
      · exact (SameControl.refl s).setCpu c _ _ _
      · exact .refl s
    · exact .refl s
  | allocate n => exact .inl (onlyMemu_allocateLine n s).sameControl
  | evict n => exact .inl (onlyMemu_evictLine n s).sameControl
  | prefetch c a =>
    left
    show SameControl s (prefetchWord c a s)
    unfold prefetchWord
    split
    · exact (sameControl_forgetFetch c a s).setCpu c _ _ _
    · exact .refl s
  | forget c a =>
    left
    show SameControl s (dropFetch c a s)
    unfold dropFetch
    split
    · exact sameControl_forgetFetch c a s
    · exact .refl s
  | settle c => exact .inr ⟨c, rfl⟩
  | busWrite a b => exact .inl (onlyMemu_busWrite a b s).sameControl

/-- A lane leaves control state alone, but for a write of a CSR by the CePU after a read that does. -/
theorem sameControl_lane {c : CpuId} {s t : State} (h : LaneStep c s t) :
    SameControl s t ∨ ∃ r x u, SameControl s u ∧ csrWrite r x u = .done t := by
  have drained := sameControl_drainAll c s
  cases h with
  | nothing => exact .inl (.refl s)
  | writes rd v k d =>
    exact .inl (SameControl.trans (t := { s with drawn := k, deviceReads := d }) (.of_cpus rfl)
      (sameControl_setReg c rd v _))
  | stores a n v => exact .inl ((SameControl.refl s).setCpu c _ _ _)
  | fences _ _ h =>
    cases h
    exact .inl (drained.setCpu c _ _ [])
  | drops n => exact .inl (drained.trans (onlyMemu_dropLine n _).sameControl)
  | writesBack n => exact .inl (drained.trans (onlyMemu_writeBackLine n _).sameControl)
  | flushes n => exact .inl (drained.trans (onlyMemu_flushLine n _).sameControl)
  | accesses _ a src _ _ h =>
    obtain ⟨y, k, rd, v, hdone⟩ := cepuCsrLane_done h
    have hread : SameControl s (setReg 0 rd v { s with counters := s.counters.set 0 y, drawn := k }) :=
      SameControl.trans (t := { s with counters := s.counters.set 0 y, drawn := k }) (.of_cpus rfl)
        (sameControl_setReg 0 rd v _)
    rcases hdone with rfl | ⟨r, x, -, hwrite⟩
    · exact .inl hread
    · exact .inr ⟨r, x, _, hread, hwrite⟩

/-- An invariant of control state is kept by every step if transitions, CSR writes, the pc's advance, traps, CoPU
exceptions, the return and HALT keep it. -/
theorem step_keeps_control {P : State → Prop} (hsame : ∀ s t, SameControl s t → P s → P t)
    (hsettle : ∀ c s, P s → P (settleCopu c s))
    (hcsr : ∀ r x s t, s.halted = false → P s → csrWrite r x s = .done t → P t)
    (hpc : ∀ s u i w next, decode s.cfg w = .ok i → P s → P u → (curPc s &&& 3 = 0 → i.wf = true → next &&& 3 = 0) →
      P (setPc u.cur next u))
    (htrap : ∀ e v s, P s → P (trapEntry e v s))
    (hcopu : ∀ e s, runnable s s.cur = true → s.cur ≠ 0 → P s → P (copuException s.cur e s))
    (hret : ∀ s, P s → P (trapReturn s))
    (hhalt : ∀ s, s.cur = 0 → P s → P (haltMachine s))
    (hhaltCopu : ∀ s, s.cur ≠ 0 → P s → P (haltCopu s.cur s))
    {s t : State} (h : step s = .next t) (hs : P s) : P t := by
  refine step_keeps (P := P) ?event ?model ?read ?lane ?finish ?trap hcopu ?trapReturn hhalt hhaltCopu h hs
  case event =>
    intro s e hs
    rcases sameControl_applyEvent s e with h | ⟨c, h⟩
    · exact hsame _ _ h hs
    · rw [h]; exact hsettle c s hs
  case model => exact fun s _ _ _ => hsame s _ (.of_cpus rfl)
  case read => exact fun s _ => hsame s _ (.of_cpus rfl)
  case lane =>
    intro c s t hrun hs hl
    rcases sameControl_lane hl with h | ⟨r, x, u, h, hw⟩
    · exact hsame _ _ h hs
    · exact hcsr r x u t (by rw [h.rest]; exact hrun) (hsame _ _ h hs) hw
  case finish =>
    exact fun s u i w k skip next hd hs hu hn => hsame _ _ (sameControl_retire k skip _) (hpc s u i w next hd hs hu hn)
  case trap => exact fun e v s k hs => htrap e v _ (hsame _ _ (sameControl_countTrapped k s) hs)
  case trapReturn => exact fun s hs => hsame _ _ (sameControl_retire .system none _) (hret s hs)

end Sys2Proof.Machine

namespace Sys2Proof

/-! ### Decoded offsets -/

/-- What is decoded, if anything, is a well-formed instruction. -/
def DecodesWf (r : Except DecodeError Instr) : Prop := ∀ i, r = .ok i → i.wf = true

@[simp] theorem decodesWf_ok (i : Instr) : DecodesWf (.ok i) ↔ i.wf = true := by simp [DecodesWf]

@[simp] theorem decodesWf_error (e : DecodeError) : DecodesWf (.error e) := by simp [DecodesWf]

theorem DecodesWf.ite {p : Prop} [Decidable p] {a b : Except DecodeError Instr} (ha : DecodesWf a) (hb : DecodesWf b) :
    DecodesWf (if p then a else b) := by
  split
  · exact ha
  · exact hb

/-- Bit 0 of a concatenation is that of its lowest part. -/
theorem getLsbD_zero_append_zero {n : Nat} (x : BitVec n) : (x ++ 0#1).getLsbD 0 = false := by
  rw [BitVec.getLsbD_append]; rfl

theorem decodesWf_opImm (w : Word) : DecodesWf (decodeOpImm w) := by
  unfold decodeOpImm
  repeat' apply DecodesWf.ite
  all_goals simp [Instr.wf]

theorem decodesWf_op (w : Word) : DecodesWf (decodeOp w) := by
  unfold decodeOp
  repeat' apply DecodesWf.ite
  all_goals simp [Instr.wf]

/-- The B-immediate is even (R143). -/
theorem decodesWf_branch (w : Word) : DecodesWf (decodeBranch w) := by
  have even : (immB w).getLsbD 0 = false := getLsbD_zero_append_zero _
  unfold decodeBranch
  repeat' apply DecodesWf.ite
  all_goals simp only [decodesWf_ok, decodesWf_error, Instr.wf, even, beq_self_eq_true]

theorem decodesWf_load (w : Word) : DecodesWf (decodeLoad w) := by
  unfold decodeLoad
  repeat' apply DecodesWf.ite
  all_goals simp [Instr.wf]

theorem decodesWf_store (w : Word) : DecodesWf (decodeStore w) := by
  unfold decodeStore
  repeat' apply DecodesWf.ite
  all_goals simp [Instr.wf]

theorem decodesWf_miscMem (w : Word) : DecodesWf (decodeMiscMem w) := by
  unfold decodeMiscMem
  repeat' apply DecodesWf.ite
  all_goals simp [Instr.wf]

theorem decodesWf_system (w : Word) : DecodesWf (decodeSystem w) := by
  unfold decodeSystem
  repeat' apply DecodesWf.ite
  all_goals simp [Instr.wf]

theorem decodesWf_custom0 (cfg : Config) (w : Word) : DecodesWf (decodeCustom0 cfg w) := by
  unfold decodeCustom0
  repeat' apply DecodesWf.ite
  all_goals simp [Instr.wf]

/-- A decoded instruction is well formed: of all fields only the offsets of control transfers could fail to be. -/
theorem decode_wf {cfg : Config} {w : Word} {i : Instr} (h : decode cfg w = .ok i) : i.wf = true := by
  have lui : DecodesWf (.ok (.lui (rdOf w) (immU w))) := (decodesWf_ok _).2 rfl
  have auipc : DecodesWf (.ok (.auipc (rdOf w) (immU w))) := (decodesWf_ok _).2 rfl
  have jal : DecodesWf (.ok (.jal (rdOf w) (immJ w))) := by
    rw [decodesWf_ok, Instr.wf, immJ, getLsbD_zero_append_zero]; rfl
  have jalr : DecodesWf (.ok (.jalr (rdOf w) (rs1Of w) (immI w))) := (decodesWf_ok _).2 rfl
  exact DecodesWf.ite (decodesWf_opImm w) (.ite (decodesWf_op w) (.ite lui (.ite auipc (.ite jal (.ite
    (.ite jalr (decodesWf_error _)) (.ite (decodesWf_branch w) (.ite (decodesWf_load w) (.ite (decodesWf_store w)
    (.ite (decodesWf_miscMem w) (.ite (decodesWf_system w) (.ite (decodesWf_custom0 cfg w)
    (decodesWf_error _)))))))))))) i h

end Sys2Proof

namespace Sys2Proof.Machine

/-! ### CSR writes, said once -/

/-- Everything a CSR write of the CePU can do to control state, with what its guards say. -/
inductive CsrWriteStep (s : State) : State → Prop where
  | counters (t : State) (h : SameControl s t) : CsrWriteStep s t
  | trapWords (a b d : Word) : CsrWriteStep s { s with mscratch := a, mcause := b, mtval := d }
  | mstatus (ie pie : Bool) : CsrWriteStep s { s with mstatus := mstatusWith ie pie }
  | mtvec (v : Word) : CsrWriteStep s { s with mtvec := align4 v }
  | mepc (v : Word) : CsrWriteStep s { s with mepc := align4 v }
  | grpsel : CsrWriteStep s { s with pngrpsel := 0 }
  | ce (v : Word) (h0 : v.getLsbD 0 = true)
    (hl : ∀ c, c ≠ 0 → hasBit (v &&& cpuMask s) c = true → s.cfg.cap c = .linked →
      hasBit s.pnlm c = true ∧ hasBit s.pnlmIllegal c = false) :
    CsrWriteStep s (markHandled (s.xstate &&& (v &&& cpuMask s)) { s with pnceReq := v &&& cpuMask s })
  | lm (new illegal : Word) (k : Nat) (hm : new &&& ~~~copuMask s = 0)
    (hb : ∀ c, hasBit (copuMask s) c = true → hasBit (s.pnceReq ||| s.active) c = true →
      hasBit new c = hasBit s.pnlm c ∧ hasBit illegal c = false) :
    CsrWriteStep s { s with pnlm := new, pnlmIllegal := illegal, drawn := k }
  | xsel (v : Word) : CsrWriteStep s { s with pnxsel := v &&& cpuMask s }
  | cache (v : Word) : CsrWriteStep s { s with pncache := v &&& (cpuBit s.cfg.ienBit ||| cpuBit s.cfg.denBit) }

/-- A pnce write enables no unlinked CoPU of capability 1, as its guard says bit by bit (R328, U2). -/
theorem linked_of_guard {s : State} {req : Word}
    (h : ¬(cpuIds.any (fun c => c != 0 && hasBit req c && s.cfg.cap c == .linked
      && (!hasBit s.pnlm c || hasBit s.pnlmIllegal c))) = true)
    (c : CpuId) (h0 : c ≠ 0) (hr : hasBit req c = true) (hc : s.cfg.cap c = .linked) :
    hasBit s.pnlm c = true ∧ hasBit s.pnlmIllegal c = false := by
  rw [Bool.not_eq_true, List.any_eq_false] at h
  simpa [h0, hr, hc] using h c (mem_cpuIds c)

/-- A pnlm write changes no bit of an enabled or active CoPU, as its guard says bit by bit (R329). -/
theorem kept_of_guard {new old mask busy : Word} (h : (new ^^^ old) &&& mask &&& busy = 0) {c : CpuId}
    (hm : hasBit mask c = true) (hb : hasBit busy c = true) : hasBit new c = hasBit old c := by
  simpa [hm, hb] using eq_zero_iff_hasBit.1 h c

theorem csrWriteStep_pnce {v : Word} {s t : State} (h : writePnce v s = .done t) : CsrWriteStep s t := by
  unfold writePnce at h
  dsimp only at h
  split_ifs at h with h0 hx hl
  cases h
  exact .ce v (by simpa using h0) (linked_of_guard hl)

theorem csrWriteStep_pnlm {v : Word} {s t : State} (h : writePnlm v s = .done t) : CsrWriteStep s t := by
  unfold writePnlm at h
  dsimp only at h
  split_ifs at h with hb ho
  · cases h
    refine .lm _ 0 s.drawn (by rw [BitVec.and_assoc, BitVec.and_not_self]; exact BitVec.and_zero) ?_
    exact fun c hm hbusy => ⟨kept_of_guard (not_not.1 hb) hm hbusy, hasBit_zero c⟩
  · cases h
    refine .lm _ _ (s.drawn + 1) (word_ext fun c => ?_) fun c hm hbusy => ?_
    · cases hm : hasBit (copuMask s) c <;> simp [hm]
    · have hk := kept_of_guard (not_not.1 hb) hm hbusy
      exact ⟨by rw [← hk]; simp [hbusy], by simp [hbusy]⟩

theorem csrWrite_cases {r : CsrReg} {x : Word} {s t : State} (h : csrWrite r x s = .done t) : CsrWriteStep s t := by
  have counters : ∀ n v, CsrWriteStep s (setCounter n v s) := fun n v => .counters _ (.of_cpus (by rw [setCounter_eq]))
  cases r
  case mstatus => cases h; exact .mstatus _ _
  case mtvec => cases h; exact .mtvec x
  case mscratch => cases h; exact .trapWords x s.mcause s.mtval
  case mepc => cases h; exact .mepc x
  case mcause => cases h; exact .trapWords s.mscratch x s.mtval
  case mtval => cases h; exact .trapWords s.mscratch s.mcause x
  case counterLo n => cases h; exact counters n _
  case counterHi n => cases h; exact counters n _
  case pngrpsel =>
    simp only [csrWrite] at h
    split_ifs at h with hx
    cases h; rw [hx]; exact .grpsel
  case pnce => exact csrWriteStep_pnce h
  case pnlm => exact csrWriteStep_pnlm h
  case pnxsel => cases h; exact .xsel x
  case pncache => cases h; exact .cache x
  all_goals cases h; exact .counters s (.refl s)

/-! ### Alignment -/

theorem align4_and_three (a : Word) : align4 a &&& 3 = 0 := by
  have h : (0xFFFFFFFC : Word) &&& 3 = 0 := by decide
  rw [align4, BitVec.and_assoc, h]
  exact BitVec.and_zero

theorem resumePc_and_three (cfg : Config) {a : Word} (h : a &&& 3 = 0) : resumePc cfg a &&& 3 = 0 := by
  unfold resumePc
  split
  · exact and_three_add_four h
  · exact h

/-- What the alignment of a CPU asks. -/
def Cpu.Aligned (x : Cpu) : Prop := x.pc &&& 3 = 0 ∧ x.xepc &&& 3 = 0

theorem AlignedInv.aligned {s : State} (h : AlignedInv s) (c : CpuId) : (s.cpu c).Aligned := ⟨h.pc c, h.xepc c⟩

/-- Alignment is kept when the vectors stay and every CPU is aligned. -/
theorem AlignedInv.of_cpus {s t : State} (h : AlignedInv s) (hc : t.cfg = s.cfg) (hv : t.mtvec = s.mtvec)
    (he : t.mepc &&& 3 = 0) (hcpu : ∀ c, (t.cpu c).Aligned) : AlignedInv t where
  vector := by rw [hc]; exact h.vector
  pc c := (hcpu c).1
  xepc c := (hcpu c).2
  mtvec := by rw [hv]; exact h.mtvec
  mepc := he

theorem AlignedInv.sameControl {s t : State} (hs : SameControl s t) (h : AlignedInv s) : AlignedInv t :=
  h.of_cpus (by rw [hs.rest]) (by rw [hs.rest]) (by rw [hs.rest]; exact h.mepc) fun c => by
    rw [hs.cpu c]; exact h.aligned c

theorem AlignedInv.setCpu {s : State} (h : AlignedInv s) (c : CpuId) {x : Cpu} (hx : x.Aligned) :
    AlignedInv (s.setCpu c x) := by
  refine h.of_cpus rfl rfl h.mepc fun d => ?_
  rw [setCpu_cpu]
  split
  · exact hx
  · exact h.aligned d

theorem AlignedInv.csrWriteStep {s t : State} (h : AlignedInv s) (hw : CsrWriteStep s t) : AlignedInv t := by
  cases hw with
  | counters _ hs => exact h.sameControl hs
  | mtvec v => exact { h with mtvec := align4_and_three v }
  | mepc v => exact { h with mepc := align4_and_three v }
  | _ => exact { h with }

theorem AlignedInv.settleCopu {s : State} (h : AlignedInv s) (c : CpuId) : AlignedInv (settleCopu c s) := by
  rcases settleCopu_cases c s with e | e | e <;> rw [e]
  · exact h
  · refine { h.setCpu c (x := { s.cpu c with
      regs := freeRegs s.drawn, pc := if hasBit s.pnlm c then (s.cpu c).pc else s.cfg.resetVector }) ⟨?_, h.xepc c⟩ with }
    dsimp only
    split
    · exact h.pc c
    · exact h.vector
  · exact { h.setCpu c (x := { s.cpu c with pc := s.cfg.resetVector, ifu := [] }) ⟨h.vector, h.xepc c⟩ with }

theorem AlignedInv.trapReturn {s : State} (h : AlignedInv s) : AlignedInv (trapReturn s) := by
  refine h.of_cpus (by rw [trapReturn_eq]) (by rw [trapReturn_eq]) (by rw [trapReturn_eq]; exact h.mepc) fun c => ?_
  rw [trapReturn_cpu_but_pc]
  refine ⟨?_, h.xepc c⟩
  unfold pcOf
  rw [trapReturn_cpu]
  split
  · exact align4_and_three _
  · rw [(resumeCopus_spec s).2]
    split
    · exact resumePc_and_three _ (h.xepc c)
    · exact h.pc c

theorem AlignedInv.haltMachine {s : State} (h : AlignedInv s) : AlignedInv (haltMachine s) := by
  have hr := h.sameControl (sameControl_retire .uncounted none s)
  refine hr.of_cpus rfl rfl hr.mepc fun c => ?_
  rw [show (Machine.haltMachine s).cpu c = _ from mapCpus_cpu (retire .uncounted none s) _ c]
  exact ⟨hr.vector, hr.xepc c⟩

/-- Settles O54: whatever becomes a program counter is a multiple of four where it is computed, and a program counter that
advances keeps the two bits clear, since decoded offsets are even and misaligned targets trap. -/
theorem stepKeepsAligned : Obligations.StepKeepsAligned := by
  intro s t hs h
  refine step_keeps_control (P := AlignedInv) (fun _ _ => .sameControl) ?settle ?csr ?pc ?trap ?copu ?ret ?halt ?haltCopu
    h hs
  case settle => exact fun c s hs => hs.settleCopu c
  case csr => exact fun _ _ _ _ _ hs hw => hs.csrWriteStep (csrWrite_cases hw)
  case pc => exact fun s u i w next hd hs hu hn => hu.setCpu u.cur ⟨hn (hs.pc _) (decode_wf hd), hu.xepc _⟩
  case trap =>
    exact fun e v s hs => { hs.setCpu 0 (x := { s.cpu 0 with pc := align4 s.mtvec })
      ⟨align4_and_three _, hs.xepc 0⟩ with mepc := align4_and_three _ }
  case copu =>
    exact fun e s _ _ hs => { hs.setCpu s.cur (x := { s.cpu s.cur with xcause := e.code, xepc := align4 (pcOf s.cur s) })
      ⟨hs.pc _, align4_and_three _⟩ with }
  case ret => exact fun s hs => hs.trapReturn
  case halt => exact fun s _ hs => hs.haltMachine
  case haltCopu =>
    exact fun s _ hs => { hs.setCpu s.cur (x := Cpu.enterModeZero s.cfg.resetVector (s.cpu s.cur))
      ⟨hs.vector, hs.xepc _⟩ with }

/-! ### The fixed bits of the CSRs -/

theorem mstatusWith_fixed (ie pie : Bool) : mstatusWith ie pie &&& ~~~0x88 = 0 := by
  revert ie pie; decide

/-- A word masked has no bit outside the mask. -/
theorem and_and_not (x m : Word) : x &&& m &&& ~~~m = 0 := by
  rw [BitVec.and_assoc, BitVec.and_not_self]
  exact BitVec.and_zero

theorem CsrInv.sameControl {s t : State} (hs : SameControl s t) (h : CsrInv s) : CsrInv t := by
  rw [hs.rest]
  exact { h with }

theorem CsrInv.csrWriteStep {s t : State} (h : CsrInv s) (hw : CsrWriteStep s t) : CsrInv t := by
  cases hw with
  | counters _ hs => exact h.sameControl hs
  | mstatus ie pie => exact { h with mstatus := mstatusWith_fixed ie pie }
  | grpsel => exact { h with pngrpsel := rfl }
  | lm new illegal k hm => exact { h with pnlm := hm }
  | xsel v => exact { h with pnxsel := and_and_not v _ }
  | cache v => exact { h with pncache := and_and_not v _ }
  | _ => exact { h with }

/-- Settles O55: every operation that writes one of the six registers masks what it writes. -/
theorem stepKeepsCsrBits : Obligations.StepKeepsCsrBits := by
  intro s t hs h
  refine step_keeps_control (P := CsrInv) (fun _ _ => .sameControl) ?settle ?csr ?pc ?trap ?copu ?ret ?halt ?haltCopu h hs
  case settle => exact fun c s hs => by rcases settleCopu_cases c s with e | e | e <;> rw [e] <;> exact { hs with }
  case csr => exact fun _ _ _ _ _ hs hw => hs.csrWriteStep (csrWrite_cases hw)
  case pc => exact fun s u i w next _ _ hu _ => { hu with }
  case trap => exact fun e v s hs => { hs with mstatus := mstatusWith_fixed _ _, pnx := and_and_not _ _ }
  case copu => exact fun e s _ _ hs => { hs with }
  case ret => exact fun s hs => by rw [trapReturn_eq]; exact { hs with mstatus := mstatusWith_fixed _ _ }
  case halt => exact fun s _ hs => { CsrInv.sameControl (sameControl_retire .uncounted none s) hs with }
  case haltCopu => exact fun s _ hs => { hs with }

/-! ### The execution modes -/

/-- Words have no bit outside a mask when each of their bits is one of the mask's. -/
theorem and_not_eq_zero_iff {x m : Word} : x &&& ~~~m = 0 ↔ ∀ c, hasBit x c = true → hasBit m c = true := by
  rw [eq_zero_iff_hasBit]
  refine forall_congr' fun c => ?_
  rw [hasBit_and, hasBit_not]
  cases hasBit x c <;> cases hasBit m c <;> simp

/-- Words have no bit in common when no CPU has its bit in both. -/
theorem and_eq_zero_iff {x y : Word} : x &&& y = 0 ↔ ∀ c, hasBit x c = true → hasBit y c = false := by
  rw [eq_zero_iff_hasBit]
  refine forall_congr' fun c => ?_
  rw [hasBit_and]
  cases hasBit x c <;> cases hasBit y c <;> simp

/-- The legal modes, CPU by CPU. -/
structure ModeBits (s : State) : Prop where
  numCpus : 1 ≤ s.cfg.numCpus ∧ s.cfg.numCpus ≤ 32
  cepu    : hasBit s.active 0 = true ∧ hasBit s.pnceReq 0 = true
  active  : ∀ c, hasBit s.active c = true → c.val < s.cfg.numCpus
  pnceReq : ∀ c, hasBit s.pnceReq c = true → c.val < s.cfg.numCpus
  xstate  : ∀ c, hasBit s.xstate c = true → c.val < s.cfg.numCpus ∧ c ≠ 0
  linked  : ∀ c, c ≠ 0 → s.cfg.cap c = .linked → (hasBit s.active c = true ∨ hasBit s.pnceReq c = true) →
    hasBit s.pnlm c = true ∧ hasBit s.pnlmIllegal c = false
  halted  : s.halted = true → ∀ c, c ≠ 0 → hasBit s.active c = false ∧ hasBit s.pnceReq c = false
  handled : ∀ c, hasBit s.handled c = true → c.val < s.cfg.numCpus ∧ c ≠ 0 ∧ hasBit s.xstate c = false

theorem modeInv_iff (s : State) : ModeInv s ↔ ModeBits s := by
  have mask : ∀ x : Word, x &&& ~~~cpuMask s = 0 ↔ ∀ c, hasBit x c = true → c.val < s.cfg.numCpus := fun x => by
    rw [and_not_eq_zero_iff]; simp
  have copus : ∀ x : Word, x &&& ~~~copuMask s = 0 ↔ ∀ c, hasBit x c = true → c.val < s.cfg.numCpus ∧ c ≠ 0 := fun x => by
    rw [and_not_eq_zero_iff]; simp
  constructor
  · rintro ⟨hn, hcepu, ha, hr, hx, hl, hh, hd⟩
    have ha := (mask _).1 ha
    have hr := (mask _).1 hr
    refine ⟨hn, hcepu, ha, hr, (copus _).1 hx, fun c h0 hc hb => hl c h0 (hb.elim (ha c) (hr c)) hc hb,
      fun ht c h0 => ?_, fun c hc => ?_⟩
    · have none : ∀ x : Word, (∀ c, hasBit x c = true → c.val < s.cfg.numCpus) → x &&& copuMask s = 0 →
          hasBit x c = false := fun x hx h => by
        rw [Bool.eq_false_iff]
        intro hc
        simpa [h0, hx c hc] using and_eq_zero_iff.1 h c hc
      exact ⟨none _ ha (hh ht).1, none _ hr (hh ht).2⟩
    · obtain ⟨hlt, h0⟩ := (copus _).1 hd.1 c hc
      exact ⟨hlt, h0, and_eq_zero_iff.1 hd.2 c hc⟩
  · rintro ⟨hn, hcepu, ha, hr, hx, hl, hh, hd⟩
    refine ⟨hn, hcepu, (mask _).2 ha, (mask _).2 hr, (copus _).2 hx, fun c h0 _ hc hb => hl c h0 hc hb, fun ht => ?_, ?_, ?_⟩
    · have none : ∀ x : Word, (∀ c, c ≠ 0 → hasBit x c = false) → x &&& copuMask s = 0 := fun x hx => by
        refine and_eq_zero_iff.2 fun c hc => ?_
        by_cases h0 : c = 0
        · simp [h0]
        · rw [hx c h0] at hc; cases hc
      exact ⟨none _ fun c h0 => (hh ht c h0).1, none _ fun c h0 => (hh ht c h0).2⟩
    · exact (copus _).2 fun c hc => ⟨(hd c hc).1, (hd c hc).2.1⟩
    · exact and_eq_zero_iff.2 fun c hc => (hd c hc).2.2

theorem ModeBits.sameControl {s t : State} (hs : SameControl s t) (h : ModeBits s) : ModeBits t := by
  rw [hs.rest]
  exact { h with }

/-- A request whose guards hold, with the exceptions it marks as handled (R62, R354). -/
theorem ModeBits.writePnce {s : State} (h : ModeBits s) (hrun : s.halted = false) {v : Word} (h0 : v.getLsbD 0 = true)
    (hl : ∀ c, c ≠ 0 → hasBit (v &&& cpuMask s) c = true → s.cfg.cap c = .linked →
      hasBit s.pnlm c = true ∧ hasBit s.pnlmIllegal c = false) :
    ModeBits (markHandled (s.xstate &&& (v &&& cpuMask s)) { s with pnceReq := v &&& cpuMask s }) where
  numCpus := h.numCpus
  cepu := ⟨h.cepu.1, by
    show hasBit (v &&& cpuMask s) 0 = true
    rw [hasBit_and, hasBit_cpuMask, ← getLsbD_zero_eq_hasBit, h0]
    simpa using Nat.lt_of_succ_le h.numCpus.1⟩
  active := h.active
  pnceReq c hc := by
    have hc : hasBit (v &&& cpuMask s) c = true := hc
    simp only [hasBit_and, hasBit_cpuMask, Bool.and_eq_true, decide_eq_true_eq] at hc
    exact hc.2
  xstate c hc := by
    have hc : hasBit (s.xstate &&& ~~~(s.xstate &&& (v &&& cpuMask s))) c = true := hc
    rw [hasBit_and, Bool.and_eq_true] at hc
    exact h.xstate c hc.1
  linked c hc hcap hb := hb.elim (fun ha => h.linked c hc hcap (.inl ha)) fun hr => hl c hc hr hcap
  halted hh := by rw [show s.halted = true from hh] at hrun; cases hrun
  handled c hc := by
    have hc : hasBit (s.handled ||| (s.xstate &&& (v &&& cpuMask s) &&& s.active)) c = true := hc
    show _ ∧ _ ∧ hasBit (s.xstate &&& ~~~(s.xstate &&& (v &&& cpuMask s))) c = false
    simp only [hasBit_or, hasBit_and, hasBit_not, Bool.or_eq_true, Bool.and_eq_true] at hc ⊢
    rcases hc with hc | ⟨⟨hx, hr⟩, -⟩
    · obtain ⟨hlt, hne, hx⟩ := h.handled c hc
      exact ⟨hlt, hne, by simp [hx]⟩
    · obtain ⟨hlt, hne⟩ := h.xstate c hx
      exact ⟨hlt, hne, by simp [hx, hr]⟩

theorem ModeBits.csrWriteStep {s t : State} (h : ModeBits s) (hrun : s.halted = false) (hw : CsrWriteStep s t) :
    ModeBits t := by
  cases hw with
  | counters _ hs => exact h.sameControl hs
  | ce v h0 hl => exact h.writePnce hrun h0 hl
  | lm new illegal k _ hb =>
    refine { h with linked := fun c h0 hcap hbusy => ?_ }
    have hlt : c.val < s.cfg.numCpus := hbusy.elim (h.active c) (h.pnceReq c)
    have hor : hasBit (s.pnceReq ||| s.active) c = true := by
      rw [hasBit_or, Bool.or_eq_true]; exact hbusy.symm
    obtain ⟨hnew, hill⟩ := hb c (by simp [hlt, h0]) hor
    exact ⟨hnew.trans (h.linked c h0 hcap hbusy).1, hill⟩
  | _ => exact { h with }

/-- Bits that are taken away leave legal modes, when the CePU's own stay. -/
theorem ModeBits.remove {s t : State} (h : ModeBits s) (hcfg : t.cfg = s.cfg) (hx : t.xstate = s.xstate)
    (hlm : t.pnlm = s.pnlm) (hill : t.pnlmIllegal = s.pnlmIllegal)
    (ha : ∀ c, hasBit t.active c = true → hasBit s.active c = true)
    (hr : ∀ c, hasBit t.pnceReq c = true → hasBit s.pnceReq c = true)
    (hd : ∀ c, hasBit t.handled c = true → hasBit s.handled c = true)
    (hcepu : hasBit t.active 0 = true ∧ hasBit t.pnceReq 0 = true)
    (hh : t.halted = true → ∀ c, c ≠ 0 → hasBit t.active c = false ∧ hasBit t.pnceReq c = false) : ModeBits t where
  numCpus := by rw [hcfg]; exact h.numCpus
  cepu := hcepu
  active c hc := by rw [hcfg]; exact h.active c (ha c hc)
  pnceReq c hc := by rw [hcfg]; exact h.pnceReq c (hr c hc)
  xstate c hc := by rw [hcfg]; exact h.xstate c (hx ▸ hc)
  linked c h0 hcap hb := by
    rw [hlm, hill]
    exact h.linked c h0 (hcfg ▸ hcap) (hb.imp (ha c) (hr c))
  halted := hh
  handled c hc := by rw [hcfg, hx]; exact h.handled c (hd c hc)

/-- Bit d of a word with another CPU's bit cleared. -/
theorem hasBit_clear (x : Word) (c d : CpuId) : hasBit (x &&& ~~~cpuBit c) d = (hasBit x d && decide (d ≠ c)) := by
  rw [hasBit_and, hasBit_not, hasBit_cpuBit, decide_not]

theorem hasBit_of_clear {x : Word} {c d : CpuId} (h : hasBit (x &&& ~~~cpuBit c) d = true) : hasBit x d = true := by
  rw [hasBit_clear, Bool.and_eq_true] at h
  exact h.1

theorem hasBit_clear_zero {x : Word} {c : CpuId} (h0 : c ≠ 0) (h : hasBit x 0 = true) :
    hasBit (x &&& ~~~cpuBit c) 0 = true := by
  rw [hasBit_clear, h]
  simpa using Ne.symm h0

theorem hasBit_clear_false {x : Word} {c d : CpuId} (h : hasBit x d = false) : hasBit (x &&& ~~~cpuBit c) d = false := by
  rw [hasBit_clear, h, Bool.false_and]

theorem ModeBits.settleCopu {s : State} (h : ModeBits s) (c : CpuId) : ModeBits (settleCopu c s) := by
  unfold Machine.settleCopu
  split
  · next hp =>
    simp only [pendingFor, Bool.and_eq_true, bne_iff_ne, ne_eq, decide_eq_true_eq] at hp
    obtain ⟨⟨⟨h0, hlt⟩, -⟩, hdiff⟩ := hp
    split
    · next hreq =>
      have set : ∀ d, hasBit (s.active ||| cpuBit c) d = true → hasBit s.active d = true ∨ d = c := fun d hd => by
        simpa using hd
      refine { h with cepu := ⟨?_, h.cepu.2⟩, active := fun d hd => ?_, linked := fun d hd hcap hb => ?_, halted := fun hh => ?_ }
      · show hasBit (s.active ||| cpuBit c) 0 = true
        rw [hasBit_or, h.cepu.1, Bool.true_or]
      · rcases set d hd with hd | rfl
        · exact h.active d hd
        · exact hlt
      · rcases hb with hb | hb
        · rcases set d hb with ha | rfl
          · exact h.linked d hd hcap (.inl ha)
          · exact h.linked d hd hcap (.inr hreq)
        · exact h.linked d hd hcap (.inr hb)
      · rw [(h.halted hh c h0).2] at hreq; cases hreq
    · exact h.remove rfl rfl rfl rfl (fun d => hasBit_of_clear) (fun _ hd => hd) (fun d => hasBit_of_clear)
        ⟨hasBit_clear_zero h0 h.cepu.1, h.cepu.2⟩
        fun hh d hd => ⟨hasBit_clear_false (h.halted hh d hd).1, (h.halted hh d hd).2⟩
  · exact h

theorem ModeBits.copuException {s : State} (h : ModeBits s) (e : Exn) (hr : runnable s s.cur = true) (h0 : s.cur ≠ 0) :
    ModeBits (copuException s.cur e s) := by
  simp only [runnable, h0, if_false, Bool.and_eq_true, beq_iff_eq, Bool.not_eq_true'] at hr
  obtain ⟨⟨⟨⟨hm, -⟩, hhandled⟩, -⟩, -⟩ := hr
  have hlt : s.cur.val < s.cfg.numCpus := by
    by_contra hge
    rw [modeOf, if_neg h0, if_pos (not_lt.1 hge)] at hm
    cases hm
  refine { h with xstate := fun c hc => ?_, handled := fun c hc => ?_ }
  · have hc : hasBit (s.xstate ||| cpuBit s.cur) c = true := hc
    rw [hasBit_or, hasBit_cpuBit, Bool.or_eq_true, decide_eq_true_eq] at hc
    rcases hc with hc | rfl
    · exact h.xstate c hc
    · exact ⟨hlt, h0⟩
  · have hc : hasBit s.handled c = true := hc
    obtain ⟨hl, hne, hx⟩ := h.handled c hc
    have hcur : c ≠ s.cur := fun e => by rw [e, hhandled] at hc; cases hc
    refine ⟨hl, hne, ?_⟩
    show hasBit (s.xstate ||| cpuBit s.cur) c = false
    simp [hx, hcur]

theorem ModeBits.haltMachine {s : State} (h : ModeBits s) : ModeBits (haltMachine s) := by
  have hr := h.sameControl (sameControl_retire .uncounted none s)
  have only : ∀ (x : Word) c, hasBit (x &&& 1) c = true → hasBit x c = true := fun x c hc => by
    rw [hasBit_and, Bool.and_eq_true] at hc; exact hc.1
  have one : ∀ c, hasBit (1 : Word) c = decide (c = 0) := hasBit_one
  refine hr.remove rfl rfl rfl rfl (only _) (only _) (fun _ hd => hd) ⟨?_, ?_⟩ fun _ c h0 => ⟨?_, ?_⟩
  · show hasBit ((retire .uncounted none s).active &&& 1) 0 = true
    rw [hasBit_and, hr.cepu.1, one]; rfl
  · show hasBit ((retire .uncounted none s).pnceReq &&& 1) 0 = true
    rw [hasBit_and, hr.cepu.2, one]; rfl
  · show hasBit ((retire .uncounted none s).active &&& 1) c = false
    rw [hasBit_and, one]; simp [h0]
  · show hasBit ((retire .uncounted none s).pnceReq &&& 1) c = false
    rw [hasBit_and, one]; simp [h0]

theorem ModeBits.haltCopu {s : State} (h : ModeBits s) (h0 : s.cur ≠ 0) : ModeBits (haltCopu s.cur s) :=
  h.remove rfl rfl rfl rfl (fun _ => hasBit_of_clear) (fun _ => hasBit_of_clear) (fun _ hd => hd)
    ⟨hasBit_clear_zero h0 h.cepu.1, hasBit_clear_zero h0 h.cepu.2⟩
    fun hh c hc => ⟨hasBit_clear_false (h.halted hh c hc).1, hasBit_clear_false (h.halted hh c hc).2⟩

/-- Settles O56: the guards of pnce and pnlm keep capability-1 CoPUs linked, a transition follows the request, and only a
CoPU that runs raises an exception. -/
theorem stepKeepsModes : Obligations.StepKeepsModes := by
  intro s t hs h
  rw [modeInv_iff] at hs ⊢
  refine step_keeps_control (P := ModeBits) (fun _ _ => .sameControl) ?settle ?csr ?pc ?trap ?copu ?ret ?halt ?haltCopu
    h hs
  case settle => exact fun c s hs => hs.settleCopu c
  case csr => exact fun _ _ _ _ hrun hs hw => hs.csrWriteStep hrun (csrWrite_cases hw)
  case pc => exact fun s u i w next _ _ hu _ => { hu with }
  case trap => exact fun e v s hs => { hs with }
  case copu => exact fun e s hr h0 hs => hs.copuException e hr h0
  case ret =>
    intro s hs
    rw [trapReturn_eq]
    exact { hs with handled := fun c hc => absurd (show hasBit 0#32 c = true from hc) (by simp) }
  case halt => exact fun s _ hs => hs.haltMachine
  case haltCopu => exact fun s h0 hs => hs.haltCopu h0

end Sys2Proof.Machine
end

section
/-! SUPPORT. The register file's x0 (R22), the state after reset (R90, R390), the bits of pnm2cp (R67), and which CPUs an
instruction can change (R20, R24, R79, R330, R352). -/

namespace Sys2Proof.Machine

/-- Settles O9. -/
theorem registerZero : Obligations.RegisterZero := fun c s => ⟨reg_zero c s, fun v => setReg_zero c v s⟩

/-- Settles O29: pnm2cp is a mask built from a predicate, read bit by bit. -/
theorem capabilityBits : Obligations.CapabilityBits := by
  intro cfg k
  by_cases hk : k < 32
  · rw [dif_pos hk]
    exact hasBit_maskOf _ ⟨k, hk⟩
  · rw [dif_neg hk]
    exact BitVec.getLsbD_of_ge _ _ (not_lt.1 hk)

/-- After reset every CoPU is in Mode 0. -/
theorem modeOf_resetWith (cfg : Config) {c : CpuId} (h : c ≠ 0) : modeOf (State.resetWith cfg) c = .halted := by
  have hbit : hasBit (State.resetWith cfg).active c = false := by
    show hasBit 1#32 c = false
    simp [h]
  rw [modeOf, if_neg h, hbit]
  exact ite_self _

/-- Settles O59: each field of the reset state as it is defined. -/
theorem resetState : Obligations.ResetState := by
  intro cfg
  refine ⟨fun c => ⟨reg_zero c _, ?_, ?_, ?_⟩, rfl, fun c hc => modeOf_resetWith cfg hc, rfl, rfl, rfl, rfl, rfl, rfl, rfl, rfl,
    rfl, rfl, counter_resetWith cfg, rfl⟩
  · rw [pcOf, resetWith_cpu]; rfl
  · rw [resetWith_cpu]; rfl
  · rw [resetWith_cpu]; rfl

/-! ### Which CPUs an instruction changes -/

/-- A lane changes no CPU but its own. -/
theorem laneStep_cpu {c : CpuId} {s t : State} (h : LaneStep c s t) {d : CpuId} (hd : d ≠ c) : t.cpu d = s.cpu d := by
  have drained : (drainAll c s).cpu d = s.cpu d := by rw [drainAll_cpu, if_neg hd]
  cases h with
  | nothing => rfl
  | writes rd v k e => exact setReg_cpu_of_ne rd v hd
  | stores a n v => exact setCpu_cpu_of_ne s _ hd
  | fences _ _ h =>
    obtain ⟨u, hu, -, -, -, hcpu⟩ := fenceLane_done c s
    rw [hu] at h
    cases h
    rw [hcpu, if_neg hd]
  | drops n => rw [(onlyMemu_dropLine n _).cpu]; exact drained
  | writesBack n => rw [(onlyMemu_writeBackLine n _).cpu]; exact drained
  | flushes n => rw [(onlyMemu_flushLine n _).cpu]; exact drained
  | accesses h0 a src _ _ h =>
    subst h0
    obtain ⟨y, k, rd, v, rfl | ⟨r, x, -, hwrite⟩⟩ := cepuCsrLane_done h
    · exact setReg_cpu_of_ne rd v hd
    · obtain ⟨-, hcpus, -⟩ := csrWrite_done hwrite
      unfold State.cpu
      rw [hcpus]
      exact setReg_cpu_of_ne rd v hd

/-- The data path changes no CPU that is not a lane. -/
theorem forLanes_cpu {f : CpuId → State → Effect} {l : List CpuId} {s u : State}
    (hf : ∀ c v w, f c v = .done w → LaneStep c v w) (h : forLanes f l s = .done u) {d : CpuId} (hd : d ∉ l) :
    u.cpu d = s.cpu d :=
  forLanes_done f (fun s t => t.cpu d = s.cpu d) (fun _ => rfl) (fun _ _ _ a b => b.trans a) l s u
    (fun c hc v w hw => laneStep_cpu (hf c v w hw) fun e => hd (e ▸ hc)) h

/-- A taken exception changes no general register. -/
theorem reg_takeException (k : EventClass) (e : Exn) (v : Word) (s : State) (c : CpuId) (r : Reg) :
    reg c r (takeException k e v s) = reg c r s := by
  unfold takeException
  split
  · exact (tookTrap_trapEntry k e v s).regs c r
  · exact (tookCopuException_copuException e s.cur s).regs c r

/-- HALT of the CePU changes no general register. -/
theorem reg_haltMachine (s : State) (c : CpuId) (r : Reg) : reg c r (haltMachine s) = reg c r s := by
  refine reg_congr ?_ r
  rw [show (haltMachine s).cpu c = _ from mapCpus_cpu (retire .uncounted none s) _ c, retire_cpu]
  rfl

/-- HALT of a CoPU changes no other CPU. -/
theorem haltCopu_cpu (c d : CpuId) (s : State) :
    (haltCopu c s).cpu d = if d = c then Cpu.enterModeZero s.cfg.resetVector (s.cpu c) else s.cpu d :=
  setCpu_cpu s c d _

/-- Settles O51: of what an instruction can do, only its lanes' own steps write general registers. -/
theorem onlyLanesChangeRegisters : Obligations.OnlyLanesChangeRegisters := by
  intro i s t h c hc r
  cases exec_cases h with
  | lanes k skip next f u hf hu hn =>
    rw [reg_retire, reg_setPc]
    exact reg_congr (by rw [forLanes_cpu hf hu hc]) r
  | raises k e v hg => exact reg_takeException k e v s c r
  | returns h0 hg =>
    rw [reg_retire]
    exact reg_congr (by rw [trapReturn_cpu_but_pc]) r
  | haltsMachine h0 => exact reg_haltMachine s c r
  | haltsCopu h0 =>
    refine reg_congr ?_ r
    rw [haltCopu_cpu]
    split
    · next e => rw [e]; rfl
    · rfl

/-! ### What a CoPU's instruction changes -/

/-- What no CoPU's instruction changes: CSRs but pnce, counters, and the other CPUs. -/
structure CepuKept (c : CpuId) (s t : State) : Prop where
  csrs     : SameCsrs s { t with active := s.active, pnceReq := s.pnceReq }
  cfg      : t.cfg = s.cfg
  counters : t.counters = s.counters
  inTrap   : t.inTrap = s.inTrap
  halted   : t.halted = s.halted
  cpu      : ∀ d, d ≠ c → t.cpu d = s.cpu d

/-- All that is not a CPU stays, but for main memory, the cache and the model's own counts. -/
theorem CepuKept.of_rest {c : CpuId} {s t : State} (h : t = { s with
    cpus := t.cpus, main := t.main, cache := t.cache, drawn := t.drawn, deviceReads := t.deviceReads })
    (hcpu : ∀ d, d ≠ c → t.cpu d = s.cpu d) : CepuKept c s t where
  csrs := by rw [h]; exact ⟨rfl, rfl, rfl, rfl, rfl, rfl, rfl, rfl, rfl, rfl, rfl, rfl, rfl⟩
  cfg := by rw [h]
  counters := by rw [h]
  inTrap := by rw [h]
  halted := by rw [h]
  cpu := hcpu

/-- A lane of a CoPU makes no CSR access of the CePU's. -/
theorem laneStep_copu_rest {c : CpuId} (hc : c ≠ 0) {s t : State} (h : LaneStep c s t) : t = { s with
    cpus := t.cpus, main := t.main, cache := t.cache, drawn := t.drawn, deviceReads := t.deviceReads } := by
  have data : ∀ t : State, OnlyData s t → t = { s with
      cpus := t.cpus, main := t.main, cache := t.cache, drawn := t.drawn, deviceReads := t.deviceReads } := by
    intro t h
    unfold OnlyData at h
    rw [h]
  have drained := onlyData_drainAll c s
  cases h with
  | nothing => rfl
  | writes rd v k d => unfold setReg; split <;> rfl
  | stores a n v => exact data _ ((OnlyData.refl s).setCpu c _)
  | fences _ _ h => cases h; exact data _ (drained.setCpu c _)
  | drops n => exact data _ (drained.trans (onlyMemu_dropLine n _).onlyData)
  | writesBack n => exact data _ (drained.trans (onlyMemu_writeBackLine n _).onlyData)
  | flushes n => exact data _ (drained.trans (onlyMemu_flushLine n _).onlyData)
  | accesses h0 => exact absurd h0 hc

/-- Counting is the CePU's alone (R330). -/
theorem retire_copu (k : EventClass) (skip : Option (Fin 32)) {s : State} (h : s.cur ≠ 0) : retire k skip s = s := by
  rw [retire, if_neg h]

/-- A CoPU executes alone. -/
theorem lanes_copu {s : State} (h : s.cur ≠ 0) : lanes s = [s.cur] := lanes_of_not_grouped (not_grouped_of_cur_ne h)

theorem exec_copu_kept {i : Instr} {s t : State} (h0 : s.cur ≠ 0) (hexec : exec i s = .next t) : CepuKept s.cur s t := by
  cases exec_cases hexec with
  | lanes k skip next f u hf hu hn =>
    rw [lanes_copu h0] at hu
    have hlane : LaneStep s.cur s u := by
      cases e : f s.cur s with
      | done v => simp only [forLanes, e] at hu; cases hu; exact hf _ _ _ e
      | _ => simp only [forLanes, e] at hu; cases hu
    obtain ⟨-, hcur, -⟩ := laneStep_same hlane
    have hrest := laneStep_copu_rest h0 hlane
    rw [retire_copu k skip (show (setPc u.cur next u).cur ≠ 0 by rw [setPc_cur, hcur]; exact h0), hcur]
    refine .of_rest ?_ fun d hd => ?_
    · rw [setPc, State.setCpu]; rw [hrest]
    · rw [setPc, setCpu_cpu_of_ne _ _ hd, laneStep_cpu hlane hd]
  | raises k e v hg =>
    rw [takeException, if_neg h0]
    have took := tookCopuException_copuException e s.cur s
    exact ⟨⟨rfl, rfl, rfl, rfl, rfl, rfl, rfl, rfl, rfl, rfl, rfl, rfl, rfl⟩, rfl, rfl, took.inTrap, took.halted, took.others⟩
  | returns h => exact absurd h h0
  | haltsMachine h => exact absurd h h0
  | haltsCopu _ =>
    refine ⟨⟨rfl, rfl, rfl, rfl, rfl, rfl, rfl, rfl, rfl, rfl, rfl, rfl, rfl⟩, rfl, rfl, rfl, rfl, fun d hd => ?_⟩
    rw [haltCopu_cpu, if_neg hd]

/-- Settles O52: a CoPU's lane makes no CSR access of the CePU's, its exception is recorded with itself, and its HALT clears
bits of pnce alone. -/
theorem copuCannotChangeCepu : Obligations.CopuCannotChangeCepu := by
  intro i s t h0 h
  obtain ⟨hcsrs, hcfg, hcounters, htrap, hhalted, hcpu⟩ := exec_copu_kept h0 h
  exact ⟨hcsrs, fun n => counter_congr hcfg hcounters n, htrap, hhalted, hcpu⟩

end Sys2Proof.Machine
end

section
/-! SUPPORT. The loads and the stores when every lane's access is aligned and present (R102 to R105, R112, R121, R124, R240
to R249). -/

namespace Sys2Proof.Machine

/-! ### Loads -/

/-- Lanes that change CPUs alone leave what another lane reads. -/
theorem OnlyCpus.readByte {s t : State} (h : OnlyCpus s t) {c : CpuId} (hc : t.cpu c = s.cpu c) (a : Nat) :
    readByte c a t = readByte c a s := by
  unfold OnlyCpus at h
  exact readByte_congr (by rw [h]) (by rw [h]) (by rw [hc]) (by rw [h]) (by rw [h]) (by rw [h]) a

/-- A load whose value depends on the bytes the lane reads alone is what the statements' WritesReg says. -/
theorem writesReg_load {i : Instr} {n : Nat} {rd rs1 : Reg} {imm : BitVec 12} {value : CpuId → Word → State → Word}
    {w : CpuId → State → Word} {s : State}
    (hi : exec i s = onLanes .load (pcPlus4 s) (loadLane s.deviceReads n rd rs1 imm value) s) (hok : AccessesOk n rs1 imm s)
    (hvalue : ∀ c a t, (∀ x, readByte c x t = readByte c x s) → value c a t = value c a s)
    (hw : ∀ c, value c (effAddr c rs1 imm s) s = w c s) : WritesReg i .load rd pcPlus4 w s :=
  writesReg_onLanes hi fun c hc t ht he => by
    rw [loadLane_done_of hok hc ht he, hvalue c _ t (ht.readByte he), hw]

theorem memRead8_congr {c : CpuId} {s t : State} (h : ∀ x, readByte c x t = readByte c x s) (a : Word) :
    memRead8 c a t = memRead8 c a s := h _

theorem memRead16_congr {c : CpuId} {s t : State} (h : ∀ x, readByte c x t = readByte c x s) (a : Word) :
    memRead16 c a t = memRead16 c a s := by simp only [memRead16, h]

theorem memRead32_congr {c : CpuId} {s t : State} (h : ∀ x, readByte c x t = readByte c x s) (a : Word) :
    memRead32 c a t = memRead32 c a s := by simp only [memRead32, h]

/-- Main memory belongs to no device (R110). -/
theorem deviceAt_of_memory {cfg : Config} {a : Nat} (h : addrKind cfg a = .memory) : deviceAt cfg a = false := by
  rw [deviceAt, h]; rfl

theorem readByte_forward {c : CpuId} {a : Nat} {b : Byte} {s : State} (hd : deviceAt s.cfg a = false)
    (h : forward (s.cpu c).sbuf a = some b) : readByte c a s = b := by
  rw [readByte_eq, hd, h]; rfl

theorem readByte_memu {c : CpuId} {a : Nat} {s : State} (hd : deviceAt s.cfg a = false)
    (h : forward (s.cpu c).sbuf a = none) : readByte c a s = memuRead (dataCached s a) a s := by
  rw [readByte_eq, hd, h]; rfl

/-- The MemU's byte when the access uses the cache and the line is present (R121). -/
theorem memuRead_present {a : Nat} {s : State} {l : CacheLine} (hd : deviceAt s.cfg a = false)
    (h : Cache.find s.cache (lineOf s.cfg a) = some l) :
    memuRead true a s = l.data.getD (a % s.cfg.lineBytes) unlisted := by
  simp [memuRead, hd, h]

/-- The MemU's byte when the access bypasses the cache or the line is absent (R121, R124). -/
theorem memuRead_main {a : Nat} {s : State} {cached : Bool} (hd : deviceAt s.cfg a = false)
    (h : cached = false ∨ Cache.find s.cache (lineOf s.cfg a) = none) : memuRead cached a s = Memory.read s.main a := by
  rcases h with h | h
  · simp [memuRead, hd, h]
  · simp [memuRead, hd, h]

theorem dataCached_iff (s : State) (a : Nat) : dataCached s a = true ↔
    hasBit s.pncache s.cfg.denBit = true ∧ s.cfg.uncached.any (·.contains a) = false := by
  rw [dataCached, uncachedAt, Bool.and_eq_true, Bool.not_eq_true']

/-- Settles O18: each load reads its lane's own bytes, which earlier lanes leave alone; a byte is the youngest buffered
store's, else the MemU's. -/
theorem loadsComplete : Obligations.LoadsComplete := by
  intro rd rs1 imm s byte
  have zero : ∀ x : Word, x + 0 = x := add_zero
  refine ⟨fun hok => ⟨?lb, ?lbu⟩, fun hok => ⟨?lh, ?lhu⟩, fun hok => ?lw, fun c a hmem => ?bytes⟩
  case lb =>
    exact writesReg_load rfl hok (fun c a t h => by rw [memRead8_congr h]) fun c => by
      simp only [byte, zero]; rfl
  case lbu =>
    exact writesReg_load rfl hok (fun c a t h => by rw [memRead8_congr h]) fun c => by
      simp only [byte, zero]; rfl
  case lh =>
    exact writesReg_load rfl hok (fun c a t h => by rw [memRead16_congr h]) fun c => by
      simp only [byte, zero]; rfl
  case lhu =>
    exact writesReg_load rfl hok (fun c a t h => by rw [memRead16_congr h]) fun c => by
      simp only [byte, zero]; rfl
  case lw =>
    exact writesReg_load rfl hok (fun c a t h => memRead32_congr h a) fun c => by
      simp only [byte, zero]; rfl
  case bytes =>
    have hd := deviceAt_of_memory hmem
    refine ⟨fun b => readByte_forward hd, fun hnone => ⟨fun hcached l hl => ?_, fun h => ?_⟩⟩
    · rw [readByte_memu hd hnone, (dataCached_iff s a).2 hcached]
      exact memuRead_present hd hl
    · rw [readByte_memu hd hnone]
      refine memuRead_main hd (h.imp (fun hc => ?_) id)
      rw [← Bool.not_eq_true, dataCached_iff]
      exact hc

/-! ### Stores -/

/-- The bytes of an aligned store, at consecutive addresses (R105). -/
theorem storeCells_aligned {n : Nat} (hn : n = 1 ∨ n = 2 ∨ n = 4) {a : Word} (h : alignedTo n a = true) (v : Word) :
    storeCells a n v = (List.range n).map (fun k => (a.toNat + k, v.extractLsb' (8 * k) 8)) :=
  List.map_congr_left fun k hk => by rw [toNat_add_of_aligned hn h (List.mem_range.1 hk)]; rfl

theorem find_storeCells_at {n : Nat} (hn : n = 1 ∨ n = 2 ∨ n = 4) {a : Word} (h : alignedTo n a = true) (v : Word) {k : Nat}
    (hk : k < n) : Store.find (storeCells a n v) (a.toNat + k) = some (v.extractLsb' (8 * k) 8) := by
  rw [find_storeCells hn h, if_pos (by omega), Nat.add_sub_cancel_left]

theorem find_storeCells_outside {n : Nat} (hn : n = 1 ∨ n = 2 ∨ n = 4) {a : Word} (h : alignedTo n a = true) (v : Word)
    {k : Nat} (hk : ¬InAccess n a k) : Store.find (storeCells a n v) k = none := by
  rw [find_storeCells hn h]
  exact if_neg hk

/-- A store on every lane: each lane's store enters its own buffer, and nothing else changes but the pc and the counts. -/
theorem onLanes_store {n : Nat} {rs2 rs1 : Reg} {imm : BitVec 12} {s : State} (hok : AccessesPresent n rs1 imm s) :
    ∃ u, onLanes .store (pcPlus4 s) (storeLane n rs2 rs1 imm) s =
        .next (retire .store none (setPc s.cur (pcPlus4 s) u)) ∧ OnlyCpus s u ∧
      ∀ c, u.cpu c = if c ∈ lanes s
        then { s.cpu c with sbuf := storeCells (effAddr c rs1 imm s) n (reg c rs2 s) :: (s.cpu c).sbuf } else s.cpu c := by
  obtain ⟨u, hu, ho, hc⟩ := forLanes_own (storeLane n rs2 rs1 imm) _ (lanes s) (lanes_nodup s) s
    fun c hl t ht he => storeLane_done_of hok hl ht he
  have hcur : u.cur = s.cur := by rw [ho]
  exact ⟨u, by simp only [onLanes, hu, finish_done, hcur], ho, hc⟩

/-- What the stores' statement says of one store. -/
theorem store_completes {i : Instr} {n : Nat} (hn : n = 1 ∨ n = 2 ∨ n = 4) {rs2 rs1 : Reg} {imm : BitVec 12} {s : State}
    (hi : exec i s = onLanes .store (pcPlus4 s) (storeLane n rs2 rs1 imm) s) (hok : AccessesPresent n rs1 imm s) :
    let ea := fun c => effAddr c rs1 imm s
    ∃ t, exec i s = .next t ∧
      (∀ c ∈ lanes s, ∀ k, k < n → deviceAt s.cfg ((ea c).toNat + k) = false →
        readByte c ((ea c).toNat + k) t = (reg c rs2 s).extractLsb' (8 * k) 8) ∧
      (∀ c ∈ lanes s, ∀ a, ¬InAccess n (ea c) a → readByte c a t = readByte c a s) ∧
      (∀ c ∈ lanes s, (t.cpu c).sbuf =
        ((List.range n).map (fun k => ((ea c).toNat + k, (reg c rs2 s).extractLsb' (8 * k) 8))) :: (s.cpu c).sbuf) ∧
      (∀ c, c ∉ lanes s → ∀ a, readByte c a t = readByte c a s) ∧
      t.main = s.main ∧ t.cache = s.cache ∧ SameRegs s t ∧
      pcOf s.cur t = pcPlus4 s ∧ SamePcsBut s.cur s t ∧ Counted .store s t ∧ SameSystem s t ∧ SameFetch s t := by
  intro ea
  obtain ⟨u, hu, ho, hcpu⟩ := onLanes_store (rs2 := rs2) hok
  have field : ∀ {α : Type} (f : Cpu → α), (∀ x b, f { x with sbuf := b } = f x) → ∀ c, f (u.cpu c) = f (s.cpu c) := by
    intro α f hf c
    rw [hcpu]
    split
    · exact hf _ _
    · rfl
  obtain ⟨hmain, hcache, hcfg, hpncache, hcur, hcounters⟩ := ho.fields
  have hreads : u.deviceReads = s.deviceReads := by rw [ho]
  have hreg : SameRegs s u := fun c r => reg_congr (field Cpu.regs (fun _ _ => rfl) c) r
  have bytes : ∀ c a, readByte c a (retire .store none (setPc s.cur (pcPlus4 s) u)) = readByte c a u := fun c a =>
    readByte_congr (by simp) (by simp) (by simp) (by simp) (by simp) (by simp) a
  have lane : ∀ c ∈ lanes s, ∀ a, readByte c a u = (if deviceAt s.cfg a then none
      else (Store.find (storeCells (ea c) n (reg c rs2 s)) a).or (forward (s.cpu c).sbuf a)).getD
        (memuRead (dataCached s a) a s) := by
    intro c hc a
    have hm : memuRead (dataCached u a) a u = memuRead (dataCached s a) a s := by
      rw [memuRead_congr hmain hcache hcfg hreads, dataCached, hpncache, hcfg, dataCached]
    rw [readByte_eq, hcfg, hm, hcpu, if_pos hc, forward_cons]
  refine ⟨_, hi.trans hu, ?_, ?_, ?_, ?_, by simp [hmain], by simp [hcache], ?_, by simp, ?_, ?_, ?_, ?_⟩
  · intro c hc k hk hd
    rw [bytes, lane c hc, hd, find_storeCells_at hn (hok c hc).1 _ hk]
    rfl
  · intro c hc a ha
    rw [bytes, lane c hc, find_storeCells_outside hn (hok c hc).1 _ ha, Option.none_or, ← readByte_eq]
  · intro c hc
    rw [retire_cpu, setPc_cpu_sbuf, hcpu, if_pos hc, storeCells_aligned hn (hok c hc).1]
  · intro c hc a
    rw [bytes]
    exact ho.readByte (by rw [hcpu, if_neg hc]) a
  · exact fun c r => by rw [reg_retire, reg_setPc]; exact hreg c r
  · intro c hc
    rw [pcOf_retire, pcOf_setPc, if_neg hc]
    exact field Cpu.pc (fun _ _ => rfl) c
  · exact counted_retire (by rw [setPc_cfg, hcfg]) (by rw [setPc_cur, hcur]) (by rw [setPc_counters, hcounters])
  · refine sameSystem_retire (sameSystem_of_onlyCpus (ho.setCpu _ _) (fun c => ?_) fun c => ?_)
    · exact (setPc_cpu_xcause s.cur c _ u).trans (field Cpu.xcause (fun _ _ => rfl) c)
    · exact (setPc_cpu_xepc s.cur c _ u).trans (field Cpu.xepc (fun _ _ => rfl) c)
  · intro c
    rw [retire_cpu, setPc_cpu_ifu]
    exact field Cpu.ifu (fun _ _ => rfl) c

/-- Settles O19, the three widths of one store. -/
theorem storesComplete : Obligations.StoresComplete := by
  intro rs2 rs1 imm s
  exact ⟨store_completes (.inl rfl) rfl, store_completes (.inr (.inl rfl)) rfl, store_completes (.inr (.inr rfl)) rfl⟩

end Sys2Proof.Machine
end

section
/-! SUPPORT. The six CSR instructions as one, and what the CePU's access makes of the instruction, whether it leads a
linked group or not (R270 to R279). -/

namespace Sys2Proof.Machine

/-! ### The six instructions as one -/

/-- The CSR instruction of an operation, with an immediate operand or a register. -/
def csrForm (op : CsrOp) (imm : Bool) (rd : Reg) (n : CsrNum) (src : BitVec 5) : Instr :=
  match op, imm with
  | .write, false => .csrrw rd n src
  | .set, false => .csrrs rd n src
  | .clear, false => .csrrc rd n src
  | .write, true => .csrrwi rd n src
  | .set, true => .csrrsi rd n src
  | .clear, true => .csrrci rd n src

/-- The access it makes (R271): a set or clear reads, a write does unless rd is x0; a write writes, a set or clear does
unless the operand field is 0. -/
def formAccess (op : CsrOp) (imm : Bool) (rd : Reg) (n : CsrNum) (src : BitVec 5) (cfg : Config) : CsrAccess :=
  ⟨op, rd, n, op != .write || rd != 0, op == .write || src != 0, encode cfg (csrForm op imm rd n src)⟩

/-- Its operand on a lane. -/
def formOperand (imm : Bool) (src : BitVec 5) (c : CpuId) (s : State) : Word := if imm then uimm5 src else reg c src s

theorem exec_csrForm (op : CsrOp) (imm : Bool) (rd : Reg) (n : CsrNum) (src : BitVec 5) (s : State) :
    exec (csrForm op imm rd n src) s = csrInstr (formAccess op imm rd n src s.cfg) (formOperand imm src) s := by
  cases op <;> cases imm <;> rfl

theorem formOperand_congr {imm : Bool} {src : BitVec 5} {c : CpuId} {s t : State} (h : t.cpu c = s.cpu c) :
    formOperand imm src c t = formOperand imm src c s := by
  unfold formOperand
  rw [reg_congr (s := s) (by rw [h])]

section
variable {op op' : CsrOp} {imm imm' : Bool} {rd : Reg} {n : CsrNum} {src : BitVec 5} {s : State} {i : Instr}

theorem csrForm_inj (h : csrForm op imm rd n src = csrForm op' imm' rd n src) : op = op' ∧ imm = imm' := by
  revert h
  cases op <;> cases imm <;> cases op' <;> cases imm' <;> simp [csrForm]

theorem csrForm_write_iff {rd' : Reg} :
    csrForm op imm rd n src = .csrrw rd' n src ∨ csrForm op imm rd n src = .csrrwi rd' n src ↔ op = .write ∧ rd = rd' := by
  cases op <;> cases imm <;> simp [csrForm]

theorem mem_csrInstrs (h : i ∈ csrInstrs rd n src) : ∃ op imm, i = csrForm op imm rd n src := by
  simp only [csrInstrs, List.mem_cons, List.not_mem_nil, or_false] at h
  rcases h with rfl | rfl | rfl | rfl | rfl | rfl
  · exact ⟨.write, false, rfl⟩
  · exact ⟨.set, false, rfl⟩
  · exact ⟨.clear, false, rfl⟩
  · exact ⟨.write, true, rfl⟩
  · exact ⟨.set, true, rfl⟩
  · exact ⟨.clear, true, rfl⟩

/-- The forms that read without writing have the operand field 0. -/
theorem mem_csrReads (h : i ∈ csrReads rd n) : ∃ op imm, op ≠ .write ∧ i = csrForm op imm rd n 0 := by
  simp only [csrReads, List.mem_cons, List.not_mem_nil, or_false] at h
  rcases h with rfl | rfl | rfl | rfl
  · exact ⟨.set, false, by decide, rfl⟩
  · exact ⟨.clear, false, by decide, rfl⟩
  · exact ⟨.set, true, by decide, rfl⟩
  · exact ⟨.clear, true, by decide, rfl⟩

theorem mem_csrWriteForms {old v : Word} (h : (i, v) ∈ csrWriteForms rd n src old s) :
    ∃ op imm, (op = .write ∨ src ≠ 0) ∧ i = csrForm op imm rd n src ∧ v = op.new old (formOperand imm src 0 s) := by
  unfold csrWriteForms at h
  by_cases h0 : src = 0
  · simp only [h0, if_true, List.append_nil, List.mem_cons, List.not_mem_nil, or_false, Prod.mk.injEq] at h
    subst h0
    rcases h with ⟨rfl, rfl⟩ | ⟨rfl, rfl⟩
    · exact ⟨.write, false, .inl rfl, rfl, rfl⟩
    · exact ⟨.write, true, .inl rfl, rfl, rfl⟩
  · simp only [h0, if_false, List.mem_append, List.mem_cons, List.not_mem_nil, or_false, Prod.mk.injEq] at h
    rcases h with (⟨rfl, rfl⟩ | ⟨rfl, rfl⟩) | ⟨rfl, rfl⟩ | ⟨rfl, rfl⟩ | ⟨rfl, rfl⟩ | ⟨rfl, rfl⟩
    · exact ⟨.write, false, .inl rfl, rfl, rfl⟩
    · exact ⟨.write, true, .inl rfl, rfl, rfl⟩
    · exact ⟨.set, false, .inr h0, rfl, rfl⟩
    · exact ⟨.clear, false, .inr h0, rfl, rfl⟩
    · exact ⟨.set, true, .inr h0, rfl, rfl⟩
    · exact ⟨.clear, true, .inr h0, rfl, rfl⟩

/-- The value that a form writes. -/
theorem value_of_mem {old v : Word} (h : (csrForm op imm rd n src, v) ∈ csrWriteForms rd n src old s) :
    v = op.new old (formOperand imm src 0 s) := by
  obtain ⟨op', imm', -, hform, hv⟩ := mem_csrWriteForms h
  obtain ⟨rfl, rfl⟩ := csrForm_inj hform
  exact hv

/-- The forms that write are those that some value is written by. -/
theorem mem_csrWrites (h : i ∈ csrWrites rd n src) :
    ∃ op imm, (op = .write ∨ src ≠ 0) ∧ i = csrForm op imm rd n src := by
  have hforms : csrWrites rd n src = (csrWriteForms rd n src 0 State.reset).map Prod.fst := by
    unfold csrWrites csrWriteForms
    split <;> rfl
  rw [hforms, List.mem_map] at h
  obtain ⟨⟨i, v⟩, hv, rfl⟩ := h
  obtain ⟨op, imm, hw, hi, -⟩ := mem_csrWriteForms hv
  exact ⟨op, imm, hw, hi⟩

theorem formAccess_reads_false : (formAccess op imm rd n src s.cfg).reads = false ↔ op = .write ∧ rd = 0 := by
  simp [formAccess]

theorem formAccess_writes : (formAccess op imm rd n src s.cfg).writes = true ↔ op = .write ∨ src ≠ 0 := by
  simp [formAccess]

end

/-! ### The CePU's access -/

/-- What the access reads and the state after the read; an access that does not read may be taken to read anything. -/
def CsrAccess.readOr (a : CsrAccess) (d : Word) (s : State) : Word × State := if a.reads then csrReadNum a.csr s else (d, s)

/-- The state after the read and the write of rd. -/
def CsrAccess.afterRead (a : CsrAccess) (d : Word) (s : State) : State := setReg 0 a.rd (a.readOr d s).1 (a.readOr d s).2

/-- A read changes nothing but mcycle and the number of drawn values. -/
theorem readOr_state (a : CsrAccess) (d : Word) (s : State) :
    ∃ x k, (a.readOr d s).2 = { s with counters := s.counters.set 0 x, drawn := k } := by
  unfold CsrAccess.readOr
  split
  · exact csrReadNum_state a.csr s
  · exact ⟨s.counters[0], s.drawn, by rw [Vector.set_getElem_self]⟩

theorem afterRead_cpus (a : CsrAccess) (d : Word) (s : State) :
    (a.afterRead d s).cpus = (setReg 0 a.rd (a.readOr d s).1 s).cpus := by
  obtain ⟨x, k, h⟩ := readOr_state a d s
  unfold CsrAccess.afterRead
  rw [h]
  unfold setReg
  split <;> rfl

/-- Only CPUs, counters and the number of drawn values differ: what a read can change, on any lane. -/
def OnlyReads (s t : State) : Prop := t = { s with cpus := t.cpus, counters := t.counters, drawn := t.drawn }

theorem OnlyReads.trans {s t u : State} (h : OnlyReads s t) (h' : OnlyReads t u) : OnlyReads s u := by
  unfold OnlyReads at *
  rw [h', h]

theorem onlyReads_setReg (c : CpuId) (r : Reg) (v : Word) (s : State) : OnlyReads s (setReg c r v s) := by
  unfold setReg
  split <;> rfl

theorem onlyReads_csrReadNum (n : CsrNum) (s : State) : OnlyReads s (csrReadNum n s).2 := by
  obtain ⟨x, k, h⟩ := csrReadNum_state n s
  rw [h]; rfl

theorem onlyReads_afterRead (a : CsrAccess) (d : Word) (s : State) : OnlyReads s (a.afterRead d s) := by
  obtain ⟨x, k, h⟩ := readOr_state a d s
  have hread : OnlyReads s (a.readOr d s).2 := by rw [h]; rfl
  exact hread.trans (onlyReads_setReg 0 a.rd _ _)

theorem OtherLanes.onlyReads {rd : Reg} {l : List CpuId} {s p : State} (h : OtherLanes rd l s p) : OnlyReads s p := by
  unfold OnlyReads
  rw [h.rest]

/-- The access of the CePU, with the cases of R270 in their order. -/
theorem cepuCsrLane_eq {a : CsrAccess} (hreads : a.reads = false → a.op = .write ∧ a.rd = 0) (x d : Word) (s : State) :
    cepuCsrLane a x s =
      if a.writes && csrReadOnly s.cfg a.csr then .raises .illegal (illegalTval s.cfg a.word)
      else if pnceUnsettled a s then .refuse .pnceTransitionPending
      else if a.writes then csrWriteNum a.csr (a.op.new (a.readOr d s).1 x) (a.afterRead d s)
      else .done (a.afterRead d s) := by
  unfold cepuCsrLane CsrAccess.afterRead CsrAccess.readOr
  cases hr : a.reads with
  | true => rfl
  | false =>
    obtain ⟨hop, hrd⟩ := hreads hr
    simp only [hop, hrd, setReg_zero]
    rfl

/-! ### Completion -/

/-- A CSR instruction of the CePU completes, when the CePU's access has read `old` and left q: rd of the CePU takes `old`,
and of q only CPUs, the number of drawn values and the counters have changed, these by the instruction's own count. -/
structure CsrCompletes (rd : Reg) (old : Word) (skip : Option (Fin 32)) (s q t : State) : Prop where
  frame   : CsrFrame rd s { t with pncache := s.pncache }
  value   : reg 0 rd t = if rd = 0 then 0 else old
  rest    : t = { q with cpus := t.cpus, drawn := t.drawn, counters := t.counters }
  drawn   : grouped s = false → t.drawn = q.drawn
  record  : ∀ c, (t.cpu c).xcause = (s.cpu c).xcause ∧ (t.cpu c).xepc = (s.cpu c).xepc
  counter : ∀ m, counter m t =
    if (m = 2 ∨ m = 7) ∧ skip ≠ some m ∧ counterExists s.cfg m = true
    then BitVec.ofNat 64 (((counter m q).toNat + 1) % 2 ^ counterWidth s.cfg m) else counter m q

/-- What the CePU's access leaves of the state beside CPUs, CSRs and counters. -/
structure AccessKeeps (s q : State) : Prop where
  main        : q.main = s.main
  cache       : q.cache = s.cache
  cfg         : q.cfg = s.cfg
  deviceReads : q.deviceReads = s.deviceReads
  cur         : q.cur = s.cur

theorem slot_system_iff (m : Fin 32) : EventClass.system.slot = some m ↔ m = 7 := by
  simp [EventClass.slot, eq_comm]

theorem csrCompletes_of {rd : Reg} {old : Word} {skip : Option (Fin 32)} {s p q u : State} (h0 : s.cur = 0)
    (hp : OtherLanes rd (lanes s) s p) (hcpus : q.cpus = (setReg 0 rd old p).cpus) (hq : AccessKeeps s q)
    (hu : OtherLanes rd (lanes s) q u) :
    CsrCompletes rd old skip s q (retire .system skip (setPc 0 (pcPlus4 s) u)) := by
  obtain ⟨hframe, hvalue⟩ := csrFrame_of (k := .system) (skip := skip) h0 hp hcpus hq.main hq.cache hq.cfg hq.deviceReads hu
  have hrest := hu.rest
  have hcfg : (setPc 0 (pcPlus4 s) u).cfg = s.cfg := by rw [setPc_cfg, hrest]; exact hq.cfg
  have hcur : (setPc 0 (pcPlus4 s) u).cur = 0 := by rw [setPc_cur, hrest, ← h0]; exact hq.cur
  refine ⟨hframe, hvalue, ?_, fun hg => ?_, fun c => ?_, fun m => ?_⟩
  · rw [retire_eq, setPc, State.setCpu]
    generalize (retire _ _ _).counters = z
    rw [hrest]
  · have hl : lanes s = [0] := by rw [lanes_of_not_grouped hg, h0]
    rw [retire_drawn, setPc_drawn, hu.none (.inr hl)]
  · have hqc : q.cpu c = (setReg 0 rd old p).cpu c := by unfold State.cpu; rw [hcpus]
    have hxc : (u.cpu c).xcause = (q.cpu c).xcause := by rw [hu.cpu c]
    have hxe : (u.cpu c).xepc = (q.cpu c).xepc := by rw [hu.cpu c]
    rw [retire_cpu, setPc_cpu_xcause, setPc_cpu_xepc, hxc, hxe, hqc, setReg_cpu_xcause, setReg_cpu_xepc, hp.cpu c]
    exact ⟨rfl, rfl⟩
  · have hcnt : counter m (setPc 0 (pcPlus4 s) u) = counter m q :=
      counter_congr (by rw [hcfg, hq.cfg]) (by rw [setPc_counters, hrest]) m
    rw [counter_retire, hcfg, hcnt, hcur]
    simp only [slot_system_iff, true_and]

/-- What the instruction answers when the CePU's access comes to an effect. -/
def CsrAnswers (r : Result) (rd : Reg) (old : Word) (skip : Option (Fin 32)) (s : State) : Effect → Prop
  | .done q => ∃ t, r = .next t ∧ CsrCompletes rd old skip s q t
  | .raises e v => r = raiseException .system e v s
  | .stuck x => r = .fault x
  | .refuse x => r = .refused x

/-- The access keeps main memory, the cache, the configuration and who executes, and of CPUs writes rd of the CePU. -/
theorem cepuCsrLane_keeps {a : CsrAccess} (hreads : a.reads = false → a.op = .write ∧ a.rd = 0) {x d : Word}
    {p q : State} (h : cepuCsrLane a x p = .done q) :
    q.cpus = (setReg 0 a.rd (a.readOr d p).1 p).cpus ∧ AccessKeeps p q := by
  have hcpus := afterRead_cpus a d p
  have read : AccessKeeps p (a.afterRead d p) := by
    rw [onlyReads_afterRead a d p]; exact ⟨rfl, rfl, rfl, rfl, rfl⟩
  rw [cepuCsrLane_eq hreads x d p] at h
  split_ifs at h
  · unfold csrWriteNum at h
    split at h
    · obtain ⟨hc, hcp, hcu, hm, hk, -, -, -, -, -, -, hd⟩ := csrWrite_done h
      exact ⟨hcp.trans hcpus, ⟨hm.trans read.main, hk.trans read.cache, hc.trans read.cfg, hd.trans read.deviceReads,
        hcu.trans read.cur⟩⟩
    · cases h; exact ⟨hcpus, read⟩
  · cases h; exact ⟨hcpus, read⟩

/-- What a CSR instruction of the CePU answers, with or without a linked group: the CePU's access, made in a state p that
earlier lanes have changed in their own rd and in draws alone, decides. What an access that does not read is taken to
have read may be chosen. -/
theorem csrForm_answers {op : CsrOp} {imm : Bool} {rd : Reg} {n : CsrNum} {src : BitVec 5} {s : State} (h0 : s.cur = 0)
    (d : Word) :
    let a := formAccess op imm rd n src s.cfg
    ∃ p, OtherLanes rd (lanes s) s p ∧
      CsrAnswers (exec (csrForm op imm rd n src) s) rd (a.readOr d p).1 (if a.writes then csrCounter s.cfg n else none) s
        (cepuCsrLane a (formOperand imm src 0 s) p) := by
  intro a
  obtain ⟨p, hp, hlanes⟩ := csrInstr_lanes (a := a) (src := formOperand imm src) h0 fun t => formOperand_congr
  refine ⟨p, hp, ?_⟩
  rw [exec_csrForm]
  cases hq : cepuCsrLane a (formOperand imm src 0 s) p with
  | done q =>
    rw [hq] at hlanes
    obtain ⟨u, hu, hnext⟩ := hlanes
    obtain ⟨hcpus, hk⟩ := cepuCsrLane_keeps (d := d) formAccess_reads_false.1 hq
    have hsp : AccessKeeps s q := by
      have hrest := hp.rest
      obtain ⟨hm, hc, hcfg, hd, hcur⟩ := hk
      exact ⟨by rw [hm, hrest], by rw [hc, hrest], by rw [hcfg, hrest], by rw [hd, hrest], by rw [hcur, hrest]⟩
    exact ⟨_, hnext, csrCompletes_of h0 hp hcpus hsp hu⟩
  | raises e v => rw [hq] at hlanes; exact hlanes
  | stuck x => rw [hq] at hlanes; exact hlanes
  | refuse x => rw [hq] at hlanes; exact hlanes

/-! ### What follows from completion -/

section
variable {rd : Reg} {old : Word} {skip : Option (Fin 32)} {s q t : State}

theorem CsrCompletes.onlyReads (h : CsrCompletes rd old skip s q t) : OnlyReads q t := by
  unfold OnlyReads
  rw [h.rest]

theorem CsrCompletes.csrFrame (h : CsrCompletes rd old skip s q t) (hq : q.pncache = s.pncache) : CsrFrame rd s t := by
  have hpn : t.pncache = s.pncache := by rw [h.rest]; exact hq
  have hframe := h.frame
  rw [← hpn] at hframe
  exact hframe

theorem CsrCompletes.counted (h : CsrCompletes rd old none s q t) (h0 : s.cur = 0)
    (hq : ∀ m, Machine.counter m q = Machine.counter m s) : Counted .system s t := by
  intro m
  rw [h.counter m, hq m]
  simp only [slot_system_iff, h0, ne_eq, reduceCtorEq, not_false_eq_true, true_and]

/-- What is kept when all but CPUs, draws and counters is, and no exception record differs. -/
theorem OnlyReads.sameSystem (h : OnlyReads s t)
    (hrec : ∀ c, (t.cpu c).xcause = (s.cpu c).xcause ∧ (t.cpu c).xepc = (s.cpu c).xepc) :
    SameSystem s { t with drawn := s.drawn } := by
  refine ⟨?_, ⟨?_, ?_, ?_, ?_, ?_, fun c => (hrec c).1, fun c => (hrec c).2⟩, ?_⟩
  · rw [h]; exact ⟨rfl, rfl, rfl, rfl, rfl, rfl, rfl, rfl, rfl, rfl, rfl, rfl, rfl⟩
  · rw [h]
  · rw [h]
  · rw [h]
  · rw [h]
  · rw [h]
  · rw [h]; exact ⟨rfl, rfl, rfl, rfl, rfl, rfl, rfl⟩

end

/-- A form that does not write: what it reads goes to rd, and it goes on (R271, R273). -/
theorem csrRead_completes {i : Instr} {rd : Reg} {n : CsrNum} {s : State} (h0 : s.cur = 0) (h : i ∈ csrReads rd n) :
    ∃ p t, OtherLanes rd (lanes s) s p ∧ exec i s = .next t ∧
      CsrCompletes rd (csrReadNum n p).1 none s (setReg 0 rd (csrReadNum n p).1 (csrReadNum n p).2) t := by
  obtain ⟨op, imm, hop, rfl⟩ := mem_csrReads h
  obtain ⟨p, hp, hans⟩ := csrForm_answers (op := op) (imm := imm) (rd := rd) (n := n) (src := 0) h0 0
  have hw : (formAccess op imm rd n 0 s.cfg).writes = false := by simpa [formAccess] using hop
  have hr : (formAccess op imm rd n 0 s.cfg).reads = true := by simp [formAccess, hop]
  have hread : (formAccess op imm rd n 0 s.cfg).readOr 0 p = csrReadNum n p := by
    rw [CsrAccess.readOr, hr]; rfl
  rw [cepuCsrLane_eq formAccess_reads_false.1 _ 0, pnceUnsettled, CsrAccess.afterRead, hread, hw] at hans
  obtain ⟨t, ht, hc⟩ := hans
  exact ⟨p, t, hp, ht, hc⟩

/-- What completion keeps when the CePU's access has changed only CPUs, counters and draws. -/
theorem CsrCompletes.kept {rd : Reg} {old : Word} {skip : Option (Fin 32)} {s q t : State}
    (h : CsrCompletes rd old skip s q t) (hq : OnlyReads s q) :
    CsrFrame rd s t ∧ SameSystem s { t with drawn := s.drawn } :=
  ⟨h.csrFrame (by rw [hq]), (hq.trans h.onlyReads).sameSystem h.record⟩

/-- An instruction that completes with a value read and nothing else done is what the statements' ReadsCsr says. -/
theorem readsCsr_of_completes {i : Instr} {rd : Reg} {v : Word} {s p t : State} (h0 : s.cur = 0)
    (hp : OtherLanes rd (lanes s) s p) (ht : exec i s = .next t) (h : CsrCompletes rd v none s (setReg 0 rd v p) t) :
    ReadsCsr i rd v s := by
  obtain ⟨hframe, hsystem⟩ := h.kept (hp.onlyReads.trans (onlyReads_setReg 0 rd v p))
  have counters : ∀ m, counter m (setReg 0 rd v p) = counter m s := fun m =>
    counter_congr (by rw [setReg_cfg, hp.rest]) (by rw [setReg_counters, hp.rest]) m
  refine ⟨t, ht, h.value, hframe, h.counted h0 counters, hsystem, fun hg => ?_⟩
  have hl : lanes s = [0] := by rw [lanes_of_not_grouped hg, h0]
  rw [h.drawn hg, setReg_drawn, hp.none (.inr hl)]

/-- A register whose read draws nothing and whose value other lanes do not change. -/
theorem readsCsr_of_read {i : Instr} {rd : Reg} {n : CsrNum} {v : Word} {s : State} (h0 : s.cur = 0)
    (h : i ∈ csrReads rd n) (hread : ∀ p, OtherLanes rd (lanes s) s p → csrReadNum n p = (v, p)) : ReadsCsr i rd v s := by
  obtain ⟨p, t, hp, ht, hc⟩ := csrRead_completes h0 h
  rw [hread p hp] at hc
  exact readsCsr_of_completes h0 hp ht hc

end Sys2Proof.Machine
end

section
/-! SUPPORT. What the CePU's CSR reads give, with or without a linked group (R30 to R74). -/

namespace Sys2Proof.Machine

section
variable {rd : Reg} {l : List CpuId} {s p : State}

theorem OtherLanes.cfg (h : OtherLanes rd l s p) : p.cfg = s.cfg := by rw [h.rest]

theorem OtherLanes.counter (h : OtherLanes rd l s p) (m : Fin 32) : counter m p = counter m s :=
  counter_congr h.cfg (by rw [h.rest]) m

theorem OtherLanes.csrReadNum (h : OtherLanes rd l s p) {n : CsrNum} {r : CsrReg} (hr : csrOf s.cfg n = some r) :
    csrReadNum n p = csrRead r p := by
  rw [Machine.csrReadNum, h.cfg, hr]

end

/-! ### Registers without a counter, a draw or a selection -/

/-- Such a register reads a value of the state, which the lanes that act before the CePU leave alone. -/
structure Reads (cfg : Config) (n : CsrNum) (v : Word) (s : State) : Prop where
  reads : ∃ r, csrOf cfg n = some r ∧ ∀ cpus k, csrRead r { s with cpus := cpus, drawn := k } =
    (v, { s with cpus := cpus, drawn := k })

theorem csrValues_reads {s : State} (hw : Config.Wf s.cfg) {n : CsrNum} {v : Word} (h : (n, v) ∈ csrValues s) :
    Reads s.cfg n v s := by
  have pn : ∀ {n r}, (n, r) ∈ pnCsrs s.cfg.csrNums → csrOf s.cfg n = some r := csrOf_pn hw
  simp only [csrValues, List.mem_cons, List.not_mem_nil, or_false, Prod.mk.injEq] at h
  rcases h with ⟨rfl, rfl⟩ | ⟨rfl, rfl⟩ | ⟨rfl, rfl⟩ | ⟨rfl, rfl⟩ | ⟨rfl, rfl⟩ | ⟨rfl, rfl⟩ | ⟨rfl, rfl⟩ | ⟨rfl, rfl⟩ |
    ⟨rfl, rfl⟩ | ⟨rfl, rfl⟩ | ⟨rfl, rfl⟩ | ⟨rfl, rfl⟩ | ⟨rfl, rfl⟩ | ⟨rfl, rfl⟩ | ⟨rfl, rfl⟩ | ⟨rfl, rfl⟩
  · exact ⟨.mvendorid, rfl, fun _ _ => rfl⟩
  · exact ⟨.marchid, rfl, fun _ _ => rfl⟩
  · exact ⟨.mimpid, rfl, fun _ _ => rfl⟩
  · exact ⟨.mhartid, rfl, fun _ _ => rfl⟩
  · exact ⟨.misa, rfl, fun _ _ => rfl⟩
  · exact ⟨.pngrpsel, pn (by simp [pnCsrs]), fun _ _ => rfl⟩
  · exact ⟨.pnlm, pn (by simp [pnCsrs]), fun _ _ => rfl⟩
  · exact ⟨.pnxsel, pn (by simp [pnCsrs]), fun _ _ => rfl⟩
  · exact ⟨.pncache, pn (by simp [pnCsrs]), fun _ _ => rfl⟩
  · exact ⟨.pncpus, pn (by simp [pnCsrs]), fun _ _ => rfl⟩
  · exact ⟨.pnm2cp, pn (by simp [pnCsrs]), fun _ _ => rfl⟩
  · exact ⟨.pnx, pn (by simp [pnCsrs]), fun _ _ => rfl⟩
  · exact ⟨.pncacheinfo, pn (by simp [pnCsrs]), fun _ _ => rfl⟩
  · exact ⟨.pncachesets, pn (by simp [pnCsrs]), fun _ _ => rfl⟩
  · exact ⟨.pnclockinfo, pn (by simp [pnCsrs]), fun _ _ => rfl⟩
  · exact ⟨.pnmemsize, pn (by simp [pnCsrs]), fun _ _ => rfl⟩

theorem Reads.csrReadNum {n : CsrNum} {v : Word} {s p : State} {rd : Reg} {l : List CpuId} (h : Reads s.cfg n v s)
    (hp : OtherLanes rd l s p) : csrReadNum n p = (v, p) := by
  obtain ⟨r, hr, hread⟩ := h.reads
  rw [hp.csrReadNum hr, hp.rest]
  exact hread p.cpus p.drawn

/-- pnce reads `active`, with any bit for a CoPU in exception state (R62). -/
theorem readPnce_spec (s : State) :
    ∃ v k, readPnce s = (v, { s with drawn := k }) ∧ AgreeBut s.xstate v s.active := by
  unfold readPnce
  split
  · exact ⟨s.active, s.drawn, rfl, rfl⟩
  · refine ⟨_, _, rfl, word_ext fun c => ?_⟩
    simp only [hasBit_and, hasBit_or, hasBit_not]
    cases hasBit s.xstate c <;> simp

theorem csrOf_pnce {cfg : Config} (hw : Config.Wf cfg) : csrOf cfg cfg.csrNums.ce = some .pnce :=
  csrOf_pn hw (by simp [pnCsrs])

/-- Settles O28: each register's value is a field of the state or of the configuration; pnce draws the bits of faulted
CoPUs. -/
theorem csrValuesRead : Obligations.CsrValuesRead := by
  intro s rd i hw h0
  refine ⟨fun n v hv hi => readsCsr_of_read h0 hi fun p hp => (csrValues_reads hw hv).csrReadNum hp, fun hi => ?_⟩
  obtain ⟨p, t, hp, ht, hc⟩ := csrRead_completes h0 hi
  obtain ⟨v, k, hread, hagree⟩ := readPnce_spec p
  rw [hp.csrReadNum (csrOf_pnce hw), show csrRead .pnce p = _ from hread] at hc
  have hdraw : OnlyReads p { p with drawn := k } := rfl
  obtain ⟨hframe, hsystem⟩ := hc.kept ((hp.onlyReads.trans hdraw).trans (onlyReads_setReg 0 rd v _))
  have counters : ∀ m, counter m (setReg 0 rd v { p with drawn := k }) = counter m s := fun m =>
    (counter_congr (setReg_cfg ..) (setReg_counters ..) m).trans (hp.counter m)
  refine ⟨v, t, ?_, ht, hc.value, hframe, hc.counted h0 counters, hsystem⟩
  rw [hp.rest] at hagree
  exact hagree

/-! ### Counters -/

theorem readCounter_of_ne {n : Fin 32} (h : n ≠ 0) (s : State) : readCounter n s = (counter n s, s) := by
  rw [readCounter, if_neg h]

theorem readCounter_absent {s : State} (h : counterExists s.cfg 0 = false) : readCounter 0 s = (counter 0 s, s) := by
  simp [readCounter, readCycle, counter, h]

/-- A counter then holds what was read of it. -/
theorem counter_readCounter_self (n : Fin 32) (s : State) :
    counter n (readCounter n s).2 = (readCounter n s).1 := by
  by_cases hn : n = 0
  · subst hn
    cases he : counterExists s.cfg 0 with
    | false => rw [readCounter_absent he]
    | true => simp [readCounter, readCycle, counter, he]
  · rw [readCounter_of_ne hn]

/-- A read changes no counter but mcycle (R50). -/
theorem counter_csrReadNum {m : Fin 32} (hm : m ≠ 0) (n : CsrNum) (s : State) :
    counter m (csrReadNum n s).2 = counter m s := by
  obtain ⟨x, k, h⟩ := csrReadNum_state n s
  have h0 : (0 : Nat) ≠ m.val := fun e => hm (Fin.ext e.symm)
  rw [h]
  simp only [counter, Vector.getElem_set_ne _ _ h0]

/-- What completion leaves in the counters, after a read. -/
theorem CsrCompletes.counter_of_read {rd : Reg} {old v : Word} {n : CsrNum} {s p t : State} {l : List CpuId}
    (h : CsrCompletes rd old none s (setReg 0 rd v (csrReadNum n p).2) t) (hp : OtherLanes rd l s p) {m : Fin 32}
    (hm : m ≠ 0) : Machine.counter m t =
      if (m = 2 ∨ m = 7) ∧ counterExists s.cfg m = true
      then BitVec.ofNat 64 (((Machine.counter m s).toNat + 1) % 2 ^ counterWidth s.cfg m) else Machine.counter m s := by
  have hq : Machine.counter m (setReg 0 rd v (csrReadNum n p).2) = Machine.counter m s := by
    rw [counter_congr (setReg_cfg ..) (setReg_counters ..), counter_csrReadNum hm, hp.counter]
  rw [h.counter m, hq]
  simp only [ne_eq, reduceCtorEq, not_false_eq_true, true_and]

/-- A read of either half of a counter (R50 to R52). -/
theorem counter_reads {i : Instr} {rd : Reg} {n : Fin 32} {num : CsrNum} {half : BitVec 64 → Word} {s : State}
    (h0 : s.cur = 0) (hi : i ∈ csrReads rd num)
    (hread : ∀ p, p.cfg = s.cfg → csrReadNum num p = (half (readCounter n p).1, (readCounter n p).2)) :
    (n ≠ 0 ∨ counterExists s.cfg 0 = false → ReadsCsr i rd (half (counter n s)) s) ∧
    (n = 0 → ∃ t, exec i s = .next t ∧ reg 0 rd t = (if rd = 0 then 0 else half (counter 0 t)) ∧ CsrFrame rd s t ∧
      (∀ m, m ≠ 0 → counter m t =
        if (m = 2 ∨ m = 7) ∧ counterExists s.cfg m = true
        then BitVec.ofNat 64 (((counter m s).toNat + 1) % 2 ^ counterWidth s.cfg m) else counter m s) ∧
      SameSystem s { t with drawn := s.drawn }) := by
  constructor
  · intro hn
    refine readsCsr_of_read h0 hi fun p hp => ?_
    have hsame : readCounter n p = (counter n p, p) := by
      by_cases hz : n = 0
      · subst hz
        exact readCounter_absent (by rw [hp.cfg]; exact hn.resolve_left fun h => h rfl)
      · exact readCounter_of_ne hz p
    rw [hread p hp.cfg, hsame, hp.counter]
  · rintro rfl
    obtain ⟨p, t, hp, ht, hc⟩ := csrRead_completes h0 hi
    obtain ⟨hframe, hsystem⟩ := hc.kept ((hp.onlyReads.trans (onlyReads_csrReadNum num p)).trans (onlyReads_setReg 0 rd _ _))
    refine ⟨t, ht, ?_, hframe, fun m hm => hc.counter_of_read hp hm, hsystem⟩
    have hcycle : counter 0 t = (readCounter 0 p).1 := by
      rw [hc.counter 0, if_neg (by simp), counter_congr (setReg_cfg ..) (setReg_counters ..), hread p hp.cfg]
      exact counter_readCounter_self 0 p
    rw [hc.value, hcycle, hread p hp.cfg]

/-- Settles O36, for the low halves and the high halves alike. -/
theorem counterReadBeforeCount : Obligations.CounterReadBeforeCount := by
  intro s rd n i h0 hn
  refine ⟨fun hi => counter_reads h0 hi fun p hp => ?_, fun hi => counter_reads h0 hi fun p hp => ?_⟩
  · rw [csrReadNum, hp, csrOf_counterLo s.cfg hn]; rfl
  · rw [csrReadNum, hp, csrOf_counterHi s.cfg hn]; rfl

end Sys2Proof.Machine
end

section
/-! SUPPORT. CSR accesses that write nothing: of a fixed register, of a number that does not exist, of a read-only register,
and of a CoPU (R30, R31, R34, R41, R42, R54, R58, R59, R79, R270, R271, R279). -/

namespace Sys2Proof.Machine

/-! ### One lane -/

/-- An access of the CePU that reads v, draws nothing, and writes nothing. -/
theorem cepuCsrLane_ignored {a : CsrAccess} (hreads : a.reads = false → a.op = .write ∧ a.rd = 0) {v : Word} {t : State}
    (hread : csrReadNum a.csr t = (v, t))
    (hwrite : a.writes = true → csrReadOnly t.cfg a.csr = false ∧ pnceUnsettled a t = false ∧
      ∀ x u, u.cfg = t.cfg → csrWriteNum a.csr x u = .done u) (x : Word) :
    cepuCsrLane a x t = .done (setReg 0 a.rd v t) := by
  have hor : a.readOr v t = (v, t) := by
    unfold CsrAccess.readOr
    split
    · exact hread
    · rfl
  rw [cepuCsrLane_eq hreads x v, CsrAccess.afterRead, hor]
  cases hw : a.writes with
  | false => simp [pnceUnsettled, hw]
  | true =>
    obtain ⟨hro, hset, hdone⟩ := hwrite hw
    simp [hro, hset, hdone _ _ (setReg_cfg 0 a.rd v t)]

/-- An access of a CoPU that reads v and draws nothing; it writes nothing (R79). -/
theorem copuCsrLane_ignored {a : CsrAccess} (hreads : a.reads = false → a.rd = 0) {c : CpuId} {v : Word} {t : State}
    (hread : copuCsrRead c a.csr t = (v, t)) : copuCsrLane a c t = .done (setReg c a.rd v t) := by
  unfold copuCsrLane
  cases hr : a.reads with
  | true => simp [hread]
  | false => rw [hreads hr, setReg_zero]; rfl

section
variable {op : CsrOp} {imm : Bool} {rd : Reg} {n : CsrNum} {src : BitVec 5} {s : State} {w : CpuId → State → Word}

/-- A form whose access writes rd of each lane with a value of the state before, and nothing else. -/
theorem writesReg_csrForm (hcounter : csrCounter s.cfg n = none)
    (hcepu : 0 ∈ lanes s → ∀ t, t.cfg = s.cfg →
      cepuCsrLane (formAccess op imm rd n src s.cfg) (formOperand imm src 0 t) t = .done (setReg 0 rd (w 0 s) t))
    (hcopu : ∀ c ∈ lanes s, c ≠ 0 → ∀ t, t.cfg = s.cfg →
      copuCsrLane (formAccess op imm rd n src s.cfg) c t = .done (setReg c rd (w c s) t)) :
    WritesReg (csrForm op imm rd n src) .system rd pcPlus4 w s := by
  refine writesReg_onLanes (f := fun c t => if c = 0
    then cepuCsrLane (formAccess op imm rd n src s.cfg) (formOperand imm src c t) t
    else copuCsrLane (formAccess op imm rd n src s.cfg) c t) ?_ fun c hc t ht _ => ?_
  · have hskip : (if (formAccess op imm rd n src s.cfg).writes then csrCounter s.cfg n else none) = none := by
      rw [hcounter]; exact ite_self _
    rw [exec_csrForm, csrInstr, onLanes]
    exact congrArg (fun k => finish .system k (pcPlus4 s) s _) hskip
  · have hcfg : t.cfg = s.cfg := by rw [ht]
    split
    · next h => subst h; exact hcepu hc t hcfg
    · next h => exact hcopu c hc h t hcfg

/-- An access of a register that is not pnce is never held off by a pending transition. -/
theorem pnceUnsettled_of_ne {a : CsrAccess} (h : csrOf s.cfg a.csr ≠ some .pnce) : pnceUnsettled a s = false := by
  simp [pnceUnsettled, h]

/-! ### Numbers that do not exist -/

/-- A form on a number that does not exist, on the CePU. -/
theorem readsCsr_nonexistent (h0 : s.cur = 0) (hn : csrOf s.cfg n = none) : ReadsCsr (csrForm op imm rd n src) rd 0 s := by
  obtain ⟨p, hp, hans⟩ := csrForm_answers (op := op) (imm := imm) (rd := rd) (n := n) (src := src) h0 0
  have hnp : csrOf p.cfg n = none := by rw [hp.cfg]; exact hn
  have hread : csrReadNum n p = (0, p) := by rw [csrReadNum, hnp]
  have hlane : cepuCsrLane (formAccess op imm rd n src s.cfg) (formOperand imm src 0 s) p = .done (setReg 0 rd 0 p) := by
    refine cepuCsrLane_ignored formAccess_reads_false.1 hread (fun _ => ⟨?_, pnceUnsettled_of_ne ?_, fun x u hu => ?_⟩) _
    · show csrReadOnly p.cfg n = false
      rw [csrReadOnly, hnp]
    · show csrOf p.cfg n ≠ _
      rw [hnp]; exact nofun
    · show csrWriteNum n x u = _
      rw [csrWriteNum, hu, hnp]
  have hor : (formAccess op imm rd n src s.cfg).readOr 0 p = (0, p) := by
    unfold CsrAccess.readOr
    split
    · exact hread
    · rfl
  have hcounter : csrCounter s.cfg n = none := by rw [csrCounter, hn]
  rw [hlane, hor, hcounter, ite_self] at hans
  obtain ⟨t, ht, hc⟩ := hans
  exact readsCsr_of_completes h0 hp ht hc

/-- Settles O34. -/
theorem nonexistentCsrsIgnored : Obligations.NonexistentCsrsIgnored := by
  intro s rd src n i
  refine ⟨csrOf_none_iff s.cfg n, fun h0 hn hi => ?_⟩
  obtain ⟨op, imm, rfl⟩ := mem_csrInstrs hi
  exact readsCsr_nonexistent h0 hn

/-! ### Registers that read 0 and ignore writes -/

/-- The registers of R41, R42, R54 and R58. -/
def CsrReg.fixedZero : CsrReg → Bool
  | .mie | .mip | .mhpmevent _ | .mtime | .mtimeh | .mtimecmp | .mtimecmph => true
  | _ => false

theorem csrOf_fixedZero (cfg : Config) {n : CsrNum} (h : n ∈ fixedZeroCsrs) :
    ∃ r, csrOf cfg n = some r ∧ r.fixedZero = true := by
  have events : ∀ k < 29, lookupCsr (BitVec.ofNat 12 (0x323 + k)).toNat tableCsrs = none ∧
      ∃ j, counterCsr (BitVec.ofNat 12 (0x323 + k)).toNat = some (.mhpmevent j) := by decide
  rcases List.mem_append.1 h with h | h
  · simp only [List.mem_cons, List.not_mem_nil, or_false] at h
    rcases h with rfl | rfl | rfl | rfl | rfl | rfl <;> exact ⟨_, rfl, rfl⟩
  · obtain ⟨k, hk, rfl⟩ := List.mem_map.1 h
    obtain ⟨hl, j, hj⟩ := events k (List.mem_range.1 hk)
    exact ⟨.mhpmevent j, by rw [csrOf, hl, hj], rfl⟩

/-- A fixed register reads 0, ignores writes, and is no counter, no read-only register and not pnce. -/
theorem fixedZero_spec {r : CsrReg} (h : r.fixedZero = true) :
    (∀ t, csrRead r t = (0, t)) ∧ (∀ x t, csrWrite r x t = .done t) ∧ r.readOnly = false ∧ r ≠ .pnce ∧
      ∀ j, r ≠ .counterLo j ∧ r ≠ .counterHi j := by
  cases r
  case mie | mip | mhpmevent | mtime | mtimeh | mtimecmp | mtimecmph =>
    exact ⟨fun _ => rfl, fun _ _ => rfl, rfl, nofun, fun _ => ⟨nofun, nofun⟩⟩
  all_goals cases h

theorem csrCounter_none {cfg : Config} {r : CsrReg} (hr : csrOf cfg n = some r)
    (h : ∀ j, r ≠ .counterLo j ∧ r ≠ .counterHi j) : csrCounter cfg n = none := by
  unfold csrCounter
  rw [hr]
  split
  · next j e => exact absurd (Option.some.inj e) (h j).1
  · next j e => exact absurd (Option.some.inj e) (h j).2
  · rfl

/-- Settles O33: the one lane is the CePU, whose access reads 0 and writes nothing. -/
theorem fixedZeroCsrsIgnoreWrites : Obligations.FixedZeroCsrsIgnoreWrites := by
  intro s rd src n i h0 hg hn hi
  obtain ⟨op, imm, rfl⟩ := mem_csrInstrs hi
  obtain ⟨r, hr, hz⟩ := csrOf_fixedZero s.cfg hn
  obtain ⟨hread, hwrite, hro, hpnce, hctr⟩ := fixedZero_spec hz
  refine writesReg_csrForm (csrCounter_none hr hctr) (fun _ t ht => ?_) fun c hc hne => ?_
  · have hrt : csrOf t.cfg n = some r := by rw [ht]; exact hr
    refine cepuCsrLane_ignored formAccess_reads_false.1 ?_ (fun _ => ⟨?_, pnceUnsettled_of_ne ?_, fun x u hu => ?_⟩) _
    · show csrReadNum n t = _
      rw [csrReadNum, hrt]; exact hread t
    · show csrReadOnly t.cfg n = false
      rw [csrReadOnly, hrt]; exact hro
    · show csrOf t.cfg n ≠ _
      rw [hrt]; exact fun e => hpnce (Option.some.inj e)
    · show csrWriteNum n x u = _
      rw [csrWriteNum, hu, hrt]; exact hwrite x u
  · rw [lanes_of_not_grouped hg, h0, List.mem_singleton] at hc
    exact absurd hc hne

/-! ### Read-only registers -/

/-- A form that writes a read-only register raises Illegal instruction, before anything is read (R270 (2)). -/
theorem exec_write_readOnly {i : Instr} (h0 : s.cur = 0) (hro : csrReadOnly s.cfg n = true) (hi : i ∈ csrWrites rd n src) :
    exec i s = raiseException .system .illegal (illegalTval s.cfg (encode s.cfg i)) s := by
  obtain ⟨op, imm, hw, rfl⟩ := mem_csrWrites hi
  obtain ⟨p, hp, hans⟩ := csrForm_answers (op := op) (imm := imm) (rd := rd) (n := n) (src := src) h0 0
  have hlane : cepuCsrLane (formAccess op imm rd n src s.cfg) (formOperand imm src 0 s) p =
      .raises .illegal (illegalTval s.cfg (encode s.cfg (csrForm op imm rd n src))) := by
    have hwp : (formAccess op imm rd n src s.cfg).writes = true := formAccess_writes.2 hw
    rw [cepuCsrLane_eq formAccess_reads_false.1 _ 0, hwp, Bool.true_and, if_pos]
    · rw [hp.cfg]; rfl
    · rw [hp.cfg]; exact hro
  rw [hlane] at hans
  exact hans

theorem raises_write_readOnly {i : Instr} (h0 : s.cur = 0) (hg : grouped s = false) (hro : csrReadOnly s.cfg n = true)
    (hi : i ∈ csrWrites rd n src) : Raises i .system 2 (if s.cfg.mtvalIllegalWord then encode s.cfg i else 0) s :=
  raises_of hg (exec_write_readOnly h0 hro hi)

theorem csrReadOnly_of_mem {cfg : Config} (hw : Config.Wf cfg) (h : n ∈ readOnlyCsrs cfg) : csrReadOnly cfg n = true := by
  have pn : ∀ r, (n, r) ∈ pnCsrs cfg.csrNums → r.readOnly = true → csrReadOnly cfg n = true := fun r hr hro => by
    rw [csrReadOnly, csrOf_pn hw hr]; exact hro
  simp only [readOnlyCsrs, List.mem_cons, List.not_mem_nil, or_false] at h
  rcases h with rfl | rfl | rfl | rfl | rfl | rfl | rfl | rfl | rfl | rfl | rfl | rfl | rfl | rfl
  · rfl
  · rfl
  · rfl
  · rfl
  · rfl
  · exact pn .pncpus (by simp [pnCsrs]) rfl
  · exact pn .pnm2cp (by simp [pnCsrs]) rfl
  · exact pn .pnx (by simp [pnCsrs]) rfl
  · exact pn .pncause (by simp [pnCsrs]) rfl
  · exact pn .pnepc (by simp [pnCsrs]) rfl
  · exact pn .pncacheinfo (by simp [pnCsrs]) rfl
  · exact pn .pncachesets (by simp [pnCsrs]) rfl
  · exact pn .pnclockinfo (by simp [pnCsrs]) rfl
  · exact pn .pnmemsize (by simp [pnCsrs]) rfl

/-- Settles O30. -/
theorem readOnlyCsrWriteRaises : Obligations.ReadOnlyCsrWriteRaises := by
  intro s rd src n i hw h0 hg hn hi
  exact raises_write_readOnly h0 hg (csrReadOnly_of_mem hw hn) hi

/-- A register that reads the same on every lane, by a form that does not write (R279). -/
theorem writesReg_csrRead {i : Instr} (hi : i ∈ csrReads rd n) (hcounter : csrCounter s.cfg n = none)
    (hcepu : ∀ t, t.cfg = s.cfg → csrReadNum n t = (w 0 s, t))
    (hcopu : ∀ c ∈ lanes s, c ≠ 0 → ∀ t, t.cfg = s.cfg → copuCsrRead c n t = (w c s, t)) :
    WritesReg i .system rd pcPlus4 w s := by
  obtain ⟨op, imm, hop, rfl⟩ := mem_csrReads hi
  have hw : ¬(formAccess op imm rd n 0 s.cfg).writes = true := by simpa [formAccess] using hop
  exact writesReg_csrForm hcounter
    (fun _ t ht => cepuCsrLane_ignored formAccess_reads_false.1 (hcepu t ht) (fun h => absurd h hw) _)
    fun c hc hne t ht => copuCsrLane_ignored (fun h => (formAccess_reads_false.1 h).2) (hcopu c hc hne t ht)

/-- Any form on a CoPU, of a register that a CoPU's read gives without a draw (R79). -/
theorem writesReg_copu {i : Instr} (h0 : s.cur ≠ 0) (hi : i ∈ csrInstrs rd n src) (hcounter : csrCounter s.cfg n = none)
    (hread : ∀ t, t.cfg = s.cfg → copuCsrRead s.cur n t = (w s.cur s, t)) : WritesReg i .system rd pcPlus4 w s := by
  obtain ⟨op, imm, rfl⟩ := mem_csrInstrs hi
  have only : ∀ c ∈ lanes s, c = s.cur := fun c hc => by rwa [lanes_copu h0, List.mem_singleton] at hc
  refine writesReg_csrForm hcounter (fun hm => absurd (only 0 hm).symm h0) fun c hc _ t ht => ?_
  rw [only c hc]
  exact copuCsrLane_ignored (fun h => (formAccess_reads_false.1 h).2) (hread t ht)

end

/-- The forms that write are among the six. -/
theorem csrWrites_subset {rd : Reg} {n : CsrNum} {src : BitVec 5} {i : Instr} (h : i ∈ csrWrites rd n src) :
    i ∈ csrInstrs rd n src := by
  obtain ⟨op, imm, -, rfl⟩ := mem_csrWrites h
  cases op <;> cases imm <;> simp [csrForm, csrInstrs]

/-- Settles O31. -/
theorem mvendoridFixedZero : Obligations.MvendoridFixedZero := by
  intro s rd src i
  refine ⟨fun hi => writesReg_csrRead hi rfl (fun _ _ => rfl) fun _ _ _ _ _ => rfl, fun hi => ⟨fun h0 hg => ?_, fun h0 hg => ?_,
    fun h0 => writesReg_copu h0 (csrWrites_subset hi) rfl fun _ _ => rfl⟩⟩
  · exact raises_write_readOnly h0 hg rfl hi
  · rw [exec_write_readOnly h0 rfl hi, raiseException, if_pos hg]

/-- Settles O32. -/
theorem marchidFixedZero : Obligations.MarchidFixedZero := by
  intro s rd src i h0 hg
  refine ⟨fun hi => writesReg_csrRead hi rfl (fun _ _ => rfl) fun c hc hne => ?_, raises_write_readOnly h0 hg rfl⟩
  rw [lanes_of_not_grouped hg, h0, List.mem_singleton] at hc
  exact absurd hc hne

/-! ### Accesses of a CoPU -/

/-- Any form on a CoPU completes, and of all but its own rd, its pc and the number of drawn values nothing changes (R79). -/
theorem exec_csr_copu {i : Instr} {rd : Reg} {n : CsrNum} {src : BitVec 5} {s : State} (h0 : s.cur ≠ 0)
    (hi : i ∈ csrInstrs rd n src) :
    ∃ v k, exec i s = .next (setPc s.cur (pcPlus4 s) (setReg s.cur rd v { s with drawn := k })) := by
  obtain ⟨op, imm, rfl⟩ := mem_csrInstrs hi
  rw [exec_csrForm, csrInstr_copu h0]
  have completes : ∀ u : State, u.cur = s.cur → ∀ skip,
      finish .system skip (pcPlus4 s) s (.done u) = .next (setPc s.cur (pcPlus4 s) u) := fun u hu skip => by
    rw [finish_done, hu, retire_copu]
    rw [setPc_cur, hu]
    exact h0
  obtain ⟨v, k, h | h⟩ := copuCsrLane_done (formAccess op imm rd n src s.cfg) s.cur s
  · exact ⟨v, k, by rw [h]; exact completes _ (by rw [setReg_cur]) _⟩
  · refine ⟨reg s.cur rd s, s.drawn, ?_⟩
    have hsame : setReg s.cur rd (reg s.cur rd s) s = s := by
      unfold setReg reg
      split
      · rfl
      · rw [Vector.set_getElem_self]; exact setCpu_same s s.cur
    rw [h, completes s rfl, hsame]

/-- Settles O40: a CoPU's access is a write of its own rd; a form of the CePU that does not write leaves all but rd of the
lanes, mcycle and the counts. -/
theorem copuCsrAccess : Obligations.CopuCsrAccess := by
  intro s rd src n i
  refine ⟨fun h0 hi => ⟨?_, ?_, ?_⟩, fun h0 hi => ⟨?_, ?_⟩⟩
  · obtain ⟨v, k, h⟩ := exec_csr_copu h0 hi
    refine ⟨_, h, fun c r hcr => ?_, by simp, fun c hc => ?_, fun m => counter_congr (by simp) (by simp) m,
      ⟨by simp, by simp, by simp, by simp, by simp, by simp, by simp, by simp, by simp, by simp, by simp, by simp, by simp⟩,
      ⟨by simp, by simp, by simp, by simp, by simp, fun c => by simp, fun c => by simp⟩,
      sameMemory_of (by simp) (by simp) (fun c => by simp) (by simp) (by simp) (by simp), fun c => by simp⟩
    · rw [reg_setPc, reg_setReg, if_neg (fun e => hcr.elim (· e.1) (· e.2.1))]
      rfl
    · rw [pcOf_setPc, if_neg hc, pcOf_setReg]
      rfl
  · rintro rfl
    exact writesReg_copu h0 hi rfl fun _ _ => rfl
  · rintro rfl
    exact writesReg_copu h0 hi rfl fun _ _ => rfl
  · obtain ⟨p, t, hp, ht, hc⟩ := csrRead_completes h0 hi
    obtain ⟨hframe, hsystem⟩ := hc.kept ((hp.onlyReads.trans (onlyReads_csrReadNum n p)).trans (onlyReads_setReg 0 rd _ _))
    exact ⟨t, ht, hframe, hsystem, fun m hm => hc.counter_of_read hp hm⟩
  · rintro rfl
    exact writesReg_csrRead hi rfl (fun _ _ => rfl) fun _ _ _ _ _ => rfl

end Sys2Proof.Machine
end

section
/-! SUPPORT. What the CePU's CSR writes come to, with or without a linked group: counters, pngrpsel, pnce, pnlm, pnxsel and
pncache (R50 to R55, R61 to R65, R69, R70, R270 to R279, R327 to R329, R354). -/

namespace Sys2Proof.Machine

/-! ### A form that writes -/

section
variable {op : CsrOp} {imm : Bool} {rd : Reg} {n : CsrNum} {src : BitVec 5} {s : State} {r : CsrReg}

theorem pnceUnsettled_lanes {l : List CpuId} {p : State} (a : CsrAccess) (hp : OtherLanes rd l s p) :
    pnceUnsettled a p = pnceUnsettled a s := by
  rw [hp.rest]; rfl

/-- A form that writes a register which may be written: it is held off by a pending transition of pnce, or the write of the
register decides, after the read (R270, R278). -/
theorem csrForm_writes (h0 : s.cur = 0) (hw : op = .write ∨ src ≠ 0) (hr : csrOf s.cfg n = some r)
    (hro : r.readOnly = false) (d : Word) :
    let a := formAccess op imm rd n src s.cfg
    ∃ p, OtherLanes rd (lanes s) s p ∧
      (pnceUnsettled a s = true → exec (csrForm op imm rd n src) s = .refused .pnceTransitionPending) ∧
      (pnceUnsettled a s = false →
        CsrAnswers (exec (csrForm op imm rd n src) s) rd (a.readOr d p).1 (csrCounter s.cfg n) s
          (csrWrite r (op.new (a.readOr d p).1 (formOperand imm src 0 s)) (a.afterRead d p))) := by
  intro a
  obtain ⟨p, hp, hans⟩ := csrForm_answers (op := op) (imm := imm) (rd := rd) (n := n) (src := src) h0 d
  have hcfg : (a.afterRead d p).cfg = s.cfg := by rw [onlyReads_afterRead a d p]; exact hp.cfg
  have hnot : csrReadOnly p.cfg n = false := by rw [csrReadOnly, hp.cfg, hr]; exact hro
  have hnum : ∀ x, csrWriteNum n x (a.afterRead d p) = csrWrite r x (a.afterRead d p) := fun x => by
    rw [csrWriteNum, hcfg, hr]
  have hwp : (formAccess op imm rd n src s.cfg).writes = true := formAccess_writes.2 hw
  rw [cepuCsrLane_eq formAccess_reads_false.1 _ d, hwp, pnceUnsettled_lanes _ hp] at hans
  have hans : CsrAnswers (exec (csrForm op imm rd n src) s) rd (a.readOr d p).1 (csrCounter s.cfg n) s
      (if csrReadOnly p.cfg n then .raises .illegal (illegalTval p.cfg a.word)
       else if pnceUnsettled a s then .refuse .pnceTransitionPending
       else csrWriteNum n (op.new (a.readOr d p).1 (formOperand imm src 0 s)) (a.afterRead d p)) := hans
  rw [hnot, hnum] at hans
  refine ⟨p, hp, fun hset => ?_, fun hset => ?_⟩
  · rw [hset] at hans; exact hans
  · rw [hset] at hans; exact hans

/-- A form that writes a register other than pnce whose read gives `old` without a draw. -/
theorem csrWriteForm_answers {i : Instr} {old v : Word} (h0 : s.cur = 0) (hi : (i, v) ∈ csrWriteForms rd n src old s)
    (hr : csrOf s.cfg n = some r) (hro : r.readOnly = false) (hne : r ≠ .pnce)
    (hread : ∀ p, OtherLanes rd (lanes s) s p → csrReadNum n p = (old, p)) :
    ∃ p, OtherLanes rd (lanes s) s p ∧
      CsrAnswers (exec i s) rd old (csrCounter s.cfg n) s (csrWrite r v (setReg 0 rd old p)) := by
  obtain ⟨op, imm, hw, rfl, rfl⟩ := mem_csrWriteForms hi
  obtain ⟨p, hp, -, hans⟩ := csrForm_writes (imm := imm) (rd := rd) h0 hw hr hro old
  have hor : (formAccess op imm rd n src s.cfg).readOr old p = (old, p) := by
    unfold CsrAccess.readOr
    split
    · exact hread p hp
    · rfl
  have hset : pnceUnsettled (formAccess op imm rd n src s.cfg) s = false := by
    refine pnceUnsettled_of_ne ?_
    show csrOf s.cfg n ≠ _
    rw [hr]
    exact fun e => hne (Option.some.inj e)
  have hans := hans hset
  rw [CsrAccess.afterRead, hor] at hans
  exact ⟨p, hp, hans⟩

/-- After a read that draws nothing, nothing is drawn unless another lane draws. -/
theorem CsrCompletes.drawn_of {old : Word} {skip : Option (Fin 32)} {p q t : State} (h : CsrCompletes rd old skip s q t)
    (h0 : s.cur = 0) (hp : OtherLanes rd (lanes s) s p) (hq : q.drawn = p.drawn) (hg : grouped s = false) :
    t.drawn = s.drawn := by
  have hl : lanes s = [0] := by rw [lanes_of_not_grouped hg, h0]
  rw [h.drawn hg, hq, hp.none (.inr hl)]

end

/-! ### pnxsel, pncache, pncause and pnepc -/

section
variable {s : State} {rd : Reg} {src : BitVec 5} {i : Instr} {v : Word}

/-- The state in which the CePU's access writes its register, when its read draws nothing. -/
theorem onlyReads_access {p : State} (hp : OtherLanes rd (lanes s) s p) (old : Word) : OnlyReads s (setReg 0 rd old p) :=
  hp.onlyReads.trans (onlyReads_setReg 0 rd old p)

theorem counter_access {p : State} (hp : OtherLanes rd (lanes s) s p) (old : Word) (m : Fin 32) :
    counter m (setReg 0 rd old p) = counter m s :=
  (counter_congr (setReg_cfg ..) (setReg_counters ..) m).trans (hp.counter m)

theorem pnxsel_write (hw : Config.Wf s.cfg) (h0 : s.cur = 0) (hi : (i, v) ∈ csrWriteForms rd s.cfg.csrNums.xsel src s.pnxsel s) :
    WritesCsr i rd s.pnxsel s fun t => t.pnxsel = v &&& cpuMask s ∧ SameSystemButDrawn s { t with pnxsel := s.pnxsel } := by
  have hr : csrOf s.cfg s.cfg.csrNums.xsel = some .pnxsel := csrOf_pn hw (by simp [pnCsrs])
  obtain ⟨p, hp, hans⟩ := csrWriteForm_answers h0 hi hr rfl nofun fun p hp => by
    rw [hp.csrReadNum hr, hp.rest]; rfl
  rw [csrCounter_none hr (fun j => ⟨nofun, nofun⟩)] at hans
  obtain ⟨t, ht, hc⟩ := hans
  have hu := onlyReads_access hp s.pnxsel
  have hrest := hc.rest
  refine ⟨t, ht, hc.value, hc.csrFrame (by show (setReg 0 rd s.pnxsel p).pncache = _; rw [hu]),
    hc.counted h0 (counter_access hp s.pnxsel), ?_, ?_, hc.drawn_of h0 hp (setReg_drawn ..)⟩
  · rw [hrest]
    show v &&& cpuMask (setReg 0 rd s.pnxsel p) = _
    rw [hu]; rfl
  · have hback : OnlyReads s { t with pnxsel := s.pnxsel } := by
      unfold OnlyReads
      rw [hrest, hu]
    exact hback.sameSystem hc.record

/-- The bits that pncache keeps (R65). -/
theorem getLsbD_pncache (v : Word) (x y : CpuId) (b : Nat) :
    (v &&& (cpuBit x ||| cpuBit y)).getLsbD b = (v.getLsbD b && (b == x.val || b == y.val)) := by
  by_cases hb : b < 32
  · have hbit := hasBit_and v (cpuBit x ||| cpuBit y) ⟨b, hb⟩
    rw [hasBit_or, hasBit_cpuBit, hasBit_cpuBit] at hbit
    simpa [hasBit, Fin.ext_iff, beq_eq_decide] using hbit
  · rw [BitVec.getLsbD_of_ge _ _ (not_lt.1 hb), BitVec.getLsbD_of_ge _ _ (not_lt.1 hb), Bool.false_and]

theorem pncache_write (hw : Config.Wf s.cfg) (h0 : s.cur = 0)
    (hi : (i, v) ∈ csrWriteForms rd s.cfg.csrNums.cache src s.pncache s) :
    ∃ t, exec i s = .next t ∧ reg 0 rd t = (if rd = 0 then 0 else s.pncache) ∧
      (∀ b, t.pncache.getLsbD b = (v.getLsbD b && (b == s.cfg.ienBit.val || b == s.cfg.denBit.val))) ∧
      CsrFrame rd s { t with pncache := s.pncache } ∧ Counted .system s t ∧
      SameSystemButDrawn s { t with pncache := s.pncache } := by
  have hr : csrOf s.cfg s.cfg.csrNums.cache = some .pncache := csrOf_pn hw (by simp [pnCsrs])
  obtain ⟨p, hp, hans⟩ := csrWriteForm_answers h0 hi hr rfl nofun fun p hp => by
    rw [hp.csrReadNum hr, hp.rest]; rfl
  rw [csrCounter_none hr (fun j => ⟨nofun, nofun⟩)] at hans
  obtain ⟨t, ht, hc⟩ := hans
  have hu := onlyReads_access hp s.pncache
  have hrest := hc.rest
  refine ⟨t, ht, hc.value, fun b => ?_, hc.frame, hc.counted h0 (counter_access hp s.pncache), ?_,
    hc.drawn_of h0 hp (setReg_drawn ..)⟩
  · rw [← getLsbD_pncache, hrest]
    show (v &&& (cpuBit (setReg 0 rd s.pncache p).cfg.ienBit ||| cpuBit (setReg 0 rd s.pncache p).cfg.denBit)).getLsbD b = _
    rw [hu]
  · have hback : OnlyReads s { t with pncache := s.pncache } := by
      unfold OnlyReads
      rw [hrest, hu]
    exact hback.sameSystem hc.record

theorem cpuBit_inj {c d : CpuId} (h : cpuBit c = cpuBit d) : c = d := by
  have hbit := hasBit_cpuBit d c
  rw [← h, hasBit_cpuBit] at hbit
  simpa using hbit.symm

/-- The one CoPU whose bit alone is set is selected (R64, R69). -/
theorem selectedCopu_of {c : CpuId} (h0 : c ≠ 0) (hlt : c.val < s.cfg.numCpus) (h : s.pnxsel = cpuBit c) :
    selectedCopu s = some c := by
  have hc : (c != 0 && decide (c.val < s.cfg.numCpus) && s.pnxsel == cpuBit c) = true := by simp [h0, hlt, h]
  unfold selectedCopu
  cases hf : cpuIds.find? (fun c => c != 0 && decide (c.val < s.cfg.numCpus) && s.pnxsel == cpuBit c) with
  | none => exact absurd hc (List.find?_eq_none.1 hf c (mem_cpuIds c))
  | some d =>
    have hd := List.find?_some hf
    simp only [Bool.and_eq_true, beq_iff_eq] at hd
    rw [cpuBit_inj (hd.2.symm.trans h)]

/-- A read of a value of the selected CoPU, which no lane changes (R69, R70). -/
theorem readsCsr_selected {n : CsrNum} {f : Cpu → Word} {c : CpuId} (h0 : s.cur = 0) (hi : i ∈ csrReads rd n)
    (hn : ∀ p, OtherLanes rd (lanes s) s p → csrReadNum n p = ofSelected f p) (hf : ∀ x regs, f { x with regs := regs } = f x)
    (hc : c ≠ 0) (hlt : c.val < s.cfg.numCpus) (hsel : s.pnxsel = cpuBit c) : ReadsCsr i rd (f (s.cpu c)) s := by
  refine readsCsr_of_read h0 hi fun p hp => ?_
  have hp' : selectedCopu p = some c := by
    refine selectedCopu_of hc (by rw [hp.cfg]; exact hlt) ?_
    rw [hp.rest]; exact hsel
  have hvalue : f (p.cpu c) = f (s.cpu c) := by rw [hp.cpu c, hf]
  rw [hn p hp, ofSelected, hp', ← hvalue]

/-- Settles O39. -/
theorem exceptionSelectShowsCopu : Obligations.ExceptionSelectShowsCopu := by
  intro s rd src i v hw h0
  refine ⟨pnxsel_write hw h0, pncache_write hw h0, fun c hc hlt hsel => ⟨fun hi => ?_, fun hi => ?_⟩⟩
  · have hr : csrOf s.cfg s.cfg.csrNums.cause = some .pncause := csrOf_pn hw (by simp [pnCsrs])
    exact readsCsr_selected h0 hi (fun p hp => hp.csrReadNum hr) (fun _ _ => rfl) hc hlt hsel
  · have hr : csrOf s.cfg s.cfg.csrNums.epc = some .pnepc := csrOf_pn hw (by simp [pnCsrs])
    exact readsCsr_selected h0 hi (fun p hp => hp.csrReadNum hr) (fun _ _ => rfl) hc hlt hsel

end

/-! ### Counters -/

/-- A read of a counter changes no other counter. -/
theorem counter_readCounter_of_ne {m n : Fin 32} (h : m ≠ n) (s : State) :
    counter m (readCounter n s).2 = counter m s := by
  by_cases hn : n = 0
  · subst hn
    have h0 : (0 : Nat) ≠ m.val := fun e => h (Fin.ext e.symm)
    cases he : counterExists s.cfg 0 with
    | false => rw [readCounter_absent he]
    | true => simp [readCounter, readCycle, counter, he, Vector.getElem_set_ne _ _ h0]
  · rw [readCounter_of_ne hn]

theorem onlyReads_setCounter (n : Fin 32) (v : BitVec 64) (s : State) : OnlyReads s (setCounter n v s) := by
  unfold OnlyReads
  rw [setCounter_eq]

/-- A write of either half of a counter (R55). What is read, or would be, is the half of what the counter holds when the
write is made. -/
theorem counter_writes {i : Instr} {rd : Reg} {n : Fin 32} {num : CsrNum} {src : BitVec 5} {r : CsrReg}
    {half : BitVec 64 → Word} {new : BitVec 64 → Word → BitVec 64} {s : State} (h0 : s.cur = 0)
    (hex : counterExists s.cfg n = true) (hr : csrOf s.cfg num = some r) (hro : r.readOnly = false) (hne : r ≠ .pnce)
    (hcounter : csrCounter s.cfg num = some n)
    (hread : ∀ p, csrRead r p = (half (readCounter n p).1, (readCounter n p).2))
    (hwrite : ∀ x u, csrWrite r x u = .done (setCounter n (new (counter n u) x) u)) (hi : i ∈ csrWrites rd num src) :
    ∃ old : BitVec 64, (n ≠ 0 ∨ i = .csrrw 0 num src ∨ i = .csrrwi 0 num src → old = counter n s) ∧
      ∀ v, (i, v) ∈ csrWriteForms rd num src (half old) s →
      ∃ t, exec i s = .next t ∧
        counter n t = BitVec.ofNat 64 ((new old v).toNat % 2 ^ counterWidth s.cfg n) ∧
        (∀ m, m ≠ n → counter m t =
          if (m = 2 ∨ m = 7) ∧ counterExists s.cfg m = true
          then BitVec.ofNat 64 (((counter m s).toNat + 1) % 2 ^ counterWidth s.cfg m) else counter m s) ∧
        reg 0 rd t = (if rd = 0 then 0 else half old) ∧ CsrFrame rd s t ∧ SameSystem s { t with drawn := s.drawn } := by
  obtain ⟨op, imm, hw, rfl⟩ := mem_csrWrites hi
  obtain ⟨p, hp, -, hans⟩ := csrForm_writes (imm := imm) (rd := rd) h0 hw hr hro (half (counter n s))
  have hans := hans (pnceUnsettled_of_ne (by
    show csrOf s.cfg num ≠ _
    rw [hr]; exact fun e => hne (Option.some.inj e)))
  generalize ha : formAccess op imm rd num src s.cfg = a at hans
  have hreads : a.reads = false ↔ op = .write ∧ rd = 0 := by rw [← ha]; exact formAccess_reads_false
  have hcsr : a.csr = num := by rw [← ha]; rfl
  -- the counters after the read, by whether the form reads
  have counters : ∀ m, counter m (a.afterRead (half (counter n s)) p) = counter m (a.readOr (half (counter n s)) p).2 :=
    fun m => counter_congr (setReg_cfg ..) (setReg_counters ..) m
  have unread : a.reads = false → a.readOr (half (counter n s)) p = (half (counter n s), p) := fun h => by
    rw [CsrAccess.readOr, h]; rfl
  have read : a.reads = true →
      a.readOr (half (counter n s)) p = (half (readCounter n p).1, (readCounter n p).2) := fun h => by
    rw [CsrAccess.readOr, h, hcsr, hp.csrReadNum hr, hread]; rfl
  have hhalf : (a.readOr (half (counter n s)) p).1 = half (counter n (a.afterRead (half (counter n s)) p)) := by
    rw [counters]
    cases h : a.reads with
    | false => rw [unread h, hp.counter]
    | true => rw [read h, counter_readCounter_self]
  have hothers : ∀ m, m ≠ n → counter m (a.afterRead (half (counter n s)) p) = counter m s := fun m hm => by
    rw [counters]
    cases h : a.reads with
    | false => rw [unread h, hp.counter]
    | true => rw [read h, counter_readCounter_of_ne hm, hp.counter]
  refine ⟨counter n (a.afterRead (half (counter n s)) p), fun h => ?_, fun v hv => ?_⟩
  · rw [counters]
    cases hrd : a.reads with
    | false => rw [unread hrd, hp.counter]
    | true =>
      have hn : n ≠ 0 := h.resolve_right fun h => by
        obtain ⟨hop, hz⟩ := csrForm_write_iff.1 h
        rw [hreads.2 ⟨hop, hz⟩] at hrd
        cases hrd
      rw [read hrd, readCounter_of_ne hn, hp.counter]
  · rw [value_of_mem hv, ← hhalf]
    rw [hwrite, hcounter] at hans
    generalize op.new _ _ = x at hans ⊢
    obtain ⟨t, ht, hc⟩ := hans
    have hu : OnlyReads s (a.afterRead (half (counter n s)) p) := hp.onlyReads.trans (onlyReads_afterRead a _ p)
    have hcfg : (a.afterRead (half (counter n s)) p).cfg = s.cfg := by rw [hu]
    obtain ⟨hframe, hsystem⟩ := hc.kept (hu.trans (onlyReads_setCounter n _ _))
    refine ⟨t, ht, ?_, fun m hm => ?_, hc.value, hframe, hsystem⟩
    · rw [hc.counter n, if_neg (fun h => h.2.1 rfl), counter_setCounter, hcfg, if_pos ⟨rfl, hex⟩]
      rfl
    · have hskip : some n ≠ some m := fun e => hm (Option.some.inj e).symm
      have hkept : counter m (setCounter n (new (counter n (a.afterRead (half (counter n s)) p)) x)
          (a.afterRead (half (counter n s)) p)) = counter m s := by
        rw [counter_setCounter, if_neg (fun h => hm h.1), hothers m hm]
      rw [hc.counter m, hkept]
      simp only [hskip, ne_eq, not_false_eq_true, true_and]

/-- Settles O35, for the low halves and the high halves alike. -/
theorem counterWriteReplacesCount : Obligations.CounterWriteReplacesCount := by
  intro s rd src n i h0 hn hex
  have lo := csrOf_counterLo s.cfg hn
  have hi := csrOf_counterHi s.cfg hn
  exact ⟨counter_writes h0 hex lo rfl nofun (by rw [csrCounter, lo]) (fun _ => rfl) fun _ _ => rfl,
    counter_writes h0 hex hi rfl nofun (by rw [csrCounter, hi]) (fun _ => rfl) fun _ _ => rfl⟩

/-! ### pnlm -/

/-- The bits of inactive CoPUs of capability 1 that a write to pnlm would clear (R63, U2). -/
def clearedUnlinked (v : Word) (s : State) : Word :=
  maskOf (fun c => s.cfg.cap c == .linked) &&& copuMask s &&& ~~~(v &&& copuMask s) &&& ~~~(s.pnceReq ||| s.active)

/-- The guard of a pnlm write looks at the bits of CoPUs alone. -/
theorem pnlm_guard (v l m b : Word) : (v &&& m ^^^ l) &&& m &&& b = (v ^^^ l) &&& m &&& b := by
  refine word_ext fun c => ?_
  simp only [hasBit_and, hasBit_xor]
  cases hasBit m c <;> simp

/-- A write to pnlm that changes no bit of an enabled or active CoPU (R63, R329). -/
theorem writePnlm_done {v : Word} {s : State} (h : (v ^^^ s.pnlm) &&& copuMask s &&& (s.pnceReq ||| s.active) = 0) :
    ∃ w k, writePnlm v s = .done { s with
      pnlm := (v &&& copuMask s) ||| (w &&& clearedUnlinked v s), pnlmIllegal := clearedUnlinked v s, drawn := k } := by
  unfold writePnlm
  dsimp only
  rw [pnlm_guard, if_neg (not_not.2 h)]
  split
  · next ho =>
    have ho : clearedUnlinked v s = 0 := ho
    refine ⟨0, s.drawn, ?_⟩
    rw [ho, show (v &&& copuMask s ||| 0 &&& 0) = v &&& copuMask s from word_ext fun c => by simp]
  · exact ⟨_, _, rfl⟩

theorem writePnlm_refused {v : Word} {s : State} (h : (v ^^^ s.pnlm) &&& copuMask s &&& (s.pnceReq ||| s.active) ≠ 0) :
    writePnlm v s = .refuse .modeChangedWhileEnabled := by
  unfold writePnlm
  dsimp only
  rw [pnlm_guard, if_pos h]

theorem hasBit_clearedUnlinked {v : Word} {s : State} {c : CpuId} (h0 : c ≠ 0) (hlt : c.val < s.cfg.numCpus) :
    hasBit (clearedUnlinked v s) c =
      (s.cfg.cap c == .linked && !hasBit v c && !hasBit (s.pnceReq ||| s.active) c) := by
  simp [clearedUnlinked, h0, hlt]

section
variable {s : State} {rd : Reg} {src : BitVec 5} {i : Instr} {v : Word}

theorem pnlm_answers (hw : Config.Wf s.cfg) (h0 : s.cur = 0) (hi : (i, v) ∈ csrWriteForms rd s.cfg.csrNums.lm src s.pnlm s) :
    ∃ p, OtherLanes rd (lanes s) s p ∧
      CsrAnswers (exec i s) rd s.pnlm none s (writePnlm v (setReg 0 rd s.pnlm p)) := by
  have hr : csrOf s.cfg s.cfg.csrNums.lm = some .pnlm := csrOf_pn hw (by simp [pnCsrs])
  obtain ⟨p, hp, hans⟩ := csrWriteForm_answers h0 hi hr rfl nofun fun p hp => by
    rw [hp.csrReadNum hr, hp.rest]; rfl
  rw [csrCounter_none hr (fun j => ⟨nofun, nofun⟩)] at hans
  exact ⟨p, hp, hans⟩

end

/-- Settles O38. -/
theorem pnlmWriteChoosesMode : Obligations.PnlmWriteChoosesMode := by
  intro s rd src i v hw h0 hi busy hbusy
  obtain ⟨p, hp, hans⟩ := pnlm_answers hw h0 hi
  have hu := onlyReads_access hp s.pnlm
  have hcounters := counter_access hp s.pnlm
  generalize setReg 0 rd s.pnlm p = u at hans hu hcounters
  obtain ⟨w, k, hdone⟩ := writePnlm_done (v := v) (s := u) (by rw [hu]; exact hbusy)
  have hcleared : clearedUnlinked v u = clearedUnlinked v s := by rw [hu]; rfl
  rw [hdone, hcleared] at hans
  obtain ⟨t, ht, hc⟩ := hans
  have hrest := hc.rest
  have hlm : t.pnlm = (v &&& copuMask s) ||| (w &&& clearedUnlinked v s) := by
    rw [hrest]
    show (v &&& copuMask u) ||| _ = _
    rw [hu]; rfl
  have hill : t.pnlmIllegal = clearedUnlinked v s := by rw [hrest]
  refine ⟨t, ht, hc.value, hc.csrFrame (by show u.pncache = _; rw [hu]), hc.counted h0 hcounters,
    fun c hne hlt => ⟨fun hkeep => ?_, fun hcap hv hb => ?_⟩, ?_, ?_⟩
  · have hbit : hasBit (clearedUnlinked v s) c = false := by
      rw [hasBit_clearedUnlinked hne hlt]
      rcases hkeep with h | h | h
      · simp [h]
      · simp [h]
      · rw [show hasBit (s.pnceReq ||| s.active) c = true from h]; simp
    rw [hlm, hill]
    simp [hbit, hne, hlt]
  · rw [hill, hasBit_clearedUnlinked hne hlt, hcap, hv, show hasBit (s.pnceReq ||| s.active) c = false from hb]
    rfl
  · rw [hlm]
    refine and_not_eq_zero_iff.2 fun c hbit => ?_
    simp only [hasBit_or, hasBit_and, clearedUnlinked, Bool.or_eq_true, Bool.and_eq_true] at hbit
    exact hbit.elim (·.2) (·.2.1.1.2)
  · have hback : OnlyReads s { t with pnlm := s.pnlm, pnlmIllegal := s.pnlmIllegal } := by
      unfold OnlyReads
      rw [hrest, hu]
    exact hback.sameSystem hc.record

/-! ### pnce -/

section
variable {v : Word} {s : State}

/-- The guard of pnce against unlinked CoPUs of capability 1, CoPU by CoPU (R328, U2). -/
theorem unlinked_guard_iff (v : Word) (s : State) :
    cpuIds.any (fun c => c != 0 && hasBit (v &&& cpuMask s) c && s.cfg.cap c == .linked
      && (!hasBit s.pnlm c || hasBit s.pnlmIllegal c)) = true ↔
    ∃ c : CpuId, c ≠ 0 ∧ c.val < s.cfg.numCpus ∧ s.cfg.cap c = .linked ∧ hasBit v c = true ∧
      (hasBit s.pnlm c = false ∨ hasBit s.pnlmIllegal c = true) := by
  rw [List.any_eq_true]
  refine exists_congr fun c => ?_
  simp only [mem_cpuIds, true_and, hasBit_and, hasBit_cpuMask, Bool.and_eq_true, bne_iff_ne, ne_eq, beq_iff_eq,
    decide_eq_true_eq, Bool.or_eq_true, Bool.not_eq_true']
  tauto

theorem writePnce_cepu (h : v.getLsbD 0 = false) : writePnce v s = .refuse .cepuDisabled := by
  unfold writePnce
  dsimp only
  rw [h]
  rfl

theorem writePnce_faulted (h : v.getLsbD 0 = true) (hx : s.xstate &&& copuMask s &&& ~~~v ≠ 0) :
    writePnce v s = .refuse .faultedCopuDisabled := by
  unfold writePnce
  dsimp only
  rw [h, if_neg (by decide), if_pos hx]

theorem writePnce_unlinked (h : v.getLsbD 0 = true) (hx : s.xstate &&& copuMask s &&& ~~~v = 0)
    (hl : ∃ c : CpuId, c ≠ 0 ∧ c.val < s.cfg.numCpus ∧ s.cfg.cap c = .linked ∧ hasBit v c = true ∧
      (hasBit s.pnlm c = false ∨ hasBit s.pnlmIllegal c = true)) :
    writePnce v s = .refuse .unlinkedWithoutFetch := by
  unfold writePnce
  dsimp only
  rw [h, if_neg (by decide), if_neg (not_not.2 hx), if_pos ((unlinked_guard_iff v s).2 hl)]

theorem writePnce_done (h : v.getLsbD 0 = true) (hx : s.xstate &&& copuMask s &&& ~~~v = 0)
    (hl : ∀ c : CpuId, c ≠ 0 → c.val < s.cfg.numCpus → s.cfg.cap c = .linked → hasBit v c = true →
      hasBit s.pnlm c = true ∧ hasBit s.pnlmIllegal c = false) :
    writePnce v s = .done (markHandled (s.xstate &&& (v &&& cpuMask s)) { s with pnceReq := v &&& cpuMask s }) := by
  unfold writePnce
  dsimp only
  rw [h, if_neg (by decide), if_neg (not_not.2 hx), if_neg]
  rw [unlinked_guard_iff]
  rintro ⟨c, h0, hlt, hcap, hv, hbad⟩
  obtain ⟨hlm, hill⟩ := hl c h0 hlt hcap hv
  rw [hlm, hill] at hbad
  simp at hbad

end

section
variable {s : State} {rd : Reg} {src : BitVec 5} {op : CsrOp} {imm : Bool}

/-- A form on pnce: held off while a transition is pending, if it is a set or clear; otherwise the write decides, in a state
that differs from the one before in CPUs and draws alone (R62, R278). -/
theorem pnce_answers (hw : Config.Wf s.cfg) (h0 : s.cur = 0) (hform : op = .write ∨ src ≠ 0) :
    ∃ old u, AgreeBut s.xstate old s.active ∧ OnlyReads s u ∧ (∀ m, counter m u = counter m s) ∧
      (op ≠ .write → s.pnceReq ≠ s.active →
        exec (csrForm op imm rd s.cfg.csrNums.ce src) s = .refused .pnceTransitionPending) ∧
      (op = .write ∨ s.pnceReq = s.active →
        CsrAnswers (exec (csrForm op imm rd s.cfg.csrNums.ce src) s) rd old none s
          (writePnce (op.new old (formOperand imm src 0 s)) u)) := by
  have hr := csrOf_pnce hw
  obtain ⟨p, hp, hpending, hans⟩ := csrForm_writes (imm := imm) (rd := rd) h0 hform hr rfl s.active
  have hwp : (formAccess op imm rd s.cfg.csrNums.ce src s.cfg).writes = true := formAccess_writes.2 hform
  have hset : pnceUnsettled (formAccess op imm rd s.cfg.csrNums.ce src s.cfg) s = (op != .write && s.pnceReq != s.active) := by
    have hcsr : csrOf s.cfg (formAccess op imm rd s.cfg.csrNums.ce src s.cfg).csr = some .pnce := hr
    rw [pnceUnsettled, hwp, hcsr]
    simp [formAccess]
  rw [csrCounter_none hr (fun j => ⟨nofun, nofun⟩)] at hans
  generalize ha : formAccess op imm rd s.cfg.csrNums.ce src s.cfg = a at *
  have hor : ∃ v k, a.readOr s.active p = (v, { p with drawn := k }) ∧ AgreeBut s.xstate v s.active := by
    unfold CsrAccess.readOr
    split
    · obtain ⟨v, k, hread, hagree⟩ := readPnce_spec p
      have hcsr : a.csr = s.cfg.csrNums.ce := by rw [← ha]; rfl
      refine ⟨v, k, ?_, ?_⟩
      · rw [hcsr, hp.csrReadNum hr]; exact hread
      · rw [hp.rest] at hagree; exact hagree
    · exact ⟨s.active, p.drawn, rfl, rfl⟩
  obtain ⟨v, k, hor, hagree⟩ := hor
  refine ⟨v, a.afterRead s.active p, hagree, hp.onlyReads.trans (onlyReads_afterRead a _ p), fun m => ?_, fun hop hreq => ?_,
    fun h => ?_⟩
  · rw [CsrAccess.afterRead, hor]
    exact (counter_congr (setReg_cfg ..) (setReg_counters ..) m).trans (hp.counter m)
  · exact hpending (by rw [hset]; simp [hop, hreq])
  · have hans := hans (by rw [hset]; rcases h with h | h <;> simp [h])
    rw [hor] at hans
    exact hans

end

/-- What a form's settledness says in the statements: it is CSRRW or CSRRWI, or no transition is pending. -/
theorem settled_of {op : CsrOp} {imm : Bool} {rd : Reg} {n : CsrNum} {src : BitVec 5} {s : State}
    (h : s.pnceReq = s.active ∨ csrForm op imm rd n src = .csrrw rd n src ∨ csrForm op imm rd n src = .csrrwi rd n src) :
    op = .write ∨ s.pnceReq = s.active :=
  h.symm.imp (fun h => (csrForm_write_iff.1 h).1) id

/-- Settles O37. -/
theorem pnceWriteRequests : Obligations.PnceWriteRequests := by
  intro s rd src i hw h0 hi
  obtain ⟨op, imm, hform, rfl⟩ := mem_csrWrites hi
  obtain ⟨old, u, hagree, hu, hcounters, -, hans⟩ := pnce_answers (imm := imm) (rd := rd) hw h0 hform
  refine ⟨old, hagree, fun v hv hset hv0 hx hl => ?_⟩
  have hans := hans (settled_of hset)
  rw [← value_of_mem hv, writePnce_done hv0 (by rw [hu]; exact hx) (by rw [hu]; exact hl)] at hans
  obtain ⟨t, ht, hc⟩ := hans
  have hrest := hc.rest
  have hback : OnlyReads s { t with pnceReq := s.pnceReq, xstate := s.xstate, handled := s.handled, owed := s.owed } := by
    unfold OnlyReads
    rw [hrest, hu]
    rfl
  obtain ⟨hcsrs, hmodes, hmodel⟩ := hback.sameSystem hc.record
  refine ⟨t, ht, hc.value, hc.csrFrame (by show u.pncache = _; rw [hu]), hc.counted h0 hcounters, ?_, ?_, ?_,
    { hcsrs with }, { hmodes with }, { hmodel with }⟩
  · rw [hrest, hu]; rfl
  · have e : t.xstate = s.xstate &&& ~~~(s.xstate &&& (v &&& cpuMask s)) := by rw [hrest, hu]; rfl
    rw [e]
    refine word_ext fun c => ?_
    simp only [hasBit_and, hasBit_not]
    cases hasBit s.xstate c <;> simp
  · have e : t.handled = s.handled ||| (s.xstate &&& (v &&& cpuMask s) &&& s.active) := by rw [hrest, hu]; rfl
    rw [e, BitVec.and_assoc s.xstate v]

/-- Settles O41: each guard, in the order in which the write looks at them. -/
theorem meaninglessWritesRefused : Obligations.MeaninglessWritesRefused := by
  intro s rd src i hw h0 ce
  refine ⟨fun v hi hv => ?grpsel, fun hi => ?pnce, fun v hi hbusy => ?pnlm⟩
  case grpsel =>
    have hr : csrOf s.cfg s.cfg.csrNums.grpsel = some .pngrpsel := csrOf_pn hw (by simp [pnCsrs])
    obtain ⟨p, hp, hans⟩ := csrWriteForm_answers h0 hi hr rfl nofun fun p hp => by
      rw [hp.csrReadNum hr, hp.rest]; rfl
    rw [csrWrite, if_neg hv] at hans
    exact hans
  case pnce =>
    obtain ⟨op, imm, hform, rfl⟩ := mem_csrWrites hi
    obtain ⟨old, u, hagree, hu, -, hpending, hans⟩ := pnce_answers (imm := imm) (rd := rd) hw h0 hform
    refine ⟨fun hne hreq => hpending (fun hop => ?_) hreq, old, hagree, fun v hv hset => ?_⟩
    · exact (csrForm_write_iff.2 ⟨hop, rfl⟩).elim hne.1 hne.2
    · have hans := hans (settled_of hset)
      rw [← value_of_mem hv] at hans
      refine ⟨fun hv0 => ?_, fun hv0 hx => ?_, fun hv0 hx hl => ?_⟩
      · rw [writePnce_cepu hv0] at hans; exact hans
      · rw [writePnce_faulted hv0 (by rw [hu]; exact hx)] at hans; exact hans
      · rw [writePnce_unlinked hv0 (by rw [hu]; exact hx) (by rw [hu]; exact hl)] at hans; exact hans
  case pnlm =>
    obtain ⟨p, hp, hans⟩ := pnlm_answers hw h0 hi
    rw [writePnlm_refused (by rw [onlyReads_access hp s.pnlm]; exact hbusy)] at hans
    exact hans

end Sys2Proof.Machine
end

section
/-! SUPPORT. That every step keeps the form of main memory, the cache and the store buffers (R105, R113, R120 to R122). -/

namespace Sys2Proof.Machine

/-! ### What keeps the form -/

theorem MemoryInv.of_form {s : State} (h : MemuForm s) (hb : ∀ c, ∀ st ∈ (s.cpu c).sbuf, Store.wf st) : MemoryInv s :=
  ⟨h.main, h.order, h.whole, hb⟩

/-- The form is known by main memory, the cache, the line size and the store buffers. -/
theorem MemoryInv.congr {s t : State} (h : MemoryInv s) (hm : t.main = s.main) (hk : t.cache = s.cache)
    (hc : t.cfg = s.cfg) (hb : ∀ c, (t.cpu c).sbuf = (s.cpu c).sbuf) : MemoryInv t where
  main := by rw [hm]; exact h.main
  order := by rw [hk]; exact h.order
  whole := by rw [hk, hc]; exact h.whole
  sbuf c := by rw [hb]; exact h.sbuf c

/-- An operation of the MemU changes no store buffer. -/
theorem MemoryInv.onlyMemu {s t : State} (h : MemoryInv s) (ho : OnlyMemu s t) (hf : MemuForm t) : MemoryInv t :=
  .of_form hf fun c => by rw [ho.cpu]; exact h.sbuf c

theorem MemoryInv.setCpu {s : State} (h : MemoryInv s) (c : CpuId) {x : Cpu} (hx : ∀ st ∈ x.sbuf, Store.wf st) :
    MemoryInv (s.setCpu c x) := by
  refine ⟨h.main, h.order, h.whole, fun d => ?_⟩
  rw [setCpu_cpu]
  split
  · exact hx
  · exact h.sbuf d

/-- A CPU whose store buffer stays. -/
theorem MemoryInv.setCpu_same {s : State} (h : MemoryInv s) (c : CpuId) {x : Cpu} (hx : x.sbuf = (s.cpu c).sbuf) :
    MemoryInv (s.setCpu c x) :=
  h.setCpu c (by rw [hx]; exact h.sbuf c)

/-! ### Store buffers -/

theorem MemoryInv.commitStore {s : State} (h : MemoryInv s) (st : Store) : MemoryInv (commitStore st s) :=
  h.onlyMemu (onlyMemu_commitStore st s) (memuForm_commitStore h.form st)

/-- A merged store writes into the word its two stores share, each byte once (R113). -/
theorem store_wf_merge {old young : Store} (ho : Store.wf old) (hy : Store.wf young)
    (hw : Store.sameWord young old = true) : Store.wf (Store.merge old young) := by
  obtain ⟨hod, how⟩ := ho
  obtain ⟨hyd, hyw⟩ := hy
  have word : ∀ {x y : Store}, Store.sameWord x y = true → ∀ e ∈ x, ∀ f ∈ y, e.1 / 4 = f.1 / 4 := fun h e he f hf => by
    simpa using List.all_eq_true.1 (List.all_eq_true.1 h e he) f hf
  refine ⟨?nodup, ?word⟩
  case nodup =>
    rw [Store.merge, List.map_append, List.nodup_append]
    refine ⟨hyd, hod.sublist (List.filter_sublist.map _), fun a ha b hb => ?_⟩
    obtain ⟨e, he, rfl⟩ := List.mem_map.1 ha
    obtain ⟨f, hf, rfl⟩ := List.mem_map.1 hb
    have hnone : Store.find young f.1 = none := Option.isNone_iff_eq_none.1 (List.mem_filter.1 hf).2
    exact Store.find_none_iff.1 hnone e he
  case word =>
    have part : ∀ e ∈ Store.merge old young, e ∈ young ∨ e ∈ old := fun e he =>
      (List.mem_append.1 he).imp id fun h => (List.mem_filter.1 h).1
    refine List.all_eq_true.2 fun e he => List.all_eq_true.2 fun f hf => beq_iff_eq.2 ?_
    rcases part e he with he | he <;> rcases part f hf with hf | hf
    · exact word hyw e he f hf
    · exact word hw e he f hf
    · exact (word hw f hf e he).symm
    · exact word how e he f hf

theorem MemoryInv.drainStore {s : State} (h : MemoryInv s) (c : CpuId) (k : Nat) : MemoryInv (drainStore c k s) := by
  unfold Machine.drainStore
  dsimp only
  split
  · next st _ =>
    split
    · exact (h.commitStore st).setCpu c fun x hx => h.sbuf c x (List.mem_of_mem_eraseIdx hx)
    · exact h
  · exact h

theorem MemoryInv.combineStores {s : State} (h : MemoryInv s) (c : CpuId) (k j : Nat) :
    MemoryInv (combineStores c k j s) := by
  unfold Machine.combineStores
  dsimp only
  split
  · next young old hyoung hold =>
    split
    · next hguard =>
      obtain ⟨-, -, hword, -⟩ := hguard
      refine h.setCpu c fun x hx => ?_
      rcases List.mem_or_eq_of_mem_set (List.mem_of_mem_eraseIdx hx) with hx | rfl
      · exact h.sbuf c x hx
      · exact store_wf_merge (h.sbuf c old (List.mem_of_getElem? hold)) (h.sbuf c young (List.mem_of_getElem? hyoung)) hword
    · exact h
  · exact h

theorem MemoryInv.drainAll {s : State} (h : MemoryInv s) (c : CpuId) : MemoryInv (drainAll c s) := by
  refine .of_form (memuForm_drainAll h.form c) fun d => ?_
  rw [drainAll_cpu]
  split
  · exact fun _ hst => absurd hst List.not_mem_nil
  · exact h.sbuf d

/-! ### Events -/

theorem memuForm_allocateLine {s : State} (h : MemuForm s) (n : Nat) : MemuForm (allocateLine n s) := by
  unfold allocateLine
  split
  · exact memuForm_loadLine h n
  · exact h

theorem memuForm_evictLine {s : State} (h : MemuForm s) (n : Nat) : MemuForm (evictLine n s) := by
  unfold evictLine
  split
  · split
    · exact memuForm_dropLine (memuForm_writeBackLine h n) n
    · exact memuForm_dropLine h n
  · exact h

theorem memuForm_busWrite {s : State} (h : MemuForm s) (a : Word) (b : Byte) : MemuForm (busWrite a b s) := by
  unfold busWrite
  split
  · exact memuForm_writeBeside h a.toNat b
  · exact h

theorem MemoryInv.forgetFetch {s : State} (h : MemoryInv s) (c : CpuId) (a : Word) : MemoryInv (forgetFetch c a s) :=
  h.setCpu_same c rfl

theorem MemoryInv.applyEvent {s : State} (h : MemoryInv s) (e : Event) : MemoryInv (applyEvent s e) := by
  cases e with
  | drain c k => exact h.drainStore c k
  | combine c k j => exact h.combineStores c k j
  | allocate n => exact h.onlyMemu (onlyMemu_allocateLine n s) (memuForm_allocateLine h.form n)
  | evict n => exact h.onlyMemu (onlyMemu_evictLine n s) (memuForm_evictLine h.form n)
  | prefetch c a =>
    show MemoryInv (prefetchWord c a s)
    unfold prefetchWord
    split
    · exact (h.forgetFetch c a).setCpu_same c rfl
    · exact h
  | forget c a =>
    show MemoryInv (dropFetch c a s)
    unfold dropFetch
    split
    · exact h.forgetFetch c a
    · exact h
  | settle c =>
    show MemoryInv (settleCopu c s)
    rcases settleCopu_cases c s with e | e | e <;> rw [e]
    · exact h
    · exact { h.setCpu_same c (x := { s.cpu c with
        regs := freeRegs s.drawn, pc := if hasBit s.pnlm c then (s.cpu c).pc else s.cfg.resetVector }) rfl with }
    · exact { h.setCpu_same c (x := { s.cpu c with pc := s.cfg.resetVector, ifu := [] }) rfl with }
  | busWrite a b => exact h.onlyMemu (onlyMemu_busWrite a b s) (memuForm_busWrite h.form a b)

/-! ### Lanes and steps -/

theorem MemoryInv.setReg {s : State} (h : MemoryInv s) (c : CpuId) (r : Reg) (v : Word) : MemoryInv (setReg c r v s) :=
  h.congr (setReg_main c r v s) (setReg_cache c r v s) (setReg_cfg c r v s) fun d => setReg_cpu_sbuf c d r v s

theorem MemoryInv.lane {c : CpuId} {s t : State} (h : MemoryInv s) (hl : LaneStep c s t) : MemoryInv t := by
  have drained := h.drainAll c
  cases hl with
  | nothing => exact h
  | writes rd v k d => exact MemoryInv.setReg (s := { s with drawn := k, deviceReads := d }) { h with } c rd v
  | stores a n v _ hn ha =>
    refine h.setCpu c fun st hst => ?_
    rcases List.mem_cons.1 hst with rfl | hst
    · exact store_wf_storeCells hn ha v
    · exact h.sbuf c st hst
  | fences _ _ hf => cases hf; exact drained.setCpu_same c rfl
  | drops n => exact drained.onlyMemu (onlyMemu_dropLine n _) (memuForm_dropLine drained.form n)
  | writesBack n => exact drained.onlyMemu (onlyMemu_writeBackLine n _) (memuForm_writeBackLine drained.form n)
  | flushes n => exact drained.onlyMemu (onlyMemu_flushLine n _) (memuForm_flushLine drained.form n)
  | accesses _ a src _ _ hdone =>
    obtain ⟨y, k, rd, v, hdone⟩ := cepuCsrLane_done hdone
    have hread := MemoryInv.setReg (s := { s with counters := s.counters.set 0 y, drawn := k }) { h with } 0 rd v
    rcases hdone with rfl | ⟨r, x, -, hwrite⟩
    · exact hread
    · obtain ⟨hcfg, hcpus, -, hmain, hcache, -⟩ := csrWrite_done hwrite
      exact hread.congr hmain hcache hcfg fun d => by unfold State.cpu; rw [hcpus]

theorem MemoryInv.setPc {s : State} (h : MemoryInv s) (c : CpuId) (v : Word) : MemoryInv (setPc c v s) :=
  h.setCpu_same c rfl

theorem MemoryInv.retire {s : State} (h : MemoryInv s) (k : EventClass) (skip : Option (Fin 32)) :
    MemoryInv (retire k skip s) :=
  h.congr (retire_main ..) (retire_cache ..) (retire_cfg ..) fun c => by rw [retire_cpu]

theorem MemoryInv.trapReturn {s : State} (h : MemoryInv s) : MemoryInv (trapReturn s) :=
  h.congr (by rw [trapReturn_eq]) (by rw [trapReturn_eq]) (by rw [trapReturn_eq]) fun c => by rw [trapReturn_cpu_but_pc]

/-- Settles O57: the MemU's operations keep the form of main memory and of the cache, and a store enters a buffer as bytes
of one word, or is merged from stores of one word. -/
theorem stepKeepsMemoryForm : Obligations.StepKeepsMemoryForm := by
  intro s t hs h
  refine step_keeps (P := MemoryInv) ?event ?model ?read ?lane ?finish ?trap ?copu ?trapReturn ?halt ?haltCopu h hs
  case event => exact fun s e hs => hs.applyEvent e
  case model => exact fun s _ _ _ hs => { hs with }
  case read => exact fun s _ hs => { hs with }
  case lane => exact fun c s t _ hs hl => hs.lane hl
  case finish => exact fun _ u _ _ k skip _ _ _ hu _ => (hu.setPc u.cur _).retire k skip
  case trap =>
    intro e v s k hs
    have counted : MemoryInv (countTrapped k s) :=
      hs.congr (countTrapped_main ..) (countTrapped_cache ..) (countTrapped_cfg ..) fun c => by rw [countTrapped_cpu]
    exact { counted.setCpu_same 0 (x := { (countTrapped k s).cpu 0 with pc := align4 (countTrapped k s).mtvec }) rfl with }
  case copu =>
    exact fun e s _ _ hs => { hs.setCpu_same s.cur
      (x := { s.cpu s.cur with xcause := e.code, xepc := align4 (pcOf s.cur s) }) rfl with }
  case trapReturn => exact fun s hs => hs.trapReturn.retire .system none
  case halt =>
    exact fun s _ hs => (hs.retire .uncounted none).congr rfl rfl rfl fun c => by
      rw [show (haltMachine s).cpu c = _ from mapCpus_cpu (retire .uncounted none s) _ c]; rfl
  case haltCopu =>
    exact fun s _ hs => { hs.setCpu_same s.cur (x := Cpu.enterModeZero s.cfg.resetVector (s.cpu s.cur)) rfl with }

end Sys2Proof.Machine
end

section
/-! SUPPORT. Misaligned targets and misaligned accesses: the exception stands before any effect (R106, R107, R221, R240). -/

namespace Sys2Proof.Machine

/-! ### Targets -/

section
variable {i : Instr} {s : State}

theorem raises_jumpTo {rd : Reg} {target : Word} (hg : grouped s = false) (hi : exec i s = jumpTo rd target s)
    (h : target.getLsbD 1 = true) : Raises i .jump 0 target s := by
  rw [jumpTo, targetMisaligned, if_pos h] at hi
  exact raises_of hg hi

theorem raises_branchIf {taken : Bool} {off : BitVec 13} (hg : grouped s = false) (hi : exec i s = branchIf taken off s)
    (ht : taken = true) (h : (curPc s + branchOffset off).getLsbD 1 = true) :
    Raises i .jump 0 (curPc s + branchOffset off) s := by
  rw [branchIf, if_pos ht, targetMisaligned, if_pos h] at hi
  exact raises_of hg hi

end

/-- Settles O17: a branch's condition as the statement words it is the one its arm of exec tests. -/
theorem misalignedTargetsRaise : Obligations.MisalignedTargetsRaise := by
  intro rd rs1 rs2 off imm b s hg x y jal jalr br
  refine ⟨raises_jumpTo hg rfl, raises_jumpTo hg rfl, fun hm => ⟨fun h => ?beq, fun h => ?bne, fun h => ?blt, fun h => ?bge,
    fun h => ?bltu, fun h => ?bgeu⟩⟩
  case beq => exact raises_branchIf hg rfl (beq_iff_eq.2 h) hm
  case bne => exact raises_branchIf hg rfl (bne_iff_ne.2 h) hm
  case blt => exact raises_branchIf hg rfl (decide_eq_true h) hm
  case bge => exact raises_branchIf hg rfl (by simpa [lessSigned] using h) hm
  case bltu => exact raises_branchIf hg rfl (decide_eq_true h) hm
  case bgeu => exact raises_branchIf hg rfl (by simpa [lessUnsigned] using h) hm

/-! ### Accesses -/

section
variable {i : Instr} {n : Nat} {rs1 : Reg} {imm : BitVec 12} {s : State}

theorem alignedTo_eq_false {a : Word} (h : a.toNat % n ≠ 0) : alignedTo n a = false := by
  simpa [alignedTo] using h

theorem raises_load {k : Nat} {rd : Reg} {value : CpuId → Word → State → Word} (hg : grouped s = false)
    (hi : exec i s = onLanes .load (pcPlus4 s) (loadLane k n rd rs1 imm value) s)
    (h : (effAddr s.cur rs1 imm s).toNat % n ≠ 0) : Raises i .load 4 (effAddr s.cur rs1 imm s) s := by
  rw [onLanes_single hg] at hi
  simp only [loadLane, alignedTo_eq_false h, Bool.false_eq_true, if_false, finish_raises] at hi
  exact raises_of hg hi

theorem raises_store {rs2 : Reg} (hg : grouped s = false)
    (hi : exec i s = onLanes .store (pcPlus4 s) (storeLane n rs2 rs1 imm) s)
    (h : (effAddr s.cur rs1 imm s).toNat % n ≠ 0) : Raises i .store 6 (effAddr s.cur rs1 imm s) s := by
  rw [onLanes_single hg] at hi
  simp only [storeLane, alignedTo_eq_false h, Bool.false_eq_true, if_false, finish_raises] at hi
  exact raises_of hg hi

end

/-- Settles O20. -/
theorem misalignedAccessesRaise : Obligations.MisalignedAccessesRaise := by
  intro rd rs1 imm s hg ea
  exact ⟨fun h => ⟨raises_load hg rfl h, raises_load hg rfl h, raises_store hg rfl h⟩,
    fun h => ⟨raises_load hg rfl h, raises_store hg rfl h⟩⟩

end Sys2Proof.Machine
end

section
/-! SUPPORT. Accesses where the platform has nothing, loads that reach a device, and the bytes of a stored word (R102, R105,
R110 to R112, R116, R240). -/

namespace Sys2Proof.Machine

/-! ### Where the platform has nothing -/

section
variable {i : Instr} {n : Nat} {rs1 : Reg} {imm : BitVec 12} {s : State}

theorem wherePresent_absent {a : Word} (h : accessKind s.cfg a n = .absent) (e : Effect) :
    wherePresent a n s e = .stuck (.absentAddress a) := by
  simp only [wherePresent, h]

theorem load_absent {k : Nat} {rd : Reg} {value : CpuId → Word → State → Word} (hg : grouped s = false)
    (ha : alignedTo n (effAddr s.cur rs1 imm s) = true) (hk : accessKind s.cfg (effAddr s.cur rs1 imm s) n = .absent)
    (hi : exec i s = onLanes .load (pcPlus4 s) (loadLane k n rd rs1 imm value) s) :
    exec i s = .fault (.absentAddress (effAddr s.cur rs1 imm s)) := by
  rw [hi, onLanes_single hg]
  simp only [loadLane, ha, if_true, wherePresent_absent hk, finish_stuck]

theorem store_absent {rs2 : Reg} (hg : grouped s = false)
    (ha : alignedTo n (effAddr s.cur rs1 imm s) = true) (hk : accessKind s.cfg (effAddr s.cur rs1 imm s) n = .absent)
    (hi : exec i s = onLanes .store (pcPlus4 s) (storeLane n rs2 rs1 imm) s) :
    exec i s = .fault (.absentAddress (effAddr s.cur rs1 imm s)) := by
  rw [hi, onLanes_single hg]
  simp only [storeLane, ha, if_true, wherePresent_absent hk, finish_stuck]

theorem cache_absent {act : Nat → State → State} (hg : grouped s = false)
    (hk : accessKind s.cfg (effAddr s.cur rs1 imm s) 1 = .absent)
    (hi : exec i s = onLanes .uncounted (pcPlus4 s) (cacheLane act rs1 imm) s) :
    exec i s = .fault (.absentAddress (effAddr s.cur rs1 imm s)) := by
  have hk : accessKind s.cfg (reg s.cur rs1 s + imm12 imm) 1 = .absent := hk
  rw [hi, onLanes_single hg]
  simp only [cacheLane, wherePresent_absent hk, finish_stuck]
  rfl

end

/-! ### Loads that may read a device -/

/-- Only CPUs and the count of device reads differ. -/
def OnlyLoads (s t : State) : Prop := t = { s with cpus := t.cpus, deviceReads := t.deviceReads }

theorem OnlyLoads.trans {s t u : State} (h : OnlyLoads s t) (h' : OnlyLoads t u) : OnlyLoads s u := by
  unfold OnlyLoads at *
  rw [h', h]

/-- But for the count of device reads, only CPUs differ. -/
theorem OnlyLoads.onlyCpus {s t : State} (h : OnlyLoads s t) : OnlyCpus s { t with deviceReads := s.deviceReads } := by
  unfold OnlyLoads at h
  unfold OnlyCpus
  rw [h]

/-- Lanes that each change their own CPU, to something the state before decides, and the count of device reads. -/
theorem forLanes_loads (f : CpuId → State → Effect) (g : CpuId → Cpu) {l : List CpuId} (hn : l.Nodup) {s : State}
    (hf : ∀ c ∈ l, ∀ t, OnlyLoads s t → t.cpu c = s.cpu c →
      ∃ k, f c t = .done ({ t with deviceReads := k }.setCpu c (g c))) :
    ∃ t, forLanes f l s = .done t ∧ OnlyLoads s t ∧ ∀ c, t.cpu c = if c ∈ l then g c else s.cpu c := by
  induction l generalizing s with
  | nil => exact ⟨s, rfl, rfl, fun c => by simp⟩
  | cons a r ih =>
    obtain ⟨har, hr⟩ := List.nodup_cons.1 hn
    obtain ⟨k, ha⟩ := hf a List.mem_cons_self s rfl rfl
    have others : ∀ c, c ≠ a → ({ s with deviceReads := k }.setCpu a (g a)).cpu c = s.cpu c := fun c hc =>
      setCpu_cpu_of_ne _ _ hc
    have hfirst : OnlyLoads s ({ s with deviceReads := k }.setCpu a (g a)) := rfl
    obtain ⟨t, ht, ho, hcpu⟩ := ih hr fun c hc u hu he =>
      hf c (List.mem_cons_of_mem _ hc) u (hfirst.trans hu) (he.trans (others c fun e => har (e ▸ hc)))
    refine ⟨t, by simp only [forLanes, ha, ht], hfirst.trans ho, fun c => ?_⟩
    rw [hcpu c]
    by_cases hca : c = a
    · subst hca; simp [har]
    · rw [others c hca]; simp [hca]

section
variable {i : Instr} {n : Nat} {rd rs1 : Reg} {imm : BitVec 12} {s : State}
  {value : CpuId → Word → State → Word}

/-- One lane's load, after other lanes have made theirs: its value is read with the count of before the instruction, so from
the state before it (R116). -/
theorem loadLane_of_onlyLoads (hok : AccessesPresent n rs1 imm s) {c : CpuId} (hc : c ∈ lanes s) {t : State}
    (ht : OnlyLoads s t) (he : t.cpu c = s.cpu c)
    (hvalue : ∀ c a t, (∀ x, readByte c x t = readByte c x s) → value c a t = value c a s) :
    ∃ k, loadLane s.deviceReads n rd rs1 imm value c t =
      .done ({ t with deviceReads := k }.setCpu c ((setReg c rd (value c (effAddr c rs1 imm s) s) s).cpu c)) := by
  obtain ⟨ha, hp⟩ := hok c hc
  have hea := effAddr_congr he rs1 imm
  have hcfg : t.cfg = s.cfg := by rw [ht]
  obtain ⟨k, hk⟩ := afterRead_eq s.deviceReads (effAddr c rs1 imm s) n t
  refine ⟨k, ?_⟩
  rw [loadLane_present (by rw [hea]; exact ha) (by rw [hea, hcfg]; exact hp), hea, hk,
    hvalue c _ _ (ht.onlyCpus.readByte he), setReg_eq_setCpu, setReg_cpu, setReg_cpu, ← he]
  rfl

/-- What the statement says of one load that reaches memory or devices. -/
theorem load_completes {w : CpuId → Word}
    (hi : exec i s = onLanes .load (pcPlus4 s) (loadLane s.deviceReads n rd rs1 imm value) s)
    (hvalue : ∀ c a t, (∀ x, readByte c x t = readByte c x s) → value c a t = value c a s)
    (hw : ∀ c, value c (effAddr c rs1 imm s) s = w c) (hok : AccessesPresent n rs1 imm s) :
    ∃ t, exec i s = .next t ∧ (∀ c ∈ lanes s, reg c rd t = if rd = 0 then 0 else w c) ∧
      (∀ c r, (c ∉ lanes s ∨ r ≠ rd) → reg c r t = reg c r s) ∧
      pcOf s.cur t = pcPlus4 s ∧ SamePcsBut s.cur s t ∧ Counted .load s t ∧ SameFetch s t ∧
      t.main = s.main ∧ t.cache = s.cache ∧ (∀ c, (t.cpu c).sbuf = (s.cpu c).sbuf) ∧
      SameSystem s { t with deviceReads := s.deviceReads } := by
  obtain ⟨u, hu, ho, hcpu⟩ := forLanes_loads (loadLane s.deviceReads n rd rs1 imm value)
    (fun c => (setReg c rd (w c) s).cpu c) (lanes_nodup s) fun c hc t ht he => by
      rw [← hw]; exact loadLane_of_onlyLoads hok hc ht he hvalue
  have hcur : u.cur = s.cur := by rw [ho]
  -- of a CPU only registers change, and of these rd of the lanes
  have field : ∀ {α : Type} (f : Cpu → α), (∀ x regs, f { x with regs := regs } = f x) → ∀ c, f (u.cpu c) = f (s.cpu c) := by
    intro α f hf c
    rw [hcpu]
    split
    · rw [setReg_cpu]; exact hf _ _
    · rfl
  have lane : ∀ c ∈ lanes s, ∀ r, reg c r u = reg c r (setReg c rd (w c) s) := fun c hc r =>
    reg_congr (by rw [hcpu, if_pos hc]) r
  refine ⟨retire .load none (setPc s.cur (pcPlus4 s) u), ?_, fun c hc => ?_, fun c r h => ?_, by simp, fun c hc => ?_, ?_,
    fun c => ?_, ?_, ?_, fun c => ?_, ?_⟩
  · rw [hi, onLanes, hu, finish_done, hcur]
  · rw [reg_retire, reg_setPc, lane c hc, reg_setReg]
    by_cases h0 : rd = 0
    · rw [if_neg (fun e => e.2.2 h0), if_pos h0, h0, reg_zero]
    · rw [if_pos ⟨rfl, rfl, h0⟩, if_neg h0]
  · rw [reg_retire, reg_setPc]
    by_cases hc : c ∈ lanes s
    · rw [lane c hc, reg_setReg, if_neg fun e => h.elim (· hc) (· e.2.1)]
    · exact reg_congr (by rw [hcpu, if_neg hc]) r
  · rw [pcOf_retire, pcOf_setPc, if_neg hc]
    exact field Cpu.pc (fun _ _ => rfl) c
  · exact counted_retire (by rw [setPc_cfg, ho]) (by rw [setPc_cur, hcur]) (by rw [setPc_counters, ho])
  · rw [retire_cpu, setPc_cpu_ifu]
    exact field Cpu.ifu (fun _ _ => rfl) c
  · rw [retire_main, setPc_main, ho]
  · rw [retire_cache, setPc_cache, ho]
  · rw [retire_cpu, setPc_cpu_sbuf]
    exact field Cpu.sbuf (fun _ _ => rfl) c
  · have hpc : OnlyLoads s (setPc s.cur (pcPlus4 s) u) := by
      unfold OnlyLoads
      rw [setPc, State.setCpu, ho]
    obtain ⟨hcsrs, hmodes, hmodel⟩ := sameSystem_of_onlyCpus hpc.onlyCpus
      (fun c => (setPc_cpu_xcause s.cur c _ u).trans (field Cpu.xcause (fun _ _ => rfl) c))
      fun c => (setPc_cpu_xepc s.cur c _ u).trans (field Cpu.xepc (fun _ _ => rfl) c)
    rw [retire_eq]
    exact ⟨{ hcsrs with }, { hmodes with }, { hmodel with }⟩

end

/-- Settles O21. -/
theorem accessesOutsideMainMemory : Obligations.AccessesOutsideMainMemory := by
  intro rd rs1 imm s ea kindAt byte stops loads
  have zero : ∀ x : Word, x + 0 = x := add_zero
  have aligned : ∀ {n}, ea.toNat % n = 0 → alignedTo n (effAddr s.cur rs1 imm s) = true := fun h =>
    beq_iff_eq.2 h
  have absent : ∀ {n}, (∃ k, k < n ∧ kindAt k = .absent) → accessKind s.cfg (effAddr s.cur rs1 imm s) n = .absent :=
    fun ⟨_, hk, h⟩ => accessKind_absent hk h
  refine ⟨fun i hi hg ha hk => ?bytes, fun i hi hg ha hk => ?halves, fun i hi hg ha hk => ?words, ?lb, ?lbu, ?lh, ?lhu, ?lw⟩
  case bytes =>
    simp only [List.mem_cons, List.not_mem_nil, or_false] at hi
    rcases hi with rfl | rfl | rfl | rfl | rfl | rfl
    · exact load_absent hg (aligned ha) (absent hk) rfl
    · exact load_absent hg (aligned ha) (absent hk) rfl
    · exact store_absent hg (aligned ha) (absent hk) rfl
    · exact cache_absent hg (absent hk) rfl
    · exact cache_absent hg (absent hk) rfl
    · exact cache_absent hg (absent hk) rfl
  case halves =>
    simp only [List.mem_cons, List.not_mem_nil, or_false] at hi
    rcases hi with rfl | rfl | rfl
    · exact load_absent hg (aligned ha) (absent hk) rfl
    · exact load_absent hg (aligned ha) (absent hk) rfl
    · exact store_absent hg (aligned ha) (absent hk) rfl
  case words =>
    simp only [List.mem_cons, List.not_mem_nil, or_false] at hi
    rcases hi with rfl | rfl
    · exact load_absent hg (aligned ha) (absent hk) rfl
    · exact store_absent hg (aligned ha) (absent hk) rfl
  case lb | lbu =>
    exact load_completes rfl (fun c a t h => by rw [memRead8_congr h]) fun c => by simp only [byte, zero]; rfl
  case lh | lhu =>
    exact load_completes rfl (fun c a t h => by rw [memRead16_congr h]) fun c => by simp only [byte, zero]; rfl
  case lw =>
    exact load_completes rfl (fun c a t h => memRead32_congr h a) fun c => by simp only [byte, zero]; rfl

/-! ### The bytes of a stored word -/

/-- Settles O22: the store is the youngest of its CPU's buffer, so each byte is forwarded from it. -/
theorem mixedWidthsReadBack : Obligations.MixedWidthsReadBack := by
  intro c a v s ha hd t
  have hal : alignedTo 4 a = true := by simpa [alignedTo] using ha
  have byte : ∀ k, k < 4 → readByte c (a + BitVec.ofNat 32 k).toNat t = v.extractLsb' (8 * k) 8 := by
    intro k hk
    rw [toNat_add_of_aligned (.inr (.inr rfl)) hal hk]
    refine readByte_forward (hd k hk) ?_
    rw [show t = memWrite c a 4 v s from rfl, memWrite, pushStore_cpu, if_pos rfl, forward_cons,
      find_storeCells_at (.inr (.inr rfl)) hal v hk]
    rfl
  have b0 : readByte c a.toNat t = v.extractLsb' 0 8 := by simpa using byte 0 (by decide)
  have b1 : readByte c (a + 1).toNat t = v.extractLsb' 8 8 := byte 1 (by decide)
  have b2 : readByte c (a + 2).toNat t = v.extractLsb' 16 8 := byte 2 (by decide)
  have b3 : readByte c (a + 3).toNat t = v.extractLsb' 24 8 := byte 3 (by decide)
  have h3 : a + 2 + 1 = a + 3 := BitVec.add_assoc a 2 1
  have glue : ∀ k m n, v.extractLsb' (k + n) m ++ v.extractLsb' k n = v.extractLsb' k (m + n) := fun _ _ _ =>
    BitVec.extractLsb'_append_extractLsb'_eq_extractLsb' rfl
  refine ⟨?_, ?_, ?_, b0, b1, b2, b3⟩
  · have h23 : v.extractLsb' 24 8 ++ v.extractLsb' 16 8 = v.extractLsb' 16 16 := glue 16 8 8
    have h123 : v.extractLsb' 16 16 ++ v.extractLsb' 8 8 = v.extractLsb' 8 24 := glue 8 16 8
    have h0123 : v.extractLsb' 8 24 ++ v.extractLsb' 0 8 = v.extractLsb' 0 32 := glue 0 24 8
    rw [memRead32, b0, b1, b2, b3, wordOfBytes, h23, h123, h0123, BitVec.extractLsb'_eq_self]
  · rw [memRead16, b0, b1]
    exact glue 0 8 8
  · rw [memRead16, b2, h3, b3]
    exact glue 16 8 8

end Sys2Proof.Machine
end

section
/-! SUPPORT. Store buffers and line loads, as the CPUs' reads see them (R109, R112, R113, R120, R121). -/

namespace Sys2Proof.Machine

/-! ### A store leaves its buffer -/

/-- A store that may pass the older ones shares no byte with them (R113). -/
theorem forward_of_mayPass {cfg : Config} {st : Store} {older : List Store} (h : mayPass cfg st older = true) {a : Nat}
    {b : Byte} (hf : Store.find st a = some b) : forward older a = none := by
  induction older with
  | nil => rfl
  | cons y r ih =>
    simp only [mayPass, List.all_cons, Bool.and_eq_true] at h
    obtain ⟨⟨hdisjoint, -⟩, hr⟩ := h
    rw [forward_cons, Store.find_of_disjoint hdisjoint hf, ih hr]
    rfl

/-- A list around one of its members. -/
theorem split_getElem? {α : Type} {l : List α} {k : Nat} {x : α} (h : l[k]? = some x) :
    l = l.take k ++ x :: l.drop (k + 1) := by
  obtain ⟨hk, rfl⟩ := List.getElem?_eq_some_iff.1 h
  rw [List.getElem_cons_drop, List.take_append_drop]

/-- A list around two of its members. -/
theorem split_two_getElem? {α : Type} {l : List α} {k j : Nat} {x y : α} (hk : l[k]? = some x) (hj : l[j]? = some y)
    (hlt : k < j) : l = l.take k ++ x :: ((l.take j).drop (k + 1) ++ y :: l.drop (j + 1)) := by
  have hkj : (l.take j)[k]? = some x := by rw [List.getElem?_take_of_lt hlt]; exact hk
  have hpre := split_getElem? hkj
  rw [List.take_take, Nat.min_eq_left hlt.le] at hpre
  calc l = l.take j ++ y :: l.drop (j + 1) := split_getElem? hj
    _ = (l.take k ++ x :: (l.take j).drop (k + 1)) ++ y :: l.drop (j + 1) := congrArg (· ++ _) hpre
    _ = _ := by rw [List.append_assoc, List.cons_append]

/-- The same list when the first of the two is gone and another stands in place of the second. -/
theorem eraseIdx_set_of_lt {α : Type} {l : List α} {k j : Nat} (hj : j < l.length) (hlt : k < j) (y : α) :
    (l.set j y).eraseIdx k = l.take k ++ ((l.take j).drop (k + 1) ++ y :: l.drop (j + 1)) := by
  have hlen : (l.take j).length = j := List.length_take_of_le hj.le
  rw [List.set_eq_take_append_cons_drop, if_pos hj, List.eraseIdx_eq_take_drop_succ,
    List.take_append_of_le_length (by omega), List.take_take, Nat.min_eq_left hlt.le,
    List.drop_append_of_le_length (by omega)]

/-- The byte that a buffer and what stands behind it give is the same after a store that may pass has left the buffer and
stands behind it. -/
theorem forward_eraseIdx {cfg : Config} {buf : List Store} {k : Nat} {st : Store} (hk : buf[k]? = some st)
    (hp : mayPass cfg st (buf.drop (k + 1)) = true) (a : Nat) :
    (forward (buf.eraseIdx k) a).or (Store.find st a) = forward buf a := by
  have hbuf : forward buf a = forward (buf.take k ++ st :: buf.drop (k + 1)) a :=
    congrArg (forward · a) (split_getElem? hk)
  rw [hbuf, List.eraseIdx_eq_take_drop_succ, forward_append, forward_append, forward_cons, Option.or_assoc]
  cases hf : Store.find st a with
  | none => rw [Option.or_none, Option.none_or]
  | some b => rw [forward_of_mayPass hp hf, Option.none_or, Option.or_none]

/-- The state after a store has left CPU c's buffer. -/
theorem drainStore_of {c : CpuId} {k : Nat} {s : State} {st : Store} (hk : (s.cpu c).sbuf[k]? = some st)
    (hp : mayPass s.cfg st ((s.cpu c).sbuf.drop (k + 1)) = true) :
    drainStore c k s = (commitStore st s).setCpu c { s.cpu c with sbuf := (s.cpu c).sbuf.eraseIdx k } := by
  simp only [drainStore, hk, hp, if_true, (onlyMemu_commitStore st s).cpu c]

/-- What drainStore does: nothing, or a store that may pass the older ones leaves. -/
theorem drainStore_cases (c : CpuId) (k : Nat) (s : State) :
    drainStore c k s = s ∨ ∃ st, (s.cpu c).sbuf[k]? = some st ∧ mayPass s.cfg st ((s.cpu c).sbuf.drop (k + 1)) = true := by
  cases hk : (s.cpu c).sbuf[k]? with
  | none => left; simp only [drainStore, hk]
  | some st =>
    cases hp : mayPass s.cfg st ((s.cpu c).sbuf.drop (k + 1)) with
    | false => left; simp only [drainStore, hk, hp, Bool.false_eq_true, if_false]
    | true => exact .inr ⟨st, rfl, hp⟩

/-- What a CPU reads after a store has reached the MemU and CPUs have changed: its own buffer's byte, else the store's, else
the MemU's. -/
theorem readByte_commitStore {s t : State} (h : MemoryInv s) {st : Store} (hst : Store.wf st)
    (ht : OnlyCpus (commitStore st s) t) (d : CpuId) {a : Nat} (hd : deviceAt s.cfg a = false) :
    readByte d a t = ((forward (t.cpu d).sbuf a).or (Store.find st a)).getD (memuRead (dataCached s a) a s) := by
  have ho := onlyMemu_commitStore st s
  obtain ⟨hm, hk, hcfg, hpn, -, -⟩ := ht.fields
  have hr : t.deviceReads = (commitStore st s).deviceReads := by rw [ht]
  have hdt : deviceAt t.cfg a = false := by rw [hcfg, ho.cfg]; exact hd
  have hcached : dataCached t a = dataCached s a := by
    rw [dataCached, hpn, hcfg, ← dataCached, ho.dataCached]
  have hmemu := memuRead_commitStore h.form hst.1 a
  rw [hd, if_neg Bool.false_ne_true] at hmemu
  rw [readByte_eq, hdt, if_neg Bool.false_ne_true, hcached, memuRead_congr hm hk hcfg hr, hmemu]
  cases forward (t.cpu d).sbuf a <;> rfl

/-- A device's bytes are read past every buffer and the cache. -/
theorem readByte_device {s t : State} {d : CpuId} {a : Nat} (hd : deviceAt s.cfg a = true) (hcfg : t.cfg = s.cfg)
    (hr : t.deviceReads = s.deviceReads) : readByte d a t = readByte d a s := by
  rw [readByte_eq, readByte_eq, hcfg, if_pos hd, if_pos hd]
  exact memuRead_device hd hcfg hr _ _

theorem OnlyData.deviceReads {s t : State} (h : OnlyData s t) : t.deviceReads = s.deviceReads := by
  unfold OnlyData at h; rw [h]

/-- A CPU does not see when its own stores reach the MemU (R112). -/
theorem readByte_drainStore {s : State} (h : MemoryInv s) (c : CpuId) (k a : Nat) :
    readByte c a (drainStore c k s) = readByte c a s := by
  have hdata := onlyData_drainStore c k s
  rcases drainStore_cases c k s with e | ⟨st, hk, hp⟩
  · rw [e]
  cases hd : deviceAt s.cfg a with
  | true => exact readByte_device hd hdata.fields.1 hdata.deviceReads
  | false =>
    rw [drainStore_of hk hp, readByte_commitStore h (h.sbuf c st (List.mem_of_getElem? hk)) ((OnlyCpus.refl _).setCpu c _) c hd,
      setCpu_cpu_self, forward_eraseIdx hk hp, readByte_eq, hd, if_neg Bool.false_ne_true]

/-! ### Stores are combined -/

/-- Merging a store into an older one that it may move to leaves every byte that the buffer gives. -/
theorem forward_combine {cfg : Config} {buf : List Store} {k j : Nat} {young old : Store} (hk : buf[k]? = some young)
    (hj : buf[j]? = some old) (hlt : k < j) (hp : mayPass cfg young ((buf.take j).drop (k + 1)) = true) (a : Nat) :
    forward ((buf.set j (Store.merge old young)).eraseIdx k) a = forward buf a := by
  obtain ⟨hjl, -⟩ := List.getElem?_eq_some_iff.1 hj
  have hold : forward buf a = forward (buf.take k ++ young :: ((buf.take j).drop (k + 1) ++ old :: buf.drop (j + 1))) a :=
    congrArg (forward · a) (split_two_getElem? hk hj hlt)
  rw [eraseIdx_set_of_lt hjl hlt, hold]
  simp only [forward_append, forward_cons, Store.find_merge]
  cases hf : Store.find young a with
  | none => simp only [Option.none_or]
  | some b => rw [forward_of_mayPass hp hf]; rfl

/-- Combining stores is seen by no CPU (R113). -/
theorem readByte_combineStores (c : CpuId) (k j : Nat) (s : State) (d : CpuId) (a : Nat) :
    readByte d a (combineStores c k j s) = readByte d a s := by
  unfold combineStores
  dsimp only
  split
  · next young old hyoung hold =>
    split
    · next hguard =>
      obtain ⟨-, hlt, -, -, hp⟩ := hguard
      rw [readByte_eq, readByte_eq, setCpu_cfg, setCpu_cpu]
      have hmemu : ∀ x : Cpu, memuRead (dataCached (s.setCpu c x) a) a (s.setCpu c x) = memuRead (dataCached s a) a s :=
        fun _ => rfl
      rw [hmemu]
      by_cases hdc : d = c
      · subst hdc
        rw [if_pos rfl, forward_combine hyoung hold hlt hp]
      · rw [if_neg hdc]
    · rfl
  · rfl

/-! ### A line is loaded -/

/-- Loading a line changes no byte that is read (R121). -/
theorem memuRead_loadLine (cached : Bool) (n a : Nat) (s : State) : memuRead cached a (loadLine n s) = memuRead cached a s := by
  unfold loadLine
  split
  · rfl
  · next hnone =>
    unfold memuRead
    dsimp only
    split
    · rfl
    · cases cached with
      | false => rfl
      | true =>
        rw [if_pos rfl, if_pos rfl, Cache.find_put, show (lineFromMain s n).num = n from rfl]
        by_cases hl : lineOf s.cfg a = n
        · rw [if_pos hl, hl, hnone]
          subst hl
          exact getD_lineFromMain s a unlisted
        · rw [if_neg hl]

theorem readByte_allocateLine (n : Nat) (s : State) (d : CpuId) (a : Nat) :
    readByte d a (allocateLine n s) = readByte d a s := by
  have ho := onlyMemu_allocateLine n s
  have hmemu : ∀ cached, memuRead cached a (allocateLine n s) = memuRead cached a s := fun cached => by
    unfold allocateLine
    split
    · exact memuRead_loadLine cached n a s
    · rfl
  rw [readByte_eq, readByte_eq, ho.cfg, ho.cpu, ho.dataCached, hmemu]

/-! ### The oldest store -/

/-- The oldest store may always leave. -/
theorem oldest_drains {c : CpuId} {s : State} {younger : List Store} {st : Store} (h : (s.cpu c).sbuf = younger ++ [st]) :
    (s.cpu c).sbuf[younger.length]? = some st ∧
      mayPass s.cfg st ((s.cpu c).sbuf.drop (younger.length + 1)) = true := by
  rw [h]
  constructor
  · simp
  · simp [mayPass]

/-- Settles O23. -/
theorem bufferedStoresReachMemory : Obligations.BufferedStoresReachMemory := by
  intro s c k j n hs
  refine ⟨readByte_drainStore hs c k, readByte_combineStores c k j s, readByte_allocateLine n s, fun younger st hbuf => ?_⟩
  obtain ⟨hk, hp⟩ := oldest_drains hbuf
  have ht : applyEvent s (.drain c younger.length) = _ := drainStore_of hk hp
  intro t
  refine ⟨?_, fun d hdc a b hd hfind hnone => ?_⟩
  · show ((applyEvent s (.drain c younger.length)).cpu c).sbuf = younger
    rw [ht, setCpu_cpu_self]
    show (s.cpu c).sbuf.eraseIdx younger.length = younger
    rw [hbuf, List.eraseIdx_append_of_length_le (le_refl _), Nat.sub_self]
    exact List.append_nil younger
  · show readByte d a (applyEvent s (.drain c younger.length)) = b
    rw [ht, readByte_commitStore hs (hs.sbuf c st (List.mem_of_getElem? hk)) ((OnlyCpus.refl _).setCpu c _) d hd,
      setCpu_cpu_of_ne _ _ hdc, (onlyMemu_commitStore st s).cpu, hnone, hfind]
    rfl

end Sys2Proof.Machine
end

section
/-! SUPPORT. FENCE: the lanes' buffers are empty, and every CPU reads what the fencing CPU has read (R112 to R114, R260,
R261). -/

namespace Sys2Proof.Machine

/-! ### The buffers -/

/-- Only store buffers, IFU buffers, main memory and the cache differ. -/
structure OnlyBuffers (s t : State) : Prop where
  data : OnlyData s t
  cpu  : ∀ c, t.cpu c = { s.cpu c with sbuf := (t.cpu c).sbuf, ifu := (t.cpu c).ifu }

theorem OnlyBuffers.refl (s : State) : OnlyBuffers s s := ⟨.refl s, fun _ => rfl⟩

theorem OnlyBuffers.trans {s t u : State} (h : OnlyBuffers s t) (h' : OnlyBuffers t u) : OnlyBuffers s u :=
  ⟨h.data.trans h'.data, fun c => by rw [h'.cpu c, h.cpu c]⟩

/-- An instruction that has changed buffers and the MemU alone, and goes on: what else is as before. -/
theorem OnlyBuffers.completed {s u : State} (h : OnlyBuffers s u) (k : EventClass) (next : Word) :
    let t := retire k none (setPc s.cur next u)
    SameRegs s t ∧ pcOf s.cur t = next ∧ SamePcsBut s.cur s t ∧ Counted k s t ∧ SameSystem s t := by
  obtain ⟨hcfg, hcur, hcounters, -⟩ := h.data.fields
  refine ⟨fun c r => ?_, by simp, fun c hc => ?_, counted_retire (by rw [setPc_cfg, hcfg]) (by rw [setPc_cur, hcur])
    (by rw [setPc_counters, hcounters]), sameSystem_retire ((h.data.setCpu s.cur _).sameSystem (fun c => ?_) fun c => ?_)⟩
  · rw [reg_retire, reg_setPc]
    exact reg_congr (by rw [h.cpu c]) r
  · rw [pcOf_retire, pcOf_setPc, if_neg hc, pcOf, h.cpu c]; rfl
  · rw [← setPc, setPc_cpu_xcause, h.cpu c]
  · rw [← setPc, setPc_cpu_xepc, h.cpu c]

theorem fenceLane_spec (c : CpuId) (s : State) :
    ∃ t, fenceLane c s = .done t ∧ OnlyBuffers s t ∧ (t.cpu c).sbuf = [] ∧ (t.cpu c).ifu = [] := by
  obtain ⟨t, ht, hdata, -, -, hcpu⟩ := fenceLane_done c s
  refine ⟨t, ht, ⟨hdata, fun d => ?_⟩, by rw [hcpu, if_pos rfl], by rw [hcpu, if_pos rfl]⟩
  rw [hcpu]
  split
  · next h => rw [h]
  · rfl

/-- The fence on every lane (R260, R330). -/
theorem forLanes_fence (s : State) :
    ∃ u, forLanes fenceLane (lanes s) s = .done u ∧ OnlyBuffers s u ∧
      (∀ c ∈ lanes s, (u.cpu c).sbuf = [] ∧ (u.cpu c).ifu = []) ∧ ∀ c, c ∉ lanes s → u.cpu c = s.cpu c := by
  have keep : ∀ c ∈ lanes s, ∀ t v d, OnlyBuffers s t → fenceLane c t = .done v →
      (t.cpu d).sbuf = [] ∧ (t.cpu d).ifu = [] → (v.cpu d).sbuf = [] ∧ (v.cpu d).ifu = [] := by
    intro c _ t v d _ hv hd
    obtain ⟨w, hw, -, -, -, hcpu⟩ := fenceLane_done c t
    rw [hw] at hv
    cases hv
    rw [hcpu]
    split
    · exact ⟨rfl, rfl⟩
    · exact hd
  obtain ⟨u, hu, hb, hempty⟩ := forLanes_rel fenceLane OnlyBuffers (fun c t => (t.cpu c).sbuf = [] ∧ (t.cpu c).ifu = [])
    .refl (fun _ _ _ => .trans) (lanes s) s (fun c _ t _ => fenceLane_spec c t) keep
  exact ⟨u, hu, hb, hempty, fun c hc => forLanes_cpu (fun c v w h => .fences v w h) hu hc⟩

/-- Settles O24. -/
theorem fenceEmptiesBuffers : Obligations.FenceEmptiesBuffers := by
  intro fm pred succ rs1 rd s
  obtain ⟨u, hu, hb, hlanes, hothers⟩ := forLanes_fence s
  obtain ⟨-, hcur, -⟩ := hb.data.fields
  obtain ⟨hregs, hpc, hpcs, hcounted, hsystem⟩ := hb.completed .system (pcPlus4 s)
  refine ⟨_, ?_, fun c hc => ?_, fun c hc => ?_, hregs, hpc, hpcs, hcounted, hsystem⟩
  · show onLanes .system (pcPlus4 s) fenceLane s = _
    rw [onLanes, hu, finish_done, hcur]
  · rw [retire_cpu, setPc_cpu_sbuf, setPc_cpu_ifu]
    exact hlanes c hc
  · rw [retire_cpu, setPc_cpu_sbuf, setPc_cpu_ifu, hothers c hc]
    exact ⟨rfl, rfl⟩

/-! ### What the other CPUs read -/

/-- A byte whose data accesses are cached stays in main memory while stores reach the MemU (R121). -/
theorem read_main_memuWrite {s : State} {a : Nat} (h : dataCached s a = true) (x : Nat) (b : Byte) :
    Memory.read (memuWrite (dataCached s x) x b s).main a = Memory.read s.main a := by
  by_cases hax : a = x
  · subst hax
    unfold memuWrite
    rw [h]
    split
    · rfl
    · rw [if_pos rfl]
  · unfold memuWrite
    split_ifs
    · rfl
    · rfl
    · exact (Memory.read_write s.main x b a).trans (if_neg hax)
    · exact (Memory.read_write s.main x b a).trans (if_neg hax)

theorem read_main_commitStore {s : State} {a : Nat} (h : dataCached s a = true) (st : Store) :
    Memory.read (commitStore st s).main a = Memory.read s.main a := by
  unfold commitStore
  induction st generalizing s with
  | nil => rfl
  | cons e r ih =>
    have ho := onlyMemu_memuWrite (dataCached s e.1) e.1 e.2 s
    rw [List.foldl_cons, ih (by rw [ho.dataCached]; exact h), read_main_memuWrite h]

theorem read_main_commitAll {s : State} {a : Nat} (h : dataCached s a = true) (buf : List Store) :
    Memory.read (buf.foldr commitStore s).main a = Memory.read s.main a := by
  induction buf with
  | nil => rfl
  | cons st r ih =>
    rw [List.foldr_cons, read_main_commitStore (by rw [(onlyMemu_commitAll r s).dataCached]; exact h), ih]

/-- After CPU c's stores have reached the MemU in program order, every byte reads in the MemU as CPU c has read it
(R112, R114). -/
theorem memuRead_drainAll {s : State} (h : MemoryInv s) (c : CpuId) (a : Nat) :
    memuRead (dataCached s a) a (drainAll c s) = readByte c a s := by
  have hr : (drainAll c s).deviceReads = ((s.cpu c).sbuf.foldr commitStore s).deviceReads := rfl
  rw [memuRead_congr (t := drainAll c s) (s := (s.cpu c).sbuf.foldr commitStore s) rfl rfl rfl hr,
    memuRead_commitAll h.form (fun st hst => (h.sbuf c st hst).1), readByte_eq]

/-- Settles O25: a CPU whose own buffer holds nothing for a byte reads the MemU's. -/
theorem fencePublishesStores : Obligations.FencePublishesStores := by
  intro fm pred succ rs1 rd s t hs hg h
  obtain ⟨u, hu, hdata, hmain, hcache, -⟩ := fenceLane_done s.cur s
  obtain ⟨hcfg, hcur, -, hpn⟩ := hdata.fields
  have hexec : exec (.fence fm pred succ rs1 rd) s = onLanes .system (pcPlus4 s) fenceLane s := rfl
  rw [hexec, onLanes_single hg, hu, finish_done, hcur] at h
  cases h
  refine ⟨fun d a hnone => ?_, fun a ha => ?_⟩
  · have hmemu : memuRead (dataCached s a) a u = readByte s.cur a s := by
      rw [← memuRead_drainAll hs]
      have hd := onlyData_drainAll s.cur s
      exact memuRead_congr hmain hcache (by rw [hcfg, hd.fields.1]) (by rw [hdata.deviceReads, hd.deviceReads]) _ a
    rw [readByte_eq, hnone, ite_self, Option.getD_none, ← hmemu]
    have hcached : dataCached (retire .system none (setPc s.cur (pcPlus4 s) u)) a = dataCached s a := by
      unfold dataCached
      rw [retire_pncache, retire_cfg, setPc_pncache, setPc_cfg, hpn, hcfg]
    rw [hcached]
    exact memuRead_congr (by simp) (by simp) (by simp) (by simp) _ a
  · rw [retire_main, setPc_main, hmain, drainAll_main]
    exact read_main_commitAll ha _

end Sys2Proof.Machine
end

section
/-! SUPPORT. The cache operations: one line of the MemU, after the CPU's own stores, and what another bus master wrote
(R115, R121 to R123, R302 to R305, R405). -/

namespace Sys2Proof.Machine

/-! ### Operations on one line -/

/-- Only line n of the MemU differs, in main memory and in the cache. -/
structure OnlyLine (n : Nat) (s t : State) : Prop where
  memu  : OnlyMemu s t
  main  : ∀ a, lineOf s.cfg a ≠ n → Memory.read t.main a = Memory.read s.main a
  cache : ∀ m, m ≠ n → Cache.find t.cache m = Cache.find s.cache m

theorem OnlyLine.trans {n : Nat} {s t u : State} (h : OnlyLine n s t) (h' : OnlyLine n t u) : OnlyLine n s u :=
  ⟨h.memu.trans h'.memu, fun a ha => (h'.main a (by rw [h.memu.cfg]; exact ha)).trans (h.main a ha),
    fun m hm => (h'.cache m hm).trans (h.cache m hm)⟩

/-- The MemU value of a byte outside the line stays. -/
theorem OnlyLine.memuRead {n : Nat} {s t : State} (h : OnlyLine n s t) {a : Nat} (ha : lineOf s.cfg a ≠ n) (cached : Bool) :
    memuRead cached a t = memuRead cached a s := by
  unfold Machine.memuRead
  rw [h.memu.cfg, h.memu.deviceReads, h.main a ha, h.cache _ ha]

theorem onlyLine_dropLine (n : Nat) (s : State) : OnlyLine n s (dropLine n s) :=
  ⟨onlyMemu_dropLine n s, fun _ _ => rfl, fun m hm => by rw [dropLine, Cache.find_remove, if_neg hm]⟩

theorem onlyLine_refreshLine (n : Nat) (s : State) : OnlyLine n s (refreshLine n s) := by
  refine ⟨onlyMemu_refreshLine n s, fun a _ => ?_, fun m hm => ?_⟩
  · unfold refreshLine; split <;> rfl
  · unfold refreshLine
    split
    · next l hl =>
      obtain ⟨-, hnum⟩ := Cache.mem_of_find hl
      exact (Cache.find_put ..).trans (if_neg (by rw [← hnum] at hm; exact hm))
    · rfl

/-- The bytes of a line are those from its base on. -/
theorem mem_line_iff (cfg : Config) (n a : Nat) :
    n * cfg.lineBytes ≤ a ∧ a < n * cfg.lineBytes + cfg.lineBytes ↔ lineOf cfg a = n := by
  rw [lineOf, Nat.div_eq_iff (lineBytes_pos cfg)]
  have := lineBytes_pos cfg
  omega

/-- What the write-back of a present line leaves in main memory (R121, R122). -/
theorem read_main_writeBackLine {n : Nat} {s : State} (h : MemuForm s) {l : CacheLine}
    (hl : Cache.find s.cache n = some l) (a : Nat) :
    Memory.read (writeBackLine n s).main a =
      if lineOf s.cfg a = n then l.data.getD (a - n * s.cfg.lineBytes) unlisted else Memory.read s.main a := by
  have hmain : (writeBackLine n s).main = Memory.writeBytes s.main (n * s.cfg.lineBytes) l.data := by
    simp only [writeBackLine, hl]
  obtain ⟨hlen, -⟩ := h.whole l (Cache.mem_of_find hl).1
  rw [hmain, Memory.read_writeBytes, hlen]
  simp only [mem_line_iff]

theorem find_writeBackLine (n m : Nat) (s : State) :
    (Cache.find (writeBackLine n s).cache m).map CacheLine.data = (Cache.find s.cache m).map CacheLine.data := by
  unfold writeBackLine
  split
  · next l hl =>
    rw [Cache.find_put]
    split
    · next hm => rw [show m = n from hm, hl]; rfl
    · rfl
  · rfl

theorem onlyLine_writeBackLine {n : Nat} {s : State} (h : MemuForm s) : OnlyLine n s (writeBackLine n s) := by
  refine ⟨onlyMemu_writeBackLine n s, fun a ha => ?_, fun m hm => ?_⟩
  · cases hl : Cache.find s.cache n with
    | none => simp only [writeBackLine, hl]
    | some l => rw [read_main_writeBackLine h hl, if_neg ha]
  · unfold writeBackLine
    split
    · exact (Cache.find_put ..).trans (if_neg hm)
    · rfl

theorem onlyLine_flushLine {n : Nat} {s : State} (h : MemuForm s) : OnlyLine n s (flushLine n s) :=
  ((onlyLine_refreshLine n s).trans (onlyLine_writeBackLine (memuForm_refreshLine h n))).trans (onlyLine_dropLine n _)

/-- A line's place of a byte. -/
theorem sub_line_base {cfg : Config} {n a : Nat} (h : lineOf cfg a = n) : a - n * cfg.lineBytes = a % cfg.lineBytes := by
  subst h
  rw [lineOf, Nat.mul_comm]
  exact (Nat.mod_eq_sub_mul_div).symm

/-- The write-back leaves what cached accesses read, in the cache and in main memory (R121, R122). -/
theorem writeBackLine_reads {n a : Nat} {s : State} (h : MemuForm s) (hd : deviceAt s.cfg a = false)
    (hl : lineOf s.cfg a = n) :
    Memory.read (writeBackLine n s).main a = memuRead true a s ∧
      memuRead true a (writeBackLine n s) = memuRead true a s := by
  cases hf : Cache.find s.cache n with
  | none =>
    have hsame : writeBackLine n s = s := by simp only [writeBackLine, hf]
    rw [hsame]
    exact ⟨(memuRead_main hd (.inr (by rw [hl]; exact hf))).symm, rfl⟩
  | some l =>
    have hbefore := memuRead_present hd (by rw [hl]; exact hf)
    have hcfg := (onlyMemu_writeBackLine n s).cfg
    have hfind := find_writeBackLine n n s
    rw [hf, Option.map_some, Option.map_eq_some_iff] at hfind
    obtain ⟨l', hl', hdata⟩ := hfind
    constructor
    · rw [read_main_writeBackLine h hf, if_pos hl, sub_line_base hl, hbefore]
    · rw [memuRead_present (l := l') (by rw [hcfg]; exact hd) (by rw [hcfg, hl]; exact hl'), hbefore, hdata, hcfg]

/-! ### Completion -/

/-- A cache operation of a CPU completes, after its act on the MemU has come to u. -/
structure CacheOpDone (s u t : State) : Prop where
  main    : t.main = u.main
  cache   : t.cache = u.cache
  reads   : ∀ cached a, memuRead cached a t = memuRead cached a u
  empty   : (t.cpu s.cur).sbuf = []
  others  : ∀ c, c ≠ s.cur → (t.cpu c).sbuf = (s.cpu c).sbuf
  regs    : SameRegs s t
  pc      : pcOf s.cur t = pcPlus4 s
  pcs     : SamePcsBut s.cur s t
  counted : Counted .uncounted s t
  system  : SameSystem s t
  fetch   : SameFetch s t

section
variable {s : State} {base : Reg} {off : BitVec 12}

/-- The MemU after the operation: the act on the line, after the CPU's stores (R123). -/
def afterCacheOp (act : Nat → State → State) (base : Reg) (off : BitVec 12) (s : State) : State :=
  act (lineOf s.cfg (effAddr s.cur base off s).toNat) (drainAll s.cur s)

theorem cacheOp_completes {i : Instr} {act : Nat → State → State} (hg : grouped s = false)
    (hi : exec i s = onLanes .uncounted (pcPlus4 s) (cacheLane act base off) s)
    (hp : addrKind s.cfg (effAddr s.cur base off s).toNat ≠ .absent)
    (hact : OnlyMemu (drainAll s.cur s) (afterCacheOp act base off s)) :
    ∃ t, exec i s = .next t ∧ CacheOpDone s (afterCacheOp act base off s) t := by
  have hkind : accessKind s.cfg (effAddr s.cur base off s) 1 ≠ .absent := by
    intro h
    have hadd : effAddr s.cur base off s + BitVec.ofNat 32 0 = effAddr s.cur base off s := BitVec.add_zero _
    simp only [accessKind, List.range_one, List.map_cons, List.map_nil, hadd] at h
    revert h hp
    cases addrKind s.cfg (effAddr s.cur base off s).toNat <;> decide
  have hlane : cacheLane act base off s.cur s = .done (afterCacheOp act base off s) := wherePresent_of hkind _
  generalize afterCacheOp act base off s = u at *
  have hcpu : ∀ c, u.cpu c = if c = s.cur then { s.cpu s.cur with sbuf := [] } else s.cpu c := fun c => by
    rw [hact.cpu, drainAll_cpu]
  have hb : OnlyBuffers s u := ⟨(onlyData_drainAll s.cur s).trans hact.onlyData, fun c => by
    rw [hcpu]
    split
    · next h => rw [h]
    · rfl⟩
  obtain ⟨-, hcur, -⟩ := hb.data.fields
  obtain ⟨hregs, hpc, hpcs, hcounted, hsystem⟩ := hb.completed .uncounted (pcPlus4 s)
  refine ⟨retire .uncounted none (setPc s.cur (pcPlus4 s) u), ?_, by simp, by simp,
    fun cached a => memuRead_congr (by simp) (by simp) (by simp) (by simp) cached a, ?_, fun c hc => ?_, hregs, hpc, hpcs,
    hcounted, hsystem, fun c => ?_⟩
  · rw [hi, onLanes_single hg, hlane, finish_done, hcur]
  · rw [retire_cpu, setPc_cpu_sbuf, hcpu, if_pos rfl]
  · rw [retire_cpu, setPc_cpu_sbuf, hcpu, if_neg hc]
  · rw [retire_cpu, setPc_cpu_ifu, hcpu]
    split
    · next h => rw [h]
    · rfl

variable {i : Instr} {t : State}

/-- What the statement says of every cache operation. -/
theorem CacheOpDone.rest {u : State} (h : CacheOpDone s u t) {n : Nat} (ho : OnlyLine n (drainAll s.cur s) u) :
    (t.cpu s.cur).sbuf = [] ∧ (∀ c, c ≠ s.cur → (t.cpu c).sbuf = (s.cpu c).sbuf) ∧
      SameRegs s t ∧ pcOf s.cur t = pcPlus4 s ∧ SamePcsBut s.cur s t ∧ Counted .uncounted s t ∧
      SameSystem s t ∧ SameFetch s t ∧
      ∀ a, a / s.cfg.lineBytes ≠ n → Memory.read t.main a = Memory.read (drainAll s.cur s).main a ∧
        memuRead true a t = memuRead true a (drainAll s.cur s) := by
  have hcfg := (onlyData_drainAll s.cur s).fields.1
  refine ⟨h.empty, h.others, h.regs, h.pc, h.pcs, h.counted, h.system, h.fetch, fun a ha => ?_⟩
  have ha : lineOf (drainAll s.cur s).cfg a ≠ n := by rw [hcfg]; exact ha
  exact ⟨by rw [h.main, ho.main a ha], by rw [h.reads, ho.memuRead ha]⟩

end

/-! ### What another bus master wrote -/

/-- A byte is the same in main memory and in the cache, and so is which of the two is newer. -/
structure SameAt (x : Nat) (s t : State) : Prop where
  main    : Memory.read t.main x = Memory.read s.main x
  memu    : memuRead true x t = memuRead true x s
  foreign : foreignAt x t = foreignAt x s

theorem SameAt.refl (x : Nat) (s : State) : SameAt x s s := ⟨rfl, rfl, rfl⟩

theorem SameAt.trans {x : Nat} {s t u : State} (h : SameAt x s t) (h' : SameAt x t u) : SameAt x s u :=
  ⟨h'.main.trans h.main, h'.memu.trans h.memu, h'.foreign.trans h.foreign⟩

/-- Different bytes of one line have different places in it. -/
theorem mod_ne_of_lineOf_eq {cfg : Config} {x y : Nat} (hl : lineOf cfg x = lineOf cfg y) (h : x ≠ y) :
    y % cfg.lineBytes ≠ x % cfg.lineBytes := by
  intro he
  apply h
  have h1 := Nat.div_add_mod x cfg.lineBytes
  have h2 := Nat.div_add_mod y cfg.lineBytes
  unfold lineOf at hl
  rw [hl, ← he] at h1
  exact h1.symm.trans h2

theorem getD_set_ne {α : Type} {l : List α} {i j : Nat} (h : i ≠ j) (b d : α) : (l.set i b).getD j d = l.getD j d := by
  rw [List.getD_eq_getElem?_getD, List.getElem?_set_ne h, ← List.getD_eq_getElem?_getD]

/-- A write to another byte of main memory alone. -/
theorem sameAt_main {x y : Nat} (h : x ≠ y) (b : Byte) (s : State) :
    SameAt x s { s with main := Memory.write s.main y b } := by
  have hr : Memory.read (Memory.write s.main y b) x = Memory.read s.main x := by rw [Memory.read_write, if_neg h]
  refine ⟨hr, ?_, rfl⟩
  unfold memuRead
  dsimp only
  rw [hr]

/-- A mark concerns its line alone. -/
theorem Cache.find_mark (k : Cache) (n i m : Nat) :
    Cache.find (Cache.mark k n i) m =
      if m = n then (Cache.find k n).map (fun l => { l with foreign := l.foreign.set i true }) else Cache.find k m := by
  unfold Cache.mark
  split
  · next l hl =>
    obtain ⟨-, hnum⟩ := Cache.mem_of_find hl
    rw [Cache.find_put, hl, Option.map_some]
    simp only [hnum]
  · next hl =>
    split
    · next hm => rw [hm, hl]; rfl
    · rfl

theorem foreignAt_present {a : Nat} {s : State} {l : CacheLine} (h : Cache.find s.cache (lineOf s.cfg a) = some l) :
    foreignAt a s = l.foreign.getD (a % s.cfg.lineBytes) false := by
  simp only [foreignAt, h]

theorem foreignAt_absent {a : Nat} {s : State} (h : Cache.find s.cache (lineOf s.cfg a) = none) : foreignAt a s = false := by
  simp only [foreignAt, h]

/-- When the line of a byte stays. -/
theorem sameAt_of_find {x : Nat} {s : State} {k : Cache}
    (h : Cache.find k (lineOf s.cfg x) = Cache.find s.cache (lineOf s.cfg x)) : SameAt x s { s with cache := k } := by
  refine ⟨rfl, ?_, ?_⟩
  · unfold memuRead
    dsimp only
    rw [h]
  · unfold foreignAt
    dsimp only
    rw [h]

/-- A mark at another byte. -/
theorem sameAt_mark {x y : Nat} (h : x ≠ y) (s : State) :
    SameAt x s { s with cache := Cache.mark s.cache (lineOf s.cfg y) (y % s.cfg.lineBytes) } := by
  refine ⟨rfl, memuRead_mark _ _ _ _ s, ?_⟩
  have hfind := Cache.find_mark s.cache (lineOf s.cfg y) (y % s.cfg.lineBytes) (lineOf s.cfg x)
  by_cases hxy : lineOf s.cfg x = lineOf s.cfg y
  · rw [if_pos hxy, ← hxy] at hfind
    cases hl : Cache.find s.cache (lineOf s.cfg x) with
    | none =>
      rw [hl] at hfind
      rw [foreignAt_absent hl]
      exact foreignAt_absent (by rw [← hxy]; exact hfind)
    | some l =>
      rw [hl] at hfind
      rw [foreignAt_present hl]
      refine (foreignAt_present (by rw [← hxy]; exact hfind)).trans ?_
      exact getD_set_ne (mod_ne_of_lineOf_eq hxy h) true false
  · rw [if_neg hxy] at hfind
    exact (sameAt_of_find hfind).foreign

/-- A write to another byte through the cache, which loads the line first if it is absent. -/
theorem sameAt_cached {x y : Nat} (h : x ≠ y) (b : Byte) {s : State} {l : CacheLine}
    (hl : l = (Cache.find s.cache (lineOf s.cfg y)).getD (lineFromMain s (lineOf s.cfg y))) {k : CacheLine}
    (hk : k = ⟨lineOf s.cfg y, l.data.set (y % s.cfg.lineBytes) b, true, l.foreign.set (y % s.cfg.lineBytes) false⟩) :
    SameAt x s { s with cache := Cache.put s.cache k } := by
  have hnum : k.num = lineOf s.cfg y := by rw [hk]
  have hfind := Cache.find_put s.cache k (lineOf s.cfg x)
  rw [hnum] at hfind
  by_cases hxy : lineOf s.cfg x = lineOf s.cfg y
  · have hne := mod_ne_of_lineOf_eq hxy h
    have hdata : k.data.getD (x % s.cfg.lineBytes) unlisted = l.data.getD (x % s.cfg.lineBytes) unlisted := by
      rw [hk]; exact getD_set_ne hne b unlisted
    have hforeign : k.foreign.getD (x % s.cfg.lineBytes) false = l.foreign.getD (x % s.cfg.lineBytes) false := by
      rw [hk]; exact getD_set_ne hne false false
    rw [if_pos hxy] at hfind
    rw [← hxy] at hl
    refine ⟨rfl, ?_, (foreignAt_present hfind).trans (hforeign.trans ?_)⟩
    · by_cases hd : deviceAt s.cfg x = true
      · exact memuRead_device (t := { s with cache := Cache.put s.cache k }) hd rfl rfl true true
      · have hd : deviceAt s.cfg x = false := by simpa using hd
        refine (memuRead_present (s := { s with cache := Cache.put s.cache k }) hd hfind).trans (hdata.trans ?_)
        cases hf : Cache.find s.cache (lineOf s.cfg x) with
        | some l' => rw [memuRead_present hd hf, hl, hf]; rfl
        | none => rw [memuRead_main hd (.inr hf), hl, hf]; exact getD_lineFromMain s x unlisted
    · cases hf : Cache.find s.cache (lineOf s.cfg x) with
      | some l' => rw [foreignAt_present hf, hl, hf]; rfl
      | none =>
        rw [foreignAt_absent hf, hl, hf]
        show (List.replicate _ false).getD _ false = false
        rw [List.getD_replicate _ (Nat.mod_lt _ (lineBytes_pos _))]
  · rw [if_neg hxy] at hfind
    exact sameAt_of_find hfind

theorem sameAt_memuWrite {x y : Nat} (h : x ≠ y) (cached : Bool) (b : Byte) (s : State) :
    SameAt x s (memuWrite cached y b s) := by
  unfold memuWrite
  split_ifs
  · exact .refl x s
  · exact sameAt_cached h b rfl rfl
  · exact (sameAt_main h b s).trans (sameAt_mark h { s with main := Memory.write s.main y b })
  · exact sameAt_main h b s

theorem sameAt_commitStore {x : Nat} {st : Store} (h : Store.find st x = none) (s : State) :
    SameAt x s (commitStore st s) := by
  unfold commitStore
  induction st generalizing s with
  | nil => exact .refl x s
  | cons e r ih =>
    have hne := Store.find_none_iff.1 h
    exact (sameAt_memuWrite (hne e List.mem_cons_self).symm _ e.2 s).trans
      (ih (Store.find_none_iff.2 fun f hf => hne f (List.mem_cons_of_mem _ hf)) _)

/-- Stores that leave a byte alone. -/
theorem sameAt_commitAll {x : Nat} {buf : List Store} (h : forward buf x = none) (s : State) :
    SameAt x s (buf.foldr commitStore s) := by
  induction buf with
  | nil => exact .refl x s
  | cons st r ih =>
    rw [forward_cons, Option.or_eq_none_iff] at h
    exact (ih h.2).trans (sameAt_commitStore h.1 _)

theorem sameAt_drainAll {x : Nat} {c : CpuId} {s : State} (h : forward (s.cpu c).sbuf x = none) :
    SameAt x s (drainAll c s) := by
  obtain ⟨hmain, hmemu, hforeign⟩ := sameAt_commitAll h s
  exact ⟨hmain, hmemu, hforeign⟩

/-- Main memory holds a byte, and the cache holds it too unless its own is marked as the older. -/
structure ShownAt (x : Nat) (b : Byte) (s : State) : Prop where
  main : Memory.read s.main x = b
  memu : foreignAt x s = false → memuRead true x s = b

theorem SameAt.shown {x : Nat} {b : Byte} {s t : State} (h : SameAt x s t) (hs : ShownAt x b s) : ShownAt x b t :=
  ⟨h.main.trans hs.main, fun hf => h.memu.trans (hs.memu (h.foreign.symm.trans hf))⟩

/-- What another bus master has written (R115). -/
theorem shownAt_writeBeside {x : Nat} {s : State} (h : MemuForm s) (hd : deviceAt s.cfg x = false) (b : Byte) :
    ShownAt x b (writeBeside x b s) := by
  have hmain : Memory.read (writeBeside x b s).main x = b := (Memory.read_write ..).trans (if_pos rfl)
  refine ⟨hmain, fun hforeign => ?_⟩
  have hfind := Cache.find_mark s.cache (lineOf s.cfg x) (x % s.cfg.lineBytes) (lineOf s.cfg x)
  rw [if_pos rfl] at hfind
  cases hl : Cache.find s.cache (lineOf s.cfg x) with
  | none =>
    rw [hl] at hfind
    exact (memuRead_main (s := writeBeside x b s) hd (.inr hfind)).trans hmain
  | some l =>
    rw [hl] at hfind
    have hlen : x % s.cfg.lineBytes < l.foreign.length := by
      rw [(h.whole l (Cache.mem_of_find hl).1).2]; exact Nat.mod_lt _ (lineBytes_pos _)
    have hmarked : foreignAt x (writeBeside x b s) = true := by
      refine (foreignAt_present (s := writeBeside x b s) hfind).trans ?_
      show (l.foreign.set (x % s.cfg.lineBytes) true).getD (x % s.cfg.lineBytes) false = true
      rw [List.getD_eq_getElem _ _ (by rw [List.length_set]; exact hlen), List.getElem_set_self]
    rw [hmarked] at hforeign
    cases hforeign

/-- An act that drops a line and leaves in main memory the bytes of it that are shown there. -/
structure Uncovers (act : Nat → State → State) : Prop where
  memu  : ∀ n s, OnlyMemu s (act n s)
  drops : ∀ n s, Cache.find (act n s).cache n = none
  main  : ∀ x b s, deviceAt s.cfg x = false → ShownAt x b s → Memory.read (act (lineOf s.cfg x) s).main x = b

theorem uncovers_dropLine : Uncovers dropLine :=
  ⟨onlyMemu_dropLine, fun _ _ => (Cache.find_remove ..).trans (if_pos rfl), fun _ _ _ _ h => h.main⟩

theorem uncovers_flushLine : Uncovers flushLine := by
  refine ⟨onlyMemu_flushLine, fun n s => (flushLine_main n 0 s).1, fun x b s hd h => ?_⟩
  rw [(flushLine_main (lineOf s.cfg x) x s).2 hd]
  split
  · next hf => exact h.memu hf.2
  · exact h.main

/-- The CPU reads main memory's byte, once its buffer is empty and the line is absent. -/
theorem CacheOpDone.readByte {s u t : State} (h : CacheOpDone s u t) {x : Nat} (hd : deviceAt s.cfg x = false)
    (hfind : Cache.find u.cache (lineOf s.cfg x) = none) : readByte s.cur x t = Memory.read u.main x := by
  have hcfg : t.cfg = s.cfg := h.system.model.cfg
  rw [readByte_memu (by rw [hcfg]; exact hd) (by rw [h.empty]; rfl),
    memuRead_main (by rw [hcfg]; exact hd) (.inr (by rw [h.cache, hcfg]; exact hfind)), h.main]

section
variable {i : Instr} {act : Nat → State → State} {base : Reg} {off : BitVec 12} {s : State} {x : Nat} {b : Byte}

/-- A cache operation that uncovers its line lets its CPU read a byte that main memory shows, unless a store of that CPU to
it still waits (R405). -/
theorem readByte_of_shown (hg : grouped s = false) (ha : Uncovers act)
    (hi : exec i s = onLanes .uncounted (pcPlus4 s) (cacheLane act base off) s)
    (hp : addrKind s.cfg (effAddr s.cur base off s).toNat ≠ .absent)
    (hx : lineOf s.cfg x = lineOf s.cfg (effAddr s.cur base off s).toNat) (hd : deviceAt s.cfg x = false)
    (hnone : forward (s.cpu s.cur).sbuf x = none) (hs : ShownAt x b s) :
    ∃ t, exec i s = .next t ∧ readByte s.cur x t = b := by
  obtain ⟨t, ht, hdone⟩ := cacheOp_completes hg hi hp (ha.memu _ _)
  have hcfg : (drainAll s.cur s).cfg = s.cfg := (onlyData_drainAll s.cur s).fields.1
  have hu : afterCacheOp act base off s = act (lineOf (drainAll s.cur s).cfg x) (drainAll s.cur s) := by
    rw [afterCacheOp, hcfg, hx]
  refine ⟨t, ht, (hdone.readByte hd ?_).trans ?_⟩
  · rw [afterCacheOp, hx]
    exact ha.drops _ _
  · rw [hu]
    exact ha.main x b _ (by rw [hcfg]; exact hd) ((sameAt_drainAll hnone).shown hs)

end

/-! ### The three operations -/

/-- Settles O47. -/
theorem cacheOperationsActOnLine : Obligations.CacheOperationsActOnLine := by
  intro base off s hs hg ea line inLine hp d rest saved
  have hform : MemuForm d := memuForm_drainAll hs.form s.cur
  have hcfg : d.cfg = s.cfg := (onlyData_drainAll s.cur s).fields.1
  have hline : ∀ {a}, inLine a → deviceAt d.cfg a = false ∧ lineOf d.cfg a = line := fun h => by
    rw [hcfg]; exact ⟨h.2, h.1⟩
  refine ⟨?cinv, ?cwb, ?cflush, fun x b hx hm hnone i hi => ?bus⟩
  case cinv =>
    obtain ⟨t, ht, hdone⟩ := cacheOp_completes (i := .cinv base off) hg rfl hp (onlyMemu_dropLine line d)
    have hfind : Cache.find t.cache line = none := by
      rw [hdone.cache]
      exact (Cache.find_remove ..).trans (if_pos rfl)
    refine ⟨t, ht, hdone.rest (onlyLine_dropLine line d), hdone.main, hfind, fun a ha => ?_⟩
    have hcfgt : t.cfg = s.cfg := hdone.system.model.cfg
    rw [memuRead_main (by rw [hcfgt]; exact ha.2) (.inr (by rw [hcfgt, lineOf, ha.1]; exact hfind)), hdone.main]
    rfl
  case cwb =>
    obtain ⟨t, ht, hdone⟩ := cacheOp_completes (i := .cwb base off) hg rfl hp (onlyMemu_writeBackLine line d)
    have hreads : ∀ a, inLine a → _ := fun a ha => writeBackLine_reads hform (hline ha).1 (hline ha).2
    refine ⟨t, ht, hdone.rest (onlyLine_writeBackLine hform), fun a ha => ?_, ?_, fun a ha => ?_⟩
    · rw [hdone.main]; exact (hreads a ha).1
    · rw [hdone.cache]
      have hfind := congrArg Option.isSome (find_writeBackLine line line d)
      rwa [Option.isSome_map, Option.isSome_map] at hfind
    · rw [hdone.reads]; exact (hreads a ha).2
  case cflush =>
    obtain ⟨t, ht, hdone⟩ := cacheOp_completes (i := .cflush base off) hg rfl hp (onlyMemu_flushLine line d)
    have hflush := fun a => flushLine_main line a d
    have hfind : Cache.find t.cache line = none := by rw [hdone.cache]; exact (hflush 0).1
    refine ⟨t, ht, hdone.rest (onlyLine_flushLine hform), hfind, fun a ha => ⟨?_, ?_⟩⟩
    · have hcfgt : t.cfg = s.cfg := hdone.system.model.cfg
      exact memuRead_main (by rw [hcfgt]; exact ha.2) (.inr (by rw [hcfgt, lineOf, ha.1]; exact hfind))
    · obtain ⟨hd, hl⟩ := hline ha
      rw [hdone.main]
      refine ((hflush a).2 hd).trans ?_
      cases foreignAt a d <;> simp [hl]
  case bus =>
    have hd := deviceAt_of_memory hm
    have hbus : applyEvent s (.busWrite x b) = writeBeside x.toNat b s := if_pos hm
    rw [hbus]
    simp only [List.mem_cons, List.not_mem_nil, or_false] at hi
    rcases hi with rfl | rfl
    · exact readByte_of_shown (s := writeBeside x.toNat b s) hg uncovers_dropLine rfl hp hx hd hnone
        (shownAt_writeBeside hs.form hd b)
    · exact readByte_of_shown (s := writeBeside x.toNat b s) hg uncovers_flushLine rfl hp hx hd hnone
        (shownAt_writeBeside hs.form hd b)

end Sys2Proof.Machine
end

section
/-! SUPPORT. What a step executes: the word that the IFU holds, or the four bytes at the pc (R101, R103, R111, R118, R156). -/

namespace Sys2Proof.Machine

/-! ### The fetch -/

section
variable {s : State}

theorem fetch_prefetched {w : Word} (h : prefetched (curPc s) (s.cpu s.cur).ifu = some w) :
    fetchWord s = .ok w ∧ afterFetch s = s := by
  constructor
  · simp only [fetchWord, h]
  · simp only [afterFetch, h]

theorem fetch_memory (h : prefetched (curPc s) (s.cpu s.cur).ifu = none) (hk : accessKind s.cfg (curPc s) 4 = .memory) :
    fetchWord s = .ok (memuWord (curPc s) s) ∧ afterFetch s = s := by
  constructor
  · simp only [fetchWord, h, hk]
  · simp only [afterFetch, h, afterRead, hk]

theorem fetch_device (h : prefetched (curPc s) (s.cpu s.cur).ifu = none) (hk : accessKind s.cfg (curPc s) 4 = .device) :
    fetchWord s = .ok (memuWord (curPc s) s) ∧ afterFetch s = { s with deviceReads := s.deviceReads + 1 } := by
  constructor
  · simp only [fetchWord, h, hk]
  · simp only [afterFetch, h, afterRead, hk]

theorem executeNext_absent (h : prefetched (curPc s) (s.cpu s.cur).ifu = none)
    (hk : accessKind s.cfg (curPc s) 4 = .absent) : executeNext s = .fault (.absentAddress (curPc s)) := by
  simp only [executeNext, fetchWord, h, hk]

/-- The instruction that the fetched word decodes to is executed. -/
theorem executeNext_of_decode {w : Word} {i : Instr} {t : State} (hf : fetchWord s = .ok w ∧ afterFetch s = t)
    (hd : decode s.cfg w = .ok i) : executeNext s = exec i t := by
  obtain ⟨hw, ht⟩ := hf
  simp only [executeNext, hw, hd, ht]

end

/-- The four bytes at an address decode as the word that a fetch from there gets (R103). -/
theorem decode_memuWord {cfg : Config} {a : Word} {s : State} {i : Instr} {rest : List Byte}
    (h : decodeBytes cfg ((List.range 4).map (fun n =>
      memuRead (instrCached s (a + BitVec.ofNat 32 n).toNat) (a + BitVec.ofNat 32 n).toNat s)) = .ok (i, rest)) :
    decode cfg (memuWord a s) = .ok i := by
  have hword : wordOfBytes (memuRead (instrCached s (a + BitVec.ofNat 32 0).toNat) (a + BitVec.ofNat 32 0).toNat s)
      (memuRead (instrCached s (a + 1).toNat) (a + 1).toNat s) (memuRead (instrCached s (a + 2).toNat) (a + 2).toNat s)
      (memuRead (instrCached s (a + 3).toNat) (a + 3).toNat s) = memuWord a s := by
    rw [show a + BitVec.ofNat 32 0 = a from BitVec.add_zero a]
    rfl
  rw [← hword]
  simp only [List.range_succ, List.range_zero, List.nil_append, List.cons_append, List.map_cons, List.map_nil,
    decodeBytes] at h
  split at h
  · next hd => cases h; exact hd
  · cases h

/-! ### The step -/

theorem step_idle {s : State} (h : runnable (beginTurn s) (beginTurn s).cur = false) : step s = .next (beginTurn s) := by
  simp only [step, h, Bool.false_eq_true, if_false]

theorem step_executes {s : State} (h : runnable (beginTurn s) (beginTurn s).cur = true)
    (hd : copuTrapDue (responds s) (beginTurn s) = false) : step s = executeNext (beginTurn s) := by
  simp only [step, h, hd, Bool.false_eq_true, if_true, if_false]

/-- Settles O5. -/
theorem stepRunsDecoded : Obligations.StepRunsDecoded := by
  intro s i t a
  refine ⟨step_idle, fun hr hd => ?_⟩
  have hstep : step s = executeNext t := step_executes hr hd
  rw [hstep]
  exact ⟨fun w hw hi => executeNext_of_decode (fetch_prefetched hw) hi,
    fun hnone => ⟨executeNext_absent hnone, fun hbytes =>
      ⟨fun hk => executeNext_of_decode (fetch_memory hnone hk) (decode_memuWord hbytes),
        fun hk => executeNext_of_decode (fetch_device hnone hk) (decode_memuWord hbytes)⟩⟩⟩

end Sys2Proof.Machine
end

section
/-! SUPPORT. The decoder: which part of it reads a word, that it undoes the encoding, and that the encoding undoes it
(R141 to R156, R160). -/

namespace Sys2Proof

/-! ### The major opcode chooses the part of the decoder (R145, R156) -/

section
variable {cfg : Config} {w : Word}

theorem decode_opImm (h : opcodeOf w = 0x13) : decode cfg w = decodeOpImm w := by simp [decode, h]

theorem decode_op (h : opcodeOf w = 0x33) : decode cfg w = decodeOp w := by simp [decode, h]

theorem decode_lui (h : opcodeOf w = 0x37) : decode cfg w = .ok (.lui (rdOf w) (immU w)) := by simp [decode, h]

theorem decode_auipc (h : opcodeOf w = 0x17) : decode cfg w = .ok (.auipc (rdOf w) (immU w)) := by simp [decode, h]

theorem decode_jal (h : opcodeOf w = 0x6F) : decode cfg w = .ok (.jal (rdOf w) (immJ w)) := by simp [decode, h]

theorem decode_jalr (h : opcodeOf w = 0x67) (h3 : funct3Of w = 0) :
    decode cfg w = .ok (.jalr (rdOf w) (rs1Of w) (immI w)) := by simp [decode, h, h3]

theorem decode_branch (h : opcodeOf w = 0x63) : decode cfg w = decodeBranch w := by simp [decode, h]

theorem decode_load (h : opcodeOf w = 0x03) : decode cfg w = decodeLoad w := by simp [decode, h]

theorem decode_store (h : opcodeOf w = 0x23) : decode cfg w = decodeStore w := by simp [decode, h]

theorem decode_miscMem (h : opcodeOf w = 0x0F) : decode cfg w = decodeMiscMem w := by simp [decode, h]

theorem decode_system (h : opcodeOf w = 0x73) : decode cfg w = decodeSystem w := by simp [decode, h]

theorem decode_custom0 (h : opcodeOf w = 0x0B) : decode cfg w = decodeCustom0 cfg w := by simp [decode, h]

/-- Under no major opcode there is an instruction (R160, D11). -/
theorem decode_of_not_major (h : opcodeOf w ∉ Laws.majorOpcodes) : decode cfg w = .error .illegal := by
  simp only [Laws.majorOpcodes, List.mem_cons, List.not_mem_nil, or_false, not_or] at h
  simp only [decode, h, if_false]

/-- Every major opcode has 11 in bits 1:0 (R140). -/
theorem low_bits_of_major (h : opcodeOf w ∈ Laws.majorOpcodes) : w.extractLsb' 0 2 = 3 := by
  have ones : ∀ op ∈ Laws.majorOpcodes, op.extractLsb' 0 2 = 3 := by decide
  have low : (opcodeOf w).extractLsb' 0 2 = w.extractLsb' 0 2 := BitVec.extractLsb'_extractLsb'_of_le (by decide)
  rw [← low]
  exact ones _ h

end

/-! ### Decoding an encoded instruction -/

/-- Bits of an encoded word above 20 are bits of its I-immediate (R141). -/
theorem extractLsb'_encodeI {k n : Nat} (hk : k + n ≤ 12) (i : BitVec 12) (a : Reg) (f3 : BitVec 3) (d : Reg)
    (op : BitVec 7) : (encodeI i a f3 d op).extractLsb' (20 + k) n = i.extractLsb' k n := by
  conv_rhs => rw [← immI_encodeI i a f3 d op]
  ext j hj
  simp [immI, Nat.add_assoc, show k + j < 12 by omega]

/-- The three fields of a FENCE are the parts of its I-immediate (R151). -/
theorem fence_fields_encodeI (fm pred succ : BitVec 4) (a : Reg) (f3 : BitVec 3) (d : Reg) (op : BitVec 7) :
    (encodeI (fm ++ pred ++ succ) a f3 d op).extractLsb' 28 4 = fm ∧
    (encodeI (fm ++ pred ++ succ) a f3 d op).extractLsb' 24 4 = pred ∧
    (encodeI (fm ++ pred ++ succ) a f3 d op).extractLsb' 20 4 = succ := by
  have high : (fm ++ pred ++ succ).extractLsb' 8 4 = fm :=
    (BitVec.extractLsb'_append_eq_of_le (by decide)).trans BitVec.extractLsb'_append_eq_left
  have middle : (fm ++ pred ++ succ).extractLsb' 4 4 = pred :=
    (BitVec.extractLsb'_append_eq_of_le (by decide)).trans BitVec.extractLsb'_append_eq_right
  have low : (fm ++ pred ++ succ).extractLsb' 0 4 = succ := BitVec.extractLsb'_append_eq_right
  exact ⟨(extractLsb'_encodeI (k := 8) (by decide) _ a f3 d op).trans high,
    (extractLsb'_encodeI (k := 4) (by decide) _ a f3 d op).trans middle,
    (extractLsb'_encodeI (k := 0) (by decide) _ a f3 d op).trans low⟩

/-- In an admitted configuration the codes of the four ParaNut instructions differ (R153). -/
theorem Config.Wf.funct3_distinct {cfg : Config} (h : Config.Wf cfg) :
    cfg.funct3.cinv ≠ cfg.funct3.halt ∧ cfg.funct3.cwb ≠ cfg.funct3.halt ∧ cfg.funct3.cflush ≠ cfg.funct3.halt ∧
    cfg.funct3.cwb ≠ cfg.funct3.cinv ∧ cfg.funct3.cflush ≠ cfg.funct3.cinv ∧ cfg.funct3.cflush ≠ cfg.funct3.cwb := by
  have := h.funct3
  simp only [List.nodup_cons, List.mem_cons, List.not_mem_nil, or_false, not_or] at this
  obtain ⟨⟨halt_cinv, halt_cwb, halt_cflush⟩, ⟨cinv_cwb, cinv_cflush⟩, cwb_cflush, -⟩ := this
  exact ⟨Ne.symm halt_cinv, Ne.symm halt_cwb, Ne.symm halt_cflush, Ne.symm cinv_cwb, Ne.symm cinv_cflush,
    Ne.symm cwb_cflush⟩

/-- Settles O1, one line for each major opcode: the encoded word's fields are what the decoder's part for the opcode
reads. -/
theorem decodeOfEncode : Obligations.DecodeOfEncode := by
  intro cfg hcfg i hwf
  cases i
  case addi | slti | sltiu | andi | ori | xori | slli | srli | srai => simp [encode, decode_opImm, decodeOpImm]
  case add | sub | slt | sltu | and | or | xor | sll | srl | sra => simp [encode, decode_op, decodeOp]
  case lui => simp [encode, decode_lui]
  case auipc => simp [encode, decode_auipc]
  case jal rd off =>
    have even : off.getLsbD 0 = false := by simpa [Instr.wf] using hwf
    simp [encode, decode_jal, immJ_encodeJ even]
  case jalr => simp [encode, decode_jalr]
  case beq rs1 rs2 off | bne rs1 rs2 off | blt rs1 rs2 off | bge rs1 rs2 off | bltu rs1 rs2 off | bgeu rs1 rs2 off =>
    have even : off.getLsbD 0 = false := by simpa [Instr.wf] using hwf
    simp [encode, decode_branch, decodeBranch, immB_encodeB even]
  case lb | lh | lw | lbu | lhu => simp [encode, decode_load, decodeLoad]
  case sb | sh | sw => simp [encode, decode_store, decodeStore]
  case fence => simp [encode, decode_miscMem, decodeMiscMem, fence_fields_encodeI]
  case fenceI => simp [encode, decode_miscMem, decodeMiscMem]
  case csrrw | csrrs | csrrc | csrrwi | csrrsi | csrrci | ecall | ebreak | mret =>
    simp [encode, decode_system, decodeSystem]
  case halt | cinv | cwb | cflush =>
    obtain ⟨cinv_halt, cwb_halt, cflush_halt, cwb_cinv, cflush_cinv, cflush_cwb⟩ := hcfg.funct3_distinct
    simp [encode, decode_custom0, decodeCustom0, cinv_halt, cwb_halt, cflush_halt, cwb_cinv, cflush_cinv, cflush_cwb]

/-! ### Encoding a decoded word -/

/-- What a part of the decoder may answer for a word: an instruction whose encoding the word is, or the one error of that
part. -/
inductive ReadsAs (cfg : Config) (w : Word) (e : DecodeError) : Except DecodeError Instr → Prop where
  | ok {i : Instr} (h : encode cfg i = w) : ReadsAs cfg w e (.ok i)
  | error : ReadsAs cfg w e (.error e)

namespace ReadsAs
variable {cfg : Config} {w : Word} {e : DecodeError}

theorem ite {p : Prop} [Decidable p] {a b : Except DecodeError Instr} (ha : p → ReadsAs cfg w e a)
    (hb : ¬ p → ReadsAs cfg w e b) : ReadsAs cfg w e (if p then a else b) := by
  split
  · next h => exact ha h
  · next h => exact hb h

theorem encode_eq {i : Instr} (h : ReadsAs cfg w e (.ok i)) : encode cfg i = w := by
  cases h with
  | ok h => exact h

theorem error_eq {e' : DecodeError} (h : ReadsAs cfg w e (.error e')) : e' = e := by
  cases h with
  | error => rfl

end ReadsAs

section
variable {w : Word} {f7 : BitVec 7} {f3 : BitVec 3} {op : BitVec 7}

theorem encodeR_of_fields (h7 : funct7Of w = f7) (h3 : funct3Of w = f3) (h : opcodeOf w = op) :
    encodeR f7 (rs2Of w) (rs1Of w) f3 (rdOf w) op = w := by
  subst h7 h3 h; exact encodeR_fields w

theorem encodeI_of_fields (h3 : funct3Of w = f3) (h : opcodeOf w = op) :
    encodeI (immI w) (rs1Of w) f3 (rdOf w) op = w := by
  subst h3 h; exact encodeI_fields w

theorem encodeS_of_fields (h3 : funct3Of w = f3) (h : opcodeOf w = op) :
    encodeS (immS w) (rs2Of w) (rs1Of w) f3 op = w := by
  subst h3 h; exact encodeS_fields w

theorem encodeB_of_fields (h3 : funct3Of w = f3) (h : opcodeOf w = op) :
    encodeB (immB w) (rs2Of w) (rs1Of w) f3 op = w := by
  subst h3 h; exact encodeB_fields w

theorem encodeU_of_fields (h : opcodeOf w = op) : encodeU (immU w) (rdOf w) op = w := by
  subst h; exact encodeU_fields w

theorem encodeJ_of_fields (h : opcodeOf w = op) : encodeJ (immJ w) (rdOf w) op = w := by
  subst h; exact encodeJ_fields w

end

section
variable {cfg : Config} {w : Word}

/-- The last two arms are SRLI and SRAI: only funct3 = 5 is left (R146). -/
theorem readsAs_opImm (hop : opcodeOf w = 0x13) : ReadsAs cfg w .illegal (decodeOpImm w) := by
  have imm {f3} (h : funct3Of w = f3) : encodeI (immI w) (rs1Of w) f3 (rdOf w) 0x13 = w := encodeI_of_fields h hop
  have shift {f7 f3} (h7 : funct7Of w = f7) (h3 : funct3Of w = f3) :
      encodeR f7 (rs2Of w) (rs1Of w) f3 (rdOf w) 0x13 = w := encodeR_of_fields h7 h3 hop
  refine .ite (fun h => .ok (imm h)) fun n0 => .ite (fun h => .ok (imm h)) fun n2 => .ite (fun h => .ok (imm h)) fun n3 =>
    .ite (fun h => .ok (imm h)) fun n4 => .ite (fun h => .ok (imm h)) fun n6 => .ite (fun h => .ok (imm h)) fun n7 =>
    .ite (fun h => .ite (fun h7 => .ok (shift h7 h)) fun _ => .error) fun n1 => ?_
  have five : funct3Of w = 5 := by bv_omega
  exact .ite (fun h7 => .ok (shift h7 five)) fun _ => .ite (fun h7 => .ok (shift h7 five)) fun _ => .error

/-- The last arm under funct7 = 0 is AND: only funct3 = 7 is left (R147). -/
theorem readsAs_op (hop : opcodeOf w = 0x33) : ReadsAs cfg w .illegal (decodeOp w) := by
  have reg {f7 f3} (h7 : funct7Of w = f7) (h3 : funct3Of w = f3) :
      encodeR f7 (rs2Of w) (rs1Of w) f3 (rdOf w) 0x33 = w := encodeR_of_fields h7 h3 hop
  refine .ite (fun h7 => ?zero) fun _ => .ite (fun h7 => ?alternate) fun _ => .error
  case zero =>
    refine .ite (fun h => .ok (reg h7 h)) fun n0 => .ite (fun h => .ok (reg h7 h)) fun n1 =>
      .ite (fun h => .ok (reg h7 h)) fun n2 => .ite (fun h => .ok (reg h7 h)) fun n3 =>
      .ite (fun h => .ok (reg h7 h)) fun n4 => .ite (fun h => .ok (reg h7 h)) fun n5 =>
      .ite (fun h => .ok (reg h7 h)) fun n6 => ?_
    have seven : funct3Of w = 7 := by bv_omega
    exact .ok (reg h7 seven)
  case alternate =>
    exact .ite (fun h => .ok (reg h7 h)) fun _ => .ite (fun h => .ok (reg h7 h)) fun _ => .error

theorem readsAs_branch (hop : opcodeOf w = 0x63) : ReadsAs cfg w .illegal (decodeBranch w) := by
  have branch {f3} (h : funct3Of w = f3) : encodeB (immB w) (rs2Of w) (rs1Of w) f3 0x63 = w := encodeB_of_fields h hop
  exact .ite (fun h => .ok (branch h)) fun _ => .ite (fun h => .ok (branch h)) fun _ =>
    .ite (fun h => .ok (branch h)) fun _ => .ite (fun h => .ok (branch h)) fun _ =>
    .ite (fun h => .ok (branch h)) fun _ => .ite (fun h => .ok (branch h)) fun _ => .error

theorem readsAs_load (hop : opcodeOf w = 0x03) : ReadsAs cfg w .illegal (decodeLoad w) := by
  have load {f3} (h : funct3Of w = f3) : encodeI (immI w) (rs1Of w) f3 (rdOf w) 0x03 = w := encodeI_of_fields h hop
  exact .ite (fun h => .ok (load h)) fun _ => .ite (fun h => .ok (load h)) fun _ => .ite (fun h => .ok (load h)) fun _ =>
    .ite (fun h => .ok (load h)) fun _ => .ite (fun h => .ok (load h)) fun _ => .error

theorem readsAs_store (hop : opcodeOf w = 0x23) : ReadsAs cfg w .illegal (decodeStore w) := by
  have store {f3} (h : funct3Of w = f3) : encodeS (immS w) (rs2Of w) (rs1Of w) f3 0x23 = w := encodeS_of_fields h hop
  exact .ite (fun h => .ok (store h)) fun _ => .ite (fun h => .ok (store h)) fun _ =>
    .ite (fun h => .ok (store h)) fun _ => .error

theorem readsAs_miscMem (hop : opcodeOf w = 0x0F) : ReadsAs cfg w .illegal (decodeMiscMem w) := by
  have fence (h : funct3Of w = 0) :
      encodeI (w.extractLsb' 28 4 ++ w.extractLsb' 24 4 ++ w.extractLsb' 20 4) (rs1Of w) 0 (rdOf w) 0x0F = w := by
    rw [← h, ← hop]; exact encodeFence_fields w
  exact .ite (fun h => .ok (fence h)) fun _ => .ite (fun h => .ok (encodeI_of_fields h hop)) fun _ => .error

/-- ECALL, EBREAK and MRET have no free field: all of the word is looked at (R152). -/
theorem readsAs_system (hop : opcodeOf w = 0x73) : ReadsAs cfg w .illegal (decodeSystem w) := by
  have csr {f3} (h : funct3Of w = f3) : encodeI (immI w) (rs1Of w) f3 (rdOf w) 0x73 = w := encodeI_of_fields h hop
  refine .ite (fun h => .ok (csr h)) fun _ => .ite (fun h => .ok (csr h)) fun _ => .ite (fun h => .ok (csr h)) fun _ =>
    .ite (fun h => .ok (csr h)) fun _ => .ite (fun h => .ok (csr h)) fun _ => .ite (fun h => .ok (csr h)) fun _ =>
    .ite ?whole fun _ => .error
  case whole =>
    rintro ⟨h3, h1, hd⟩
    have whole {f12} (h : immI w = f12) : encodeI f12 0 0 0 0x73 = w := by
      have := csr h3
      rwa [h, h1, hd] at this
    exact .ite (fun h => .ok (whole h)) fun _ => .ite (fun h => .ok (whole h)) fun _ =>
      .ite (fun h => .ok (whole h)) fun _ => .error

/-- A CUSTOM-0 word has rd = 0, or it is reserved (R153, R160). -/
theorem readsAs_custom0 (hop : opcodeOf w = 0x0B) : ReadsAs cfg w .reservedCustom0 (decodeCustom0 cfg w) := by
  refine .ite (fun hd => ?_) fun _ => .error
  have line {f3} (h : funct3Of w = f3) : encodeI (immI w) (rs1Of w) f3 0 0x0B = w := by
    have := encodeI_of_fields h hop
    rwa [hd] at this
  refine .ite (fun h => .ite ?halt fun _ => .error) fun _ => .ite (fun h => .ok (line h)) fun _ =>
    .ite (fun h => .ok (line h)) fun _ => .ite (fun h => .ok (line h)) fun _ => .error
  case halt =>
    rintro ⟨h1, hi⟩
    have := line h
    rw [h1, hi] at this
    exact .ok this

/-- What the decoder answers for any word: an instruction whose encoding the word is, or the word is illegal, under
CUSTOM-0 reserved (R156, R160). -/
theorem readsAs_decode (cfg : Config) (w : Word) :
    ReadsAs cfg w (if opcodeOf w = 0x0B then .reservedCustom0 else .illegal) (decode cfg w) := by
  by_cases hc : opcodeOf w = 0x0B
  · rw [if_pos hc, decode_custom0 hc]
    exact readsAs_custom0 hc
  · rw [if_neg hc]
    exact .ite readsAs_opImm fun _ => .ite readsAs_op fun _ => .ite (fun h => .ok (encodeU_of_fields h)) fun _ =>
      .ite (fun h => .ok (encodeU_of_fields h)) fun _ => .ite (fun h => .ok (encodeJ_of_fields h)) fun _ =>
      .ite (fun h => .ite (fun h3 => .ok (encodeI_of_fields h3 h)) fun _ => .error) fun _ => .ite readsAs_branch fun _ =>
      .ite readsAs_load fun _ => .ite readsAs_store fun _ => .ite readsAs_miscMem fun _ => .ite readsAs_system fun _ =>
      .ite (fun h => absurd h hc) fun _ => .error

end

/-- Settles O2: what the decoder answers for a word is an instruction whose encoding that word is. -/
theorem encodeOfDecode : Obligations.EncodeOfDecode := by
  intro cfg w i h
  have hw := readsAs_decode cfg w
  rw [h] at hw
  exact ⟨hw.encode_eq, decode_wf h⟩

/-- A word that is no instruction is reserved under CUSTOM-0 and illegal under every other opcode (R160). -/
theorem decode_error_eq {cfg : Config} {w : Word} {e : DecodeError} (h : decode cfg w = .error e) :
    e = if opcodeOf w = 0x0B then .reservedCustom0 else .illegal := by
  have hw := readsAs_decode cfg w
  rw [h] at hw
  exact hw.error_eq

/-- Settles O4: the major opcode alone decides which of the two errors a word can have. -/
theorem undecodableWords : Obligations.UndecodableWords := by
  intro cfg w
  refine ⟨decode_of_not_major, fun hlow => decode_of_not_major fun hop => hlow (low_bits_of_major hop),
    fun hop h => ?_, fun hop h => ?_, fun h => ?_⟩
  · cases (decode_error_eq h).trans (if_neg hop)
  · cases (decode_error_eq h).trans (if_pos hop)
  · have := decode_error_eq h
    split at this <;> cases this

end Sys2Proof

namespace Sys2Proof.Machine

/-! ### Executing a word that is no instruction -/

theorem executeNext_of_undecoded {s : State} {w : Word} {e : DecodeError} (hf : fetchWord s = .ok w)
    (hd : decode s.cfg w = .error e) : executeNext s = undecoded e w (afterFetch s) := by
  simp only [executeNext, hf, hd]

/-- An exception outside a linked group is a trap on the CePU and the exception state on a CoPU (R340, R352). -/
theorem takeException_spec (k : EventClass) (e : Exn) (v : Word) (s : State) :
    if s.cur = 0 then TookTrap k e.code v (pcOf 0 s) s (takeException k e v s)
    else TookCopuException s.cur e.code s (takeException k e v s) := by
  unfold takeException
  split
  · exact tookTrap_trapEntry k e v s
  · exact tookCopuException_copuException e s.cur s

/-- Settles O6: the fetch may have read a device, which decides nothing about the exception. -/
theorem undecodableWordsExecuted : Obligations.UndecodableWordsExecuted := by
  intro s w t u hr hc hw
  obtain ⟨k, hu⟩ : ∃ k, u = { t with deviceReads := k } := afterFetch_eq t
  have hstep {e} (hd : decode t.cfg w = .error e) : step s = undecoded e w u :=
    (step_executes hr hc).trans (executeNext_of_undecoded hw hd)
  have hgroup : grouped u = grouped t := by rw [hu]; rfl
  refine ⟨fun hd hg => ⟨takeException .uncounted .illegal (illegalTval u.cfg w) u, ?_, ?_⟩, fun hd hg => ?_, hstep⟩
  · rw [hstep hd, undecoded, raiseException, hgroup, hg]; rfl
  · have := takeException_spec .uncounted .illegal (illegalTval u.cfg w) u
    rw [hu] at this ⊢
    exact this
  · rw [hstep hd, undecoded, raiseException, hgroup, hg]; rfl

end Sys2Proof.Machine
end

section
/-! SUPPORT. The integer computational instructions: shifts and comparisons of words as arithmetic on numbers, and the
register that each instruction writes on its lanes (R180 to R202). -/

namespace Sys2Proof.Machine

/-! ### Operands and results as numbers -/

theorem boolWord_lessSigned (a b : Word) : boolWord (lessSigned a b) = if a.toInt < b.toInt then 1 else 0 := by
  simp [boolWord, lessSigned]

theorem boolWord_lessUnsigned (a b : Word) : boolWord (lessUnsigned a b) = if a.toNat < b.toNat then 1 else 0 := by
  simp [boolWord, lessUnsigned]

/-- Sign extension keeps the signed value (R143). -/
theorem toInt_imm12 (i : BitVec 12) : (imm12 i).toInt = i.toInt := BitVec.toInt_signExtend_of_le (by decide)

/-- The lower five bits are the remainder modulo 32 (R200). -/
theorem shiftAmount_eq_mod (v : Word) : shiftAmount v = v.toNat % 32 := by
  simp [shiftAmount]

/-- A logical left shift multiplies, modulo 2^32 (R187). -/
theorem shiftLeft_eq_ofNat_mul (x : Word) (n : Nat) : x <<< n = BitVec.ofNat 32 (x.toNat * 2 ^ n) := by
  apply BitVec.eq_of_toNat_eq
  rw [BitVec.toNat_shiftLeft, BitVec.toNat_ofNat, Nat.shiftLeft_eq]

/-- A logical right shift divides (R188). -/
theorem ushiftRight_eq_ofNat_div (x : Word) (n : Nat) : x >>> n = BitVec.ofNat 32 (x.toNat / 2 ^ n) := by
  rw [← Nat.shiftRight_eq_div_pow, ← BitVec.toNat_ushiftRight, BitVec.ofNat_toNat, BitVec.setWidth_eq]

/-- An arithmetic right shift divides the signed value, rounding down (R189). -/
theorem sshiftRight_eq_ofInt_div (x : Word) (n : Nat) : x.sshiftRight n = BitVec.ofInt 32 (x.toInt / 2 ^ n) := by
  rw [BitVec.sshiftRight, Int.shiftRight_eq_div_pow, Nat.cast_pow, Nat.cast_ofNat]

/-! ### The register that is written -/

/-- A value that the lane's own registers decide is the same on the lane's turn as before the instruction: writing it
on every lane is what the statements' WritesReg says (R180). -/
theorem writesReg_of_regs {i : Instr} {k : EventClass} {rd : Reg} {next : State → Word} {v w : CpuId → State → Word}
    {s : State} (hi : exec i s = writeOnLanes k (next s) rd v s)
    (hv : ∀ c t, (∀ r, reg c r t = reg c r s) → v c t = w c s) : WritesReg i k rd next w s :=
  writesReg_of hi
    (fun c t _ hcpu => (hv c t (reg_congr (by rw [hcpu]))).trans (hv c s fun _ => rfl).symm)
    fun c _ => hv c s fun _ => rfl

/-- Settles O10, each form from its rule (R181 to R186); the comparisons are of the operands' numbers. -/
theorem immediateArithmetic : Obligations.ImmediateArithmetic := by
  intro rd rs1 imm s
  refine ⟨?addi, ?slti, ?sltiu, ?andi, ?ori, ?xori⟩
  case addi | andi | ori | xori => exact writesReg_of_regs rfl fun c t h => by rw [h, imm12]
  case slti => exact writesReg_of_regs rfl fun c t h => by rw [h, boolWord_lessSigned, toInt_imm12]
  case sltiu => exact writesReg_of_regs rfl fun c t h => by rw [h, boolWord_lessUnsigned, imm12]

/-- Settles O11: the shifts are a product and two quotients (R187 to R189). -/
theorem immediateShifts : Obligations.ImmediateShifts := by
  intro rd rs1 sh s
  refine ⟨?slli, ?srli, ?srai⟩
  case slli => exact writesReg_of_regs rfl fun c t h => by rw [h, shiftLeft_eq_ofNat_mul]
  case srli => exact writesReg_of_regs rfl fun c t h => by rw [h, ushiftRight_eq_ofNat_div]
  case srai => exact writesReg_of_regs rfl fun c t h => by rw [h, sshiftRight_eq_ofInt_div]

/-- Settles O12: no register is read, and AUIPC's address is that of the state before (R190, R191). -/
theorem upperImmediates : Obligations.UpperImmediates := by
  intro rd imm s
  exact ⟨writesReg_of_regs rfl fun _ _ _ => rfl, writesReg_of_regs rfl fun _ _ _ => rfl⟩

/-- Settles O13, each form from its rule (R192 to R198); a lane reads both sources before it writes. -/
theorem registerArithmetic : Obligations.RegisterArithmetic := by
  intro rd rs1 rs2 s
  refine ⟨?add, ?sub, ?slt, ?sltu, ?and, ?or, ?xor⟩
  case add | sub | and | or | xor => exact writesReg_of_regs rfl fun c t h => by rw [h, h]
  case slt => exact writesReg_of_regs rfl fun c t h => by rw [h, h, boolWord_lessSigned]
  case sltu => exact writesReg_of_regs rfl fun c t h => by rw [h, h, boolWord_lessUnsigned]

/-- Settles O14: the shifts of O11 by the lower five bits of the second source (R200 to R202). -/
theorem registerShifts : Obligations.RegisterShifts := by
  intro rd rs1 rs2 s
  refine ⟨?sll, ?srl, ?sra⟩
  case sll => exact writesReg_of_regs rfl fun c t h => by rw [h, h, shiftLeft_eq_ofNat_mul, shiftAmount_eq_mod]
  case srl => exact writesReg_of_regs rfl fun c t h => by rw [h, h, ushiftRight_eq_ofNat_div, shiftAmount_eq_mod]
  case sra => exact writesReg_of_regs rfl fun c t h => by rw [h, h, sshiftRight_eq_ofInt_div, shiftAmount_eq_mod]

end Sys2Proof.Machine
end

section
/-! SUPPORT. The words of the spec's examples (95_test_vectors.md). -/

namespace Sys2Proof

/-- Settles O3: twelve closed facts, which the decoder computes. -/
theorem writtenWordsDecode : Obligations.WrittenWordsDecode := by
  unfold Obligations.WrittenWordsDecode
  decide

end Sys2Proof
end

section
/-! SUPPORT. Jumps and branches that complete: the link register, and where execution goes on (R222 to R229, R232). -/

namespace Sys2Proof.Machine

/-! ### Jumps -/

/-- A jump to an aligned target writes the link value alone (R221). -/
theorem writesReg_jumpTo {i : Instr} {rd : Reg} {next : State → Word} {s : State}
    (hi : exec i s = jumpTo rd (next s) s) (h : (next s).getLsbD 1 = false) :
    WritesReg i .jump rd next (fun _ s => curPc s + 4) s := by
  rw [jumpTo, targetMisaligned, h, if_neg Bool.false_ne_true] at hi
  exact writesReg_of_regs hi fun _ _ _ => rfl

/-- Clearing bit 0 of a JALR target leaves bit 1, which decides whether it is aligned (R221, R223). -/
theorem getLsbD_one_jalrTarget (base : Word) (imm : BitVec 12) :
    (jalrTarget base imm).getLsbD 1 = (base + imm12 imm).getLsbD 1 := by
  rw [jalrTarget, BitVec.getLsbD_and, show (0xFFFFFFFE : Word).getLsbD 1 = true by decide, Bool.and_true]

/-- Settles O15: JALR's target is aligned as soon as the sum is. -/
theorem jumpsGoToTarget : Obligations.JumpsGoToTarget := by
  intro rd rs1 off imm s
  refine ⟨fun h => ?jal, fun h => ?jalr⟩
  case jal => exact writesReg_jumpTo rfl h
  case jalr => exact writesReg_jumpTo rfl ((getLsbD_one_jalrTarget _ imm).trans h)

/-! ### Branches -/

/-- BGE's condition: BLT's does not hold (R226, R227). -/
theorem bnot_lessSigned (a b : Word) : (!lessSigned a b) = decide (b.toInt ≤ a.toInt) := by
  rw [lessSigned, ← decide_not, decide_eq_decide, Int.not_lt]

/-- BGEU's condition: BLTU's does not hold (R228, R229). -/
theorem bnot_lessUnsigned (a b : Word) : (!lessUnsigned a b) = decide (b.toNat ≤ a.toNat) := by
  rw [lessUnsigned, ← decide_not, decide_eq_decide, Nat.not_lt]

/-- A branch only goes on: at its target if it is taken, which is then aligned, and else at pc + 4, whatever its offset
(R221, R224). The condition may be stated by any Boolean that agrees with the tested one. -/
theorem onlyGoesOn_branchIf {i : Instr} {tested taken : Bool} {off : BitVec 13} {s : State}
    (hi : exec i s = branchIf tested off s) (hc : tested = taken)
    (h : taken = true → (curPc s + off.signExtend 32).getLsbD 1 = false) :
    OnlyGoesOn i .jump (if taken then curPc s + off.signExtend 32 else curPc s + 4) s := by
  subst hc
  cases tested with
  | false => exact onlyGoesOn_of hi
  | true =>
    have aligned : targetMisaligned (curPc s + branchOffset off) = false := h rfl
    rw [branchIf, if_pos rfl, aligned, if_neg Bool.false_ne_true] at hi
    exact onlyGoesOn_of hi

/-- Settles O16: each branch's tested condition is the comparison that the statement names (R224 to R229). -/
theorem branchesFollowCondition : Obligations.BranchesFollowCondition := by
  intro rs1 rs2 off s x y target goes
  refine ⟨?beq, ?bne, ?blt, ?bge, ?bltu, ?bgeu⟩
  case beq | blt | bltu => exact onlyGoesOn_branchIf rfl rfl
  case bne => exact onlyGoesOn_branchIf rfl decide_not.symm
  case bge => exact onlyGoesOn_branchIf rfl (bnot_lessSigned x y)
  case bgeu => exact onlyGoesOn_branchIf rfl (bnot_lessUnsigned x y)

end Sys2Proof.Machine
end

section
/-! SUPPORT. FENCE.I: FENCE's effect on every lane, counted in another class (R262). -/

namespace Sys2Proof.Machine

/-- The class and the counter left out decide the performance counters of an instruction that retires, and nothing else
(R51, R53). -/
theorem retire_with_counters (k k' : EventClass) (skip skip' : Option (Fin 32)) (s : State) :
    { retire k' skip' s with counters := (retire k skip s).counters } = retire k skip s :=
  calc { retire k' skip' s with counters := (retire k skip s).counters }
      = { s with counters := (retire k skip s).counters } := by rw [retire_eq k' skip' s]
    _ = retire k skip s := (retire_eq k skip s).symm

/-- Settles O26: both instructions retire one and the same fenced state, each in its own class (log 17, D7). -/
theorem fenceIActsAsFence : Obligations.FenceIActsAsFence := by
  intro fm pred succ imm rs1 rd rs1' rd' s
  obtain ⟨u, hu, hb, -⟩ := forLanes_fence s
  obtain ⟨-, hcur, -⟩ := hb.data.fields
  have completes (k : EventClass) :
      onLanes k (pcPlus4 s) fenceLane s = .next (retire k none (setPc s.cur (pcPlus4 s) u)) := by
    rw [onLanes, hu, finish_done, hcur]
  obtain ⟨-, -, -, hcounted, -⟩ := hb.completed .uncounted (pcPlus4 s)
  exact ⟨_, _, completes .system, completes .uncounted, retire_with_counters .system .uncounted none none _, hcounted⟩

end Sys2Proof.Machine
end

section
/-! SUPPORT. The trap CSRs as the register file has them, and the CSR instructions on them, with or without a linked group
(R35, R43 to R47, R270 to R279). -/

namespace Sys2Proof.Machine

/-! ### Reading and writing one trap CSR -/

/-- The register of the CSR file that a trap CSR is. -/
def PlainCsr.csrReg : PlainCsr → CsrReg
  | .mstatus => .mstatus
  | .mtvec => .mtvec
  | .mscratch => .mscratch
  | .mepc => .mepc
  | .mcause => .mcause
  | .mtval => .mtval

/-- The two flags are the bits 3 and 7 of the word written (R35). -/
theorem mstatusWith_getLsbD (v : Word) : mstatusWith (v.getLsbD 3) (v.getLsbD 7) = v &&& 0x88 :=
  calc mstatusWith (v.getLsbD 3) (v.getLsbD 7)
      = (v &&& BitVec.twoPow 32 3) ||| (v &&& BitVec.twoPow 32 7) := by
        rw [BitVec.and_twoPow, BitVec.and_twoPow]; rfl
    _ = v &&& 0x88 := by rw [← BitVec.and_or_distrib_left]; rfl

namespace PlainCsr
variable (p : PlainCsr)

theorem csrOf_num (cfg : Config) : csrOf cfg p.num = some p.csrReg := by cases p <;> rfl

theorem readOnly_csrReg : p.csrReg.readOnly = false := by cases p <;> rfl

theorem csrReg_ne_pnce : p.csrReg ≠ .pnce := by cases p <;> nofun

theorem csrCounter_num (cfg : Config) : csrCounter cfg p.num = none :=
  csrCounter_none (p.csrOf_num cfg) fun _ => by cases p <;> exact ⟨nofun, nofun⟩

theorem csrRead_csrReg (s : State) : csrRead p.csrReg s = (p.get s, s) := by cases p <;> rfl

theorem csrWrite_csrReg (v : Word) (s : State) : csrWrite p.csrReg v s = .done (p.put (p.keeps v) s) := by
  cases p
  case mstatus => rw [csrReg, csrWrite, mstatusWith_getLsbD]; rfl
  all_goals rfl

@[simp] theorem get_put (v : Word) (s : State) : p.get (p.put v s) = v := by cases p <;> rfl

@[simp] theorem put_get (s : State) : p.put (p.get s) s = s := by cases p <;> rfl

@[simp] theorem put_pncache (v : Word) (s : State) : (p.put v s).pncache = s.pncache := by cases p <;> rfl

@[simp] theorem put_drawn (v : Word) (s : State) : (p.put v s).drawn = s.drawn := by cases p <;> rfl

@[simp] theorem put_cpu (v : Word) (s : State) (c : CpuId) : (p.put v s).cpu c = s.cpu c := by cases p <;> rfl

@[simp] theorem counter_put (v : Word) (s : State) (m : Fin 32) : counter m (p.put v s) = counter m s := by cases p <;> rfl

variable {p}

/-- A trap CSR is none of what a read changes. -/
theorem get_of_onlyReads {s t : State} (h : OnlyReads s t) : p.get t = p.get s := by rw [h]; cases p <;> rfl

/-- With its old value put back, a write of the trap CSR among reads is a read. -/
theorem onlyReads_put_get {v : Word} {s u t : State} (hu : OnlyReads s u) (ht : OnlyReads (p.put v u) t) :
    OnlyReads s (p.put (p.get s) t) := by
  unfold OnlyReads
  rw [ht, hu]
  cases p <;> rfl

theorem get_of_sameCsrs {s t : State} (h : SameCsrs s t) : p.get t = p.get s := by
  cases p
  case mstatus => exact h.mstatus
  case mtvec => exact h.mtvec
  case mscratch => exact h.mscratch
  case mepc => exact h.mepc
  case mcause => exact h.mcause
  case mtval => exact h.mtval

end PlainCsr

/-! ### The six instructions on it -/

section
variable {op : CsrOp} {imm : Bool} {rd : Reg} {src : BitVec 5} {s : State} {p : PlainCsr} {i : Instr}

theorem csrForm_mem_csrReads {n : CsrNum} (h : op ≠ .write) : csrForm op imm rd n 0 ∈ csrReads rd n := by
  cases op
  case write => exact absurd rfl h
  all_goals cases imm <;> simp [csrForm, csrReads]

theorem csrForm_mem_csrWriteForms {n : CsrNum} (old : Word) (h : op = .write ∨ src ≠ 0) :
    (csrForm op imm rd n src, op.new old (formOperand imm src 0 s)) ∈ csrWriteForms rd n src old s := by
  cases op
  case write => cases imm <;> simp [csrForm, csrWriteForms, formOperand, uimm5, CsrOp.new]
  all_goals
    rw [csrWriteForms, if_neg (h.resolve_left nofun)]
    cases imm <;> simp [csrForm, formOperand, uimm5, CsrOp.new]

theorem OtherLanes.csrReadNum_plain {l : List CpuId} {q : State} (hq : OtherLanes rd l s q) :
    Machine.csrReadNum p.num q = (p.get s, q) := by
  rw [hq.csrReadNum (p.csrOf_num s.cfg), p.csrRead_csrReg, PlainCsr.get_of_onlyReads hq.onlyReads]

/-- A form that only reads leaves the register (R271). -/
theorem accessesCsr_of_mem_csrReads (h0 : s.cur = 0) (hi : i ∈ csrReads rd p.num) : AccessesCsr i p rd none s := by
  obtain ⟨t, ht, hvalue, hframe, hcounted, hsame⟩ := readsCsr_of_read h0 hi fun _ hq => hq.csrReadNum_plain (p := p)
  have hcsrs : SameCsrs s t := { hsame.system.csrs with }
  have hget : p.get t = p.get s := PlainCsr.get_of_sameCsrs hcsrs
  refine ⟨t, ht, hget, hvalue, hframe, hcounted, ?_⟩
  rw [← hget, p.put_get]
  exact hsame

/-- A form that writes leaves in the register what its fields keep, after the old value has gone to rd (R270, R272 to
R277). -/
theorem accessesCsr_of_mem_csrWriteForms {v : Word} (h0 : s.cur = 0)
    (hi : (i, v) ∈ csrWriteForms rd p.num src (p.get s) s) : AccessesCsr i p rd (some v) s := by
  obtain ⟨q, hq, hans⟩ := csrWriteForm_answers h0 hi (p.csrOf_num s.cfg) p.readOnly_csrReg p.csrReg_ne_pnce
    fun _ hq => hq.csrReadNum_plain
  rw [p.csrCounter_num, p.csrWrite_csrReg] at hans
  obtain ⟨t, ht, hc⟩ := hans
  have hu := onlyReads_access hq (p.get s)
  have hback : OnlyReads s (p.put (p.get s) t) := PlainCsr.onlyReads_put_get hu hc.onlyReads
  refine ⟨t, ht, ?_, hc.value, hc.csrFrame ?_, hc.counted h0 fun m => ?_, hback.sameSystem fun c => ?_, fun hg => ?_⟩
  · rw [PlainCsr.get_of_onlyReads hc.onlyReads, p.get_put]
  · rw [p.put_pncache, hu]
  · rw [p.counter_put, counter_access hq]
  · rw [p.put_cpu]; exact hc.record c
  · rw [p.put_drawn]; exact hc.drawn_of h0 hq ((p.put_drawn ..).trans (setReg_drawn ..)) hg

/-- CSRRW and CSRRWI write whatever their operand (R272, R275). -/
theorem accessesCsr_write (h0 : s.cur = 0) :
    AccessesCsr (csrForm .write imm rd p.num src) p rd (some (formOperand imm src 0 s)) s :=
  accessesCsr_of_mem_csrWriteForms h0 (csrForm_mem_csrWriteForms (op := .write) _ (.inl rfl))

/-- The set and clear forms write unless their operand field is 0 (R273, R274, R276, R277). -/
theorem accessesCsr_of_ne_write (h0 : s.cur = 0) (hop : op ≠ .write) :
    AccessesCsr (csrForm op imm rd p.num src) p rd
      (if src = 0 then none else some (op.new (p.get s) (formOperand imm src 0 s))) s := by
  split
  · next hz => subst hz; exact accessesCsr_of_mem_csrReads h0 (csrForm_mem_csrReads hop)
  · next hz => exact accessesCsr_of_mem_csrWriteForms h0 (csrForm_mem_csrWriteForms _ (.inr hz))

end

/-- Settles O27: a write form puts what the fields keep, a set or clear form with operand field 0 only reads. -/
theorem trapCsrAccess : Obligations.TrapCsrAccess := by
  intro p rd rs1 u s h0 x z old
  refine ⟨?csrrw, ?csrrs, ?csrrc, ?csrrwi, ?csrrsi, ?csrrci⟩
  case csrrw => exact accessesCsr_write (imm := false) h0
  case csrrwi => exact accessesCsr_write (imm := true) h0
  case csrrs => exact accessesCsr_of_ne_write (op := .set) (imm := false) h0 nofun
  case csrrc => exact accessesCsr_of_ne_write (op := .clear) (imm := false) h0 nofun
  case csrrsi => exact accessesCsr_of_ne_write (op := .set) (imm := true) h0 nofun
  case csrrci => exact accessesCsr_of_ne_write (op := .clear) (imm := true) h0 nofun

end Sys2Proof.Machine
end

section
/-! SUPPORT. The exceptions of ECALL and EBREAK, and the return from a trap: where every CPU goes on, and what the return
leaves (R291 to R293, R343, R354). -/

namespace Sys2Proof.Machine

/-! ### ECALL and EBREAK -/

/-- Settles O42: both instructions only raise their exception (R291, R292, R334). -/
theorem callAndBreakRaise : Obligations.CallAndBreakRaise := by
  intro s hg
  exact ⟨raises_of (e := .ecallM) hg rfl, raises_of (e := .breakpoint) hg rfl⟩

/-! ### The return from a trap -/

/-- MRET on a CePU without a linked group is the return from a trap, counted (R293). -/
theorem exec_mret {s : State} (h0 : s.cur = 0) (hg : grouped s = false) :
    exec .mret s = .next (retire .system none (trapReturn s)) :=
  if_pos ⟨h0, hg⟩

/-- The CePU returns to mepc (R293). -/
theorem pcOf_trapReturn_cepu (s : State) : pcOf 0 (trapReturn s) = s.mepc &&& ~~~3 := by
  rw [pcOf, trapReturn_cpu, if_pos rfl]
  rfl

/-- A CoPU whose exception was handled resumes; the others stay where they are (R354). -/
theorem pcOf_trapReturn_copu (s : State) {c : CpuId} (hc : c ≠ 0) :
    pcOf c (trapReturn s) = if hasBit s.handled c then resumePc s.cfg (s.cpu c).xepc else pcOf c s := by
  rw [pcOf, trapReturn_cpu, if_neg hc, (resumeCopus_spec s).2]
  split <;> rfl

/-- mstatus after the return: MPIE is set, and MIE if MPIE was (R293, log 8). -/
theorem mstatusWith_true (ie : Bool) : mstatusWith ie true = if ie then 0x88 else 0x80 := by
  cases ie <;> rfl

/-- The return in full: CPUs and counters apart, four fields change (R293, R343, R354, R356). -/
theorem retire_trapReturn_eq (s : State) :
    retire .system none (trapReturn s) = { s with
      cpus := (trapReturn s).cpus, counters := (retire .system none (trapReturn s)).counters,
      mstatus := mstatusWith (mpie s) true, inTrap := false, handled := 0, owed := s.xstate &&& copuMask s } :=
  (retire_eq .system none (trapReturn s)).trans
    (congrArg (fun u => { u with counters := (retire .system none (trapReturn s)).counters }) (trapReturn_eq s))

/-- But for the pc, every CPU after the return is as before it. -/
theorem retire_trapReturn_cpu (s : State) (c : CpuId) :
    (retire .system none (trapReturn s)).cpu c = { s.cpu c with pc := pcOf c (trapReturn s) } :=
  (retire_cpu ..).trans (trapReturn_cpu_but_pc s c)

theorem sameRegs_retire_trapReturn (s : State) : SameRegs s (retire .system none (trapReturn s)) :=
  fun c r => reg_congr (by rw [retire_trapReturn_cpu]) r

theorem sameFetch_retire_trapReturn (s : State) : SameFetch s (retire .system none (trapReturn s)) :=
  fun c => by rw [retire_trapReturn_cpu]

theorem sameMemory_retire_trapReturn (s : State) : SameMemory s (retire .system none (trapReturn s)) := by
  refine sameMemory_of ?main ?cache (fun c => by rw [retire_trapReturn_cpu]) ?cfg ?pncache ?devices
  all_goals rw [retire_trapReturn_eq]

theorem counted_retire_trapReturn (s : State) : Counted .system s (retire .system none (trapReturn s)) := by
  apply counted_retire
  all_goals rw [trapReturn_eq]

/-- Of the CSRs the return changes mstatus alone: mcause, mtval and pnx keep their values (R343). -/
theorem sameCsrs_retire_trapReturn (s : State) :
    SameCsrs s { retire .system none (trapReturn s) with mstatus := s.mstatus } := by
  rw [retire_trapReturn_eq]
  constructor <;> rfl

/-- Of the modes the return ends the trap and the waiting of the handled CoPUs; recorded exceptions stay (R354). -/
theorem sameModes_retire_trapReturn (s : State) :
    SameModes s { retire .system none (trapReturn s) with inTrap := s.inTrap, handled := s.handled } where
  xstate := by rw [retire_trapReturn_eq]
  handled := rfl
  illegal := by rw [retire_trapReturn_eq]
  inTrap := rfl
  halted := by rw [retire_trapReturn_eq]
  xcause c := (congrArg Cpu.xcause (retire_trapReturn_cpu s c) :)
  xepc c := (congrArg Cpu.xepc (retire_trapReturn_cpu s c) :)

theorem sameModel_retire_trapReturn (s : State) :
    SameModel s { retire .system none (trapReturn s) with owed := s.owed } := by
  rw [retire_trapReturn_eq]
  constructor <;> rfl

/-- Settles O43: the CePU's pc, mstatus, the CoPUs' pcs, and the frame, one fact about the return each. -/
theorem mretReturns : Obligations.MretReturns := by
  intro s h0 hg
  refine ⟨_, exec_mret h0 hg, ?pc, ?mstatus, ?inTrap, ?handled, fun c hc => ?pcs,
    sameRegs_retire_trapReturn s, counted_retire_trapReturn s, sameMemory_retire_trapReturn s,
    sameFetch_retire_trapReturn s, sameCsrs_retire_trapReturn s, sameModes_retire_trapReturn s,
    sameModel_retire_trapReturn s⟩
  case pc => exact (pcOf_retire ..).trans (pcOf_trapReturn_cepu s)
  case mstatus => rw [retire_trapReturn_eq]; exact mstatusWith_true _
  case inTrap | handled => rw [retire_trapReturn_eq]
  case pcs => exact (pcOf_retire ..).trans (pcOf_trapReturn_copu s hc)

end Sys2Proof.Machine
end

section
/-! SUPPORT. HALT: the CPUs that enter Mode 0, and what the instruction leaves (R301, R322, D33, log 34). -/

namespace Sys2Proof.Machine

/-! ### What HALT leaves, on whichever CPU it runs -/

/-- Only pcs, IFU buffers, counters, pnce and machine_halted differ. -/
structure OnlyHalts (s t : State) : Prop where
  rest : t = { s with
    cpus := t.cpus, counters := t.counters, active := t.active, pnceReq := t.pnceReq, halted := t.halted }
  cpu : ∀ c, t.cpu c = { s.cpu c with pc := (t.cpu c).pc, ifu := (t.cpu c).ifu }

theorem OnlyHalts.sameRegs {s t : State} (h : OnlyHalts s t) : SameRegs s t :=
  fun c r => reg_congr (by rw [h.cpu]) r

theorem OnlyHalts.sameMemory {s t : State} (h : OnlyHalts s t) : SameMemory s t := by
  refine sameMemory_of ?main ?cache (fun c => by rw [h.cpu]) ?cfg ?pncache ?devices
  all_goals rw [h.rest]

theorem OnlyHalts.sameCsrs {s t : State} (h : OnlyHalts s t) :
    SameCsrs s { t with active := s.active, pnceReq := s.pnceReq } := by
  rw [h.rest]
  constructor <;> rfl

theorem OnlyHalts.sameModes {s t : State} (h : OnlyHalts s t) : SameModes s { t with halted := s.halted } where
  xstate := by rw [h.rest]
  handled := by rw [h.rest]
  illegal := by rw [h.rest]
  inTrap := by rw [h.rest]
  halted := rfl
  xcause c := (congrArg Cpu.xcause (h.cpu c) :)
  xepc c := (congrArg Cpu.xepc (h.cpu c) :)

/-! ### HALT on the CePU -/

/-- Every CPU enters Mode 0 (R301). -/
theorem haltMachine_cpu (s : State) (c : CpuId) :
    (haltMachine s).cpu c = Cpu.enterModeZero s.cfg.resetVector (s.cpu c) := by
  refine (mapCpus_cpu (retire .uncounted none s) _ c).trans ?_
  rw [retire_cpu, retire_cfg]

theorem haltMachine_active (s : State) : (haltMachine s).active = s.active &&& 1 :=
  congrArg (· &&& 1) (retire_active .uncounted none s)

theorem haltMachine_pnceReq (s : State) : (haltMachine s).pnceReq = s.pnceReq &&& 1 :=
  congrArg (· &&& 1) (retire_pnceReq .uncounted none s)

theorem onlyHalts_haltMachine (s : State) : OnlyHalts s (haltMachine s) where
  rest := by rw [haltMachine, retire_eq]; rfl
  cpu c := by rw [haltMachine_cpu]; rfl

/-- The instruction itself completes and is counted (log 34). -/
theorem counted_haltMachine (s : State) : Counted .uncounted s (haltMachine s) := fun n =>
  (counter_congr (s := retire .uncounted none s) rfl rfl n).trans (counted_retire rfl rfl rfl n)

/-- Settles O45. -/
theorem haltStopsMachine : Obligations.HaltStopsMachine := by
  intro s h0
  have hexec : exec .halt s = .next (haltMachine s) := if_pos h0
  have hframe := onlyHalts_haltMachine s
  refine ⟨_, hexec, rfl, haltMachine_active s, haltMachine_pnceReq s, fun c => ⟨?pc, ?ifu⟩, hframe.sameRegs,
    hframe.sameMemory, counted_haltMachine s, hframe.sameCsrs, hframe.sameModes⟩
  case pc => rw [pcOf, haltMachine_cpu]; rfl
  case ifu => rw [haltMachine_cpu]; rfl

/-! ### HALT on a CoPU -/

theorem onlyHalts_haltCopu (c : CpuId) (s : State) : OnlyHalts s (haltCopu c s) where
  rest := rfl
  cpu d := by
    rw [haltCopu_cpu]
    split
    · next hd => rw [hd]; rfl
    · rfl

/-- Settles O46: of the CPUs the halting CoPU alone changes, and of the CSRs its bits of pnce (D33). -/
theorem haltStopsCopu : Obligations.HaltStopsCopu := by
  intro s h0
  have hexec : exec .halt s = .next (haltCopu s.cur s) := if_neg h0
  have hself : (haltCopu s.cur s).cpu s.cur = Cpu.enterModeZero s.cfg.resetVector (s.cpu s.cur) := by
    rw [haltCopu_cpu, if_pos rfl]
  have hother : ∀ c, c ≠ s.cur → (haltCopu s.cur s).cpu c = s.cpu c := fun c hc => by rw [haltCopu_cpu, if_neg hc]
  have hframe := onlyHalts_haltCopu s.cur s
  exact ⟨_, hexec, rfl, rfl, congrArg Cpu.pc hself, congrArg Cpu.ifu hself,
    fun c hc => congrArg Cpu.pc (hother c hc), fun c hc => congrArg Cpu.ifu (hother c hc), hframe.sameRegs,
    hframe.sameMemory, fun n => counter_congr rfl rfl n, hframe.sameCsrs, hframe.sameModes⟩

end Sys2Proof.Machine
end

section
/-! SUPPORT. A halted machine: no transition is pending, no CPU can execute, and a turn's other events reach memory and
buffers alone (R301, R322, R415, log 27). -/

namespace Sys2Proof.Machine

/-! ### General registers under events -/

theorem OnlyMemu.sameRegs {s t : State} (h : OnlyMemu s t) : SameRegs s t :=
  fun c r => reg_congr (by rw [h.cpu c]) r

/-- A CPU may be replaced by one with the same general registers. -/
theorem SameRegs.setCpu {s t : State} (h : SameRegs s t) (c : CpuId) {x : Cpu} (hx : x.regs = (t.cpu c).regs) :
    SameRegs s (t.setCpu c x) := by
  intro d r
  rw [← h d r]
  refine reg_congr ?_ r
  rw [setCpu_cpu]
  split
  · next hd => rw [hd, hx]
  · rfl

theorem sameRegs_refl (s : State) : SameRegs s s := fun _ _ => rfl

theorem sameRegs_forgetFetch (c : CpuId) (a : Word) (s : State) : SameRegs s (forgetFetch c a s) :=
  (sameRegs_refl s).setCpu c rfl

/-- Every event leaves the general registers alone, but for the completion of a transition (R325). -/
theorem sameRegs_applyEvent (s : State) (e : Event) :
    SameRegs s (applyEvent s e) ∨ ∃ c, applyEvent s e = settleCopu c s := by
  cases e with
  | drain c k =>
    left
    show SameRegs s (drainStore c k s)
    rcases drainStore_cases c k s with h | ⟨st, hk, hp⟩
    · rw [h]; exact sameRegs_refl s
    · have hmemu := onlyMemu_commitStore st s
      rw [drainStore_of hk hp]
      exact hmemu.sameRegs.setCpu c (by rw [hmemu.cpu c])
  | combine c k j =>
    left
    show SameRegs s (combineStores c k j s)
    unfold combineStores
    dsimp only
    split
    · split
      · exact (sameRegs_refl s).setCpu c rfl
      · exact sameRegs_refl s
    · exact sameRegs_refl s
  | allocate n => exact .inl (onlyMemu_allocateLine n s).sameRegs
  | evict n => exact .inl (onlyMemu_evictLine n s).sameRegs
  | prefetch c a =>
    left
    show SameRegs s (prefetchWord c a s)
    unfold prefetchWord
    split
    · exact (sameRegs_forgetFetch c a s).setCpu c rfl
    · exact sameRegs_refl s
  | forget c a =>
    left
    show SameRegs s (dropFetch c a s)
    unfold dropFetch
    split
    · exact sameRegs_forgetFetch c a s
    · exact sameRegs_refl s
  | settle c => exact .inr ⟨c, rfl⟩
  | busWrite a b => exact .inl (onlyMemu_busWrite a b s).sameRegs

/-! ### States that differ in memory, buffers and the model's own fields -/

/-- Control state, general registers and counters are as before. -/
structure SameProgramState (s t : State) : Prop where
  control  : SameControl s t
  regs     : SameRegs s t
  counters : t.counters = s.counters

theorem SameProgramState.refl (s : State) : SameProgramState s s := ⟨.refl s, sameRegs_refl s, rfl⟩

theorem SameProgramState.trans {s t u : State} (h : SameProgramState s t) (h' : SameProgramState t u) :
    SameProgramState s u :=
  ⟨h.control.trans h'.control, fun c r => (h'.regs c r).trans (h.regs c r), h'.counters.trans h.counters⟩

theorem SameControl.cfg {s t : State} (h : SameControl s t) : t.cfg = s.cfg := by rw [h.rest]

theorem SameControl.halted {s t : State} (h : SameControl s t) : t.halted = s.halted := by rw [h.rest]

theorem SameControl.sameCsrs {s t : State} (h : SameControl s t) : SameCsrs s t := by
  rw [h.rest]
  constructor <;> rfl

/-- When no transition can complete, an event changes memory and buffers alone. -/
theorem sameProgramState_applyEvent {s : State} (hsettled : ∀ c, settleCopu c s = s) (e : Event) :
    SameProgramState s (applyEvent s e) := by
  have same : ∀ {p : Prop}, (applyEvent s e = s → p) → (p ∨ ∃ c, applyEvent s e = settleCopu c s) → p :=
    fun hp h => h.elim id fun ⟨c, hc⟩ => hp (hc.trans (hsettled c))
  refine ⟨same (fun h => ?_) (sameControl_applyEvent s e), same (fun h => ?_) (sameRegs_applyEvent s e), ?_⟩
  · rw [h]; exact .refl s
  · rw [h]; exact sameRegs_refl s
  · refine same (fun h => by rw [h]) ((applyEvent_cases s e).imp_left fun h => ?_)
    obtain ⟨-, -, hcounters, -⟩ := h.fields
    exact hcounters

/-! ### The halted machine -/

/-- In a halted machine no transition is pending: every CoPU is inactive and unrequested (R301). -/
theorem settleCopu_halted {s : State} (h : ModeBits s) (hh : s.halted = true) (c : CpuId) : settleCopu c s = s := by
  refine if_neg fun hp => ?_
  simp only [pendingFor, Bool.and_eq_true, bne_iff_ne, ne_eq] at hp
  obtain ⟨⟨⟨h0, -⟩, -⟩, hdiff⟩ := hp
  obtain ⟨hactive, hreq⟩ := h.halted hh c h0
  exact hdiff (hreq.trans hactive.symm)

theorem runnable_halted {s : State} (hh : s.halted = true) : runnable s s.cur = false := by
  rw [Bool.eq_false_iff]
  intro hr
  exact absurd (hh.symm.trans (running hr)) (by decide)

/-- The events of a turn leave a halted machine's program state. -/
theorem sameProgramState_beginTurn {s : State} (h : ModeBits s) (hh : s.halted = true) :
    SameProgramState s (beginTurn s) := by
  refine beginTurn_keeps (P := SameProgramState s) (fun u e hu => ?_) (fun u _ _ _ hu => ?_) (.refl s)
  · have hhalted : u.halted = true := hu.control.halted.trans hh
    exact hu.trans (sameProgramState_applyEvent (settleCopu_halted (h.sameControl hu.control) hhalted) e)
  · exact hu.trans ⟨.of_cpus rfl, fun _ _ => rfl, rfl⟩

/-- Settles O53: the step of a halted machine is the beginning of its turn, since no CPU can execute. -/
theorem haltedMachineStays : Obligations.HaltedMachineStays := by
  intro s hs hh
  have hsame := sameProgramState_beginTurn ((modeInv_iff s).1 hs) hh
  have hhalted : (beginTurn s).halted = true := hsame.control.halted.trans hh
  exact ⟨beginTurn s, step_idle (runnable_halted hhalted), hhalted, hsame.regs, hsame.control.pcOf,
    hsame.control.sameCsrs, fun n => counter_congr hsame.control.cfg hsame.counters n⟩

end Sys2Proof.Machine
end

section
/-! SUPPORT. The CoPUs during a trap: a turn's events reach their store buffers alone, and the CePU executes by itself (R341,
R354). -/

namespace Sys2Proof.Machine

/-! ### The events of a turn -/

/-- A CPU is as before but for its store buffer, which drains even while the CPU is suspended (R341). -/
def OnlyDrains (c : CpuId) (s t : State) : Prop := t.cpu c = { s.cpu c with sbuf := (t.cpu c).sbuf }

theorem OnlyDrains.of_eq {c : CpuId} {s t : State} (h : t.cpu c = s.cpu c) : OnlyDrains c s t := by
  rw [OnlyDrains, h]

theorem OnlyDrains.trans {c : CpuId} {s t u : State} (h : OnlyDrains c s t) (h' : OnlyDrains c t u) :
    OnlyDrains c s u := by
  unfold OnlyDrains at *
  rw [h', h]

/-- Any CPU's store buffer may be replaced. -/
theorem OnlyDrains.setCpu {c : CpuId} {s t : State} (h : OnlyDrains c s t) (d : CpuId) (b : List Store) :
    OnlyDrains c s (t.setCpu d { t.cpu d with sbuf := b }) := by
  unfold OnlyDrains at *
  rw [setCpu_cpu]
  split
  · next hd => rw [← hd, h]
  · exact h

/-- A CPU that a change of another one is about is as before. -/
theorem OnlyDrains.setCpu_of_ne {c d : CpuId} {s t : State} (h : OnlyDrains c s t) (hd : c ≠ d) (x : Cpu) :
    OnlyDrains c s (t.setCpu d x) :=
  h.trans (.of_eq (setCpu_cpu_of_ne t x hd))

/-- While a trap is handled only the CePU's buffers change by themselves (R341). -/
theorem awake_inTrap {s : State} (ht : s.inTrap = true) {d : CpuId} : awake s d = true ↔ d = 0 := by
  simp [awake, ht]

/-- While a trap is handled no CoPU fetches. -/
theorem cepu_of_fetches {s : State} (ht : s.inTrap = true) {d : CpuId} (h : fetches s d = true) : d = 0 := by
  by_contra h0
  have hawake : awake s d = false := Bool.eq_false_iff.2 fun ha => h0 ((awake_inTrap ht).1 ha)
  simp [fetches, h0, hawake] at h

/-- While a trap is handled no transition completes (R341). -/
theorem settleCopu_inTrap {s : State} (ht : s.inTrap = true) (c : CpuId) : settleCopu c s = s :=
  if_neg (by simp [pendingFor, ht])

/-- While a trap is handled an event reaches of a CoPU the store buffer alone. -/
theorem onlyDrains_applyEvent {s : State} (ht : s.inTrap = true) {c : CpuId} (hc : c ≠ 0) (e : Event) :
    OnlyDrains c s (applyEvent s e) := by
  have same : OnlyDrains c s s := .of_eq rfl
  cases e with
  | drain d k =>
    show OnlyDrains c s (drainStore d k s)
    rcases drainStore_cases d k s with h | ⟨st, hk, hp⟩
    · rw [h]; exact same
    · have hmemu := onlyMemu_commitStore st s
      rw [drainStore_of hk hp, ← hmemu.cpu d]
      exact OnlyDrains.setCpu (.of_eq (hmemu.cpu c)) d _
  | combine d k j =>
    show OnlyDrains c s (combineStores d k j s)
    unfold combineStores
    dsimp only
    split
    · split
      · exact same.setCpu d _
      · exact same
    · exact same
  | allocate n => exact .of_eq ((onlyMemu_allocateLine n s).cpu c)
  | evict n => exact .of_eq ((onlyMemu_evictLine n s).cpu c)
  | prefetch d a =>
    show OnlyDrains c s (prefetchWord d a s)
    unfold prefetchWord
    split
    · next hf =>
      obtain rfl := cepu_of_fetches ht (Bool.and_eq_true _ _ ▸ hf).1
      exact (same.setCpu_of_ne hc _).setCpu_of_ne hc _
    · exact same
  | forget d a =>
    show OnlyDrains c s (dropFetch d a s)
    unfold dropFetch
    split
    · next ha =>
      obtain rfl := (awake_inTrap ht).1 ha
      exact same.setCpu_of_ne hc _
    · exact same
  | settle d => exact .of_eq (congrArg (·.cpu c) (settleCopu_inTrap ht d))
  | busWrite a b => exact .of_eq ((onlyMemu_busWrite a b s).cpu c)

/-- While a trap is handled an event leaves control state alone. -/
theorem sameControl_applyEvent_inTrap {s : State} (ht : s.inTrap = true) (e : Event) : SameControl s (applyEvent s e) := by
  rcases sameControl_applyEvent s e with h | ⟨c, h⟩
  · exact h
  · rw [h, settleCopu_inTrap ht]; exact .refl s

/-- In the state t, reached from s, the trap is still handled and every CoPU waits as in s. -/
structure StillInTrap (s t : State) : Prop where
  control : SameControl s t
  inTrap  : t.inTrap = true
  copus   : ∀ c, c ≠ 0 → OnlyDrains c s t

/-- The events of a turn leave the trap and the CoPUs in it. -/
theorem stillInTrap_beginTurn {s : State} (ht : s.inTrap = true) : StillInTrap s (beginTurn s) := by
  refine beginTurn_keeps (P := StillInTrap s) (fun u e hu => ?_) (fun u _ _ _ hu => ?_)
    ⟨.refl s, ht, fun _ _ => .of_eq rfl⟩
  · have hsame := sameControl_applyEvent_inTrap hu.inTrap e
    exact ⟨hu.control.trans hsame, by rw [hsame.rest]; exact hu.inTrap,
      fun c hc => (hu.copus c hc).trans (onlyDrains_applyEvent hu.inTrap hc e)⟩
  · exact ⟨hu.control.trans (.of_cpus rfl), hu.inTrap, hu.copus⟩

/-- So does a fetch that reads a device. -/
theorem StillInTrap.deviceReads {s t : State} (h : StillInTrap s t) (k : Nat) :
    StillInTrap s { t with deviceReads := k } :=
  ⟨h.control.trans (.of_cpus rfl), h.inTrap, h.copus⟩

/-! ### The instruction of a step -/

/-- While a trap is handled the CePU alone can execute (R341). -/
theorem cur_eq_zero_of_runnable {s : State} (ht : s.inTrap = true) (h : runnable s s.cur = true) : s.cur = 0 := by
  by_contra h0
  simp [runnable, h0, ht] at h

/-- While a trap is handled there is no linked group (R341). -/
theorem not_grouped_inTrap {s : State} (ht : s.inTrap = true) : grouped s = false := by
  have hjoined : ∀ c, joined s c = false := fun c => by simp [joined, ht]
  simp [grouped, hjoined]

/-- What a step does to a suspended CoPU: of its registers nothing; of its fetch buffer nothing and of its pc only what the
return does for a handled exception, unless the machine halts (R301, R354). -/
structure Suspended (c : CpuId) (s t : State) : Prop where
  regs : ∀ r, reg c r t = reg c r s
  ifu  : t.halted = false → (t.cpu c).ifu = (s.cpu c).ifu
  pc   : t.halted = false → hasBit s.handled c = false → pcOf c t = pcOf c s

theorem OnlyDrains.suspended {c : CpuId} {s t : State} (h : OnlyDrains c s t) : Suspended c s t where
  regs r := reg_congr (by rw [h]) r
  ifu _ := by rw [h]
  pc _ _ := by rw [pcOf, h]; rfl

/-- What a step does to a suspended CoPU after the events of its turn, it does to it as a whole. -/
theorem Suspended.after {c : CpuId} (hc : c ≠ 0) {s t u : State} (hb : StillInTrap s t) (h : Suspended c t u) :
    Suspended c s u := by
  have hdrains := (hb.copus c hc).suspended
  have hpc : pcOf c t = pcOf c s := hb.control.pcOf c
  have hhandled : t.handled = s.handled := by rw [hb.control.rest]
  have hcpu : (t.cpu c).ifu = (s.cpu c).ifu := by rw [hb.copus c hc]
  exact ⟨fun r => (h.regs r).trans (hdrains.regs r), fun hh => (h.ifu hh).trans hcpu,
    fun hh hd => (h.pc hh (by rw [hhandled]; exact hd)).trans hpc⟩

/-- An exception of the CePU changes no CoPU (R340). -/
theorem takeException_cpu_copu {k : EventClass} {e : Exn} {v : Word} {s : State} (h0 : s.cur = 0) {c : CpuId} (hc : c ≠ 0) :
    (takeException k e v s).cpu c = s.cpu c := by
  rw [takeException, if_pos h0, trapEntry_cpu, if_neg hc, countTrapped_cpu]

/-- The data path leaves the executing CPU the executing one. -/
theorem forLanes_cur {f : CpuId → State → Effect} {l : List CpuId} {s u : State}
    (hf : ∀ c v w, f c v = .done w → LaneStep c v w) (h : forLanes f l s = .done u) : u.cur = s.cur :=
  forLanes_done f (fun s t => t.cur = s.cur) (fun _ => rfl) (fun _ _ _ a b => b.trans a) l s u
    (fun c _ v w hw => by obtain ⟨-, hcur, -⟩ := laneStep_same (hf c v w hw); exact hcur) h

/-- An instruction of the CePU alone changes no CoPU, but for the return and HALT. -/
theorem suspended_exec {i : Instr} {s t : State} (h0 : s.cur = 0) (hg : grouped s = false) (h : exec i s = .next t)
    {c : CpuId} (hc : c ≠ 0) : Suspended c s t := by
  cases exec_cases h with
  | lanes k skip next f u hf hu hn =>
    have hlane : c ∉ lanes s := by rw [lanes_of_not_grouped hg, h0]; simpa using hc
    have hcur : c ≠ u.cur := by rw [forLanes_cur hf hu, h0]; exact hc
    refine (OnlyDrains.of_eq ?_).suspended
    rw [retire_cpu, setPc, setCpu_cpu_of_ne _ _ hcur, forLanes_cpu hf hu hlane]
  | raises k e v _ => exact (OnlyDrains.of_eq (takeException_cpu_copu h0 hc)).suspended
  | returns _ _ =>
    refine ⟨sameRegs_retire_trapReturn s c, fun _ => sameFetch_retire_trapReturn s c, fun _ hd => ?_⟩
    rw [pcOf_retire, pcOf_trapReturn_copu s hc, hd, if_neg Bool.false_ne_true]
  | haltsMachine _ =>
    have hhalted : (haltMachine s).halted = true := rfl
    exact ⟨reg_haltMachine s c, fun hh => by simp [hhalted] at hh, fun hh => by simp [hhalted] at hh⟩
  | haltsCopu hne => exact absurd h0 hne

/-- Settles O50: the events of the turn reach of a CoPU its store buffer alone, and then the CePU executes without a linked
group. -/
theorem copusSuspendedInTrap : Obligations.CopusSuspendedInTrap := by
  intro s t ht h c hc
  have hb := stillInTrap_beginTurn ht
  suffices hsusp : ∃ u, StillInTrap s u ∧ Suspended c u t by
    obtain ⟨u, hu, hsusp⟩ := hsusp
    obtain ⟨hregs, hifu, hpc⟩ := hsusp.after hc hu
    exact ⟨hregs, fun hh => ⟨hifu hh, hpc hh⟩⟩
  cases step_cases h with
  | idle _ => exact ⟨_, hb, (OnlyDrains.of_eq rfl).suspended⟩
  | copuTrap _ _ => exact ⟨_, hb, (OnlyDrains.of_eq (by rw [trapEntry_cpu, if_neg hc])).suspended⟩
  | instr hr k i w _ _ he =>
    have hread := hb.deviceReads k
    have h0 := cur_eq_zero_of_runnable hread.inTrap hr
    exact ⟨_, hread, suspended_exec h0 (not_grouped_inTrap hread.inTrap) he hc⟩
  | illegal hr k v _ =>
    have hread := hb.deviceReads k
    have h0 := cur_eq_zero_of_runnable hread.inTrap hr
    exact ⟨_, hread, (OnlyDrains.of_eq (takeException_cpu_copu h0 hc)).suspended⟩

end Sys2Proof.Machine
end

section
/-! SUPPORT. Which CPUs execute an instruction, and the completion of a pending transition (R325, R327, R330, R341, R352). -/

namespace Sys2Proof.Machine

/-- Settles O48: the lanes are the executing CPU and the CePU's linked group, whose members are known bit by bit. -/
theorem linkedGroup : Obligations.LinkedGroup := fun s =>
  ⟨lanes_nodup s, fun c => by rw [mem_lanes, joined_iff]⟩

/-! ### Transitions -/

section
variable {s : State} {c : CpuId}

/-- The pending activation of a CoPU completes (R325). -/
theorem settleCopu_activates (h0 : c ≠ 0) (hlt : c.val < s.cfg.numCpus) (ht : s.inTrap = false)
    (hreq : hasBit s.pnceReq c = true) (ha : hasBit s.active c = false) : settleCopu c s = activateCopu c s := by
  have hp : pendingFor s c = true := by simp [pendingFor, h0, hlt, ht, hreq, ha]
  rw [settleCopu, if_pos hp, if_pos hreq]

/-- The pending deactivation of a CoPU completes (R327). -/
theorem settleCopu_deactivates (h0 : c ≠ 0) (hlt : c.val < s.cfg.numCpus) (ht : s.inTrap = false)
    (hreq : hasBit s.pnceReq c = false) (ha : hasBit s.active c = true) : settleCopu c s = deactivateCopu c s := by
  have hp : pendingFor s c = true := by simp [pendingFor, h0, hlt, ht, hreq, ha]
  rw [settleCopu, if_pos hp, if_neg (by rw [hreq]; exact Bool.false_ne_true)]

end

theorem activateCopu_cpu (c d : CpuId) (s : State) :
    (activateCopu c s).cpu d =
      if d = c then { s.cpu c with
        regs := freeRegs s.drawn, pc := if hasBit s.pnlm c then (s.cpu c).pc else s.cfg.resetVector }
      else s.cpu d :=
  setCpu_cpu s c d _

theorem deactivateCopu_cpu (c d : CpuId) (s : State) :
    (deactivateCopu c s).cpu d = if d = c then { s.cpu c with pc := s.cfg.resetVector, ifu := [] } else s.cpu d :=
  setCpu_cpu s c d _

/-- An activated CoPU is in the mode that pnlm chooses (R325, R328). -/
theorem modeOf_activateCopu {c : CpuId} {s : State} (h0 : c ≠ 0) (hlt : c.val < s.cfg.numCpus) :
    modeOf (activateCopu c s) c = if hasBit s.pnlm c then .linked else .unlinked := by
  have hactive : hasBit (activateCopu c s).active c = true := by
    show hasBit (s.active ||| cpuBit c) c = true
    simp
  rw [modeOf_copu (s := activateCopu c s) h0 hlt, hactive, if_neg (by decide)]
  rfl

/-- A deactivated CoPU is in Mode 0 (R327). -/
theorem modeOf_deactivateCopu {c : CpuId} {s : State} (h0 : c ≠ 0) (hlt : c.val < s.cfg.numCpus) :
    modeOf (deactivateCopu c s) c = .halted := by
  have hactive : hasBit (deactivateCopu c s).active c = false := by
    show hasBit (s.active &&& ~~~cpuBit c) c = false
    simp
  rw [modeOf_copu (s := deactivateCopu c s) h0 hlt, if_pos hactive]

/-- What the completion of CoPU c's transition leaves: every other CPU, of its own what it has stored and the record of its
exception, and all but its bits of active and handled (R327, log 25, log 39). -/
structure OnlySettles (c : CpuId) (s t : State) : Prop where
  rest   : t = { s with cpus := t.cpus, active := t.active, handled := t.handled, drawn := t.drawn }
  others : ∀ d, d ≠ c → t.cpu d = s.cpu d
  own    : t.cpu c = { s.cpu c with regs := (t.cpu c).regs, pc := (t.cpu c).pc, ifu := (t.cpu c).ifu }

theorem onlySettles_settleCopu (c : CpuId) (s : State) : OnlySettles c s (settleCopu c s) := by
  rcases settleCopu_cases c s with h | h | h
  · rw [h]; exact ⟨rfl, fun _ _ => rfl, rfl⟩
  · rw [h]
    exact ⟨rfl, fun d hd => by rw [activateCopu_cpu, if_neg hd], by rw [activateCopu_cpu, if_pos rfl]⟩
  · rw [h]
    exact ⟨rfl, fun d hd => by rw [deactivateCopu_cpu, if_neg hd], by rw [deactivateCopu_cpu, if_pos rfl]⟩

section
variable {c : CpuId} {s t : State}

/-- A part of the CPU that no transition changes is as before on every CPU. -/
theorem OnlySettles.field (h : OnlySettles c s t) {α : Type} (f : Cpu → α)
    (hf : ∀ x r p i, f { x with regs := r, pc := p, ifu := i } = f x) (d : CpuId) : f (t.cpu d) = f (s.cpu d) := by
  by_cases hd : d = c
  · rw [hd, h.own, hf]
  · rw [h.others d hd]

theorem OnlySettles.sameCsrs (h : OnlySettles c s t) : SameCsrs s { t with active := s.active } := by
  rw [h.rest]
  constructor <;> rfl

theorem OnlySettles.sameModes (h : OnlySettles c s t) : SameModes s { t with handled := s.handled } where
  xstate := by rw [h.rest]
  handled := rfl
  illegal := by rw [h.rest]
  inTrap := by rw [h.rest]
  halted := by rw [h.rest]
  xcause := h.field Cpu.xcause fun _ _ _ _ => rfl
  xepc := h.field Cpu.xepc fun _ _ _ _ => rfl

end

/-- Settles O49: the trap holds a transition off, and what a completed one changes and leaves is said once for each
direction and once for both. -/
theorem transitionsSettle : Obligations.TransitionsSettle := by
  intro s c h0 hlt t
  have hframe : OnlySettles c s t := onlySettles_settleCopu c s
  refine ⟨fun ht => settleCopu_inTrap ht c, fun ht hreq ha => ?activation, fun ht hreq ha => ?deactivation, hframe.others,
    hframe.field Cpu.sbuf (fun _ _ _ _ => rfl) c, hframe.sameCsrs, hframe.sameModes, by rw [hframe.rest],
    by rw [hframe.rest]⟩
  case activation =>
    have e : t = activateCopu c s := settleCopu_activates h0 hlt ht hreq ha
    rw [e, modeOf_activateCopu h0 hlt, pcOf, activateCopu_cpu, if_pos rfl]
    exact ⟨rfl, rfl, fun hlm => by simp [hlm], fun hlm => by simp [hlm]⟩
  case deactivation =>
    have e : t = deactivateCopu c s := settleCopu_deactivates h0 hlt ht hreq ha
    rw [e, modeOf_deactivateCopu h0 hlt, pcOf, deactivateCopu_cpu, if_pos rfl]
    exact ⟨rfl, rfl, rfl, rfl, rfl⟩

end Sys2Proof.Machine
end

section
/-! SUPPORT. The CePU's trap for the CoPUs' exceptions, at a turn that answers and at the turn after an MRET that leaves an
exception unhandled (R340, R341, R353, R356, log 26). -/

namespace Sys2Proof.Machine

/-- With COPU_EXC_GATE = in_trap: when the CePU takes the trap for the CoPUs' exceptions (R353, R356). -/
theorem copuTrapDue_iff {s : State} (hgate : s.cfg.excGate = .inTrap) (respond : Bool) :
    copuTrapDue respond s = true ↔ s.cur = 0 ∧ s.inTrap = false ∧ s.xstate &&& copuMask s ≠ 0 ∧
      (respond = true ∨ s.owed &&& s.xstate &&& copuMask s ≠ 0) := by
  simp [copuTrapDue, gateOpen, hgate, and_assoc]

/-- A CePU that is not halted, and for which the CoPUs' trap is due, takes it instead of its next instruction (R353). -/
theorem tookTrap_copu {s : State} (h0 : (beginTurn s).cur = 0) (hh : (beginTurn s).halted = false)
    (hd : copuTrapDue (responds s) (beginTurn s) = true) :
    ∃ u, step s = .next u ∧ TookTrap .uncounted 16 0 (pcOf 0 (beginTurn s)) (beginTurn s) u := by
  have hr : runnable (beginTurn s) (beginTurn s).cur = true := by simp [runnable, h0, hh]
  have hstep : step s = .next (trapEntry .copu 0 (beginTurn s)) := by simp only [step, hr, hd, if_true]
  exact ⟨_, hstep, tookTrap_trapEntry .uncounted .copu 0 (beginTurn s)⟩

/-- Settles O7. -/
theorem copuTrapTaken : Obligations.CopuTrapTaken := fun _ hgate h0 hh ht hx hresp =>
  tookTrap_copu h0 hh ((copuTrapDue_iff hgate _).2 ⟨h0, ht, hx, .inl hresp⟩)

/-! ### After the return -/

/-- Nothing that decides on the CoPUs' trap, nor the CePU's pc, differs. -/
structure SameDue (s t : State) : Prop where
  cfg    : t.cfg = s.cfg
  halted : t.halted = s.halted
  inTrap : t.inTrap = s.inTrap
  xstate : t.xstate = s.xstate
  owed   : t.owed = s.owed
  pc     : pcOf 0 t = pcOf 0 s

theorem SameDue.trans {s t u : State} (h : SameDue s t) (h' : SameDue t u) : SameDue s u :=
  ⟨h'.cfg.trans h.cfg, h'.halted.trans h.halted, h'.inTrap.trans h.inTrap, h'.xstate.trans h.xstate,
    h'.owed.trans h.owed, h'.pc.trans h.pc⟩

theorem SameControl.sameDue {s t : State} (h : SameControl s t) : SameDue s t where
  cfg := by rw [h.rest]
  halted := by rw [h.rest]
  inTrap := by rw [h.rest]
  xstate := by rw [h.rest]
  owed := by rw [h.rest]
  pc := h.pcOf 0

/-- The CePU has no transition, so a transition leaves its pc (R322). -/
theorem settleCopu_cepu (s : State) : settleCopu 0 s = s := if_neg (by simp [pendingFor])

theorem sameDue_settleCopu (c : CpuId) (s : State) : SameDue s (settleCopu c s) := by
  have hframe := onlySettles_settleCopu c s
  refine ⟨?cfg, ?halted, ?inTrap, ?xstate, ?owed, ?pc⟩
  case pc =>
    by_cases h0 : c = 0
    · rw [h0, settleCopu_cepu]
    · exact congrArg Cpu.pc (hframe.others 0 (Ne.symm h0))
  all_goals rw [hframe.rest]

/-- No event of a turn takes back an exception or moves the CePU. -/
theorem sameDue_beginTurn (s : State) : SameDue s (beginTurn s) := by
  refine beginTurn_keeps (P := SameDue s) (fun u e hu => hu.trans ?_) (fun u _ _ _ hu => ?_) (SameControl.refl s).sameDue
  · rcases sameControl_applyEvent u e with h | ⟨c, h⟩
    · exact h.sameDue
    · rw [h]; exact sameDue_settleCopu c u
  · exact hu.trans (SameControl.of_cpus rfl).sameDue

/-- A trap that is owed is taken at the CePU's next turn, whatever else the turn says (R356). -/
theorem tookTrap_owed {s : State} (hgate : s.cfg.excGate = .inTrap) (hh : s.halted = false) (ht : s.inTrap = false)
    (hx : s.owed &&& s.xstate &&& copuMask s ≠ 0) (h0 : (beginTurn s).cur = 0) :
    ∃ u, step s = .next u ∧ TookTrap .uncounted 16 0 (pcOf 0 s) (beginTurn s) u := by
  have hb := sameDue_beginTurn s
  have hmask : copuMask (beginTurn s) = copuMask s := by rw [copuMask, hb.cfg]; rfl
  have howed : (beginTurn s).owed &&& (beginTurn s).xstate &&& copuMask (beginTurn s) ≠ 0 := by
    rw [hb.owed, hb.xstate, hmask]; exact hx
  have hxstate : (beginTurn s).xstate &&& copuMask (beginTurn s) ≠ 0 := fun h => howed (by rw [BitVec.and_assoc, h]; simp)
  rw [← hb.pc]
  exact tookTrap_copu h0 (hb.halted.trans hh)
    ((copuTrapDue_iff (by rw [hb.cfg]; exact hgate) _).2 ⟨h0, hb.inTrap.trans ht, hxstate, .inr howed⟩)

/-- Settles O8: the return owes the trap for the exceptions it leaves, and the CePU's pc is then mepc. -/
theorem unhandledCopuExceptionRecurs : Obligations.UnhandledCopuExceptionRecurs := by
  intro s t hgate h0 hg hh hx hmret hcur
  have hpc : pcOf 0 (retire .system none (trapReturn s)) = s.mepc &&& ~~~3 :=
    (pcOf_retire ..).trans (pcOf_trapReturn_cepu s)
  obtain rfl := Host.Outcome.next.inj ((exec_mret h0 hg).symm.trans hmret)
  rw [← hpc]
  refine tookTrap_owed ?gate ?halted ?inTrap ?owed hcur
  case owed =>
    have hmask : copuMask (retire .system none (trapReturn s)) = copuMask s := by rw [retire_trapReturn_eq]; rfl
    have howed : s.xstate &&& copuMask s &&& s.xstate &&& copuMask s = s.xstate &&& copuMask s :=
      word_ext fun c => by simp only [hasBit_and]; cases hasBit s.xstate c <;> simp
    rw [hmask, retire_trapReturn_eq, howed]
    exact hx
  all_goals rw [retire_trapReturn_eq]
  · exact hgate
  · exact hh

end Sys2Proof.Machine
end

section
/-! SUPPORT. Exceptions in an instruction of a linked group, which stop the machine by name (R293, R360, D32, log 24). -/

namespace Sys2Proof.Machine

/-- The CePU leads every linked group (R330). -/
theorem cur_eq_zero_of_grouped {s : State} (h : grouped s = true) : s.cur = 0 := by
  by_contra h0
  rw [not_grouped_of_cur_ne h0] at h
  cases h

/-- An exception in a linked group has no meaning (R360). -/
theorem raiseException_grouped {s : State} (h : grouped s = true) (k : EventClass) (e : Exn) (v : Word) :
    raiseException k e v s = .refused .linkedException :=
  if_pos h

/-- MRET on a CoPU, linked or not, has no meaning (R293, D32). -/
theorem exec_mret_refused {s : State} (h : s.cur ≠ 0 ∨ grouped s = true) : exec .mret s = .refused .mretOnCopu := by
  refine if_neg fun ⟨h0, hg⟩ => ?_
  rcases h with hne | hgt
  · exact hne h0
  · rw [hg] at hgt; cases hgt

/-! ### Targets -/

theorem jumpTo_refused {s : State} (hg : grouped s = true) {target : Word} (h : target.getLsbD 1 = true) (rd : Reg) :
    jumpTo rd target s = .refused .linkedException := by
  rw [jumpTo, targetMisaligned, if_pos h, raiseException_grouped hg]

theorem branchIf_refused {s : State} (hg : grouped s = true) {off : BitVec 13}
    (h : (curPc s + branchOffset off).getLsbD 1 = true) {taken : Bool} (ht : taken = true) :
    branchIf taken off s = .refused .linkedException := by
  rw [branchIf, if_pos ht, targetMisaligned, if_pos h, raiseException_grouped hg]

/-! ### Accesses -/

/-- Lanes of which those that do not raise are done: if one raises, the data path raises, since no lane changes what
another one's access depends on. -/
theorem forLanes_raises {f : CpuId → State → Effect} {e : Exn} {bad : CpuId → Prop} {l : List CpuId} (hn : l.Nodup)
    {s : State} (hf : ∀ c v w, f c v = .done w → LaneStep c v w)
    (hraise : ∀ c ∈ l, bad c → ∀ t, t.cpu c = s.cpu c → ∃ v, f c t = .raises e v)
    (hdone : ∀ c ∈ l, ¬bad c → ∀ t, t.cfg = s.cfg → t.cpu c = s.cpu c → ∃ u, f c t = .done u)
    (hbad : ∃ c ∈ l, bad c) : ∃ v, forLanes f l s = .raises e v := by
  induction l generalizing s with
  | nil => simp at hbad
  | cons a r ih =>
    obtain ⟨har, hr⟩ := List.nodup_cons.1 hn
    by_cases ha : bad a
    · obtain ⟨v, hv⟩ := hraise a List.mem_cons_self ha s rfl
      exact ⟨v, by simp only [forLanes, hv]⟩
    · obtain ⟨u, hu⟩ := hdone a List.mem_cons_self ha s rfl rfl
      have hlane := hf a s u hu
      obtain ⟨hcfg, -⟩ := laneStep_same hlane
      have hcpu : ∀ c ∈ r, u.cpu c = s.cpu c := fun c hc => laneStep_cpu hlane fun hca => har (hca ▸ hc)
      have hrest : ∃ c ∈ r, bad c := by
        obtain ⟨c, hc, hb⟩ := hbad
        exact ⟨c, (List.mem_cons.1 hc).resolve_left fun hca => ha (hca ▸ hb), hb⟩
      obtain ⟨v, hv⟩ := ih hr
        (fun c hc hb t ht => hraise c (List.mem_cons_of_mem _ hc) hb t (ht.trans (hcpu c hc)))
        (fun c hc hb t htcfg ht => hdone c (List.mem_cons_of_mem _ hc) hb t (htcfg.trans hcfg) (ht.trans (hcpu c hc)))
        hrest
      exact ⟨v, by simp only [forLanes, hu, hv]⟩

/-- Some lane's access of n bytes is misaligned, and every aligned one reaches memory or a device. -/
def MisalignedLane (n : Nat) (rs1 : Reg) (imm : BitVec 12) (s : State) : Prop :=
  (∃ c ∈ lanes s, (effAddr c rs1 imm s).toNat % n ≠ 0) ∧
    ∀ c ∈ lanes s, (effAddr c rs1 imm s).toNat % n = 0 → accessKind s.cfg (effAddr c rs1 imm s) n ≠ .absent

section
variable {n : Nat} {rs1 : Reg} {imm : BitVec 12} {s : State}

/-- An access that a linked group makes, misaligned on some lane: what its lanes do is given by their own addresses. -/
theorem onLanes_refused {k : EventClass} {next : Word} {e : Exn} {f : CpuId → State → Effect} (hg : grouped s = true)
    (hm : MisalignedLane n rs1 imm s) (hf : ∀ c v w, f c v = .done w → LaneStep c v w)
    (hraise : ∀ c t, alignedTo n (effAddr c rs1 imm t) = false → f c t = .raises e (effAddr c rs1 imm t))
    (hdone : ∀ c t, alignedTo n (effAddr c rs1 imm t) = true → accessKind t.cfg (effAddr c rs1 imm t) n ≠ .absent →
      ∃ u, f c t = .done u) : onLanes k next f s = .refused .linkedException := by
  obtain ⟨v, hv⟩ := forLanes_raises (bad := fun c => (effAddr c rs1 imm s).toNat % n ≠ 0) (lanes_nodup s) hf
    (fun c _ hb t ht => ⟨_, hraise c t (by rw [effAddr_congr ht]; exact alignedTo_eq_false hb)⟩)
    (fun c hc hb t hcfg ht => by
      have ha := Decidable.not_not.1 hb
      refine hdone c t ?_ ?_ <;> rw [effAddr_congr ht]
      · simpa [alignedTo] using ha
      · rw [hcfg]; exact hm.2 c hc ha) hm.1
  rw [onLanes, hv, finish_raises, raiseException_grouped hg]

theorem onLanes_load_refused {next : Word} {k : Nat} {rd : Reg} {value : CpuId → Word → State → Word}
    (hg : grouped s = true) (hm : MisalignedLane n rs1 imm s) :
    onLanes .load next (loadLane k n rd rs1 imm value) s = .refused .linkedException :=
  onLanes_refused (e := .loadMisaligned) hg hm (fun _ _ _ => laneStep_load)
    (fun c t ha => by simp only [loadLane, ha, Bool.false_eq_true, if_false])
    fun c t ha hp => ⟨_, loadLane_present ha hp⟩

theorem onLanes_store_refused {next : Word} (hn : n = 1 ∨ n = 2 ∨ n = 4) {rs2 : Reg} (hg : grouped s = true)
    (hm : MisalignedLane n rs1 imm s) : onLanes .store next (storeLane n rs2 rs1 imm) s = .refused .linkedException :=
  onLanes_refused (e := .storeMisaligned) hg hm (fun _ _ _ => laneStep_store hn)
    (fun c t ha => by simp only [storeLane, ha, Bool.false_eq_true, if_false])
    fun c t ha hp => ⟨_, storeLane_done ha hp⟩

end

/-- Settles O44: each instruction comes to the raising of its exception, which a linked group refuses. -/
theorem linkedExceptionsRefused : Obligations.LinkedExceptionsRefused := by
  intro s rd rs1 rs2 off imm b x y ea stops misaligned
  refine ⟨fun hg => ?grouped, fun h0 => exec_mret_refused (.inl h0)⟩
  have h0 := cur_eq_zero_of_grouped hg
  have hx : reg s.cur rs1 s = x := by rw [h0]
  have hy : reg s.cur rs2 s = y := by rw [h0]
  refine ⟨raiseException_grouped hg _ _ _, raiseException_grouped hg _ _ _, exec_mret_refused (.inr hg),
    fun hm => jumpTo_refused hg hm rd, fun hm => ?jalr,
    fun hm => ⟨fun h => ?beq, fun h => ?bne, fun h => ?blt, fun h => ?bge, fun h => ?bltu, fun h => ?bgeu⟩,
    fun hm => ⟨onLanes_load_refused hg hm, onLanes_load_refused hg hm, onLanes_store_refused (.inr (.inl rfl)) hg hm⟩,
    fun hm => ⟨onLanes_load_refused hg hm, onLanes_store_refused (.inr (.inr rfl)) hg hm⟩,
    fun hw n hn i hi => ?csr⟩
  case jalr =>
    refine jumpTo_refused hg ?_ rd
    rw [getLsbD_one_jalrTarget, hx]
    exact hm
  case beq => exact branchIf_refused hg hm (by rw [hx, hy]; exact beq_iff_eq.2 h)
  case bne => exact branchIf_refused hg hm (by rw [hx, hy]; exact bne_iff_ne.2 h)
  case blt => exact branchIf_refused hg hm (by rw [hx, hy]; exact decide_eq_true h)
  case bge => exact branchIf_refused hg hm (by rw [hx, hy, bnot_lessSigned]; exact decide_eq_true h)
  case bltu => exact branchIf_refused hg hm (by rw [hx, hy]; exact decide_eq_true h)
  case bgeu => exact branchIf_refused hg hm (by rw [hx, hy, bnot_lessUnsigned]; exact decide_eq_true h)
  case csr => exact (exec_write_readOnly h0 (csrReadOnly_of_mem hw hn) hi).trans (raiseException_grouped hg _ _ _)

end Sys2Proof.Machine
end
